-- ==== Sys2Proof/Word.lean ====
section
/-! DEFINITION. The plain types every other file uses: a byte of the configuration memory or of a frame cell, a
five-unit code, and an office-minute value. -/

namespace Sys2Proof

/-- A byte of the configuration image (R194) or the eight data bits of a frame cell (R122). -/
abbrev Byte := BitVec 8

/-- A five-unit code value 0 to 31 (R5). -/
abbrev Code := BitVec 5

/-- An office-minute value: 16 bits, wrapping (R179). -/
abbrev Minute := BitVec 16

end Sys2Proof
end

