-- ==== Sys2Proof/Syntax.lean ====
section
/-! DEFINITION. The commands of the block: one constructor for each row of spec/opcode_table.json. The table gives no
operands; those here are what the row's rule reads from outside the station (a line, a level, a code, the image). -/

namespace Sys2Proof

/-- A command: one event that reaches the station, taken whole (95_what_each_step_holds.md). Levels of wires are Bools:
true is released or marking. -/
inductive Instr where
  /-- POWER_ON (R191): supply applied to an unpowered station. -/
  | powerOn
  /-- SUPPLY_DIP (R191): the supply monitor trips while the supply stays applied. -/
  | supplyDip
  /-- RESTART_PIN (R191): nRST is taken low. -/
  | restartPin
  /-- RESTART_HOLD_END (R193): the last hold cause ends, with ST3 to ST0 at `straps`. -/
  | restartHoldEnd (straps : BitVec 4)
  /-- CONFIGURATION_LOAD_END (R193): the read ends; `image` is what CFG_DI gave, and HC and HD read as said (R134). -/
  | configurationLoadEnd (image : List Byte) (hcReleased : Bool) (hdReleased : Bool)
  /-- RXD_LEVEL_CHANGE (R16): RXD of `line` changes to `marking`. -/
  | rxdLevelChange (line : Nat) (marking : Bool)
  /-- CHARACTER_ARRIVAL (R5, R8, R9): the stop sample of a character whose five code units gave `code`. -/
  | characterArrival (line : Nat) (code : Code)
  /-- OPEN_LINE_EXPIRY (R16). -/
  | openLineExpiry (line : Nat)
  /-- RESTORE_EXPIRY (R17, R170). -/
  | restoreExpiry (line : Nat)
  /-- CHARACTER_COMPLETION (R11, R92). -/
  | characterCompletion (line : Nat)
  /-- DRAINING_END (R14). -/
  | drainingEnd (line : Nat)
  /-- OFFICE_MINUTE_ADVANCE (R179). -/
  | officeMinuteAdvance
  /-- HOLD_LIMIT_EXPIRY (R79). -/
  | holdLimitExpiry
  /-- FRAME_START (R124). -/
  | frameStart
  /-- FRAME_START_HEARD (R123). -/
  | frameStartHeard
  /-- ARBITRATION_LOST (R125). -/
  | arbitrationLost
  /-- COLLISION (R126). -/
  | collision
  /-- VETO (R127). -/
  | veto
  /-- LISTENER_PARITY_VETO (R122). -/
  | listenerParityVeto
  /-- FRAME_DISCARD (R137). -/
  | frameDiscard
  /-- CARRY_RESERVATION (R145). -/
  | carryReservation
  /-- FRAME_ENDED_EARLY (R123, R128): a stop condition, or a start condition when `byStart`, ends a listened frame. -/
  | frameEndedEarly (byStart : Bool)
  /-- CARRY_COMMIT (R146). -/
  | carryCommit
  /-- CONDITION_APPLY (R152). -/
  | conditionApply
  /-- MUSTER_APPLY (R154). -/
  | musterApply
  /-- LISTENER_FRAME_END (R123). -/
  | listenerFrameEnd
  /-- FRAME_COMPLETED (R128, R147): the sample of receipt slot 31 reads HD as `hd`. -/
  | frameCompleted (hd : Bool)
  /-- NOT_BEFORE_PASSES (R141) for peer `station`. -/
  | notBeforePasses (station : Nat)
  /-- STALL_EXPIRY (R131). -/
  | stallExpiry
  /-- STUCK_EXPIRY (R132). -/
  | stuckExpiry
  /-- RELEASE_EXPIRY (R132); HD reads as `hdReleased`. -/
  | releaseExpiry (hdReleased : Bool)
  /-- SERVICE_MESSAGE_REST (R183). The levels are read only by the restart the message fixes (R135, R193). -/
  | serviceMessageRest (straps : BitVec 4) (hcReleased : Bool) (hdReleased : Bool)
  /-- START_SAMPLE (R4). -/
  | startSample (line : Nat)
  /-- INSERTED_SHIFT_END (R11). -/
  | insertedShiftEnd (line : Nat)
  /-- BIT_SAMPLE (R120): a rising edge of HC at which HD reads `hd`. Outside a frame it is a rising edge seen there (R121,
  R132). -/
  | bitSample (hd : Bool)
  /-- RECEIPT_SLOT_BEGIN (R128): the falling edge of HC that begins an own receipt slot. Anywhere else it is a falling edge of
  HC (R121, R131, R132). -/
  | receiptSlotBegin
  /-- START_OR_STOP_NOT_OWN (R126): a start condition when `byStart`, else a stop condition. Outside a frame the latter is a
  stop condition seen there (R121). -/
  | startOrStopNotOwn (byStart : Bool)
  /-- SUPPLY_REMOVED (R191). -/
  | supplyRemoved
  deriving DecidableEq, Repr

end Sys2Proof
end

