-- ==== Sys2Proof/Config.lean ====
section
/-! DEFINITION. What is fixed for the hardware: the numbers the rules name, and the free values, which stand for the
values the spec leaves open. A free value has no body: no proof can see which value it is. -/

namespace Sys2Proof.Config

/-- Blocks of the symbol pool (R43). -/
def blockCount : Nat := 1024

/-- Records of the message table (R44). -/
def recordCount : Nat := 128

/-- Symbols of one block (R43). -/
def blockSize : Nat := 32

/-- The longest text a record may hold (R33). -/
def textLimit : Nat := 4096

/-- The header buffer's size (R22). -/
def headerLimit : Nat := 72

/-- Blocks kept back from classes 0 to 2 (R50). -/
def blockReserve : Nat := 96

/-- Records kept back from classes 0 to 2 (R50). -/
def recordReserve : Nat := 8

/-- Entries of a suspension stack, on either side (R109, R113). -/
def stackLimit : Nat := 3

/-- The last arrival stamp, at which the counter stays (R56). -/
def lastStamp : Nat := 4294967295

/-- The veto streak at which the one report is made and the count stays (R149). -/
def streakLimit : Nat := 8

/-- Open-line time in milliseconds (R15). -/
def openLineMs : Nat := 400

/-- Restore time in milliseconds (R15). -/
def restoreMs : Nat := 1000

/-- Hold-off after a veto in milliseconds (R141). -/
def vetoHoldoffMs : Nat := 5

/-- The filing time of a CARRY frame whose time cells hold a number above 9999 (R136 gives the range 0 to 9999 and no
rule for such a cell), by the counter of free values. DESIGN CHOICE, log entry 13: a free value. -/
opaque freeFilingTime : Nat → Fin 10000

/-- The authority of a CARRY frame whose authority bits hold 3 (R136, R45 give 0 to 2), by the counter of free values.
DESIGN CHOICE, log entry 13: a free value. -/
opaque freeAuthority : Nat → Fin 3

/-- Which restart kind, by its number in R136, a MUSTER's kind bits 5 to 7 stand for, by the counter of free
values. DESIGN CHOICE, log entry 13: a free value. -/
opaque freeRestartKind : Nat → Fin 5

/-- Whether a NEUTRAL symbol whose code means different things in the two cases means the letters-case one. R7 says a
NEUTRAL symbol means what its code means in either case; only a peer's frame can bring such a code. DESIGN CHOICE, log
entry 13: a free value. -/
opaque freeNeutralIsLetters : Code → Bool

/-- The retry gap, in units of 10 ms less one, of a station with no image (R147 takes it from the image; R153 has an
UNCONFIGURED station back off too), by the counter of free values and the peer. DESIGN CHOICE, log entry 13: a free
value. -/
opaque freeRetryGap : Nat → Nat → Fin 255

end Sys2Proof.Config
end

