-- ==== Sys2Proof/Machine/State.lean ====
section
/-! DEFINITION. The state of the station: every piece of state the chapters give its blocks, as plain data, the queue
of commands waiting, and the state right after reset. -/

namespace Sys2Proof.Machine

/-! ## Names the whole manual uses -/

/-- Letters or figures case (R8, R12). -/
inductive Case where
  | letters | figures
  deriving DecidableEq, Repr

/-- The tag of a symbol (R7). -/
inductive Tag where
  | neutral | letters | figures | error
  deriving DecidableEq, Repr

/-- A symbol: a code with a tag (R7). -/
structure Symbol where
  tag : Tag
  code : Code
  deriving DecidableEq, Repr

/-- The meaning of a code in a case (R6). Letters are 1 to 26 for A to Z, figures 0 to 9, signs 48 to 63 (R194). -/
inductive Meaning where
  | letter (i : Nat) | figure (d : Nat) | sign (k : Nat)
  | cr | lf | space | ltrs | figs | blank
  deriving DecidableEq, Repr

/-- An office code: three letters by their index 1 to 26 (00_scope.md, R136). -/
structure OfficeCode where
  a : Nat
  b : Nat
  c : Nat
  deriving DecidableEq, Repr

/-- The five message classes (00_scope.md). -/
inductive MsgClass where
  | ordinary | business | urgent | train | emergency
  deriving DecidableEq, Repr

/-- The number of a class, 0 to 4. Higher numbers take precedence. -/
def MsgClass.num : MsgClass → Nat
  | .ordinary => 0 | .business => 1 | .urgent => 2 | .train => 3 | .emergency => 4

/-- The four kinds of circuit (R2). -/
inductive CircuitKind where
  | duplex | sendOnly | receiveOnly | unfitted
  deriving DecidableEq, Repr

/-- The line rates (R3). -/
inductive Rate where
  | baud45 | baud50 | baud75 | baud100
  deriving DecidableEq, Repr

/-- The unit time in thirds of a millisecond (R3): 22 ms, 20 ms, 13⅓ ms and 10 ms. -/
def Rate.unitThirds : Rate → Nat
  | .baud45 => 66 | .baud50 => 60 | .baud75 => 40 | .baud100 => 30

/-- The character time in milliseconds (R3): 7.5 units. -/
def Rate.characterMs (r : Rate) : Nat := r.unitThirds * 15 / 6

/-- The conditions of the circuit condition map (R64). -/
inductive Condition where
  | inService | opened | withdrawing | withdrawn | unfitted | unknown
  deriving DecidableEq, Repr

/-- The admin state of an own circuit (R159). `inn` is IN. -/
inductive Admin where
  | inn | withdrawing | withdrawn
  deriving DecidableEq, Repr

/-- The wire state (R15). -/
inductive Wire where
  | marking | opened
  deriving DecidableEq, Repr

/-- The five restart kinds (R191). -/
inductive RestartKind where
  | powerOn | supplyDip | restartPin | cold | warm
  deriving DecidableEq, Repr

/-- A routed target: a circuit, or the service of a station (R63). -/
inductive Target where
  | circuit (c : Nat) | service (k : Nat)
  deriving DecidableEq, Repr

/-- What a slot is addressed to: an office code or the intercept pseudo-code (R47). -/
inductive Dest where
  | office (code : OfficeCode) | pseudo
  deriving DecidableEq, Repr

/-! ## The configuration image in force (R194) -/

/-- A line's byte of its station block: kind, rate, authority, watch enable. -/
structure LineCfg where
  kind : CircuitKind
  rate : Rate
  authority : Nat
  watch : Bool
  deriving DecidableEq, Repr

/-- A station block. The service code of a station outside the fitted set is not checked and may be none. -/
structure StationBlock where
  service : Option OfficeCode
  lines : List LineCfg
  deriving DecidableEq, Repr

/-- A route entry: its code and its three targets, none passed over (R63). -/
structure RouteEntry where
  code : OfficeCode
  targets : List (Option Target)
  deriving DecidableEq, Repr

/-- The two thresholds of a condition kind (R175). -/
structure Threshold where
  warning : Nat
  alarm : Nat
  deriving DecidableEq, Repr

/-- The configuration image, after validation (R194, R195). -/
structure Image where
  edition : Nat
  fitted : List Nat
  intercept : Nat
  supervisor : OfficeCode
  holdLimit : Nat
  /-- In units of 10 ms. -/
  retryGaps : List Nat
  depth : Threshold
  age : Threshold
  blocks : Threshold
  records : Threshold
  held : Threshold
  depthOn : Bool
  ageOn : Bool
  blocksOn : Bool
  recordsOn : Bool
  heldOn : Bool
  warningsLatched : Bool
  alarmsLatched : Bool
  errorCode : Code
  /-- Codes 0 to 31 in letters case, then in figures case. -/
  decodeTable : List Meaning
  routes : List RouteEntry
  stations : List StationBlock
  deriving DecidableEq, Repr

/-! ## Line interface (chapter 1) -/

/-- The receiver's six states (R4). -/
inductive RxState where
  | ready | start | code | stop | spacingHold | halted
  deriving DecidableEq, Repr

/-- The sender's four states (R11). -/
inductive TxState where
  | free | shifting | keying | draining
  deriving DecidableEq, Repr

/-- An item of work for the sender (chapter 1, section 1.6). -/
inductive Item where
  | lettersShift | symbol (s : Symbol)
  deriving DecidableEq, Repr

/-- A line interface. -/
structure Line where
  /-- The RXD pin: true is marking. -/
  rxd : Bool
  rx : RxState
  rxCase : Case
  tx : TxState
  txCase : Case
  /-- The item in progress. -/
  item : Option Item
  /-- The item held while DRAINING (R11). -/
  held : Option Item
  /-- The code of the character on TXD; none while TXD rests marking. -/
  keyed : Option Code
  wire : Wire
  openTimer : Bool
  restoreTimer : Bool
  deriving DecidableEq, Repr

/-! ## Message assembler (chapters 2 and 6) -/

/-- The assembler's four states (R25). -/
inductive MasMode where
  | hunt | header | text | discard
  deriving DecidableEq, Repr

/-- A message assembler. -/
structure Mas where
  mode : MasMode
  lineStart : Bool
  /-- The start-sequence symbols taken so far; their number is the start-sequence count (R26, log entry 18). -/
  startSeq : List Symbol
  header : List Symbol
  look : List Symbol
  current : Option Nat
  expected : Option Nat
  /-- The receive suspension stack, the top first (R113). -/
  rstack : List Nat
  /-- The resume line-feed mark (R116). -/
  resumeLf : Bool
  deriving DecidableEq, Repr

/-! ## Text store (chapter 3) -/

/-- The states of a record (R44). -/
inductive RecState where
  | free | filling | standing
  deriving DecidableEq, Repr

/-- Where a record came from (R45). -/
inductive Source where
  | circuit (c : Nat) | station (k : Nat) | service
  deriving DecidableEq, Repr

/-- Reasons of the MUTILATED flag (R46). `noEnd` is NOEND. -/
inductive MutReason where
  | noStore | length | line | noEnd | suspend
  deriving DecidableEq, Repr

/-- Reasons of the INTERCEPT flag (R46). -/
inductive IntReason where
  | badHead | duplicate | unknown | loop
  deriving DecidableEq, Repr

/-- Why a slot is held (R77). -/
inductive HoldReason where
  | noRoute | busy (c : Nat)
  deriving DecidableEq, Repr

/-- The states of a slot with the fields each has (R47, R48). -/
inductive SlotState where
  | unrouted
  | held (since : Minute) (overdue : Bool) (reason : HoldReason)
  | queued (c : Nat)
  | carrying (t : Target)
  | done (t : Option Target)
  deriving DecidableEq, Repr

/-- A destination slot (R47). -/
structure Slot where
  dest : Dest
  state : SlotState
  deriving DecidableEq, Repr

/-- A record of the message table (R45). Its text stands in the blocks of its chain, in order (log entry 15). -/
structure Record where
  state : RecState
  source : Option Source
  cls : MsgClass
  origin : Option OfficeCode
  filing : Option Nat
  serial : Option Nat
  hop : Nat
  authority : Nat
  mutilated : Option MutReason
  intercept : Option IntReason
  errors : Nat
  chain : List Nat
  text : List Symbol
  stamp : Option Nat
  slots : List Slot
  /-- The service unit has carried out or refused its lines (R180, step 1). -/
  served : Bool
  deriving DecidableEq, Repr

/-- A FREE record: every field cleared (R44, R58). -/
def Record.empty : Record where
  state := .free
  source := none
  cls := .ordinary
  origin := none
  filing := none
  serial := none
  hop := 0
  authority := 0
  mutilated := none
  intercept := none
  errors := 0
  chain := []
  text := []
  stamp := none
  slots := []
  served := false

/-- The text store: the free pool (rising block numbers), the message table and the arrival stamp counter. -/
structure Store where
  pool : List Nat
  records : Vector Record 128
  stamp : Nat
  deriving DecidableEq, Repr

/-! ## Route resolver (chapters 4 and 9) -/

/-- An entry of the circuit condition map (R64). -/
structure MapEntry where
  condition : Condition
  kind : CircuitKind
  diversion : Option Nat
  deriving DecidableEq, Repr

/-! ## Circuit dispatch (chapters 5 and 6) -/

/-- A queue entry (R86). -/
structure Entry where
  record : Nat
  /-- The slots served, rising. -/
  slots : List Nat
  cls : MsgClass
  stamp : Nat
  queuedAt : Minute
  repeatSerial : Option Nat
  resume : Option Nat
  assigned : Option Nat
  deriving DecidableEq, Repr

/-- The six send states (R91). -/
inductive SendState where
  | idle | header | text | trailer | breaking | resuming
  deriving DecidableEq, Repr

/-- A dispatch context (R85). -/
structure Ctx where
  queue : List Entry
  current : Option Entry
  /-- The send suspension stack, the top first (R109). -/
  stack : List Entry
  next : Nat
  send : SendState
  /-- The items of the header, trailer, break or resume line being sent. -/
  framing : List Item
  /-- The send position: a place in `framing`, or in TEXT a text offset. -/
  pos : Nat
  /-- The item in progress is a guard space (R98). -/
  guarding : Bool
  lineStart : Bool
  /-- The line origin (R107). -/
  origin : Nat
  /-- The cut mark (R93). -/
  cut : Bool
  deriving DecidableEq, Repr

/-! ## Highway controller (chapters 7 and 8) -/

/-- The frame engine's seven states (R123). -/
inductive Engine where
  | idle | waitingIdle | contending | sending | listening | receipt | stuck
  deriving DecidableEq, Repr

/-- A triple of a CONDITION or MUSTER frame, as it is sent (R136). -/
structure Triple where
  circuit : Nat
  condition : Condition
  kind : CircuitKind
  diversion : Option Nat
  deriving DecidableEq, Repr

/-- A frame the builder offers (R140): whom it addresses and what it lists. A CARRY lists slots with their targets. -/
inductive Frame where
  | muster (addr : List Nat) (edition : Nat) (configured : Bool) (kind : RestartKind) (triples : List Triple)
  | condition (addr : List Nat) (triples : List Triple)
  | carry (addr : List Nat) (record : Nat) (listed : List (Nat × Target))
  deriving DecidableEq, Repr

/-- An offered frame with its hold-off moment: 5 ms after the last outcome, or the moment of the offer (R141). It is held
until its outcome (R123). -/
structure Offer where
  frame : Frame
  afterVeto : Bool
  /-- The arrival stamp of a CARRY's record, by which the record is known after its number is granted again. -/
  stamp : Option Nat
  deriving DecidableEq, Repr

/-- The frame in progress (R123): role, position, what has been read, and what this station does in it. -/
structure Flight where
  /-- The own frame on the wire and its cells before any text; none for a listener. -/
  own : Option (Frame × List Byte)
  /-- The present symbol cell of an own CARRY, read from the store as the cell begins (R143). -/
  symbol : Byte
  /-- Every listed slot of the own CARRY has left CARRYING: the frame is cut at the next falling edge of HC (R144). -/
  cutting : Bool
  discarded : Bool
  cell : Nat
  /-- The bit time of the cell about to be sampled, 1 to 10. -/
  bit : Nat
  /-- The receipt slot about to be sampled; for a listener 32 after the last, and 33 after the sample of the bit in which the
  sender makes its stop condition. -/
  slot : Nat
  /-- The bits of the present cell sampled so far, the first first. -/
  bits : List Bool
  /-- The cells read, up to a CARRY's length cells. -/
  rx : List Byte
  /-- The frame length in cells, once the content has fixed it. -/
  length : Option Nat
  reserveDue : Bool
  reserved : Option Nat
  /-- This station pulls HD in the present veto slot (R122). -/
  vetoing : Bool
  /-- The present receipt slot is this station's own and has begun (R128). -/
  slotBegun : Bool
  /-- HD as last read: pulled by the start condition, then as each sample reads it. While HC stays high it stays so, for a
  change would be a start or a stop condition (R120, R121). -/
  hdRead : Bool
  heard : Bool
  taking : Bool
  applied : Bool
  heardSet : List Nat
  takeSet : List Nat
  deriving DecidableEq, Repr

/-- The four timers of the frame engine: true is running. -/
structure HwTimers where
  idleRun : Bool
  stall : Bool
  stuck : Bool
  release : Bool
  deriving DecidableEq, Repr

/-- What this station still drives when it has left a frame (R121, R127): it makes a stop condition, and it pulls HD until
the next falling edge of HC. -/
structure Parting where
  stop : Bool
  hd : Bool
  deriving DecidableEq, Repr

/-- Both wires released. -/
def Parting.released : Parting := ⟨false, false⟩

/-- The two highway drivers of this station (R119): true pulls the wire, false releases it. -/
structure Drive where
  hc : Bool
  hd : Bool
  deriving DecidableEq, Repr

/-- The parts of the bit that follows a sample of HD, or a start condition, in order (R120, R121): the high half of HC that
is left; the falling edge; the low half, with HD set; HC released by the clocking stations, to the next sample; and, where
there is no such sample, from a half-bit after HC rises on. -/
inductive BitPart where
  | high | fall | low | rise | over
  deriving DecidableEq, Repr

/-- Presence of a peer (R138). -/
inductive Presence where
  | unknown | present | silent
  deriving DecidableEq, Repr

/-- The configured flag of a peer (R138). -/
inductive ConfFlag where
  | set | clear | notKnown
  deriving DecidableEq, Repr

/-- A not-before moment: passed, or so many milliseconds after the outcome that set it (R147). -/
inductive NotBefore where
  | passed | waiting (ms : Nat)
  deriving DecidableEq, Repr

/-- A station-table entry (R138). -/
structure Peer where
  presence : Presence
  flag : ConfFlag
  edition : Option Nat
  unheard : Nat
  refusals : Nat
  notBefore : NotBefore
  /-- The condition-owed set: own circuits, rising. -/
  owed : List Nat
  deriving DecidableEq, Repr

/-! ## Service unit (chapter 10) -/

/-- The states of a level (R176). -/
inductive LevelState where
  | clear | set | causeGone
  deriving DecidableEq, Repr

/-- The two levels kept for one scope of a condition (R175). -/
structure LevelPair where
  warning : LevelState
  alarm : LevelState
  deriving DecidableEq, Repr

/-- All levels (R175). -/
structure Levels where
  depth : Vector LevelPair 8
  age : Vector LevelPair 8
  blocks : LevelPair
  records : LevelPair
  held : LevelPair
  deriving DecidableEq, Repr

/-- A scope whose levels are evaluated together (R175, R177). -/
inductive Gauge where
  | depth (line : Nat) | age (line : Nat) | blocks | records | held
  deriving DecidableEq, Repr

/-- The first word of a known command line (R182). -/
inductive CmdWord where
  | state | clear | out | inn | divert | restart
  deriving DecidableEq, Repr

/-- The outcome of a command line (R171, R182). -/
inductive LineResult where
  | done | cleared (n : Nat) | diverted | divertCleared | noChange
  | notOwn | unfitted | intercept | range | same
  | taken | fixed | notTaken | refused
  deriving DecidableEq, Repr

/-- The answer of one line of a service message (R181, R182). -/
inductive Answer where
  | known (n : Nat) (w : CmdWord) (r : LineResult)
  | unknown (n : Nat)
  deriving DecidableEq, Repr

/-- What the service unit keeps of a message until its rest is taken (R183). -/
structure Rest where
  source : Option Source
  authority : Nat
  answers : List Answer
  /-- Own circuits whose DIVERT line gave SET or CLEARED, in line order. -/
  moves : List Nat
  outs : List Nat
  ins : List Nat
  restart : Option RestartKind
  deriving DecidableEq, Repr

/-! ## Start-up loader (chapter 11) -/

/-- Where the station stands between restarts (R191, R193). -/
inductive Phase where
  | unpowered | hold (kind : RestartKind) | loading | running
  deriving DecidableEq, Repr

/-- The restart record (R192). -/
structure RestartRecord where
  power : Bool
  dip : Bool
  pin : Bool
  cold : Bool
  warm : Bool
  last : RestartKind
  warms : Nat
  deriving DecidableEq, Repr

/-- Scratch of the event under way: gauges to evaluate because the event's own changes (`own`) or a report (`rep`)
changed their measure, whether a report is being composed, and lines owed a pick (R89, R177). Empty between steps. -/
structure Event where
  own : List Gauge
  rep : List Gauge
  inReport : Bool
  picks : List Nat
  deriving DecidableEq, Repr

/-- Nothing under way. -/
def Event.none : Event := ⟨[], [], false, []⟩

/-! ## The whole station -/

/-- The state of the station. -/
structure State where
  phase : Phase
  restart : RestartRecord
  /-- The strap value sampled at the last full restart. -/
  station : Nat
  /-- The configuration in force; none when UNCONFIGURED, or in restart hold or load. -/
  cfg : Option Image
  cfgCs : Bool
  cfgOut : List Bool
  lines : Vector Line 8
  mas : Vector Mas 8
  store : Store
  admin : Vector Admin 8
  map : Vector MapEntry 128
  ctx : Vector Ctx 8
  engine : Engine
  offered : Option Offer
  /-- The previous outcome of an own frame was VETOED (R141). -/
  holdoffDue : Bool
  flight : Option Flight
  timers : HwTimers
  parting : Parting
  peers : Vector Peer 16
  musterPending : List Nat
  streak : Nat
  levels : Levels
  lost : Nat
  minute : Minute
  rests : List Rest
  oalm : Bool
  /-- The model's own: the counter of the free values drawn (log entry 13). -/
  draws : Nat
  ev : Event
  /-- The commands waiting, first in, first out. -/
  pending : List Instr
  deriving DecidableEq, Repr

/-- Why a step stops. -/
inductive Fault where
  /-- Raised by a meaning whose command has an operand that names nothing (a line above 7, a station above 15). Safe:
  the term is no command of the block. -/
  | illFormed
  deriving DecidableEq, Repr

/-- Why a command has no meaning. -/
inductive Refusal where
  /-- The command has no meaning yet. No arm of exec answers so. Safe. -/
  | notModelled (mnemonic : String)
  deriving DecidableEq, Repr

/-! ## Reset -/

/-- A line interface after a full restart, with RXD reading `rxd` and the receiver and open-line timer given (R19). -/
def Line.fresh (rxd : Bool) (rx : RxState) (openTimer : Bool) : Line where
  rxd := rxd
  rx := rx
  rxCase := .letters
  tx := .free
  txCase := .letters
  item := none
  held := none
  keyed := none
  wire := .marking
  openTimer := openTimer
  restoreTimer := false

/-- An assembler after a full restart (R41), with the expected serial given (R42 keeps it). -/
def Mas.fresh (expected : Option Nat) : Mas where
  mode := .hunt
  lineStart := true
  startSeq := []
  header := []
  look := []
  current := none
  expected := expected
  rstack := []
  resumeLf := false

/-- A dispatch context after a full restart (R104). -/
def Ctx.fresh : Ctx where
  queue := []
  current := none
  stack := []
  next := 1
  send := .idle
  framing := []
  pos := 0
  guarding := false
  lineStart := false
  origin := 0
  cut := true

/-- The store after a full restart (R61). -/
def Store.fresh : Store where
  pool := List.range 1024
  records := Vector.replicate 128 Record.empty
  stamp := 0

/-- A peer's map entry not written since the last restart (R65, R83). -/
def MapEntry.unlearned : MapEntry := ⟨.unknown, .unfitted, none⟩

/-- The map entry of an own circuit of kind UNFITTED (R64, R196). -/
def MapEntry.unfitted : MapEntry := ⟨.unfitted, .unfitted, none⟩

/-- A peer's entry after a restart (R157). -/
def Peer.fresh : Peer where
  presence := .unknown
  flag := .notKnown
  edition := none
  unheard := 0
  refusals := 0
  notBefore := .passed
  owed := []

/-- This station's own entry: PRESENT with its own flag and edition (R138). -/
def Peer.self (flag : ConfFlag) (edition : Option Nat) : Peer :=
  { Peer.fresh with presence := .present, flag := flag, edition := edition }

/-- Every level CLEAR (R189). -/
def Levels.fresh : Levels :=
  let p : LevelPair := ⟨.clear, .clear⟩
  ⟨Vector.replicate 8 p, Vector.replicate 8 p, p, p, p⟩

/-- The map with no image and strap value `station`: own circuits UNFITTED, peers not learned (R83, R196). -/
def mapUnconfigured (station : Nat) : Vector MapEntry 128 :=
  Vector.ofFn fun c => if c.val / 8 = station then .unfitted else .unlearned

/-- The station table with no peer heard (R157), this station's own entry as given (R138). -/
def peersFresh (station : Nat) (flag : ConfFlag) (edition : Option Nat) : Vector Peer 16 :=
  Vector.ofFn fun k => if k.val = station then Peer.self flag edition else Peer.fresh

/-- The restart record after a POWER-ON (R192). -/
def RestartRecord.afterPowerOn : RestartRecord where
  power := true
  dip := false
  pin := false
  cold := false
  warm := false
  last := .powerOn
  warms := 0

/-- The machine right after reset: supply has been applied and the station is in the restart hold of POWER-ON (R191),
every block's state lost. What the blocks read as then, and the input pins' levels, are log entry 1. -/
def State.reset : State where
  phase := .hold .powerOn
  restart := .afterPowerOn
  station := 0
  cfg := none
  cfgCs := false
  cfgOut := []
  lines := Vector.replicate 8 (Line.fresh true .ready false)
  mas := Vector.replicate 8 (Mas.fresh none)
  store := Store.fresh
  admin := Vector.replicate 8 .inn
  map := mapUnconfigured 0
  ctx := Vector.replicate 8 Ctx.fresh
  engine := .idle
  offered := none
  holdoffDue := false
  flight := none
  timers := ⟨false, false, false, false⟩
  parting := .released
  peers := peersFresh 0 .clear none
  musterPending := []
  streak := 0
  levels := Levels.fresh
  lost := 0
  minute := 0
  rests := []
  oalm := false
  draws := 0
  ev := Event.none
  pending := []

end Sys2Proof.Machine
end

