-- ==== Sys2Proof/WellFormed.lean ====
section
/-! DEFINITION. Which command terms are commands: a line is 0 to 7 (R1) and a station 0 to 15 (R138). -/

namespace Sys2Proof

/-- A line interface number (R1). -/
def lineOk (line : Nat) : Bool := decide (line < 8)

/-- A station number (00_scope.md, R138). -/
def stationOk (station : Nat) : Bool := decide (station < 16)

/-- The operands of a command name things that exist. -/
def Instr.wf : Instr → Bool
  | .powerOn | .supplyDip | .restartPin | .restartHoldEnd _ | .configurationLoadEnd _ _ _ => true
  | .rxdLevelChange l _ | .characterArrival l _ | .openLineExpiry l | .restoreExpiry l => lineOk l
  | .characterCompletion l | .drainingEnd l | .startSample l | .insertedShiftEnd l => lineOk l
  | .officeMinuteAdvance | .holdLimitExpiry | .frameStart | .frameStartHeard | .arbitrationLost => true
  | .collision | .veto | .listenerParityVeto | .frameDiscard | .carryReservation => true
  | .frameEndedEarly _ | .carryCommit | .conditionApply | .musterApply | .listenerFrameEnd => true
  | .frameCompleted _ | .stallExpiry | .stuckExpiry | .releaseExpiry _ => true
  | .notBeforePasses k => stationOk k
  | .serviceMessageRest _ _ _ | .bitSample _ | .receiptSlotBegin | .startOrStopNotOwn _ | .supplyRemoved => true

end Sys2Proof
end

