-- ==== Sys2Proof/Machine/Ops.lean ====
section
/-! DEFINITION. The named operations over the station's tables: reading and writing one entry, the facts fixed by the
configuration, the order "by precedence", and the marks that an event leaves for its end. -/

namespace Sys2Proof.Machine

/-! ## Lists -/

/-- `x` put into a list kept in the order `before`, after every element that stands before it. -/
def insertBy {α : Type} (before : α → α → Bool) (x : α) : List α → List α
  | [] => [x]
  | y :: ys => if before x y then x :: y :: ys else y :: insertBy before x ys

/-- The list in the order `before`; equals keep their order. -/
def sortBy {α : Type} (before : α → α → Bool) (l : List α) : List α :=
  l.foldl (fun acc x => insertBy before x acc) []

/-- `x` put into a rising list without repeats. -/
def insertRising (x : Nat) : List Nat → List Nat
  | [] => [x]
  | y :: ys => if x < y then x :: y :: ys else if x = y then y :: ys else y :: insertRising x ys

/-- The first occurrence of each element, in order. -/
def dedup {α : Type} [DecidableEq α] (l : List α) : List α :=
  l.foldl (fun acc x => if x ∈ acc then acc else acc ++ [x]) []

/-! ## One entry of a table -/

/-- Entry `i` of a table, `d` where there is none. -/
def entryAt {α : Type} {n : Nat} (v : Vector α n) (d : α) (i : Nat) : α := (v[i]?).getD d

namespace State

/-- Line interface `l`. -/
def line (s : State) (l : Nat) : Line := entryAt s.lines (Line.fresh true .ready false) l

/-- Line interface `l` written. -/
def setLine (s : State) (l : Nat) (x : Line) : State := { s with lines := s.lines.setIfInBounds l x }

/-- Assembler `l`. -/
def masOf (s : State) (l : Nat) : Mas := entryAt s.mas (Mas.fresh none) l

/-- Assembler `l` written. -/
def setMas (s : State) (l : Nat) (x : Mas) : State := { s with mas := s.mas.setIfInBounds l x }

/-- Dispatch context `l`. -/
def ctxOf (s : State) (l : Nat) : Ctx := entryAt s.ctx Ctx.fresh l

/-- Dispatch context `l` written. -/
def setCtx (s : State) (l : Nat) (x : Ctx) : State := { s with ctx := s.ctx.setIfInBounds l x }

/-- The admin state of line `l`. -/
def adminOf (s : State) (l : Nat) : Admin := entryAt s.admin .inn l

/-- The admin state of line `l` written. -/
def setAdmin (s : State) (l : Nat) (x : Admin) : State := { s with admin := s.admin.setIfInBounds l x }

/-- The map entry of circuit `c`. -/
def mapOf (s : State) (c : Nat) : MapEntry := entryAt s.map MapEntry.unlearned c

/-- The map entry of circuit `c` written. -/
def setMap (s : State) (c : Nat) (x : MapEntry) : State := { s with map := s.map.setIfInBounds c x }

/-- The station-table entry of station `k`. -/
def peer (s : State) (k : Nat) : Peer := entryAt s.peers Peer.fresh k

/-- The station-table entry of station `k` written. -/
def setPeer (s : State) (k : Nat) (x : Peer) : State := { s with peers := s.peers.setIfInBounds k x }

/-- Record `m`. -/
def record (s : State) (m : Nat) : Record := entryAt s.store.records Record.empty m

/-- Record `m` written. -/
def setRecord (s : State) (m : Nat) (r : Record) : State :=
  { s with store := { s.store with records := s.store.records.setIfInBounds m r } }

end State

/-! ## What the strap and the image fix -/

/-- The circuit of line `l` (R1). -/
def State.circuit (s : State) (l : Nat) : Nat := 8 * s.station + l

/-- Circuit `c` is owned by this station (00_scope.md, R1). -/
def State.isOwn (s : State) (c : Nat) : Bool := decide (c < 128) && decide (c / 8 = s.station)

/-- The line of an own circuit. -/
def lineOf (c : Nat) : Nat := c % 8

/-- The eight own circuits, in line order (R1). -/
def State.ownCircuits (s : State) : List Nat := (List.range 8).map s.circuit

/-- The line's byte of this station's block, when there is an image (R2). -/
def State.lineCfg (s : State) (l : Nat) : Option LineCfg :=
  s.cfg.bind fun img => (img.stations[s.station]?).bind fun b => b.lines[l]?

/-- The kind of line `l`; UNFITTED with no image (R2 note 2). -/
def State.kind (s : State) (l : Nat) : CircuitKind := (s.lineCfg l).elim .unfitted (·.kind)

/-- The authority of line `l` (R2, R30). -/
def State.lineAuthority (s : State) (l : Nat) : Nat := (s.lineCfg l).elim 0 (·.authority)

/-- A kind that sends (00_scope.md). -/
def CircuitKind.sends : CircuitKind → Bool
  | .duplex | .sendOnly => true
  | .receiveOnly | .unfitted => false

/-- A kind whose receiver converts characters (R2). -/
def CircuitKind.receives : CircuitKind → Bool
  | .duplex | .receiveOnly => true
  | .sendOnly | .unfitted => false

/-- Line `l` has a dispatch context (R85). -/
def State.hasCtx (s : State) (l : Nat) : Bool := (s.kind l).sends

/-- The wire watch runs on line `l` (R15). -/
def State.watches (s : State) (l : Nat) : Bool := (s.kind l).receives && (s.lineCfg l).elim false (·.watch)

/-- Station `k` is in the configured fitted set (R138). -/
def State.fitted (s : State) (k : Nat) : Bool := s.cfg.elim false fun img => decide (k ∈ img.fitted)

/-- The service code of this station (R194). -/
def State.serviceCode (s : State) : Option OfficeCode :=
  s.cfg.bind fun img => (img.stations[s.station]?).bind (·.service)

/-- `code` is the service code of a fitted station (R180). -/
def State.isServiceCode (s : State) (code : Option OfficeCode) : Bool :=
  s.cfg.elim false fun img => code.isSome &&
    img.fitted.any fun k => decide (((img.stations[k]?).bind (·.service)) = code)

/-- The station that owns a target (R63, R142). -/
def Target.owner : Target → Nat
  | .circuit c => c / 8
  | .service k => k

/-- The station is in service, configured or not. -/
def State.running (s : State) : Bool := decide (s.phase = .running)

/-- The station is in service with a valid image. -/
def State.configured (s : State) : Bool := s.running && s.cfg.isSome

/-! ## Time and order -/

/-- The age of a minute value: the difference modulo 65536 (00_scope.md, R79). -/
def ageOf (now since : Minute) : Nat := (now - since).toNat

/-- An age as it is reported: capped at 255 (00_scope.md). -/
def capAge (a : Nat) : Nat := min a 255

/-- "Ordered by precedence" (00_scope.md): class descending, then stamp, then record number ascending. -/
def precedes (c₁ : MsgClass) (t₁ m₁ : Nat) (c₂ : MsgClass) (t₂ m₂ : Nat) : Bool :=
  decide (c₂.num < c₁.num) ||
    (decide (c₁.num = c₂.num) && (decide (t₁ < t₂) || (decide (t₁ = t₂) && decide (m₁ < m₂))))

/-- Record `a` stands before record `b` by precedence. -/
def State.recordBefore (s : State) (a b : Nat) : Bool :=
  precedes (s.record a).cls ((s.record a).stamp.getD 0) a (s.record b).cls ((s.record b).stamp.getD 0) b

/-- Serial `n` plus one: 999 is followed by 001 (R29, R94). -/
def nextSerial (n : Nat) : Nat := if n = 999 then 1 else n + 1

/-- Serial `n` less one: 001 is preceded by 999 (R29). -/
def prevSerial (n : Nat) : Nat := if n = 1 then 999 else n - 1

/-! ## Marks an event leaves for its end -/

/-- A gauge is to be evaluated because its measure changed (R177). While a report is composed, the store's and the held
list's measures are marked apart: they are evaluation events of their own (R177, log entry 7). -/
def State.touch (s : State) (g : Gauge) : State :=
  let apart := match g with
    | .blocks | .records | .held => s.ev.inReport
    | .depth _ | .age _ => false
  if apart then { s with ev := { s.ev with rep := s.ev.rep ++ [g] } }
  else { s with ev := { s.ev with own := s.ev.own ++ [g] } }

/-- The entries on line `l` changed (R103). -/
def State.touchLine (s : State) (l : Nat) : State := (s.touch (.depth l)).touch (.age l)

/-- Line `l` is owed a pick at the end of the event (R89). -/
def State.owePick (s : State) (l : Nat) : State := { s with ev := { s.ev with picks := insertRising l s.ev.picks } }

/-! ## The frame of a meaning -/

/-- A well-formed line number, or the fault illFormed. -/
def onLine (l : Nat) (k : Host.Outcome State Fault Refusal) : Host.Outcome State Fault Refusal :=
  if lineOk l then k else .fault .illFormed

/-- A well-formed station number, or the fault illFormed. -/
def onStation (n : Nat) (k : Host.Outcome State Fault Refusal) : Host.Outcome State Fault Refusal :=
  if stationOk n then k else .fault .illFormed

/-- The event comes about where `guard` holds; elsewhere the command changes nothing (log entry 2). -/
def whenever (guard : Bool) (s : State) (t : State) : Host.Outcome State Fault Refusal :=
  .next (if guard then t else s)

end Sys2Proof.Machine
end

