-- ==== Sys2Proof/Machine/Operands.lean ====
section
/-! DEFINITION. Symbols and their meanings, the forms the assembler looks for, the header's grammar, and the items of
every line the dispatch writes (chapters 1, 2, 5 and 6). -/

namespace Sys2Proof.Machine

/-! ## Meanings -/

/-- The meaning of a code in a case (R6). -/
def meaningOf (img : Image) (k : Case) (c : Code) : Option Meaning :=
  match k with
  | .letters => img.decodeTable[c.toNat]?
  | .figures => img.decodeTable[32 + c.toNat]?

/-- The meaning of a symbol (R7). A NEUTRAL symbol means what its code means in either case; where a peer's NEUTRAL
symbol has a code that means two things, which of them is a free value (log entry 13). -/
def symMeaning (img : Image) (σ : Symbol) : Option Meaning :=
  match σ.tag with
  | .letters => meaningOf img .letters σ.code
  | .figures => meaningOf img .figures σ.code
  | .error => none
  | .neutral =>
    if meaningOf img .letters σ.code = meaningOf img .figures σ.code then meaningOf img .letters σ.code
    else if Config.freeNeutralIsLetters σ.code then meaningOf img .letters σ.code
    else meaningOf img .figures σ.code

/-- The code that has meaning `m` in case `k` (R6: exactly one for letters, figures and controls). -/
def codeOf (img : Image) (k : Case) (m : Meaning) : Code :=
  BitVec.ofNat 5 (((List.range 32).find? fun i => decide (meaningOf img k (BitVec.ofNat 5 i) = some m)).getD 0)

/-- A letter as a LETTERS symbol (R95). -/
def letterSym (img : Image) (i : Nat) : Symbol := ⟨.letters, codeOf img .letters (.letter i)⟩

/-- A figure as a FIGURES symbol (R95). -/
def figureSym (img : Image) (d : Nat) : Symbol := ⟨.figures, codeOf img .figures (.figure d)⟩

/-- CR, LF and SPACE as NEUTRAL symbols (R31, R95). -/
def crSym (img : Image) : Symbol := ⟨.neutral, codeOf img .letters .cr⟩
/-- LF as a NEUTRAL symbol. -/
def lfSym (img : Image) : Symbol := ⟨.neutral, codeOf img .letters .lf⟩
/-- SPACE as a NEUTRAL symbol. -/
def spaceSym (img : Image) : Symbol := ⟨.neutral, codeOf img .letters .space⟩

/-- A symbol means `m`. -/
def means (img : Image) (m : Meaning) (σ : Symbol) : Bool := decide (symMeaning img σ = some m)

/-- A symbol means some figure. -/
def meansFigure (img : Image) (σ : Symbol) : Bool :=
  match symMeaning img σ with
  | some (.figure _) => true
  | _ => false

/-- A symbol means CR or LF. -/
def meansCrLf (img : Image) (σ : Symbol) : Bool := means img .cr σ || means img .lf σ

/-! ## Written text -/

/-- The index 1 to 26 of a capital letter. -/
def letterIdx (ch : Char) : Nat := ch.toNat - 64

/-- A character of a written line as a symbol (R185): a capital letter, a figure, or else a space. -/
def charSym (img : Image) (ch : Char) : Symbol :=
  if 65 ≤ ch.toNat ∧ ch.toNat ≤ 90 then letterSym img (letterIdx ch)
  else if 48 ≤ ch.toNat ∧ ch.toNat ≤ 57 then figureSym img (ch.toNat - 48)
  else spaceSym img

/-- `n` in `w` figures with leading zeros, the most significant first. -/
def digits : Nat → Nat → List Nat
  | 0, _ => []
  | w + 1, n => digits w (n / 10) ++ [n % 10]

/-- A figure as a character. -/
def figureChar (d : Nat) : Char := Char.ofNat (48 + d % 10)

/-- `n` written in `w` figures (R185). -/
def fig (w n : Nat) : List Char := (digits w n).map figureChar

/-- A letter of an office code as a character. -/
def letterChar (i : Nat) : Char := Char.ofNat (64 + i % 32)

/-- An office code as characters. -/
def OfficeCode.chars (o : OfficeCode) : List Char := [letterChar o.a, letterChar o.b, letterChar o.c]

/-- The letter of a class (00_scope.md). -/
def MsgClass.char : MsgClass → Char
  | .ordinary => 'O' | .business => 'B' | .urgent => 'U' | .train => 'T' | .emergency => 'E'

/-- A run of characters as items (R95). -/
def say (img : Image) (cs : List Char) : List Item := cs.map fun ch => .symbol (charSym img ch)

/-- CR and LF as items. -/
def crLf (img : Image) : List Item := [.symbol (crSym img), .symbol (lfSym img)]

/-- The gap (R99): three LF. -/
def gap (img : Image) : List Item := [.symbol (lfSym img), .symbol (lfSym img), .symbol (lfSym img)]

/-! ## The forms looked for at a line start -/

/-- A form: one test for each of its symbols. -/
abbrev Form := List (Symbol → Bool)

/-- The start sequence HHHH (R21). -/
def startForm (img : Image) : Form := List.replicate 4 (means img (.letter 8))

/-- The end sequence XXXX (R21). -/
def endForm (img : Image) : Form := List.replicate 4 (means img (.letter 24))

/-- Three letters, a SPACE, three figures, and CR or LF (R24). -/
def serialForm (img : Image) (a b c : Nat) : Form :=
  [means img (.letter a), means img (.letter b), means img (.letter c), means img .space,
    meansFigure img, meansFigure img, meansFigure img, meansCrLf img]

/-- The break line BRK nnn (R24). -/
def breakForm (img : Image) : Form := serialForm img 2 18 11

/-- The resume line RSM nnn (R24). -/
def resumeForm (img : Image) : Form := serialForm img 18 19 13

/-- The symbols stand at the beginning of the form. -/
def begins (f : Form) (l : List Symbol) : Bool :=
  decide (l.length ≤ f.length) && (List.zipWith (fun t σ => t σ) f l).all id

/-- The symbols are the whole form. -/
def completes (f : Form) (l : List Symbol) : Bool := decide (l.length = f.length) && begins f l

/-- The value of a symbol that means a figure. -/
def figureValue (img : Image) (σ : Symbol) : Nat :=
  match symMeaning img σ with
  | some (.figure d) => d
  | _ => 0

/-- The serial of a completed break or resume line (R24). -/
def lineSerial (img : Image) (l : List Symbol) : Nat :=
  ((l.drop 4).take 3).foldl (fun n σ => 10 * n + figureValue img σ) 0

/-! ## Groups and the header's grammar (R23) -/

/-- The meanings of a run of symbols. -/
def meanings (img : Image) (l : List Symbol) : List (Option Meaning) := l.map (symMeaning img)

/-- A group: a maximal run of symbols other than SPACE (R23). -/
abbrev Group := List (Option Meaning)

/-- The groups of a line, separated by one or more SPACE. -/
def groupsFrom (cur : Group) : List (Option Meaning) → List Group
  | [] => if cur.isEmpty then [] else [cur]
  | m :: ms =>
    if m = some .space then (if cur.isEmpty then groupsFrom [] ms else cur :: groupsFrom [] ms)
    else groupsFrom (cur ++ [m]) ms

/-- The groups of a line. -/
def groups (l : List (Option Meaning)) : List Group := groupsFrom [] l

/-- A group of three figures. -/
def figures3 : Group → Option Nat
  | [some (.figure a), some (.figure b), some (.figure c)] => some (100 * a + 10 * b + c)
  | _ => none

/-- A group of four figures. -/
def figures4 : Group → Option Nat
  | [some (.figure a), some (.figure b), some (.figure c), some (.figure d)] =>
    some (1000 * a + 100 * b + 10 * c + d)
  | _ => none

/-- A group of three letters. -/
def letters3 : Group → Option OfficeCode
  | [some (.letter a), some (.letter b), some (.letter c)] => some ⟨a, b, c⟩
  | _ => none

/-- A serial 001 to 999. -/
def serialGroup (g : Group) : Option Nat := (figures3 g).filter (0 < ·)

/-- The class a one-letter group names (R23). -/
def classGroup : Group → Option MsgClass
  | [some (.letter 15)] => some .ordinary
  | [some (.letter 2)] => some .business
  | [some (.letter 21)] => some .urgent
  | [some (.letter 20)] => some .train
  | [some (.letter 5)] => some .emergency
  | _ => none

/-- A group spells a word. -/
def isWord (w : List Char) (g : Group) : Bool := decide (g = w.map fun ch => some (.letter (letterIdx ch)))

/-- The fields of a good header (R23). -/
structure Header where
  serial : Nat
  cls : MsgClass
  origin : OfficeCode
  dests : List OfficeCode
  filing : Option Nat
  rpt : Option Nat
  deriving DecidableEq, Repr

/-- The repeat mark at the end of the groups, and the groups before it (R23 note 2). -/
def splitRepeat (gs : List Group) : List Group × Option Nat :=
  match gs.reverse with
  | g :: w :: rest =>
    match isWord "RPT".toList w, serialGroup g with
    | true, some n => (rest.reverse, some n)
    | _, _ => (gs, none)
  | _ => (gs, none)

/-- The filing time at the end of the groups, and the groups before it. -/
def splitFiling (gs : List Group) : List Group × Option Nat :=
  match gs.reverse with
  | g :: rest =>
    match figures4 g with
    | some n => (rest.reverse, some n)
    | none => (gs, none)
  | [] => (gs, none)

/-- The header fields of the symbols after the start sequence, or none when they make a bad header (R23). -/
def parseHeader (img : Image) (l : List Symbol) : Option Header :=
  let ms := meanings img l
  if ms.head? = some (some .space) then
    match groups ms with
    | gSerial :: gClass :: gOrigin :: rest =>
      let (rest₁, rpt) := splitRepeat rest
      let (rest₂, filing) := splitFiling rest₁
      match serialGroup gSerial, classGroup gClass, letters3 gOrigin, rest₂.mapM letters3 with
      | some n, some cls, some origin, some dests =>
        if 1 ≤ dests.length ∧ dests.length ≤ 8 then some ⟨n, cls, origin, dedup dests, filing, rpt⟩ else none
      | _, _, _, _ => none
    | _ => none
  else none

/-! ## The items the dispatch writes -/

/-- A space and a group, for each group. -/
def spaced (gs : List (List Char)) : List Char := (gs.map fun g => ' ' :: g).flatten

/-- The destination groups of an entry (R96): office codes in slot order; slots that bear the pseudo-code give this
station's service code once. That this one group stands in the place of the first of them is the model's choice (log entry
48). -/
def destGroups (service : Option OfficeCode) (slots : List Slot) : List OfficeCode :=
  (slots.foldl (fun (acc : List OfficeCode × Bool) sl =>
    match sl.dest with
    | .office o => (acc.1 ++ [o], acc.2)
    | .pseudo => if acc.2 then acc else (acc.1 ++ service.toList, true)) ([], false)).1

/-- The header items of an entry at its start (R95). -/
def headerItems (img : Image) (service : Option OfficeCode) (cut : Bool) (r : Record) (e : Entry) (serial : Nat) :
    List Item :=
  let slots := e.slots.filterMap fun i => r.slots[i]?
  let gs : List (List Char) :=
    [fig 3 serial, [r.cls.char]] ++ (r.origin.map OfficeCode.chars).toList ++ (destGroups service slots).map OfficeCode.chars
      ++ (r.filing.map (fig 4)).toList ++ (e.repeatSerial.elim [] fun n => ["RPT".toList, fig 3 n])
  (if cut then crLf img else []) ++ [.lettersShift] ++ say img ("HHHH".toList ++ spaced gs) ++ crLf img

/-- The name of an INTERCEPT reason (R99). -/
def IntReason.word : IntReason → List Char
  | .badHead => "BADHEAD".toList
  | .duplicate => "DUPLICATE".toList
  | .unknown => "UNKNOWN".toList
  | .loop => "LOOP".toList

/-- The trailer items (R99). -/
def trailerItems (img : Image) (r : Record) : List Item :=
  crLf img ++ (r.intercept.elim [] fun w => say img ("INT ".toList ++ w.word) ++ crLf img)
    ++ (if r.mutilated.isSome then say img "MUT".toList ++ crLf img ++ crLf img else [])
    ++ say img "XXXX".toList ++ gap img

/-- The break line and its gap (R108). -/
def breakItems (img : Image) (serial : Nat) : List Item :=
  crLf img ++ say img ("BRK ".toList ++ fig 3 serial) ++ crLf img ++ gap img

/-- The resume items (R111). -/
def resumeItems (img : Image) (serial : Nat) : List Item :=
  [.lettersShift] ++ say img ("RSM ".toList ++ fig 3 serial) ++ crLf img

/-- The stored symbols from a line start call for a guard space (R98). -/
def needsGuard (img : Image) (serial : Option Nat) (l : List Symbol) : Bool :=
  completes (startForm img) (l.take 4) || completes (endForm img) (l.take 4) ||
    (completes (breakForm img) (l.take 8) && decide (serial = some (lineSerial img (l.take 8))))

end Sys2Proof.Machine
end

