-- ==== Sys2Proof/Machine/Store.lean ====
section
/-! DEFINITION. The text store (chapter 3): grants against the class reserves, writing and rolling back text,
completion, release, and the views of it that other blocks read. -/

namespace Sys2Proof.Machine

/-! ## Flags of a record -/

/-- The MUTILATED flag set; a flag already set keeps its first reason (R46). -/
def Record.mutilate (r : Record) (w : MutReason) : Record := { r with mutilated := some (r.mutilated.getD w) }

/-- The INTERCEPT flag set; a flag already set keeps its first reason (R46). -/
def Record.toIntercept (r : Record) (w : IntReason) : Record := { r with intercept := some (r.intercept.getD w) }

/-! ## Counts (R60) -/

/-- The free block count. -/
def State.freeBlocks (s : State) : Nat := s.store.pool.length

/-- The records in a state, by number. -/
def State.recordsIn (s : State) (st : RecState) : List Nat :=
  (List.range Config.recordCount).filter fun m => decide ((s.record m).state = st)

/-- The free record count. -/
def State.freeRecords (s : State) : Nat := (s.recordsIn .free).length

/-- A change of the free block count (R43). -/
def State.setPool (s : State) (p : List Nat) : State :=
  let t := { s with store := { s.store with pool := p } }
  if p.length = s.store.pool.length then t else t.touch .blocks

/-! ## Grants (R49, R50) -/

/-- A request for `k` blocks and `r` records of class `cls` may be granted (R50). An UNCONFIGURED station's store
refuses every request (R61). -/
def State.grants (s : State) (cls : MsgClass) (k r : Nat) : Bool :=
  s.configured &&
    (if 3 ≤ cls.num then decide (k ≤ s.freeBlocks) && (decide (r = 0) || decide (r ≤ s.freeRecords))
     else decide (k + Config.blockReserve ≤ s.freeBlocks) &&
      (decide (r = 0) || decide (r + Config.recordReserve ≤ s.freeRecords)))

/-- A FILLING record of class `cls` with the chain given, every other field clear (R44, R45). -/
def Record.granted (cls : MsgClass) (chain : List Nat) : Record :=
  { Record.empty with state := .filling, cls := cls, chain := chain }

/-- Blocks a text of length `n` needs (R49). -/
def blocksFor (n : Nat) : Nat := (n + Config.blockSize - 1) / Config.blockSize

/-- A record request or whole-message reservation for one record and `k` blocks: the lowest-numbered FREE record with the
lowest-numbered free blocks, or a refusal that changes nothing (R43, R44, R50, R51). -/
def State.grantRecord (s : State) (cls : MsgClass) (k : Nat) : Option (Nat × State) :=
  if s.grants cls k 1 then
    (s.recordsIn .free).head?.map fun m =>
      (m, ((s.setPool (s.store.pool.drop k)).setRecord m (Record.granted cls (s.store.pool.take k))).touch .records)
  else none

/-- A whole-message reservation for `len` symbols (R49). -/
def State.reserve (s : State) (cls : MsgClass) (len : Nat) : Option (Nat × State) :=
  if len ≤ Config.textLimit then s.grantRecord cls (blocksFor len) else none

/-- A block request for the FILLING record `m` (R49, R50). -/
def State.grantBlock (s : State) (m : Nat) : Option State :=
  let r := s.record m
  if decide (r.state = .filling) && decide (r.chain.length < 128) && s.grants r.cls 1 0 then
    some ((s.setPool (s.store.pool.drop 1)).setRecord m { r with chain := r.chain ++ s.store.pool.take 1 })
  else none

/-! ## Text (R53 to R55) -/

/-- One symbol written at the end of the text (R53). A write to a record that is not FILLING, or at the length limit,
does not take place. -/
def Record.write (r : Record) (σ : Symbol) : Record :=
  if r.state = .filling ∧ r.text.length < Config.textLimit then
    { r with
      text := r.text ++ [σ]
      errors := if σ.tag = .error then min 255 (r.errors + 1) else r.errors }
  else r

/-- One symbol written into record `m`. -/
def State.write (s : State) (m : Nat) (σ : Symbol) : State := s.setRecord m ((s.record m).write σ)

/-- A run of symbols written into record `m`. -/
def State.writeAll (s : State) (m : Nat) (l : List Symbol) : State := l.foldl (fun t σ => t.write m σ) s

/-- Blocks put back in the free pool (R43). -/
def returnBlocks (pool blocks : List Nat) : List Nat := blocks.foldl (fun p b => insertRising b p) pool

/-- A record of an assembler keeps one block at least while FILLING (R45, R55). -/
def Record.minBlocks (r : Record) : Nat :=
  match r.source with
  | some (.circuit _) => 1
  | _ => 0

/-- ERROR symbols of a text, capped (R55). -/
def errorCount (l : List Symbol) : Nat := min 255 (l.countP fun σ => decide (σ.tag = .error))

/-- A text rollback of record `m` to length `n` (R55). A rollback to the present length changes nothing. -/
def State.rollback (s : State) (m n : Nat) : State :=
  let r := s.record m
  if n < r.text.length then
    let keep := max (blocksFor n) r.minBlocks
    let text := r.text.take n
    (s.setPool (returnBlocks s.store.pool (r.chain.drop keep))).setRecord m
      { r with text := text, chain := r.chain.take keep, errors := errorCount text }
  else s

/-- The symbol at a text offset (R54). -/
def State.readText (s : State) (m o : Nat) : Option Symbol := (s.record m).text[o]?

/-- The symbol at place `i` of block `b`: the one its record's text has there (R43, R45). -/
def State.blockSymbol (s : State) (b i : Nat) : Option Symbol :=
  ((List.range Config.recordCount).find? fun m => decide (b ∈ (s.record m).chain)).bind fun m =>
    s.readText m (Config.blockSize * (s.record m).chain.idxOf b + i)

/-! ## Freeing, completion, release (R56 to R59) -/

/-- Record `m` becomes FREE and its blocks return (R58, R59). -/
def State.freeRecord (s : State) (m : Nat) : State :=
  let r := s.record m
  if r.state = .free then s
  else ((s.setPool (returnBlocks s.store.pool r.chain)).setRecord m Record.empty).touch .records

/-- Completion in the store: stamp, counter, STANDING; a record with no slot is released instead (R56). -/
def State.complete (s : State) (m : Nat) : State :=
  let r := s.record m
  let stamp := s.store.stamp
  let t := { s with store := { s.store with stamp := if stamp < Config.lastStamp then stamp + 1 else stamp } }
  if r.slots.isEmpty then t.freeRecord m
  else t.setRecord m { r with stamp := some stamp, state := .standing }

/-- A slot is DONE. -/
def SlotState.isDone : SlotState → Bool
  | .done _ => true
  | .unrouted | .held _ _ _ | .queued _ | .carrying _ => false

/-- A slot is HELD. -/
def SlotState.isHeld : SlotState → Bool
  | .held _ _ _ => true
  | .unrouted | .queued _ | .carrying _ | .done _ => false

/-- A slot is CARRYING, with its target. -/
def SlotState.carryTarget : SlotState → Option Target
  | .carrying t => some t
  | .unrouted | .held _ _ _ | .queued _ | .done _ => none

/-- The target a slot keeps when it is DONE (R47). -/
def SlotState.target : SlotState → Option Target
  | .queued c => some (.circuit c)
  | .carrying t => some t
  | .done t => t
  | .unrouted | .held _ _ _ => none

/-- Slot `i` of record `m`. -/
def State.slot (s : State) (m i : Nat) : Option Slot := (s.record m).slots[i]?

/-- The state of slot `i` of record `m`; UNROUTED where there is none. -/
def State.slotState (s : State) (m i : Nat) : SlotState := (s.slot m i).elim .unrouted (·.state)

/-- Slot `i` of record `m` written. A change in the number of HELD slots is marked (R77). -/
def State.setSlot (s : State) (m i : Nat) (x : Slot) : State :=
  let r := s.record m
  let t := s.setRecord m { r with slots := r.slots.set i x }
  if (s.slotState m i).isHeld = x.state.isHeld then t else t.touch .held

/-- The state of slot `i` of record `m` written. -/
def State.setSlotState (s : State) (m i : Nat) (st : SlotState) : State :=
  match s.slot m i with
  | some sl => s.setSlot m i { sl with state := st }
  | none => s

/-- A STANDING record whose slots are all DONE is released (R58). -/
def State.releaseIfDone (s : State) (m : Nat) : State :=
  let r := s.record m
  if r.state = .standing ∧ r.slots.all (fun sl => sl.state.isDone) then s.freeRecord m else s

/-- Slot `i` of record `m` becomes DONE with the target given, and the record is released when it was the last (R47, R58). -/
def State.finishAs (s : State) (m i : Nat) (t : Option Target) : State :=
  (s.setSlotState m i (.done t)).releaseIfDone m

/-- Slot `i` of record `m` becomes DONE, keeping its target (R47, R58). -/
def State.finishSlot (s : State) (m i : Nat) : State := s.finishAs m i (s.slotState m i).target

/-! ## Views: the held list and the carry list -/

/-- The STANDING records in precedence order. -/
def State.standing (s : State) : List Nat := sortBy s.recordBefore (s.recordsIn .standing)

/-- The held list: the HELD slots of STANDING records, by precedence and then in slot order (R77). -/
def State.heldList (s : State) : List (Nat × Nat) :=
  s.standing.flatMap fun m =>
    ((List.range (s.record m).slots.length).filter fun i => (s.slotState m i).isHeld).map fun i => (m, i)

/-- The CARRYING slots of record `m` with their targets. -/
def State.carrySlots (s : State) (m : Nat) : List (Nat × Target) :=
  (List.range (s.record m).slots.length).filterMap fun i => (s.slotState m i).carryTarget.map fun t => (i, t)

/-- The carry list: the STANDING records with CARRYING slots, by precedence (R142). -/
def State.carryList (s : State) : List Nat := s.standing.filter fun m => !(s.carrySlots m).isEmpty

/-- The pending stations of record `m`'s element (R142). -/
def State.pendingStations (s : State) (m : Nat) : List Nat :=
  (List.range 16).filter fun k => (s.carrySlots m).any fun p => decide (p.2.owner = k)

/-- The number of held slots (R82). -/
def State.heldCount (s : State) : Nat := s.heldList.length

/-- Held slots that satisfy a test on their held-since minute, overdue mark and reason. -/
def State.heldWhere (s : State) (p : Minute → Bool → HoldReason → Bool) : List (Nat × Nat) :=
  s.heldList.filter fun x =>
    match s.slotState x.1 x.2 with
    | .held since overdue reason => p since overdue reason
    | .unrouted | .queued _ | .carrying _ | .done _ => false

/-- The age of the oldest held slot, capped, or none (R82). -/
def State.oldestHeld (s : State) : Option Nat :=
  (s.heldList.map fun x =>
    match s.slotState x.1 x.2 with
    | .held since _ _ => capAge (ageOf s.minute since)
    | .unrouted | .queued _ | .carrying _ | .done _ => 0).max?

end Sys2Proof.Machine
end

