-- ==== Sys2Proof/Machine/Sender.lean ====
section
/-! DEFINITION. The sender of a line interface (chapter 1, section 1.6): what it keys for an item, how it takes an
offer, and how it is told to abandon. -/

namespace Sys2Proof.Machine

/-- The shift inserted before an item's own code, if any (R12, R13). -/
def insertedShift (img : Image) (k : Case) : Item → Option Code
  | .lettersShift => none
  | .symbol σ =>
    match σ.tag, k with
    | .letters, .figures => some (codeOf img .letters .ltrs)
    | .error, .figures => some (codeOf img .letters .ltrs)
    | .figures, .letters => some (codeOf img .letters .figs)
    | .neutral, _ | .letters, .letters | .figures, .figures | .error, .letters => none

/-- The last character keyed for an item (R12, R13). -/
def lastCode (img : Image) : Item → Code
  | .lettersShift => codeOf img .letters .ltrs
  | .symbol σ =>
    match σ.tag with
    | .error => img.errorCode
    | .neutral | .letters | .figures => σ.code

/-- The send case after a character begins (R12). -/
def caseAfter (img : Image) (k : Case) (c : Code) : Case :=
  match meaningOf img k c with
  | some .ltrs => .letters
  | some .figs => .figures
  | _ => k

/-- A character begins on TXD; the send case follows it (R12). -/
def Line.key (img : Image) (x : Line) (c : Code) : Line :=
  { x with keyed := some c, txCase := caseAfter img x.txCase c }

/-- An item begins: SHIFTING when its first character is an inserted shift, else KEYING (R11). -/
def Line.begin (img : Image) (x : Line) (it : Item) : Line :=
  match insertedShift img x.txCase it with
  | some sh => { x.key img sh with tx := .shifting, item := some it }
  | none => { x.key img (lastCode img it) with tx := .keying, item := some it }

/-- The sender rests: FREE, TXD marking (R11). -/
def Line.rest (x : Line) : Line := { x with tx := .free, item := none, keyed := none }

/-- An item offered to the sender (R11): begun when FREE, held when DRAINING, else refused. One offered while DRAINING
holds an item takes that item's place (log entry 42). -/
def Line.offer (img : Image) (x : Line) (it : Item) : Line :=
  match x.tx with
  | .free => x.begin img it
  | .draining => { x with held := some it }
  | .shifting | .keying => x

/-- The sender told to abandon the item in progress (R14). -/
def Line.abandon (x : Line) : Line :=
  match x.tx with
  | .shifting | .keying => { x with tx := .draining, item := none }
  | .free | .draining => x

/-- The inserted shift ends: the item's own code is keyed (R11). -/
def Line.afterShift (img : Image) (x : Line) : Line :=
  match x.item with
  | some it => { x.key img (lastCode img it) with tx := .keying }
  | none => x.rest

/-- The draining character ends: the held item starts, or the sender goes FREE (R14). -/
def Line.afterDraining (img : Image) (x : Line) : Line :=
  match x.held with
  | some it => { x.rest with held := none }.begin img it
  | none => x.rest

/-- An item offered to line `l`'s sender. A circuit that cannot send refuses it (R2 note 1). -/
def State.offer (s : State) (l : Nat) (it : Item) : State :=
  match s.cfg with
  | some img => if s.hasCtx l then s.setLine l ((s.line l).offer img it) else s
  | none => s

end Sys2Proof.Machine
end

