-- ==== Sys2Proof/Machine/Circuit.lean ====
section
/-! DEFINITION. The dispatch context of a circuit (chapters 5 and 6): its queue, the placing of a slot, the start of
the queue head, the resumption of the stack top, and the pick rule. -/

namespace Sys2Proof.Machine

/-! ## Views (R103) -/

/-- The entries on a circuit: in transmission, on the stack, in the queue (R85). -/
def Ctx.entries (x : Ctx) : List Entry := x.current.toList ++ x.stack ++ x.queue

/-- The entry count of line `l` (R103). -/
def State.entryCount (s : State) (l : Nat) : Nat := (s.ctxOf l).entries.length

/-- The oldest age on line `l`, capped, or none (R103). -/
def State.oldestAge (s : State) (l : Nat) : Option Nat :=
  ((s.ctxOf l).entries.map fun e => capAge (ageOf s.minute e.queuedAt)).max?

/-- The condition of own line `l` in the map. -/
def State.ownCondition (s : State) (l : Nat) : Condition := (s.mapOf (s.circuit l)).condition

/-! ## The queue (R87) -/

/-- Precedence order of entries (R87). -/
def Entry.before (a b : Entry) : Bool := precedes a.cls a.stamp a.record b.cls b.stamp b.record

/-- An entry takes its place in the queue (R87). -/
def Ctx.enqueue (x : Ctx) (e : Entry) : Ctx := { x with queue := insertBy Entry.before e x.queue }

/-- An entry as it returns to the queue unstarted: its assigned serial becomes its repeat serial (R105, R110). -/
def Entry.returned (e : Entry) : Entry :=
  { e with repeatSerial := e.assigned.or e.repeatSerial, assigned := none, resume := none }

/-- The slot joins the unstarted entry for its record (R88). -/
def Ctx.merge (x : Ctx) (m i : Nat) : Ctx :=
  { x with queue := x.queue.map fun e => if e.record = m then { e with slots := insertRising i e.slots } else e }

/-- An unstarted entry for record `m` stands in the queue. -/
def Ctx.queues (x : Ctx) (m : Nat) : Bool := x.queue.any fun e => decide (e.record = m)

/-- The entry in transmission or a stack entry is for record `m`. -/
def Ctx.busyWith (x : Ctx) (m : Nat) : Bool := (x.current.toList ++ x.stack).any fun e => decide (e.record = m)

/-- A slot becomes HELD with a reason; one that was HELD keeps its held-since minute and overdue mark (R48, R78). -/
def State.holdSlot (s : State) (m i : Nat) (reason : HoldReason) : State :=
  match s.slotState m i with
  | .held since overdue _ => s.setSlotState m i (.held since overdue reason)
  | .unrouted | .queued _ | .carrying _ | .done _ => s.setSlotState m i (.held s.minute false reason)

/-- A new entry for slot `i` of record `m` (R86, R88). -/
def State.newEntry (s : State) (m i : Nat) : Entry where
  record := m
  slots := [i]
  cls := (s.record m).cls
  stamp := (s.record m).stamp.getD 0
  queuedAt := s.minute
  repeatSerial := none
  resume := none
  assigned := none

/-- A slot placed on own line `l` (R73, R88, R89): merged into an unstarted entry, held BUSY, or given a new entry, for
which an IDLE circuit is owed a pick at the end of the event. -/
def State.placeOwn (s : State) (m i l : Nat) : State :=
  let x := s.ctxOf l
  let c := s.circuit l
  if x.queues m then (s.setCtx l (x.merge m i)).setSlotState m i (.queued c)
  else if x.busyWith m then s.holdSlot m i (.busy c)
  else
    let t := ((s.setCtx l (x.enqueue (s.newEntry m i))).setSlotState m i (.queued c)).touchLine l
    if x.send = .idle then t.owePick l else t

/-! ## Starting, breaking and resuming -/

/-- A framing begins: its first item is offered in the same event (R92). -/
def State.beginFraming (s : State) (l : Nat) (x : Ctx) (send : SendState) (items : List Item) : State :=
  let t := s.setCtx l { x with send := send, framing := items, pos := 0, guarding := false }
  match items with
  | it :: _ => t.offer l it
  | [] => t

/-- The queue head `e` starts (R93): serial, HEADER, cut mark cleared, first header item offered. R97 says nothing of the
line-start mark outside TEXT, where no rule reads it; that it is cleared here is the model's choice (log entry 45). -/
def State.startHead (s : State) (img : Image) (l : Nat) (e : Entry) (rest : List Entry) : State :=
  let x := s.ctxOf l
  s.beginFraming l
    { x with
      queue := rest
      current := some { e with assigned := some x.next }
      next := nextSerial x.next
      cut := false
      origin := 0
      lineStart := false }
    .header (headerItems img s.serviceCode x.cut (s.record e.record) e x.next)

/-- The stack top `e` is resumed (R111): no new serial, its resume offset becomes the line origin. That the line-start mark
is cleared here too is the model's choice (log entry 45). -/
def State.resumeTop (s : State) (img : Image) (l : Nat) (e : Entry) (rest : List Entry) : State :=
  let x := s.ctxOf l
  s.beginFraming l
    { x with
      stack := rest
      current := some { e with resume := none }
      origin := e.resume.getD 0
      lineStart := false }
    .resuming (resumeItems img (e.assigned.getD 0))

/-- The circuit rests: IDLE (R91). -/
def Ctx.toIdle (x : Ctx) : Ctx := { x with send := .idle, framing := [], pos := 0, guarding := false }

/-- The pick rule on line `l` (R101). -/
def State.pick (s : State) (l : Nat) : State :=
  match s.cfg with
  | none => s
  | some img =>
    let x := s.ctxOf l
    let cond := s.ownCondition l
    match x.stack, x.queue with
    | [], [] => s.setCtx l x.toIdle
    | [], e :: rest => if cond = .inService then s.startHead img l e rest else s.setCtx l x.toIdle
    | top :: below, [] =>
      if cond = .inService ∨ cond = .withdrawing then s.resumeTop img l top below else s.setCtx l x.toIdle
    | top :: below, e :: rest =>
      if cond = .inService ∧ top.cls.num < e.cls.num then s.startHead img l e rest
      else if cond = .inService ∨ cond = .withdrawing then s.resumeTop img l top below
      else s.setCtx l x.toIdle

/-- A pick owed to a circuit that is still IDLE (R89). -/
def State.pickIfIdle (s : State) (l : Nat) : State :=
  if (s.ctxOf l).send = .idle ∧ s.hasCtx l then s.pick l else s

/-- The picks the event owes, in line order (R89). -/
def State.takePicks (s : State) : State :=
  (List.range 8).foldl (fun t l => if l ∈ s.ev.picks then t.pickIfIdle l else t)
    { s with ev := { s.ev with picks := [] } }

/-- The preemption check on line `l` (R106): a strictly higher queue head on an IN SERVICE circuit. -/
def State.preempts (s : State) (l : Nat) : Bool :=
  let x := s.ctxOf l
  match x.queue, x.current with
  | e :: _, some cur => decide (cur.cls.num < e.cls.num) && decide (s.ownCondition l = .inService)
  | _, _ => false

/-- A break is taken on line `l` (R106, R107): the entry takes the line origin as its resume offset at the end of
BREAKING, and the first break item is offered now. -/
def State.takeBreak (s : State) (img : Image) (l : Nat) : State :=
  let x := s.ctxOf l
  s.beginFraming l x .breaking (breakItems img ((x.current.bind (·.assigned)).getD 0))

/-- The unstarted entries of line `l` are removed; the slots they served are answered (R90, R162, R167, R171). -/
def State.pullQueue (s : State) (l : Nat) : State × List (Nat × Nat) :=
  let x := s.ctxOf l
  if x.queue.isEmpty then (s, [])
  else ((s.setCtx l { x with queue := [] }).touchLine l, x.queue.flatMap fun e => e.slots.map fun i => (e.record, i))

end Sys2Proof.Machine
end

