-- ==== Sys2Proof/Machine/Flags.lean ====
section
/-! DEFINITION. The alarm levels (R175 to R178): their measures, how a level moves, the evaluation of a set of gauges,
and the OALM output. -/

namespace Sys2Proof.Machine

/-- Every gauge, in the order ALARM reports list them (R175, R186). -/
def allGauges : List Gauge :=
  (List.range 8).map .depth ++ (List.range 8).map .age ++ [.blocks, .records, .held]

/-- The gauge exists: those of a circuit exist where it has a dispatch context (R175). -/
def State.hasGauge (s : State) : Gauge → Bool
  | .depth l | .age l => s.hasCtx l
  | .blocks | .records | .held => true

/-- The measure (R175). A circuit with no entries has no oldest age. -/
def State.measure (s : State) : Gauge → Option Nat
  | .depth l => some (s.entryCount l)
  | .age l => s.oldestAge l
  | .blocks => some s.freeBlocks
  | .records => some s.freeRecords
  | .held => some s.heldCount

/-- The thresholds of a gauge's condition kind. -/
def Image.threshold (img : Image) : Gauge → Threshold
  | .depth _ => img.depth
  | .age _ => img.age
  | .blocks => img.blocks
  | .records => img.records
  | .held => img.held

/-- The enable of a gauge's condition kind. -/
def Image.enabled (img : Image) : Gauge → Bool
  | .depth _ => img.depthOn
  | .age _ => img.ageOn
  | .blocks => img.blocksOn
  | .records => img.recordsOn
  | .held => img.heldOn

/-- The cause is present at a threshold (R175): at or below it for the free counts, at or above it for the others. -/
def causePresent (g : Gauge) (measure : Option Nat) (threshold : Nat) : Bool :=
  match measure with
  | none => false
  | some v =>
    match g with
    | .blocks | .records => decide (v ≤ threshold)
    | .depth _ | .age _ | .held => decide (threshold ≤ v)

/-- How a level moves, and the change it reports: RAISED is true, CLEARED is false (R176). -/
def LevelState.move (latched cause : Bool) : LevelState → LevelState × Option Bool
  | .clear => if cause then (.set, some true) else (.clear, none)
  | .set => if cause then (.set, none) else if latched then (.causeGone, none) else (.clear, some false)
  | .causeGone => if cause then (.set, none) else (.causeGone, none)

/-- The levels of a gauge. -/
def Levels.get (v : Levels) : Gauge → LevelPair
  | .depth l => entryAt v.depth ⟨.clear, .clear⟩ l
  | .age l => entryAt v.age ⟨.clear, .clear⟩ l
  | .blocks => v.blocks
  | .records => v.records
  | .held => v.held

/-- The levels of a gauge written. -/
def Levels.put (v : Levels) (g : Gauge) (p : LevelPair) : Levels :=
  match g with
  | .depth l => { v with depth := v.depth.setIfInBounds l p }
  | .age l => { v with age := v.age.setIfInBounds l p }
  | .blocks => { v with blocks := p }
  | .records => { v with records := p }
  | .held => { v with held := p }

/-- One change of a level: its gauge, ALARM or WARNING, RAISED or CLEARED, the measure at evaluation (R186). -/
structure Change where
  gauge : Gauge
  alarm : Bool
  raised : Bool
  measure : Option Nat
  deriving DecidableEq, Repr

/-- One gauge evaluated, its changes added (R176). A disabled condition is not evaluated. -/
def State.evaluateOne (img : Image) (acc : State × List Change) (g : Gauge) : State × List Change :=
  let s := acc.1
  if s.hasGauge g && img.enabled g then
    let m := s.measure g
    let p := s.levels.get g
    let th := img.threshold g
    let w := p.warning.move img.warningsLatched (causePresent g m th.warning)
    let a := p.alarm.move img.alarmsLatched (causePresent g m th.alarm)
    ({ s with levels := s.levels.put g ⟨w.1, a.1⟩ },
      acc.2 ++ (w.2.map fun r => ⟨g, false, r, m⟩).toList ++ (a.2.map fun r => ⟨g, true, r, m⟩).toList)
  else acc

/-- The gauges of `gs` evaluated in the order of R175 (R177). A station with no image has no thresholds. -/
def State.evaluate (s : State) (gs : List Gauge) : State × List Change :=
  match s.cfg with
  | none => (s, [])
  | some img => (allGauges.filter (fun g => decide (g ∈ gs))).foldl (State.evaluateOne img) (s, [])

/-- The CLEAR command (R182): every latched level in SET CAUSE GONE becomes CLEAR. -/
def LevelState.cleared : LevelState → LevelState × Bool
  | .causeGone => (.clear, true)
  | .clear => (.clear, false)
  | .set => (.set, false)

/-- One gauge under the CLEAR command. Its changes name the measure as it stands at the command (log entry 41). -/
def State.clearOne (acc : State × List Change) (g : Gauge) : State × List Change :=
  let s := acc.1
  let p := s.levels.get g
  let w := p.warning.cleared
  let a := p.alarm.cleared
  ({ s with levels := s.levels.put g ⟨w.1, a.1⟩ },
    acc.2 ++ (if w.2 then [⟨g, false, false, s.measure g⟩] else [])
      ++ (if a.2 then [⟨g, true, false, s.measure g⟩] else []))

/-- The CLEAR command over every level (R182). -/
def State.clearLevels (s : State) : State × List Change := allGauges.foldl State.clearOne (s, [])

/-- An ALARM level of an enabled condition is SET or SET CAUSE GONE. -/
def State.alarmStands (s : State) : Bool :=
  s.cfg.elim false fun img => allGauges.any fun g => img.enabled g && decide ((s.levels.get g).alarm ≠ .clear)

/-- What OALM follows (R178): an ALARM level, STUCK, or UNCONFIGURED; never in restart hold or load (R189, R191). -/
def State.oalmInput (s : State) : Bool :=
  s.running && (s.cfg.isNone || decide (s.engine = .stuck) || s.alarmStands)

/-- OALM follows its inputs in the event that makes the change (R178). -/
def State.driveOalm (s : State) : State := { s with oalm := s.oalmInput }

end Sys2Proof.Machine
end

