-- ==== Sys2Proof/Machine/Resolver.lean ====
section
/-! DEFINITION. Route resolution (chapter 4): availability, the target of a slot, its placing, the hand-off of a
record. The service of this station is a parameter here: what takes a service slot is given by the caller. -/

namespace Sys2Proof.Machine

/-! ## Availability (R63, R66) -/

/-- The candidates of an office code: the targets of the first entry that bears it, none passed over (R63). -/
def Image.lookup (img : Image) (code : OfficeCode) : Option (List Target) :=
  (img.routes.find? fun e => decide (e.code = code)).map fun e => e.targets.filterMap id

/-- Peer `k` is available as an owner (R138): PRESENT with its configured flag set. -/
def State.peerAvailable (s : State) (k : Nat) : Bool :=
  decide ((s.peer k).presence = .present) && decide ((s.peer k).flag = .set)

/-- Circuit `c` is available (R66). -/
def State.circuitAvailable (s : State) (c : Nat) : Bool :=
  decide ((s.mapOf c).condition = .inService) && (s.mapOf c).kind.sends && (s.isOwn c || s.peerAvailable (c / 8))

/-- The service of station `k` is available (R66). -/
def State.serviceAvailable (s : State) (k : Nat) : Bool := decide (k = s.station) || s.peerAvailable k

/-- A target is available (R66). -/
def State.available (s : State) : Target → Bool
  | .circuit c => s.circuitAvailable c
  | .service k => s.serviceAvailable k

/-! ## The target of a slot (R69 to R71) -/

/-- What a candidate is judged on (R70): a diverted circuit other than the intercept is judged on its diversion. -/
def State.judged (s : State) (img : Image) : Target → Target
  | .service k => .service k
  | .circuit c => if c = img.intercept then .circuit c else .circuit ((s.mapOf c).diversion.getD c)

/-- A slot is intercept-bound (R69). -/
def interceptBound (r : Record) (sl : Slot) : Bool :=
  r.intercept.isSome || decide (r.hop = 3) || decide (sl.dest = .pseudo)

/-- The target of a slot by R69 or R70 direct. -/
def State.routed (s : State) (img : Image) (r : Record) (sl : Slot) : Option Target :=
  if interceptBound r sl then
    (if s.circuitAvailable img.intercept then some (.circuit img.intercept) else none)
  else
    match sl.dest with
    | .pseudo => none
    | .office code => (((img.lookup code).getD []).map (s.judged img)).find? s.available

/-- The named target is the target (R71): an own circuit, available and with no diversion recorded, or the own service;
for an intercept-bound slot, only the intercept circuit. -/
def State.namedTaken (s : State) (img : Image) (r : Record) (sl : Slot) : Target → Bool
  | .circuit c =>
    s.isOwn c && s.circuitAvailable c && (s.mapOf c).diversion.isNone &&
      (!interceptBound r sl || decide (c = img.intercept))
  | .service k => decide (k = s.station) && !interceptBound r sl

/-- The target of slot `i` of record `m`, with the named target of its first resolution, if it has one (R69 to R71). -/
def State.targetOf (s : State) (m i : Nat) (named : Option Target) : Option Target :=
  match s.cfg, s.slot m i with
  | some img, some sl =>
    let r := s.record m
    match named with
    | some t => if s.namedTaken img r sl t then some t else s.routed img r sl
    | none => s.routed img r sl
  | _, _ => none

/-! ## Placing (R72 to R75, R77) -/

/-- What takes a slot that resolves to this station's service (R75). -/
abbrev ServiceTaker := State → Nat → Nat → State

/-- A slot placed by the kind of its target, or held NO ROUTE (R72). -/
def State.place (svc : ServiceTaker) (s : State) (m i : Nat) : Option Target → State
  | none => s.holdSlot m i .noRoute
  | some (.circuit c) =>
    if s.isOwn c then s.placeOwn m i (lineOf c) else s.setSlotState m i (.carrying (.circuit c))
  | some (.service k) =>
    if k = s.station then svc s m i else s.setSlotState m i (.carrying (.service k))

/-- One slot resolved (R68 step 3, R76, R78). -/
def State.resolveWith (svc : ServiceTaker) (s : State) (m i : Nat) (named : Option Target) : State :=
  s.place svc m i (s.targetOf m i named)

/-- A slot sent to the intercept circuit (R80): the pseudo-code is written in and the slot is resolved again. A slot
that was HELD stays so, with its held-since minute, when nothing is available. -/
def State.sendToIntercept (s : State) (m i : Nat) : State :=
  match s.slot m i with
  | some sl => (s.setSlot m i { sl with dest := .pseudo }).resolveWith (fun t _ _ => t) m i none
  | none => s

/-- Some slot bears an office code that has no route (R68, step 2). -/
def State.noRoute (s : State) (m : Nat) : Bool :=
  s.cfg.elim false fun img => (s.record m).slots.any fun sl =>
    match sl.dest with
    | .office code => (img.lookup code).isNone
    | .pseudo => false

/-- The loop check and the route check of a hand-off (R68, steps 1 and 2). -/
def State.handOffChecks (s : State) (m : Nat) : State :=
  let s₁ := if (s.record m).hop = 3 then s.setRecord m ((s.record m).toIntercept .loop) else s
  if s₁.noRoute m then s₁.setRecord m ((s₁.record m).toIntercept .unknown) else s₁

/-- A record handed to the resolver (R68); `named` gives each slot its named target, if it has one (R71). -/
def State.handOffWith (svc : ServiceTaker) (s : State) (m : Nat) (named : List (Option Target)) : State :=
  if (s.record m).state = .standing then
    let s₁ := s.handOffChecks m
    ((List.range (s₁.record m).slots.length).foldl
      (fun t i => if t.slotState m i = .unrouted then t.resolveWith svc m i (named.getD i none) else t) s₁).releaseIfDone m
  else s

end Sys2Proof.Machine
end

