-- ==== Sys2Proof/Machine/Report.lean ====
section
/-! DEFINITION. Reports (R184 to R187): their text and their composition. Lines are lists of characters; one space
stands between words. Where R186 or R187 leave the wording open, the choice is log entry 17. -/

namespace Sys2Proof.Machine

/-! ## Words -/

/-- The word of a condition. -/
def Condition.word : Condition → List Char
  | .inService => "IN SERVICE".toList | .opened => "OPEN".toList | .withdrawing => "WITHDRAWING".toList
  | .withdrawn => "WITHDRAWN".toList | .unfitted => "UNFITTED".toList | .unknown => "UNKNOWN".toList

/-- The word of a circuit kind, a space for each hyphen (R185). -/
def CircuitKind.word : CircuitKind → List Char
  | .duplex => "DUPLEX".toList | .sendOnly => "SEND ONLY".toList | .receiveOnly => "RECEIVE ONLY".toList
  | .unfitted => "UNFITTED".toList

/-- The word of an admin state. -/
def Admin.word : Admin → List Char
  | .inn => "IN".toList | .withdrawing => "WITHDRAWING".toList | .withdrawn => "WITHDRAWN".toList

/-- The word of a wire state. -/
def Wire.word : Wire → List Char
  | .marking => "MARKING".toList | .opened => "OPEN".toList

/-- The word of a restart kind, a space for each hyphen (R185). -/
def RestartKind.word : RestartKind → List Char
  | .powerOn => "POWER ON".toList | .supplyDip => "SUPPLY DIP".toList | .restartPin => "RESTART PIN".toList
  | .cold => "COLD".toList | .warm => "WARM".toList

/-- The word of a MUTILATED reason. -/
def MutReason.word : MutReason → List Char
  | .noStore => "NOSTORE".toList | .length => "LENGTH".toList | .line => "LINE".toList
  | .noEnd => "NOEND".toList | .suspend => "SUSPEND".toList

/-- The word of a send state. -/
def SendState.word : SendState → List Char
  | .idle => "IDLE".toList | .header => "HEADER".toList | .text => "TEXT".toList | .trailer => "TRAILER".toList
  | .breaking => "BREAKING".toList | .resuming => "RESUMING".toList

/-- The word of a presence. -/
def Presence.word : Presence → List Char
  | .unknown => "UNKNOWN".toList | .present => "PRESENT".toList | .silent => "SILENT".toList

/-- The word of a configured flag. -/
def ConfFlag.word : ConfFlag → List Char
  | .set => "SET".toList | .clear => "CLEAR".toList | .notKnown => "NOT KNOWN".toList

/-- The first word of a command line. -/
def CmdWord.word : CmdWord → List Char
  | .state => "STATE".toList | .clear => "CLEAR".toList | .out => "OUT".toList | .inn => "IN".toList
  | .divert => "DIVERT".toList | .restart => "RESTART".toList

/-- The outcome of a command line (R171, R182). -/
def LineResult.word : LineResult → List Char
  | .done => "DONE".toList | .cleared n => fig 3 n | .diverted => "SET".toList | .divertCleared => "CLEARED".toList
  | .noChange => "NO CHANGE".toList | .notOwn => "NOT OWN".toList | .unfitted => "UNFITTED".toList
  | .intercept => "INTERCEPT".toList | .range => "RANGE".toList | .same => "SAME".toList | .taken => "TAKEN".toList
  | .fixed => "FIXED".toList | .notTaken => "NOT TAKEN".toList | .refused => "REFUSED".toList

/-- The condition kind and scope of a gauge, as ALARM and STATE lines name it (R186, R187). -/
def State.gaugeWords (s : State) : Gauge → List Char
  | .depth l => "QUEUE DEPTH CCT ".toList ++ fig 3 (s.circuit l)
  | .age l => "OLDEST AGE CCT ".toList ++ fig 3 (s.circuit l)
  | .blocks => "FREE BLOCKS STN".toList
  | .records => "FREE RECORDS STN".toList
  | .held => "HELD STN".toList

/-- The figures of a gauge's measure (R185). -/
def Gauge.width : Gauge → Nat
  | .depth _ | .age _ | .records => 3
  | .blocks | .held => 4

/-- WARNING or ALARM. -/
def levelWord (alarm : Bool) : List Char := if alarm then "ALARM".toList else "WARNING".toList

/-- `n` in `w` figures, or NONE (R185). -/
def figOr (w : Nat) (n : Option Nat) : List Char := n.elim "NONE".toList (fig w)

/-- Words with one space between. -/
def words (ws : List (List Char)) : List Char := (ws.intersperse [' ']).flatten

/-- `n` in figures without leading zeros, for a line number (R181). -/
def plainFigs (n : Nat) : List Char :=
  if n < 10 then fig 1 n else if n < 100 then fig 2 n else if n < 1000 then fig 3 n else fig 4 n

/-! ## What a report tells -/

/-- The cause of a CIRCUIT report (R160). -/
inductive CircuitCause where
  | lineOpen | lineRestored | withdrawn
  deriving DecidableEq, Repr

/-- The word of a cause. -/
def CircuitCause.word : CircuitCause → List Char
  | .lineOpen => "LINE OPEN".toList | .lineRestored => "LINE RESTORED".toList | .withdrawn => "WITHDRAWN".toList

/-- The counts of a line failure (R160): entries removed, slots re-resolved, of these left HELD. -/
structure FailureCounts where
  removed : Nat
  resolved : Nat
  held : Nat
  deriving DecidableEq, Repr

/-- What a HIGHWAY report tells (R186). -/
inductive HighwayNews where
  | stuck | released | vetoStreak | silent (k : Nat) | present (k : Nat)
  deriving DecidableEq, Repr

/-- The outcome of one circuit of a circuit request (R161). -/
inductive RequestOutcome where
  | notOwn | unfitted | ignored | noChange | withdrawing | withdrawn | inn
  deriving DecidableEq, Repr

/-- The word of a request outcome. -/
def RequestOutcome.word : RequestOutcome → List Char
  | .notOwn => "NOT OWN".toList | .unfitted => "UNFITTED".toList | .ignored => "IGNORED".toList
  | .noChange => "NO CHANGE".toList | .withdrawing => "WITHDRAWING".toList | .withdrawn => "WITHDRAWN".toList
  | .inn => "IN".toList

/-- Why a circuit request is invalid (R161). -/
inductive InvalidReason where
  | mixed | intercept | ownLine
  deriving DecidableEq, Repr

/-- The word of an invalid reason. -/
def InvalidReason.word : InvalidReason → List Char
  | .mixed => "MIXED".toList | .intercept => "INTERCEPT".toList | .ownLine => "OWN LINE".toList

/-- One line of the circuit request's answer: OUT or IN, the circuit, the outcome. -/
structure RequestLine where
  out : Bool
  circuit : Nat
  outcome : RequestOutcome
  deriving DecidableEq, Repr

/-- A report, with what its requester names (R186, R187). -/
inductive Report where
  | circuit (c : Nat) (before after : Condition) (cause : CircuitCause) (counts : Option FailureCounts)
  | gap (c first last count : Nat)
  | duplicate (c received expected : Nat)
  | mutilated (c : Nat) (serial : Option Nat) (cls : MsgClass) (reason : MutReason) (length : Option Nat)
  | alarm (changes : List Change)
  | highway (news : HighwayNews)
  | edition (k theirs own : Nat) (kind : RestartKind)
  | refused (source : Option Source) (origin : Option OfficeCode) (mutilated : Bool)
  | start
  | state
  | command (rest : Rest) (lines : List RequestLine) (invalid : List InvalidReason)
  deriving DecidableEq, Repr

/-- The kind name on a report's first line (R185). -/
def Report.name : Report → List Char
  | .circuit .. => "CIRCUIT".toList | .gap .. => "GAP".toList | .duplicate .. => "DUPLICATE".toList
  | .mutilated .. => "MUTILATED".toList | .alarm _ => "ALARM".toList | .highway _ => "HIGHWAY".toList
  | .edition .. => "EDITION".toList | .refused .. => "REFUSED".toList | .start => "START".toList
  | .state => "STATE".toList | .command .. => "COMMAND".toList

/-! ## Line forms (R187) -/

/-- A circuit as CCT ccc. -/
def cct (c : Nat) : List Char := "CCT ".toList ++ fig 3 c

/-- A station as STN ss. -/
def stn (k : Nat) : List Char := "STN ".toList ++ fig 2 k

/-- SOURCE and where a record came from (R186). -/
def sourceWords : Option Source → List Char
  | some (.circuit c) => words ["SOURCE".toList, cct c]
  | some (.station k) => words ["SOURCE".toList, stn k]
  | some .service | none => "SOURCE NONE".toList

/-- The set flags of the restart record (R187). -/
def RestartRecord.flagWords (r : RestartRecord) : List (List Char) :=
  (if r.power then ["POWER".toList] else []) ++ (if r.dip then ["DIP".toList] else []) ++
    (if r.pin then ["PIN".toList] else []) ++ (if r.cold then ["COLD".toList] else []) ++
    (if r.warm then ["WARM".toList] else [])

/-- The restart line. -/
def State.restartLine (s : State) : List Char :=
  words (["RESTART".toList, s.restart.last.word, "FLAGS".toList] ++ s.restart.flagWords ++
    ["WARMS".toList, fig 3 s.restart.warms, "EDITION".toList, figOr 5 (s.cfg.map (·.edition))])

/-- The own circuit line of line `l`. -/
def State.ownLine (s : State) (l : Nat) : List Char :=
  words [cct (s.circuit l), (s.kind l).word, (s.adminOf l).word, (s.ownCondition l).word, "WIRE".toList,
    (s.line l).wire.word, "DIV".toList, figOr 3 (s.mapOf (s.circuit l)).diversion]

/-- The dispatch line of line `l`. -/
def State.dispatchLine (s : State) (l : Nat) : List Char :=
  let x := s.ctxOf l
  words [cct (s.circuit l), "QUEUE".toList, fig 3 (s.entryCount l), "AGE".toList, figOr 3 (s.oldestAge l),
    "SEND".toList, x.send.word, "SERIAL".toList, figOr 3 (x.current.bind (·.assigned)), "NEXT".toList, fig 3 x.next]

/-- The store line. -/
def State.storeLine (s : State) : List Char :=
  words ["STORE FREE BLOCKS".toList, fig 4 s.freeBlocks, "RECORDS".toList, fig 3 s.freeRecords, "STANDING".toList,
    fig 3 (s.recordsIn .standing).length]

/-- The held line. -/
def State.heldLine (s : State) : List Char :=
  words ["HELD".toList, fig 4 s.heldCount,
    "NOROUTE".toList, fig 4 (s.heldWhere fun _ _ r => decide (r = .noRoute)).length,
    "BUSY".toList, fig 4 (s.heldWhere fun _ _ r => decide (r ≠ .noRoute)).length,
    "OVERDUE".toList, fig 4 (s.heldWhere fun _ o _ => o).length, "OLDEST".toList, figOr 3 s.oldestHeld]

/-- The highway line. -/
def State.highwayLine (s : State) : List Char :=
  words ["HIGHWAY".toList, if s.engine = .stuck then "STUCK".toList else "NORMAL".toList,
    "CARRY".toList, fig 3 s.carryList.length, "VETO".toList, fig 1 s.streak]

/-- The peer line of station `k`. -/
def State.peerLine (s : State) (k : Nat) : List Char :=
  let p := s.peer k
  words [stn k, p.presence.word, p.flag.word, "ED".toList, figOr 5 p.edition, "UNHEARD".toList, fig 1 p.unheard,
    "REFUSED".toList, fig 3 p.refusals, "OWED".toList, fig 1 p.owed.length]

/-- The peer circuit line of circuit `c`. -/
def State.peerCircuitLine (s : State) (c : Nat) : List Char :=
  words [cct c, (s.mapOf c).condition.word, "DIV".toList, figOr 3 (s.mapOf c).diversion]

/-- A peer circuit is listed in a STATE report (R187). -/
def MapEntry.listed (e : MapEntry) : Bool :=
  e.diversion.isSome || decide (e.condition = .opened) || decide (e.condition = .withdrawing) ||
    decide (e.condition = .withdrawn) || decide (e.condition = .unknown)

/-- The level lines of a gauge, for each of its levels not CLEAR. -/
def State.levelLines (s : State) (g : Gauge) : List (List Char) :=
  let one := fun (alarm : Bool) (st : LevelState) =>
    match st with
    | .clear => []
    | .set => [words [levelWord alarm, s.gaugeWords g, "SET".toList]]
    | .causeGone => [words [levelWord alarm, s.gaugeWords g, "SET CAUSE GONE".toList]]
  one false (s.levels.get g).warning ++ one true (s.levels.get g).alarm

/-- The fitted peers, in station order. -/
def State.fittedPeers (s : State) : List Nat := (List.range 16).filter fun k => s.fitted k && decide (k ≠ s.station)

/-- The body of a STATE report (R187). Its level lines stand in the order of ALARM lines (log entry 40). -/
def State.stateBody (s : State) : List (List Char) :=
  [s.restartLine, s.storeLine, s.heldLine, s.highwayLine] ++
    ((List.range 8).flatMap fun l => s.ownLine l :: (if s.hasCtx l then [s.dispatchLine l] else [])) ++
    s.fittedPeers.map s.peerLine ++
    ((s.fittedPeers.flatMap fun k => (List.range 8).map fun l => 8 * k + l).filter fun c => (s.mapOf c).listed).map
      s.peerCircuitLine ++
    allGauges.flatMap s.levelLines

/-- The line of one change in an ALARM report (R186). -/
def State.changeLine (s : State) (ch : Change) : List Char :=
  words [levelWord ch.alarm, s.gaugeWords ch.gauge, if ch.raised then "RAISED".toList else "CLEARED".toList,
    figOr ch.gauge.width ch.measure]

/-- The answer line of one line of a service message (R187). -/
def Answer.line : Answer → List Char
  | .known n w r => words ["LINE".toList, plainFigs n, w.word, r.word]
  | .unknown n => words ["UNKNOWN LINE".toList, plainFigs n]

/-- The body lines of a report (R186, R187). -/
def State.reportBody (s : State) : Report → List (List Char)
  | .circuit c before after cause counts =>
    [words [cct c, before.word, "TO".toList, after.word], words ["CAUSE".toList, cause.word]] ++
      (counts.map fun n => words ["REMOVED".toList, fig 3 n.removed, "RESOLVED".toList, fig 4 n.resolved,
        "HELD".toList, fig 4 n.held]).toList
  | .gap c first last count =>
    [words [cct c, "MISSING".toList, fig 3 first, "TO".toList, fig 3 last, "COUNT".toList, fig 3 count]]
  | .duplicate c received expected =>
    [words [cct c, "RECEIVED".toList, fig 3 received, "EXPECTED".toList, fig 3 expected]]
  | .mutilated c serial cls reason length =>
    [words [cct c, "SERIAL".toList, serial.elim "NOT READ".toList (fig 3)], words ["CLASS".toList, [cls.char]],
      words ["REASON".toList, reason.word],
      length.elim "NOT STORED".toList fun n => words ["LENGTH".toList, fig 4 n]]
  | .alarm changes => changes.map s.changeLine
  | .highway .stuck => ["STUCK".toList]
  | .highway .released => ["RELEASED".toList]
  | .highway .vetoStreak => ["VETO STREAK".toList]
  | .highway (.silent k) => [words ["SILENT".toList, fig 2 k]]
  | .highway (.present k) => [words ["PRESENT".toList, fig 2 k]]
  | .edition k theirs own kind =>
    [words ["PEER".toList, fig 2 k, "EDITION".toList, fig 5 theirs, "OWN".toList, fig 5 own, "RESTART".toList,
      kind.word]]
  | .refused source origin mutilated =>
    [sourceWords source, words ["ORIGIN".toList, origin.elim "NONE".toList OfficeCode.chars],
      words ["REASON".toList, if mutilated then "MUTILATED".toList else "NO AUTHORITY".toList]]
  | .start => s.restartLine :: (List.range 8).map s.ownLine
  | .state => s.stateBody
  | .command rest lines invalid =>
    [words [sourceWords rest.source, "AUTH".toList, if 2 ≤ rest.authority then "CHIEF".toList else "ATTEND".toList]] ++
      rest.answers.map Answer.line ++
      (lines.map fun q => words [if q.out then "OUT".toList else "IN".toList, fig 3 q.circuit, q.outcome.word]) ++
      (if invalid.isEmpty then [] else [words ("INVALID".toList :: invalid.map InvalidReason.word)])

/-! ## The text (R185) -/

/-- The lines of a report: kind, station and minute; the LOST line when reports were lost; the body. -/
def State.reportLines (s : State) (r : Report) : List (List Char) :=
  [words [r.name, stn s.station, "MIN".toList, fig 5 s.minute.toNat]] ++
    (if 0 < s.lost then [words ["LOST".toList, fig 3 s.lost]] else []) ++ s.reportBody r

/-- The symbols of lines with CR and LF between. -/
def lineLength : List (List Char) → Nat
  | [] => 0
  | [l] => l.length
  | l :: ls => l.length + 2 + lineLength ls

/-- The whole lines that leave room for one more line of three symbols, `used` being taken before them. -/
def linesThatFit (used : Nat) : List (List Char) → List (List Char)
  | [] => []
  | l :: ls => if used + l.length + 5 ≤ Config.textLimit then l :: linesThatFit (used + l.length + 2) ls else []

/-- A text that would pass the limit ends at the last whole line that leaves room for the line CUT (R185). -/
def cutLines (ls : List (List Char)) : List (List Char) :=
  if lineLength ls ≤ Config.textLimit then ls else linesThatFit 0 ls ++ ["CUT".toList]

/-- The symbols of a report's text: CR and LF between lines, none after the last (R185). -/
def textOf (img : Image) (ls : List (List Char)) : List Symbol :=
  ((ls.map fun l => l.map (charSym img)).intersperse [crSym img, lfSym img]).flatten

/-! ## Composition (R184) -/

/-- A report's record whose slot resolves to this station's service has no authority: it goes to the intercept circuit
without a further report, since its origin is a fitted station's service code (R180, step 2). -/
def reportService : ServiceTaker := fun s m i =>
  (s.setRecord m { s.record m with served := true }).sendToIntercept m i

/-- The fields of a report's record (R184). -/
def Record.asReport (r : Record) (service : Option OfficeCode) (supervisor : OfficeCode) : Record :=
  { r with source := some .service, origin := service, slots := [⟨.office supervisor, .unrouted⟩] }

/-- A granted report: written, completed and handed to the resolver (R184, step 4). -/
def State.makeReport (s : State) (img : Image) (m : Nat) (text : List Symbol) : State :=
  ((((s.setRecord m ((s.record m).asReport s.serviceCode img.supervisor)).writeAll m text).complete m).handOffWith
    reportService m [])

/-- A report requested of the service unit (R184): composed at once, or counted as lost when the store refuses. In
restart hold, in load and when UNCONFIGURED the request is dropped (R184, R191, R196). -/
def State.request (s : State) (r : Report) : State :=
  match s.cfg with
  | none => s
  | some img =>
    if s.running then
      let text := textOf img (cutLines (s.reportLines r))
      match ({ s with ev := { s.ev with inReport := true } }).reserve .business text.length with
      | none => { s with lost := min 255 (s.lost + 1) }
      | some (m, t) =>
        let u := { t with lost := 0 }.makeReport img m text
        { u with ev := { u.ev with inReport := s.ev.inReport } }
    else s

end Sys2Proof.Machine
end

