-- ==== Sys2Proof/Machine/Service.lean ====
section
/-! DEFINITION. The service unit's taking of a command message (R180 to R183), diversion lines (R171), and with it the
full resolution of slots: hand-off, re-resolution and re-examination (R68, R76, R78). -/

namespace Sys2Proof.Machine

/-! ## Condition-owed sets (R150) -/

/-- An own circuit joins the owed set of one peer, when the peer is fitted, not SILENT and not known unconfigured. -/
def State.oweTo (s : State) (c k : Nat) : State :=
  let p := s.peer k
  if s.fitted k ∧ k ≠ s.station ∧ p.presence ≠ .silent ∧ p.flag ≠ .clear then
    s.setPeer k { p with owed := insertRising c p.owed }
  else s

/-- An own circuit whose condition or diversion changed joins the peers' owed sets (R150). -/
def State.owe (s : State) (c : Nat) : State := (List.range 16).foldl (fun t k => t.oweTo c k) s

/-! ## Command lines (R181, R182) -/

/-- A known line. -/
inductive Command where
  | state | clear
  | out (cs : List Nat) | inn (cs : List Nat)
  | divertTo (c d : Nat) | divertOff (c : Nat)
  | restart (k : RestartKind)
  deriving DecidableEq, Repr

/-- The lines of a text: each runs to the next LF or to the end; CR is ignored (R181). -/
def linesFrom (cur : List (Option Meaning)) : List (Option Meaning) → List (List (Option Meaning))
  | [] => [cur]
  | m :: ms =>
    if m = some .lf then cur :: linesFrom [] ms
    else if m = some .cr then linesFrom cur ms
    else linesFrom (cur ++ [m]) ms

/-- The known line that groups make, if any (R181, R182). -/
def parseCommand : List Group → Option Command
  | [w] =>
    if isWord "STATE".toList w then some .state
    else if isWord "CLEAR".toList w then some .clear
    else none
  | w :: gs =>
    if isWord "OUT".toList w then (gs.mapM figures3).map .out
    else if isWord "IN".toList w then (gs.mapM figures3).map .inn
    else if isWord "RESTART".toList w then
      match gs with
      | [k] => if isWord "WARM".toList k then some (.restart .warm)
        else if isWord "COLD".toList k then some (.restart .cold) else none
      | _ => none
    else if isWord "DIVERT".toList w then
      match gs with
      | [gc, off] => if isWord "OFF".toList off then (figures3 gc).map .divertOff else none
      | [gc, tw, gd] =>
        if isWord "TO".toList tw then
          match figures3 gc, figures3 gd with
          | some c, some d => some (.divertTo c d)
          | _, _ => none
        else none
      | _ => none
    else none
  | [] => none

/-- The first word of a known line. -/
def Command.word : Command → CmdWord
  | .state => .state | .clear => .clear | .out _ => .out | .inn _ => .inn
  | .divertTo _ _ | .divertOff _ => .divert | .restart _ => .restart

/-- The authority a known line needs (R182): attend 1, chief 2. -/
def Command.needs : Command → Nat
  | .state | .clear => 1
  | .out _ | .inn _ | .divertTo _ _ | .divertOff _ | .restart _ => 2

/-! ## Diversion (R171) -/

/-- The outcome of a DIVERT line on circuit `c`: TO `d`, or OFF when there is no `d` (R171). -/
def State.divertResult (s : State) (img : Image) (c : Nat) (d : Option Nat) : LineResult :=
  if s.isOwn c = false then .notOwn
  else if s.kind (lineOf c) = .unfitted then .unfitted
  else if c = img.intercept then .intercept
  else
    match d with
    | some d =>
      if 128 ≤ d then .range
      else if d = c then .same
      else if (s.mapOf c).diversion = some d then .noChange else .diverted
    | none => if (s.mapOf c).diversion = none then .noChange else .divertCleared

/-- A diversion written at the line's place; the circuit joins the owed sets (R171). -/
def State.setDiversion (s : State) (c : Nat) (d : Option Nat) : State :=
  (s.setMap c { s.mapOf c with diversion := d }).owe c

/-! ## Carrying out the lines (R182, R183) -/

/-- An answer added to what is kept of the message. -/
def Rest.answer (q : Rest) (n : Nat) (w : CmdWord) (r : LineResult) : Rest :=
  { q with answers := q.answers ++ [.known n w r] }

/-- A DIVERT line carried out. -/
def State.doDivert (s : State) (img : Image) (q : Rest) (n c : Nat) (d : Option Nat) : State × Rest :=
  let r := s.divertResult img c d
  let q := q.answer n .divert r
  match r with
  | .diverted | .divertCleared => (s.setDiversion c d, { q with moves := q.moves ++ [c] })
  | _ => (s, q)

/-- The CLEAR line carried out: its changes are one ALARM report (R182). -/
def State.doClear (s : State) (q : Rest) (n : Nat) : State × Rest :=
  let p := s.clearLevels
  (if p.2.isEmpty then p.1 else p.1.request (.alarm p.2), q.answer n .clear (.cleared p.2.length))

/-- A known line carried out at its place (R182). -/
def State.doCommand (s : State) (img : Image) (q : Rest) (n : Nat) (cmd : Command) : State × Rest :=
  if q.authority < cmd.needs then (s, q.answer n cmd.word .refused)
  else
    match cmd with
    | .state => (s.request .state, q.answer n .state .done)
    | .clear => s.doClear q n
    | .out cs => (s, { q.answer n .out .taken with outs := q.outs ++ cs })
    | .inn cs => (s, { q.answer n .inn .taken with ins := q.ins ++ cs })
    | .divertTo c d => s.doDivert img q n c (some d)
    | .divertOff c => s.doDivert img q n c none
    | .restart k =>
      if q.restart.isSome then (s, q.answer n .restart .notTaken)
      else (s, { q.answer n .restart .fixed with restart := some k })

/-- One line of the message: passed over when it has no group, carried out, or answered UNKNOWN LINE (R181). -/
def State.doLine (img : Image) (acc : (State × Rest) × Nat) (l : List (Option Meaning)) : (State × Rest) × Nat :=
  let n := acc.2
  let p := acc.1
  (match groups l with
    | [] => p
    | gs =>
      match parseCommand gs with
      | some cmd => p.1.doCommand img p.2 n cmd
      | none => (p.1, { p.2 with answers := p.2.answers ++ [.unknown n] }), n + 1)

/-- What is kept of a message before its first line. -/
def Rest.of (r : Record) : Rest where
  source := r.source
  authority := r.authority
  answers := []
  moves := []
  outs := []
  ins := []
  restart := none

/-- The lines of record `m` carried out in order; what is left for the message's rest is kept (R183). -/
def State.carryOut (s : State) (img : Image) (m : Nat) : State :=
  let p := ((linesFrom [] (meanings img (s.record m).text)).foldl (State.doLine img) ((s, Rest.of (s.record m)), 1)).1
  { p.1 with rests := p.1.rests ++ [p.2] }

/-- A command message refused: the slot goes to the intercept circuit, with a REFUSED report unless the origin is a
fitted station's service code (R180, steps 2 and 3). -/
def State.refuse (s : State) (m i : Nat) (mutilated : Bool) : State :=
  let r := s.record m
  let t := s.sendToIntercept m i
  if s.isServiceCode r.origin then t else t.request (.refused r.source r.origin mutilated)

/-- A slot that resolves to this station's service (R180). `old` is the target that the slot had before the resolution: one
that was QUEUED or CARRYING keeps it in DONE (R47, R72). -/
def State.serviceTake (old : Option Target) : ServiceTaker := fun s m i =>
  match s.cfg with
  | none => s
  | some img =>
    let r := s.record m
    if r.served then s.finishAs m i old
    else
      let t := s.setRecord m { r with served := true }
      if r.authority = 0 then t.refuse m i false
      else if r.mutilated.isSome then t.refuse m i true
      else (t.carryOut img m).finishAs m i old

/-! ## Full resolution -/

/-- A record handed off at completion or commit (R68). -/
def State.handOff (s : State) (m : Nat) (named : List (Option Target)) : State := s.handOffWith (State.serviceTake none) m named

/-- The held list re-examined (R78): run through as it stands now, each slot still HELD resolved again. -/
def State.reexamine (s : State) : State :=
  s.heldList.foldl
    (fun t x => if (t.slotState x.1 x.2).isHeld then t.resolveWith (State.serviceTake none) x.1 x.2 none else t) s

/-- Order of slots given back together: records by precedence, then slot order (R76). -/
def State.slotBefore (s : State) (a b : Nat × Nat) : Bool :=
  if a.1 = b.1 then decide (a.2 < b.2) else s.recordBefore a.1 b.1

/-- Slots given back for re-resolution (R76): all detached first, then each resolved. A DONE slot stays DONE. Each
moves directly from its state before to its state after (R72), so one taken by this station's own service keeps the target
that it had (R47). -/
def State.reResolve (s : State) (slots : List (Nat × Nat)) : State :=
  let live := sortBy s.slotBefore (slots.filter fun x => !(s.slotState x.1 x.2).isDone)
  let t := live.foldl (fun t x => t.setSlotState x.1 x.2 .unrouted) s
  live.foldl
    (fun t x =>
      if t.slotState x.1 x.2 = .unrouted then
        t.resolveWith (State.serviceTake (s.slotState x.1 x.2).target) x.1 x.2 none
      else t) t

/-- Record `m` of `t` is still the record it was in `s`: a record released and granted again since then is a report's, and
no report is released at a re-resolution. -/
def State.keptRecord (s t : State) (m : Nat) : Bool :=
  decide ((t.record m).stamp = (s.record m).stamp) && decide ((t.record m).source = (s.record m).source)

/-- How many of the slots, given back in `s`, are left HELD in `t` (R160). -/
def State.countHeld (s t : State) (slots : List (Nat × Nat)) : Nat :=
  slots.countP fun x => s.keptRecord t x.1 && (t.slotState x.1 x.2).isHeld

/-- The CARRYING slots whose target satisfies a test (R148, R152, R154). -/
def State.carryingWhere (s : State) (p : Target → Bool) : List (Nat × Nat) :=
  s.carryList.flatMap fun m => ((s.carrySlots m).filter fun x => p x.2).map fun x => (m, x.1)

end Sys2Proof.Machine
end

