-- ==== Sys2Proof/Machine/Condition.lean ====
section
/-! DEFINITION. The own condition of a circuit and the withdrawal test (chapter 9), the completion of an entry, the
dispatch's answer to a character completion (chapters 5 and 6), and a line failure at the dispatch (R167, R168). -/

namespace Sys2Proof.Machine

/-! ## Own condition (R159) -/

/-- The condition that follows from kind, admin state and wire state (R159). -/
def deriveCondition (k : CircuitKind) (a : Admin) (w : Wire) : Condition :=
  match k, a, w with
  | .unfitted, _, _ => .unfitted
  | _, .withdrawn, _ => .withdrawn
  | _, .withdrawing, _ => .withdrawing
  | _, .inn, .opened => .opened
  | _, .inn, .marking => .inService

/-- The condition of own line `l` derived and written; a changed one puts the circuit into the owed sets (R150, R159). -/
def State.updateCondition (s : State) (l : Nat) : State :=
  let c := s.circuit l
  let e := s.mapOf c
  let new := deriveCondition (s.kind l) (s.adminOf l) (s.line l).wire
  if e.condition = new then s else (s.setMap c { e with condition := new }).owe c

/-! ## The withdrawal test (R165) -/

/-- The assembler in HUNT at a line start, nothing buffered (R26, R169). -/
def Mas.toHunt (x : Mas) : Mas :=
  { x with
    mode := .hunt
    lineStart := true
    startSeq := []
    header := []
    look := []
    current := none
    resumeLf := false }

/-- The withdrawal test of line `l` passes (R165). -/
def State.withdrawalPasses (s : State) (l : Nat) : Bool :=
  decide (s.adminOf l = .withdrawing) &&
    (!s.hasCtx l || (decide ((s.ctxOf l).send = .idle) && (s.ctxOf l).stack.isEmpty)) &&
    (decide ((s.masOf l).mode = .hunt) || decide ((s.masOf l).mode = .discard))

/-- The withdrawal test made (R165): on passing, the circuit is WITHDRAWN, an assembler in DISCARD goes to HUNT, and a
CIRCUIT report is requested unless the test passed within the OUT (`quiet`). -/
def State.withdrawalTest (s : State) (l : Nat) (quiet : Bool) (counts : Option FailureCounts) : State :=
  if s.withdrawalPasses l then
    let before := s.ownCondition l
    let t := (s.setAdmin l .withdrawn).updateCondition l
    let u := if (t.masOf l).mode = .discard then t.setMas l (t.masOf l).toHunt else t
    if quiet then u else u.request (.circuit (s.circuit l) before (u.ownCondition l) .withdrawn counts)
  else s

/-- The pick rule, and the withdrawal test when it leaves the circuit IDLE (R101, R165). -/
def State.pickAndTest (s : State) (l : Nat) : State :=
  let t := s.pick l
  if (t.ctxOf l).send = .idle then t.withdrawalTest l false none else t

/-! ## Completion of an entry (R100) -/

/-- Every slot the entry serves becomes DONE, in slot order, and the entry ceases (R100, steps 1 to 3). -/
def State.completeEntry (s : State) (l : Nat) (e : Entry) : State :=
  let t := e.slots.foldl (fun t i => t.finishSlot e.record i) s
  (t.setCtx l { (t.ctxOf l).toIdle with current := none }).touchLine l

/-- An entry completes: steps 1 to 3, the re-examination of the held list, and the pick (R100). -/
def State.entryDone (s : State) (l : Nat) (e : Entry) : State := (s.completeEntry l e).reexamine.pickAndTest l

/-! ## The end of a break (R109, R110) -/

/-- Room made on a full send stack: the bottom entry returns to the queue unstarted, or on a WITHDRAWING circuit is
removed and its slots re-resolved (R110). `x` is the context with the broken entry already out of transmission. -/
def State.makeRoom (s : State) (l : Nat) (x : Ctx) : State :=
  if x.stack.length < Config.stackLimit then s.setCtx l x
  else
    match x.stack.getLast? with
    | none => s.setCtx l x
    | some bottom =>
      let y := { x with stack := x.stack.take (Config.stackLimit - 1) }
      if s.ownCondition l = .withdrawing then
        (((s.setCtx l y).touchLine l).reResolve (bottom.slots.map fun i => (bottom.record, i))).reexamine
      else s.setCtx l (y.enqueue bottom.returned)

/-- BREAKING ends (R109): room on the stack, the push, and the pick. -/
def State.breakingEnd (s : State) (l : Nat) (e : Entry) : State :=
  let x := s.ctxOf l
  let t := s.makeRoom l { x with current := none }
  let y := t.ctxOf l
  (t.setCtx l { y with stack := { e with resume := some x.origin } :: y.stack }).pickAndTest l

/-! ## A character completion at the dispatch (R92) -/

/-- The next text item offered (R97, R98): a guard space at a line start that needs one, else the symbol. -/
def State.offerText (s : State) (img : Image) (l : Nat) (e : Entry) : State :=
  let x := s.ctxOf l
  let rest := (s.record e.record).text.drop x.pos
  if x.lineStart && needsGuard img e.assigned rest then
    (s.setCtx l { x with guarding := true, lineStart := false }).offer l (.symbol (spaceSym img))
  else
    match rest with
    | σ :: _ => (s.setCtx l { x with guarding := false, lineStart := means img .lf σ }).offer l (.symbol σ)
    | [] => s

/-- TRAILER begins (R91, R99). -/
def State.toTrailer (s : State) (img : Image) (l : Nat) (e : Entry) : State :=
  s.beginFraming l (s.ctxOf l) .trailer (trailerItems img (s.record e.record))

/-- The end of a header line or resume line (R91, R106, R111): a break, or TEXT from the line origin, or TRAILER when
no text is left. -/
def State.toText (s : State) (img : Image) (l : Nat) (e : Entry) : State :=
  let x := s.ctxOf l
  if s.preempts l then s.takeBreak img l
  else if x.origin < (s.record e.record).text.length then
    (s.setCtx l { x with send := .text, framing := [], pos := x.origin, guarding := false, lineStart := true }).offerText
      img l e
  else s.toTrailer img l e

/-- A completion in TEXT (R97, R106, R107). -/
def State.textDone (s : State) (img : Image) (l : Nat) (e : Entry) : State :=
  let x := s.ctxOf l
  let text := (s.record e.record).text
  let y : Ctx :=
    if x.guarding then x
    else
      { x with
        pos := x.pos + 1
        origin := if (text[x.pos]?).elim false (means img .lf) then x.pos + 1 else x.origin }
  let t := s.setCtx l y
  if text.length ≤ y.pos then t.toTrailer img l e
  else if t.preempts l then t.takeBreak img l
  else t.offerText img l e

/-- A completion in a framing: the next item is offered, or the framing ends. -/
def State.framingDone (s : State) (img : Image) (l : Nat) (e : Entry) : State :=
  let x := s.ctxOf l
  let t := s.setCtx l { x with pos := x.pos + 1 }
  match x.framing[x.pos + 1]? with
  | some it => t.offer l it
  | none =>
    match x.send with
    | .header | .resuming => t.toText img l e
    | .trailer => t.entryDone l e
    | .breaking => t.breakingEnd l e
    | .idle | .text => t

/-- A character completion taken on line `l` (R92). In IDLE it has no effect. -/
def State.dispatchCompletion (s : State) (l : Nat) : State :=
  match s.cfg, (s.ctxOf l).current with
  | some img, some e =>
    match (s.ctxOf l).send with
    | .idle => s
    | .text => s.textDone img l e
    | .header | .trailer | .breaking | .resuming => s.framingDone img l e
  | _, _ => s

/-! ## Line failure at the dispatch (R167, R168) -/

/-- The fourth X of the end sequence has been seen completed (R168). -/
def Ctx.endSent (x : Ctx) : Bool := decide (x.send = .trailer) && decide (x.framing.length ≤ x.pos + 3)

/-- The sender told to abandon (R14). -/
def State.abandonItem (s : State) (l : Nat) : State := s.setLine l (s.line l).abandon

/-- The entry in transmission given up, or completed when the fourth X has gone (R167 step 1, R168). -/
def State.giveUpCurrent (s : State) (l : Nat) : State × List Entry :=
  let x := s.ctxOf l
  match x.current with
  | none => (s, [])
  | some e =>
    if x.endSent then ((s.abandonItem l).completeEntry l e, [])
    else ((s.abandonItem l).setCtx l { x.toIdle with current := none, cut := true, origin := 0, lineStart := false }, [e])

/-- A line failure's steps 1 to 5 at the dispatch context of line `l`, with the counts its CIRCUIT report gives. -/
def State.dispatchFailure (s : State) (l : Nat) : State × FailureCounts :=
  if s.hasCtx l then
    let p := s.giveUpCurrent l
    let t := p.1
    let x := t.ctxOf l
    let gone := p.2 ++ x.stack ++ x.queue
    let slots := gone.flatMap fun e => e.slots.map fun i => (e.record, i)
    let u := (t.setCtx l { x with stack := [], queue := [] })
    let v := (if gone.isEmpty then u else u.touchLine l).reResolve slots
    (v.reexamine, ⟨gone.length, slots.length, u.countHeld v slots⟩)
  else (s, ⟨0, 0, 0⟩)

end Sys2Proof.Machine
end

