-- ==== Sys2Proof/Machine/Assembler.lean ====
section
/-! DEFINITION. The message assembler (chapters 2 and 6): what it does with a symbol in each of its states, and at the
line-open event. -/

namespace Sys2Proof.Machine

/-! ## Closing and storing -/

/-- Record `m` of line `l` closed, MUTILATED with a reason when one is given, and completed (R40). -/
def State.closeRecord (s : State) (l m : Nat) (w : Option MutReason) : State :=
  let r := w.elim (s.record m) (s.record m).mutilate
  let t := ((s.setRecord m r).complete m).handOff m []
  match r.mutilated with
  | some reason => t.request (.mutilated (s.circuit l) r.serial r.cls reason (some r.text.length))
  | none => t

/-- One symbol stored at the end of the current record's text (R33), or the reason why it fails. -/
def State.storeSymbol (s : State) (img : Image) (l : Nat) (σ : Symbol) : State × Option MutReason :=
  match (s.masOf l).current with
  | none => (s, none)
  | some m =>
    let r := s.record m
    let put := fun (t : State) =>
      let u := t.write m σ
      if means img .lf σ then u.setMas l { u.masOf l with lineStart := true } else u
    if Config.textLimit ≤ r.text.length then (s, some .length)
    else if r.text.length < Config.blockSize * r.chain.length then (put s, none)
    else
      match s.grantBlock m with
      | some t => (put t, none)
      | none => (s, some .noStore)

/-- The current record truncated (R38): closed and completed; the rest of the message is discarded. -/
def State.truncate (s : State) (l : Nat) (w : MutReason) (lineStart : Bool) : State :=
  match (s.masOf l).current with
  | none => s
  | some m =>
    let t := s.closeRecord l m (some w)
    t.setMas l { (t.masOf l).toHunt with mode := .discard, lineStart := lineStart }

/-- Symbols stored in order; a failure truncates the record and discards the rest (R34, R38): DISCARD's line-start mark
is set when the symbol that could not be stored is an LF (log entry 22). Answers whether it did. -/
def State.storeAll (s : State) (img : Image) (l : Nat) : List Symbol → State × Bool
  | [] => (s, false)
  | σ :: rest =>
    match s.storeSymbol img l σ with
    | (t, none) => t.storeAll img l rest
    | (t, some w) => (t.truncate l w (means img .lf σ), true)

/-! ## The header check (R28 to R32) -/

/-- The outcome of the serial check (R29). -/
inductive SerialOutcome where
  | good | gap (first last count : Nat) | duplicate
  deriving DecidableEq, Repr

/-- The serial check: outcome and expected serial after (R29). -/
def serialCheck (e : Option Nat) (n : Nat) : SerialOutcome × Option Nat :=
  match e with
  | none => (.good, some (nextSerial n))
  | some e =>
    let d := (n + 999 - e) % 999
    if d = 0 then (.good, some (nextSerial n))
    else if d ≤ 499 then (.gap e (prevSerial n) d, some (nextSerial n))
    else (.duplicate, some e)

/-- A serial looked up on the receive stack, from the top down (R113): its place. -/
def State.stackPlace (s : State) (l n : Nat) : Option Nat :=
  (s.masOf l).rstack.findIdx? fun m => decide ((s.record m).serial = some n)

/-- A repeat mark frees a matching stacked record (R117). -/
def State.repeatMark (s : State) (l n : Nat) : State :=
  match s.stackPlace l n with
  | none => s
  | some p =>
    let x := s.masOf l
    (s.setMas l { x with rstack := x.rstack.eraseIdx p }).freeRecord (x.rstack.getD p 0)

/-- The reports of a serial check (R29). -/
def State.serialReports (s : State) (l n : Nat) (e : Option Nat) : SerialOutcome → State
  | .good => s
  | .gap first last count => s.request (.gap (s.circuit l) first last count)
  | .duplicate => s.request (.duplicate (s.circuit l) n (e.getD 0))

/-- The fields the assembler gives a record of a good header (R30). -/
def Record.fromHeader (r : Record) (c authority : Nat) (h : Header) (duplicate : Bool) : Record :=
  { r with
    source := some (.circuit c)
    origin := some h.origin
    filing := h.filing
    serial := some h.serial
    authority := authority
    intercept := if duplicate then some .duplicate else none
    slots := h.dests.map fun o => ⟨.office o, .unrouted⟩ }

/-- The fields the assembler gives a BADHEAD record (R30, R31). -/
def Record.fromBadHeader (r : Record) (c authority : Nat) (service : Option OfficeCode) : Record :=
  { r with
    source := some (.circuit c)
    origin := service
    authority := authority
    intercept := some .badHead
    slots := [⟨.pseudo, .unrouted⟩] }

/-- The assembler begins the text of record `m` (R30). -/
def Mas.toText (x : Mas) (m : Nat) (lineStart : Bool) : Mas :=
  { x with mode := .text, lineStart := lineStart, startSeq := [], header := [], look := [], current := some m }

/-- The assembler discards (R32). -/
def Mas.toDiscard (x : Mas) (lineStart : Bool) : Mas := { x.toHunt with mode := .discard, lineStart := lineStart }

/-- The header check of a good header (R28). -/
def State.goodHeader (s : State) (l : Nat) (h : Header) : State :=
  let s₁ := h.rpt.elim s (s.repeatMark l)
  let e := (s₁.masOf l).expected
  let chk := serialCheck e h.serial
  let s₂ := s₁.setMas l { s₁.masOf l with expected := chk.2 }
  match s₂.grantRecord h.cls 1 with
  | some (m, t) =>
    let r := (t.record m).fromHeader (s.circuit l) (s.lineAuthority l) h (decide (chk.1 = .duplicate))
    ((t.setRecord m r).setMas l ((t.masOf l).toText m true)).serialReports l h.serial e chk.1
  | none =>
    ((s₂.setMas l ((s₂.masOf l).toDiscard true)).serialReports l h.serial e chk.1).request
      (.mutilated (s.circuit l) (some h.serial) h.cls .noStore none)

/-- A granted BADHEAD record begins with the header buffer emptied and the record current (R31). -/
def State.beginBadHead (s : State) (l m : Nat) : State :=
  let r := (s.record m).fromBadHeader (s.circuit l) (s.lineAuthority l) s.serviceCode
  (s.setRecord m r).setMas l ((s.masOf l).toText m false)

/-- The header check of a bad header (R28, R31, R32). `overlong` is the symbol that made it so. -/
def State.badHeader (s : State) (img : Image) (l : Nat) (overlong : Option Symbol) : State :=
  let buf := (s.masOf l).header
  let tail := overlong.elim [crSym img, lfSym img] fun σ => [σ]
  match s.grantRecord .ordinary 1 with
  | some (m, t) =>
    let p := (t.beginBadHead l m).storeAll img l (buf ++ tail)
    if p.2 then p.1 else p.1.setMas l { p.1.masOf l with lineStart := overlong.isNone }
  | none =>
    (s.setMas l ((s.masOf l).toDiscard overlong.isNone)).request
      (.mutilated (s.circuit l) none .ordinary .noStore none)

/-- The header check (R28). -/
def State.headerCheck (s : State) (img : Image) (l : Nat) (overlong : Option Symbol) : State :=
  match overlong, parseHeader img ((s.masOf l).header.drop 4) with
  | none, some h => s.goodHeader l h
  | _, _ => s.badHeader img l overlong

/-! ## Resume and break lines (R114 to R116) -/

/-- Records closed MUTILATED, in order (R115, R116, R118). -/
def State.closeAll (s : State) (l : Nat) (w : MutReason) (ms : List Nat) : State :=
  ms.foldl (fun t m => t.closeRecord l m (some w)) s

/-- A resume line taken in HUNT (R116). -/
def State.resumeLine (s : State) (l n : Nat) (endedCr : Bool) : State :=
  match s.stackPlace l n with
  | none => s
  | some p =>
    let stack := (s.masOf l).rstack
    let t := s.closeAll l .suspend (stack.take p)
    t.setMas l { (t.masOf l).toText (stack.getD p 0) true with rstack := stack.drop (p + 1), resumeLf := endedCr }

/-- The length to which a break line rolls the text back: just after the last LF before the final one (R114). -/
def breakLength (img : Image) (text : List Symbol) : Nat :=
  let t := text.dropLast
  t.length - (t.reverse.takeWhile fun σ => !means img .lf σ).length

/-- A break line of the current message (R114, R115). -/
def State.breakLine (s : State) (img : Image) (l m : Nat) : State :=
  let s₁ := s.rollback m (breakLength img (s.record m).text)
  let stack := (s₁.masOf l).rstack
  let full := decide (Config.stackLimit ≤ stack.length)
  let s₂ := if full then s₁.closeAll l .suspend stack.getLast?.toList else s₁
  s₂.setMas l { (s₂.masOf l).toHunt with rstack := m :: (if full then stack.dropLast else stack) }

/-! ## One symbol in each state (R25) -/

/-- A start sequence found (R26, R36, R39): HEADER, or HUNT while the circuit is WITHDRAWING (R164). That the line-start mark
is clear in HEADER is the model's choice: the rules name the buffer and the counts alone (log entry 46). -/
def State.newHeader (s : State) (l : Nat) (hs : List Symbol) : State :=
  let x := (s.masOf l).toHunt
  if s.adminOf l = .withdrawing then s.setMas l x
  else s.setMas l { x with mode := .header, lineStart := false, header := hs }

/-- HUNT takes a symbol (R26, R164). While WITHDRAWING it is discarded; start-sequence symbols and a lookahead taken
before the OUT are dropped with the first symbol discarded, the model's choice (log entry 24). -/
def State.huntSymbol (s : State) (img : Image) (l : Nat) (σ : Symbol) : State :=
  let x := s.masOf l
  if s.adminOf l = .withdrawing then
    s.setMas l { x with startSeq := [], look := [], lineStart := means img .lf σ }
  else
    let isH := means img (.letter 8) σ
    let look := x.look ++ [σ]
    if isH && decide (x.startSeq.length = 3) then s.newHeader l (x.startSeq ++ [σ])
    else
      let seq := if isH then x.startSeq ++ [σ] else []
      if x.lineStart && completes (resumeForm img) look then
        (s.setMas l { x with startSeq := seq, look := [], lineStart := true }).resumeLine l (lineSerial img look)
          (means img .cr σ)
      else if x.lineStart && begins (resumeForm img) look then s.setMas l { x with startSeq := seq, look := look }
      else s.setMas l { x with startSeq := seq, look := [], lineStart := means img .lf σ }

/-- HEADER takes a symbol (R27). -/
def State.headerSymbol (s : State) (img : Image) (l : Nat) (σ : Symbol) : State :=
  let x := s.masOf l
  if means img .cr σ then s
  else if means img .lf σ then s.headerCheck img l none
  else if Config.headerLimit ≤ x.header.length then s.headerCheck img l (some σ)
  else s.setMas l { x with header := x.header ++ [σ] }

/-- The end sequence in TEXT (R37): the line break that opened its line is removed and the record completes. -/
def State.endSequence (s : State) (img : Image) (l m : Nat) : State :=
  let text := (s.record m).text
  let n :=
    match text.reverse with
    | lf :: cr :: _ => if means img .lf lf then (if means img .cr cr then text.length - 2 else text.length - 1)
      else text.length
    | [lf] => if means img .lf lf then 0 else 1
    | [] => 0
  let t := (s.rollback m n).closeRecord l m none
  t.setMas l (t.masOf l).toHunt

/-- A lookahead that departs: the mark is cleared and its symbols are stored in order (R34). -/
def State.depart (s : State) (img : Image) (l : Nat) (look : List Symbol) : State :=
  ((s.setMas l { s.masOf l with lineStart := false, look := [] }).storeAll img l look).1

/-- TEXT takes a symbol, the resume line-feed mark apart (R33 to R37). R34 has a lookahead depart at a last serial figure
that does not match, R24 and R35 compare a break line completed by its CR or LF: that the lookahead goes on to the terminator
is the model's choice (log entry 47). -/
def State.textTake (s : State) (img : Image) (l m : Nat) (σ : Symbol) : State :=
  let x := s.masOf l
  let look := x.look ++ [σ]
  if x.lineStart then
    if completes (endForm img) look then s.endSequence img l m
    else if completes (startForm img) look then (s.closeRecord l m (some .noEnd)).newHeader l look
    else if completes (breakForm img) look ∧ (s.record m).serial = some (lineSerial img look) then s.breakLine img l m
    else if completes (breakForm img) look then s.depart img l look
    else if begins (endForm img) look || begins (startForm img) look || begins (breakForm img) look then
      s.setMas l { x with look := look }
    else s.depart img l look
  else s.depart img l look

/-- TEXT takes a symbol (R33, R34, R116). -/
def State.textSymbol (s : State) (img : Image) (l : Nat) (σ : Symbol) : State :=
  let x := s.masOf l
  match x.current with
  | none => s
  | some m =>
    let t := s.setMas l { x with resumeLf := false }
    if x.resumeLf && means img .lf σ then t else t.textTake img l m σ

/-- DISCARD takes a symbol (R39, R164). -/
def State.discardSymbol (s : State) (img : Image) (l : Nat) (σ : Symbol) : State :=
  let x := s.masOf l
  let look := x.look ++ [σ]
  if x.lineStart then
    if completes (endForm img) look then s.setMas l x.toHunt
    else if completes (startForm img) look then s.newHeader l look
    else if begins (endForm img) look || begins (startForm img) look then s.setMas l { x with look := look }
    else s.setMas l { x with look := [], lineStart := means img .lf σ }
  else s.setMas l { x with look := [], lineStart := means img .lf σ }

/-- The assembler takes a symbol by its state (R25), and an entry into HUNT or DISCARD makes the withdrawal test. -/
def State.takeSymbol (s : State) (img : Image) (l : Nat) (σ : Symbol) : State :=
  let t :=
    match (s.masOf l).mode with
    | .hunt => s.huntSymbol img l σ
    | .header => s.headerSymbol img l σ
    | .text => s.textSymbol img l σ
    | .discard => s.discardSymbol img l σ
  t.withdrawalTest l false none

/-- A symbol produced by the receiver: delivered unless the circuit is WITHDRAWN (R10). -/
def State.deliver (s : State) (img : Image) (l : Nat) (σ : Symbol) : State :=
  if s.adminOf l = .withdrawn then s else s.takeSymbol img l σ

/-! ## The line-open event (R169) -/

/-- The message under way closed at the line-open event (R169). -/
def State.closeUnderWay (s : State) (img : Image) (l : Nat) : State :=
  let x := s.masOf l
  match x.mode with
  | .hunt | .discard => s
  | .header =>
    match s.grantRecord .ordinary 1 with
    | some (m, t) =>
      let p := (t.beginBadHead l m).storeAll img l x.header
      if p.2 then p.1 else p.1.closeRecord l m (some .line)
    | none => s.request (.mutilated (s.circuit l) none .ordinary .noStore none)
  | .text =>
    match x.current with
    | none => s
    | some m =>
      let p := s.storeAll img l x.look
      if p.2 then p.1 else p.1.closeRecord l m (some .line)

/-- The line-open event (R118, R169): the message under way closed, HUNT at a line start, the withdrawal test, and the
receive stack closed from the top down. -/
def State.lineOpen (s : State) (img : Image) (l : Nat) (counts : Option FailureCounts) : State :=
  let t := s.closeUnderWay img l
  let stack := (t.masOf l).rstack
  let u := t.setMas l { (t.masOf l).toHunt with rstack := [] }
  (u.withdrawalTest l false counts).closeAll l .line stack

end Sys2Proof.Machine
end

