-- ==== Sys2Proof/Machine/Frames.lean ====
section
/-! DEFINITION. Highway frames (R136, R137): the cells of a frame this station sends, and what its decoder reads from
the cells of a frame it follows. -/

namespace Sys2Proof.Machine

/-! ## Numbers in cells -/

/-- A number as a cell. -/
def cellOf (n : Nat) : Byte := BitVec.ofNat 8 n

/-- A number as two cells, the most significant first. -/
def cells2 (n : Nat) : List Byte := [cellOf (n / 256), cellOf n]

/-- An office code as a 16-bit value (R136, code form). -/
def OfficeCode.word (o : OfficeCode) : Nat := o.a * 1024 + o.b * 32 + o.c

/-- A letter index is 1 to 26. -/
def isLetterIdx (i : Nat) : Bool := decide (1 ≤ i) && decide (i ≤ 26)

/-- The office code of a 16-bit value, when it is three letters (R136). -/
def officeOfWord (w : Nat) : Option OfficeCode :=
  let a := w / 1024 % 32
  let b := w / 32 % 32
  let c := w % 32
  if w < 32768 ∧ isLetterIdx a ∧ isLetterIdx b ∧ isLetterIdx c then some ⟨a, b, c⟩ else none

/-- A destination as a 16-bit value: 0 is the pseudo-code (R136). -/
def Dest.word : Dest → Nat
  | .office o => o.word
  | .pseudo => 0

/-- The destination of a 16-bit value, when it is three letters or the pseudo-code. -/
def destOfWord (w : Nat) : Option Dest := if w = 0 then some .pseudo else (officeOfWord w).map .office

/-- A target cell (R136). -/
def Target.cell : Target → Nat
  | .circuit c => c
  | .service k => 128 + k

/-- The target of a cell, when it names one. -/
def targetOfCell (n : Nat) : Option Target :=
  if n < 128 then some (.circuit n) else if n < 144 then some (.service (n - 128)) else none

/-- A condition's number. UNKNOWN is never sent (R151). -/
def Condition.cell : Condition → Nat
  | .inService => 0 | .opened => 1 | .withdrawing => 2 | .withdrawn => 3 | .unfitted => 4 | .unknown => 5

/-- The condition of a number 0 to 4. -/
def conditionOf : Nat → Option Condition
  | 0 => some .inService | 1 => some .opened | 2 => some .withdrawing | 3 => some .withdrawn | 4 => some .unfitted
  | _ => none

/-- A kind's number (R136, R194). -/
def CircuitKind.cell : CircuitKind → Nat
  | .duplex => 0 | .sendOnly => 1 | .receiveOnly => 2 | .unfitted => 3

/-- The kind of a two-bit number. -/
def kindOf (n : Nat) : CircuitKind :=
  match n % 4 with
  | 0 => .duplex | 1 => .sendOnly | 2 => .receiveOnly | _ => .unfitted

/-- A restart kind's number (R136). -/
def RestartKind.cell : RestartKind → Nat
  | .powerOn => 0 | .supplyDip => 1 | .restartPin => 2 | .cold => 3 | .warm => 4

/-- The restart kind of bits 2 to 0 of a MUSTER's cell 6; for 5 to 7 a free value (log entry 13),
`draws` being the counter of free values. -/
def restartKindOf (draws n : Nat) : RestartKind :=
  match if n % 8 < 5 then n % 8 else (Config.freeRestartKind draws).val with
  | 0 => .powerOn | 1 => .supplyDip | 2 => .restartPin | 3 => .cold | _ => .warm

/-- A tag's number (R136). -/
def Tag.cell : Tag → Nat
  | .neutral => 0 | .letters => 1 | .figures => 2 | .error => 3

/-- A symbol as a cell: tag in bits 7 to 6, code in bits 4 to 0 (R136). -/
def Symbol.cell (σ : Symbol) : Byte := cellOf (σ.tag.cell * 64 + σ.code.toNat)

/-- The symbol of a cell; bit 5 is not read (R137). -/
def symbolOf (b : Byte) : Symbol :=
  ⟨match b.toNat / 64 with | 0 => .neutral | 1 => .letters | 2 => .figures | _ => .error, BitVec.ofNat 5 b.toNat⟩

/-- The class of a number 0 to 4. -/
def classOf : Nat → Option MsgClass
  | 0 => some .ordinary | 1 => some .business | 2 => some .urgent | 3 => some .train | 4 => some .emergency
  | _ => none

/-- The two cells of an address mask (R136). -/
def maskCells (addr : List Nat) : List Byte :=
  let bits := fun (base : Nat) => ((List.range 8).map fun i => if base + i ∈ addr then 2 ^ (7 - i) else 0).sum
  [cellOf (bits 0), cellOf (bits 8)]

/-! ## The cells of an own frame -/

/-- A triple's three cells (R136): a diversion of none is 255. -/
def Triple.cells (t : Triple) : List Byte :=
  [cellOf t.circuit, cellOf (t.condition.cell * 16 + t.kind.cell), cellOf (t.diversion.getD 255)]

/-- Whom a frame addresses. -/
def Frame.addr : Frame → List Nat
  | .muster addr _ _ _ _ | .condition addr _ | .carry addr _ _ => addr

/-- The cells of an own frame, but for a CARRY's symbol cells (R136, R143). -/
def State.frameCells (s : State) : Frame → List Byte
  | .condition addr ts =>
    [cellOf 0, cellOf (s.station * 16 + ts.length)] ++ maskCells addr ++ ts.flatMap Triple.cells
  | .muster addr edition configured kind ts =>
    [cellOf 8, cellOf (s.station * 16 + 8)] ++ maskCells addr ++ cells2 edition ++
      [cellOf ((if configured then 128 else 0) + kind.cell)] ++ ts.flatMap Triple.cells
  | .carry addr m listed =>
    let r := s.record m
    [cellOf ((5 - r.cls.num) * 32 + 16 + r.hop * 2), cellOf (s.station * 16 + listed.length)] ++ maskCells addr ++
      [cellOf (r.cls.num * 32 + (if r.mutilated.isSome then 16 else 0) + (if r.intercept.isSome then 8 else 0) +
        (if r.filing.isSome then 4 else 0) + r.authority)] ++
      cells2 (r.origin.elim 0 OfficeCode.word) ++ r.filing.elim [] cells2 ++ [cellOf r.errors] ++
      (listed.flatMap fun x => cells2 (((r.slots[x.1]?).elim .pseudo (·.dest)).word) ++ [cellOf x.2.cell]) ++
      cells2 r.text.length

/-- The symbols a frame carries after its other cells. -/
def State.frameText (s : State) : Frame → List Symbol
  | .carry _ m _ => (s.record m).text
  | .muster .. | .condition .. => []

/-- The cell of an own frame that is about to begin: a symbol is read from the store now (R143), but none is once the frame is
to be cut (R144). -/
def State.readsSymbol (s : State) (f : Flight) : Flight :=
  match f.own with
  | some p =>
    if f.cutting ∨ f.cell < p.2.length then f
    else { f with symbol := ((s.frameText p.1)[f.cell - p.2.length]?).elim 0 Symbol.cell }
  | none => f

/-- Cell `n` of the own frame, up to the cell under way: one of its first cells, or the symbol read. -/
def Flight.ownCell (f : Flight) (n : Nat) : Byte := ((f.own.elim [] (·.2))[n]?).getD f.symbol

/-- The bit a clocking station drives at a bit time (R122): data from bit 7, parity making the number of 1s even,
released in the veto slot. -/
def bitOfCell (b : Byte) (t : Nat) : Bool :=
  if t ≤ 8 then b.getLsbD (8 - t)
  else if t = 9 then decide (((List.range 8).countP fun i => b.getLsbD i) % 2 = 1)
  else true

/-! ## What the decoder reads -/

/-- The number in cell `n`. -/
def rxCell (rx : List Byte) (n : Nat) : Nat := ((rx[n]?).getD 0).toNat

/-- The number in cells `n` and `n + 1`. -/
def rxWord (rx : List Byte) (n : Nat) : Nat := rxCell rx n * 256 + rxCell rx (n + 1)

/-- The kind bits of cell 0: 0 CONDITION, 1 MUSTER, 2 CARRY, 3 none. -/
def rxKind (rx : List Byte) : Nat := rxCell rx 0 / 8 % 4

/-- The frame is a CARRY. -/
def rxIsCarry (rx : List Byte) : Bool := decide (rxKind rx = 2)

/-- The hop field. -/
def rxHop (rx : List Byte) : Nat := rxCell rx 0 / 2 % 4

/-- The sender's number. -/
def rxSender (rx : List Byte) : Nat := rxCell rx 1 / 16

/-- The count of destinations or triples. -/
def rxCount (rx : List Byte) : Nat := rxCell rx 1 % 16

/-- Station `k` is addressed. -/
def rxAddresses (rx : List Byte) (k : Nat) : Bool := (cellOf (rxCell rx (2 + k / 8))).getLsbD (7 - k % 8)

/-- The time-present bit of a CARRY. -/
def rxTimed (rx : List Byte) : Bool := (cellOf (rxCell rx 4)).getLsbD 2

/-- The place of a CARRY's error-count cell. -/
def rxErrorAt (rx : List Byte) : Nat := if rxTimed rx then 9 else 7

/-- The place of the first destination cell of a CARRY. -/
def rxDestAt (rx : List Byte) : Nat := rxErrorAt rx + 1

/-- The place of a CARRY's length cells. -/
def rxLengthAt (rx : List Byte) : Nat := rxDestAt rx + 3 * rxCount rx

/-- The place of a CARRY's first symbol cell. -/
def rxTextAt (rx : List Byte) : Nat := rxLengthAt rx + 2

/-- The text length of a CARRY. -/
def rxTextLength (rx : List Byte) : Nat := rxWord rx (rxLengthAt rx)

/-- The count is in the range of the frame's kind (R136). -/
def rxCountOk (rx : List Byte) : Bool :=
  if rxKind rx = 1 then decide (rxCount rx = 8) else decide (1 ≤ rxCount rx) && decide (rxCount rx ≤ 8)

/-- The first cell of an origin code shows that it is not three letters: bit 15 is set, or the first letter is none. -/
def badOriginStart (n : Nat) : Bool := decide (128 ≤ n) || !isLetterIdx (n / 4)

/-- The last cell read shows a fault for which the decoder discards the frame (R137). Of the two cells of an origin code or
of a text length, the first may show it already. -/
def rxFault (station : Nat) (rx : List Byte) : Bool :=
  match rx.length with
  | 1 => decide (rxKind rx = 3) || decide (rxCell rx 0 % 2 = 1)
  | 2 => !rxCountOk rx || decide (rxSender rx = station)
  | n =>
    rxIsCarry rx &&
      ((decide (n = 5) && decide (5 ≤ rxCell rx 4 / 32)) ||
        (decide (n = 6) && badOriginStart (rxCell rx 5)) ||
        (decide (n = 7) && (officeOfWord (rxWord rx 5)).isNone) ||
        (decide (8 ≤ n) && decide (n = rxLengthAt rx + 1) && decide (Config.textLimit / 256 < rxCell rx (rxLengthAt rx))) ||
        (decide (8 ≤ n) && decide (n = rxTextAt rx) && decide (Config.textLimit < rxTextLength rx)))

/-- The frame length in cells, once the cells read fix it (R136). -/
def rxFrameLength (rx : List Byte) : Option Nat :=
  if rx.length < 2 then none
  else if rxIsCarry rx then (if 8 ≤ rx.length ∧ rx.length = rxTextAt rx then some (rxTextAt rx + rxTextLength rx) else none)
  else if rxKind rx = 1 then some 31
  else some (4 + 3 * rxCount rx)

/-- A destination of a CARRY at place `i`, when it is not ignored (R137). -/
def rxDest (intercept : Option Nat) (rx : List Byte) (i : Nat) : Option (Dest × Target) :=
  let at0 := rxDestAt rx + 3 * i
  match destOfWord (rxWord rx at0), targetOfCell (rxCell rx (at0 + 2)) with
  | some d, some t => if rxHop rx = 3 ∧ some t ≠ intercept.map Target.circuit then none else some (d, t)
  | _, _ => none

/-- A triple at place `at0`, when it is not ignored (R137). -/
def rxTriple (rx : List Byte) (at0 : Nat) : Option Triple :=
  let c := rxCell rx at0
  let q := rxCell rx (at0 + 1)
  let d := rxCell rx (at0 + 2)
  match conditionOf (q / 16) with
  | some cond =>
    if c < 128 ∧ q / 4 % 4 = 0 then some ⟨c, cond, kindOf q, if d < 128 then some d else none⟩ else none
  | none => none

/-- The triples of a CONDITION or MUSTER, those ignored left out. -/
def rxTriples (rx : List Byte) : List Triple :=
  (List.range (rxCount rx)).filterMap fun i => rxTriple rx ((if rxKind rx = 1 then 7 else 4) + 3 * i)

/-- The configured flag of a MUSTER. -/
def rxConfigured (rx : List Byte) : Bool := (cellOf (rxCell rx 6)).getLsbD 7

/-- The edition of a MUSTER. -/
def rxEdition (rx : List Byte) : Nat := rxWord rx 4

/-- The filing time of a CARRY: for a number above 9999 a free value (log entry 13). -/
def rxFiling (draws : Nat) (rx : List Byte) : Option Nat :=
  if rxTimed rx then
    some (if rxWord rx 7 < 10000 then rxWord rx 7 else (Config.freeFilingTime draws).val)
  else none

/-- The authority of a CARRY: for 3 a free value (log entry 13). -/
def rxAuthority (draws : Nat) (rx : List Byte) : Nat :=
  if rxCell rx 4 % 4 < 3 then rxCell rx 4 % 4 else (Config.freeAuthority draws).val

end Sys2Proof.Machine
end

