-- ==== Sys2Proof/Machine/Wires.lean ====
section
/-! DEFINITION. This station's drivers on the two highway wires (R119 to R121): what they do from an event on, part by part
of the bit that follows it. -/

namespace Sys2Proof.Machine

/-- A clocking station within the frame: it has a frame of its own on the wire (R120). -/
def State.clocks (s : State) (f : Flight) : Bool :=
  match s.engine with
  | .contending | .sending | .receipt => f.own.isSome
  | .idle | .waitingIdle | .listening | .stuck => false

/-- This station makes the present clock: of a frame, or of the stop condition of one it has left (R120, R121). -/
def State.clocking (s : State) : Bool := s.flight.elim s.parting.stop s.clocks

/-- The bit this station drives at the present bit time, when it is a clocking station within the cells (R120). In the
receipt slots it drives none (R128). -/
def State.drivenBit (s : State) (f : Flight) : Option Bool :=
  match s.engine with
  | .contending | .sending => f.own.map fun _ => bitOfCell (f.ownCell f.cell) f.bit
  | .idle | .waitingIdle | .listening | .receipt | .stuck => none

/-- This station pulls HD at the sample of the present bit time: a clocking station by the bit it drives, a listener by its
parity veto in the veto slot and by the receipt slots it has taken (R120, R122, R128). Else it releases HD. -/
def State.pullsHd (s : State) : Bool :=
  s.flight.elim false fun f =>
    match s.engine with
    | .contending | .sending => decide (s.drivenBit f = some false)
    | .listening => decide (f.bit = 10) && f.vetoing
    | .receipt => f.own.isNone && f.slotBegun && (if f.slot < 16 then f.heard else f.taking)
    | .idle | .waitingIdle | .stuck => false

/-- HD is still pulled from before the falling edge of HC that begins the present bit: by the start condition (R121), by the
bit before, by a receipt slot of this station's own just read, or as a frame just left has it. -/
def State.heldHd (s : State) : Bool :=
  s.flight.elim s.parting.hd fun f =>
    match s.engine with
    | .contending | .sending =>
      if f.bit = 1 then decide (f.cell = 0)
      else f.own.isSome && !bitOfCell (f.ownCell f.cell) (f.bit - 1)
    | .receipt =>
      f.own.isNone && !f.slotBegun &&
        ((decide (f.slot = s.station + 1) && f.heard) || (decide (f.slot = 16 + s.station + 1) && f.taking))
    | .idle | .waitingIdle | .listening | .stuck => false

/-- A clocking station pulls HC in the low half of a bit (R120, steps 1 and 3). -/
def BitPart.clocked : BitPart → Bool
  | .fall | .low => true
  | .high | .rise | .over => false

/-- A listener holds HC low (R130): until the store has answered its reservation, and in the low half after the sample that
ends its TAKE slot, while its blocks apply the frame. -/
def State.stretches (s : State) (p : BitPart) : Bool :=
  s.flight.elim false fun f =>
    match s.engine with
    | .listening => f.reserveDue && (decide (p = .low) || decide (p = .rise) || decide (p = .over))
    | .receipt =>
      f.own.isNone && f.applied && !f.slotBegun && decide (f.slot = 16 + s.station + 1) && decide (p = .low)
    | .idle | .waitingIdle | .contending | .sending | .stuck => false

/-- This station cuts the frame it sends (R144). -/
def State.cuts (s : State) (f : Flight) : Bool :=
  f.cutting && (decide (s.engine = .contending) || decide (s.engine = .sending))

/-- The falling edge of HC at which the frame is cut is the next: HC is not known to be low. While it is low the present bit
goes on (R144, log entry 37). -/
def State.cutsNext (s : State) (f : Flight) : Bool := s.cuts f && !s.timers.stuck

/-- The bit that follows is a stop condition of this station's own (R121, R127, R144). -/
def State.stopFollows (s : State) : Bool := s.flight.elim s.parting.stop s.cutsNext

/-- HD in a part of the bit: set while HC is low, and held until then by a clocking station, while a listener releases it
at the falling edge (R120). A stop condition pulls it while HC is low and releases it a half-bit after HC rises (R121). -/
def State.driveHd (s : State) : BitPart → Bool
  | .high => s.heldHd
  | .fall => s.heldHd && s.clocking
  | .low | .rise => s.stopFollows || s.pullsHd
  | .over => !s.stopFollows && s.pullsHd

/-- What this station's two drivers do in a part of the bit that follows the last event (R119, R120, R121, R130). After a
falling edge the parts still to come are the last three. That the edges between two commands are read so is log entry 29. -/
def State.drive (s : State) (p : BitPart) : Drive where
  hc := (s.clocking && p.clocked) || s.stretches p
  hd := s.driveHd p

end Sys2Proof.Machine
end

