-- ==== Sys2Proof/Machine/Builder.lean ====
section
/-! DEFINITION. The frame builder (R140, R141), the outcomes of an own frame, presence (R139, R148), and the end of an
event: alarm evaluation, owed picks, the mark of a CARRY to be cut, the
builder's choice, OALM. -/

namespace Sys2Proof.Machine

/-! ## The builder's choice (R140) -/

/-- The map entry of a circuit as a triple (R151). -/
def State.tripleOf (s : State) (c : Nat) : Triple :=
  ⟨c, (s.mapOf c).condition, (s.mapOf c).kind, (s.mapOf c).diversion⟩

/-- The not-before of station `k` has passed. -/
def State.ready (s : State) (k : Nat) : Bool := decide ((s.peer k).notBefore = .passed)

/-- Source 1: a MUSTER to every pending station whose not-before has passed (R153). -/
def State.musterChoice (s : State) : Option Frame :=
  let addr := (List.range 16).filter fun k => decide (k ∈ s.musterPending) && s.ready k
  if addr.isEmpty then none
  else some (.muster addr (s.cfg.elim 0 (·.edition)) s.cfg.isSome s.restart.last (s.ownCircuits.map s.tripleOf))

/-- A peer that source 2 addresses (R140). -/
def State.owesNow (s : State) (k : Nat) : Bool :=
  let p := s.peer k
  decide (k ≠ s.station) && decide (p.presence ≠ .silent) && decide (p.flag ≠ .clear) && !p.owed.isEmpty && s.ready k

/-- Source 2: a CONDITION with the union of the owed sets of the peers it addresses (R151). -/
def State.conditionChoice (s : State) : Option Frame :=
  let addr := (List.range 16).filter s.owesNow
  if addr.isEmpty then none
  else some (.condition addr
    ((s.ownCircuits.filter fun c => addr.any fun k => decide (c ∈ (s.peer k).owed)).map s.tripleOf))

/-- The stations a CARRY of record `m` would address (R140). -/
def State.carryAddr (s : State) (m : Nat) : List Nat :=
  (s.pendingStations m).filter fun k => decide ((s.peer k).presence = .present) && s.ready k

/-- Source 3: the first carry-list element with a pending station ready; it lists the slots aimed at the stations
addressed (R140, R143). -/
def State.carryChoice (s : State) : Option Frame :=
  (s.carryList.find? fun m => !(s.carryAddr m).isEmpty).map fun m =>
    .carry (s.carryAddr m) m ((s.carrySlots m).filter fun x => decide (x.2.owner ∈ s.carryAddr m))

/-- The builder's choice (R140). An UNCONFIGURED station uses source 1 only. -/
def State.choice (s : State) : Option Frame :=
  match s.musterChoice with
  | some f => some f
  | none =>
    if s.cfg.isSome then
      match s.conditionChoice with
      | some f => some f
      | none => s.carryChoice
    else none

/-- The arrival stamp of the record a frame carries. -/
def State.stampOf (s : State) : Frame → Option Nat
  | .carry _ m _ => (s.record m).stamp
  | .muster .. | .condition .. => none

/-- The offer may be made or renewed: no own frame is on the wire (R141). -/
def State.renews (s : State) : Bool :=
  match s.engine with
  | .idle | .waitingIdle | .listening | .stuck => true
  | .contending | .sending => false
  | .receipt => s.flight.elim true fun f => f.own.isNone

/-- The engine rests: WAITING IDLE when a frame is offered, else IDLE (R123 note 1). -/
def State.restEngine (s : State) : State :=
  { s with engine := if s.offered.isSome then .waitingIdle else .idle }

/-- The builder makes or renews its offer (R141); the hold-off moment of a renewed offer is kept. -/
def State.build (s : State) : State :=
  if s.running ∧ s.renews then
    let t := { s with offered := s.choice.map fun f => ⟨f, s.offered.elim s.holdoffDue (·.afterVeto), s.stampOf f⟩ }
    match s.engine with
    | .idle | .waitingIdle => t.restEngine
    | .listening | .stuck | .contending | .sending | .receipt => t
  else s

/-! ## Outcomes of an own frame (R123, R149) -/

/-- The timers as an event outside a frame leaves them with HC released, the idle run running when both wires read released
(R121). With `false` none runs. -/
def HwTimers.outside (released : Bool) : HwTimers := ⟨released, false, false, false⟩

/-- An own frame leaves the wire and is no longer offered; `vetoed` fixes the next offer's hold-off (R129, R141), and
`p` says what is still driven: a stop condition (R121), or nothing, both wires released at once. The idle run runs when both
wires read `released`; with a stop condition still to be made it does not, and it begins there. -/
def State.ownFrameOver (s : State) (vetoed : Bool) (p : Parting) (released : Bool) : State :=
  { s with
    flight := none
    offered := none
    holdoffDue := vetoed
    engine := .idle
    timers := HwTimers.outside released
    parting := p }

/-- The outcome VETOED, with a stop condition made, HD being pulled as `hd` says until the falling edge (R121, R123): the
streak rises to 8 at most, with one report on reaching 8 (R149). -/
def State.vetoedOutcome (s : State) (hd : Bool) : State :=
  let t := { s.ownFrameOver true ⟨true, hd⟩ false with streak := min Config.streakLimit (s.streak + 1) }
  if s.streak + 1 = Config.streakLimit then t.request (.highway .vetoStreak) else t

/-- The outcome ABANDONED: no count changes (R149). -/
def State.abandonedOutcome (s : State) (p : Parting) (released : Bool) : State := s.ownFrameOver false p released

/-- A slot is still CARRYING to station `k` (R144, R147). -/
def State.carriesTo (s : State) (m i k : Nat) : Bool :=
  (s.slotState m i).carryTarget.elim false fun t => decide (t.owner = k)

/-- Record `m` is still the one that a CARRY was built from: it stands and bears the stamp it had then (log entry 37). -/
def State.bears (s : State) (stamp : Option Nat) (m : Nat) : Bool :=
  decide ((s.record m).state = .standing) && decide (stamp = (s.record m).stamp)

/-- The arrival stamp that the offer keeps of the record of its CARRY. -/
def State.offeredStamp (s : State) : Option Nat := s.offered.bind (·.stamp)

/-- The last of the frame's `n` cells has not begun: HC has not fallen for its first bit (R120, log entry 37). -/
def State.beforeLastCell (s : State) (f : Flight) (n : Nat) : Bool :=
  decide (f.cell + 1 < n) || (decide (f.cell + 1 = n) && decide (f.bit = 1) && !s.timers.stuck)

/-- Every listed slot of the CARRY on the wire has left CARRYING to its station before the last cell (R144). -/
def State.cutDue (s : State) : Bool :=
  (decide (s.engine = .contending) || decide (s.engine = .sending)) &&
    match s.flight with
    | some f =>
      match f.own with
      | some (.carry _ m listed, _) =>
        f.length.elim false (s.beforeLastCell f) &&
          listed.all fun x => !(s.bears s.offeredStamp m && s.carriesTo m x.1 x.2.owner)
      | _ => false
    | none => false

/-- At the end of an event: a CARRY whose listed slots have all left CARRYING is to be cut (R144). -/
def State.markCut (s : State) : State :=
  if s.cutDue then { s with flight := s.flight.map fun f => { f with cutting := true } } else s

/-! ## Presence (R139, R148) -/

/-- A peer is heard: PRESENT with unheard count 0. From SILENT it is owed all own circuits and reported (R139). The
re-examination that the move calls for is the caller's. -/
def State.hear (s : State) (k : Nat) : State :=
  if k = s.station then s
  else
    let p := s.peer k
    match p.presence with
    | .present => s.setPeer k { p with unheard := 0 }
    | .unknown => s.setPeer k { p with presence := .present, unheard := 0 }
    | .silent =>
      (s.setPeer k { p with presence := .present, unheard := 0, owed := s.ownCircuits }).request (.highway (.present k))

/-- Hearing `k` moves it to PRESENT (R139), which calls for a re-examination (R67). -/
def State.hearMoves (s : State) (k : Nat) : Bool :=
  decide (k ≠ s.station) && decide ((s.peer k).presence ≠ .present)

/-- A peer becomes SILENT (R148). -/
def State.becomeSilent (s : State) (k : Nat) : State :=
  let t := (s.setPeer k { s.peer k with presence := .silent, owed := [] })
  let u := { t with musterPending := t.musterPending.filter fun j => decide (j ≠ k) }
  let v := u.request (.highway (.silent k))
  v.reResolve (v.carryingWhere fun t => decide (t.owner = k))

/-! ## The end of an event -/

/-- The gauges evaluated, and their changes gathered into one ALARM report (R177). -/
def State.evaluateGauges (s : State) (gs : List Gauge) : State :=
  let p := s.evaluate gs
  if p.2.isEmpty then p.1 else p.1.request (.alarm p.2)

/-- The evaluations that reports themselves call for, and the picks their slots call for, until nothing is left. Each
level adds one report at most (R177), so `n` above the number of levels is never used up. R177 makes each an evaluation
event of its own and does not say whether several reports of one event give one or one each: that all of them are taken in
one evaluation, with the depth and age that an ALARM report's own entry changed, is the model's choice (log entry 7). -/
def State.settleReports : Nat → State → State
  | 0, s => s
  | n + 1, s =>
    if s.ev.own.isEmpty && s.ev.rep.isEmpty then s
    else
      let gs := s.ev.own ++ s.ev.rep
      State.settleReports n
        (({ s with ev := { s.ev with own := [], rep := [] } }.evaluateGauges gs).takePicks)

/-- The event's own changes evaluated, its picks taken, then what its reports changed (R89, R177, log entries 7, 8). -/
def State.settle (s : State) : State :=
  State.settleReports 64 (({ s with ev := { s.ev with own := [] } }.evaluateGauges s.ev.own).takePicks)

/-- The end of every event: what it owes is settled, a CARRY to be cut is marked, the builder
chooses, OALM follows its inputs. -/
def State.finish (s : State) : State := { s.settle.markCut.build with ev := Event.none }.driveOalm

end Sys2Proof.Machine
end

