-- ==== Sys2Proof/Machine/Highway.lean ====
section
/-! DEFINITION. What frames do (chapter 8): the commit of a carried record, the applying of CONDITION and MUSTER
frames, and the reading of an own frame's receipts. -/

namespace Sys2Proof.Machine

/-- The counter of free values advanced: no later free value is tied to an earlier one (log entry 13). -/
def State.drawn (s : State) : State := { s with draws := s.draws + 1 }

/-! ## A CARRY taken (R145, R146, R57) -/

/-- A destination is kept when its target is an own circuit or this station's service (R145). -/
def State.keeps (s : State) : Target → Bool
  | .circuit c => s.isOwn c
  | .service k => decide (k = s.station)

/-- A kept destination added unless its code is already kept (R145). -/
def keepOnce (acc : List (Dest × Target)) (x : Dest × Target) : List (Dest × Target) :=
  if acc.any fun y => decide (y.1 = x.1) then acc else acc ++ [x]

/-- The kept destinations of the frame, in frame order (R145). -/
def State.keptDests (s : State) (rx : List Byte) : List (Dest × Target) :=
  (((List.range (rxCount rx)).filterMap (rxDest (s.cfg.map (·.intercept)) rx)).filter fun x => s.keeps x.2).foldl
    keepOnce []

/-- The fields a commit sets from the frame (R57, R146). Flag reasons are this station's own
(R46); `draws` is the counter of free values. -/
def Record.fromFrame (r : Record) (draws : Nat) (rx : List Byte) (kept : List (Dest × Target)) : Record :=
  { r with
    source := some (.station (rxSender rx))
    cls := (classOf (rxCell rx 4 / 32)).getD .ordinary
    origin := officeOfWord (rxWord rx 5)
    filing := rxFiling draws rx
    serial := none
    hop := min 3 (rxHop rx + 1)
    authority := rxAuthority draws rx
    mutilated := if (cellOf (rxCell rx 4)).getLsbD 4 then some .line else none
    intercept := if (cellOf (rxCell rx 4)).getLsbD 3 then some .unknown else none
    errors := rxCell rx (rxErrorAt rx)
    slots := kept.map fun x => ⟨x.1, .unrouted⟩ }

/-- The configured flag of a peer becomes SET (R138). -/
def State.flagSet (s : State) (k : Nat) : State := s.setPeer k { s.peer k with flag := .set }

/-- The flag of `k` becoming SET is a change (R67). -/
def State.flagMoves (s : State) (k : Nat) : Bool := decide ((s.peer k).flag ≠ .set)

/-- The held list re-examined where `cause` calls for it. -/
def State.reexamineIf (s : State) (cause : Bool) : State := if cause then s.reexamine else s

/-- The commit of the reserved record `m` (R146): the sender is heard and its flag SET, the record completed from the
frame, and handed to the resolver with its named targets. That the hearing and its report come before the commit, and the
re-examination between the commit and the hand-off, is the model's choice (log entry 44). -/
def State.commitCarry (s : State) (rx : List Byte) (m : Nat) : State :=
  let k := rxSender rx
  let cause := s.hearMoves k || s.flagMoves k
  let kept := s.keptDests rx
  let t := (s.hear k).flagSet k
  let u := (t.setRecord m ((t.record m).fromFrame s.draws rx kept)).complete m
  (u.reexamineIf cause).handOff m (kept.map fun x => some x.2)

/-! ## CONDITION and MUSTER taken (R65, R152, R154) -/

/-- Writing `new` over `old` is a cause of re-examination (R67, R152 step 4): the condition becomes IN SERVICE, the kind
becomes DUPLEX or SEND-ONLY, or the diversion changes. -/
def MapEntry.causes (old new : MapEntry) : Bool :=
  (decide (new.condition = .inService) && decide (old.condition ≠ .inService)) ||
    (new.kind.sends && decide (new.kind ≠ old.kind)) || decide (new.diversion ≠ old.diversion)

/-- One entry of the sender's written (R65); the mark says whether a cause of re-examination arose. -/
def State.writeEntry (acc : State × Bool) (x : Nat × MapEntry) : State × Bool :=
  (acc.1.setMap x.1 x.2, acc.2 || (acc.1.mapOf x.1).causes x.2)

/-- The entries a frame's triples write: those of circuits its sender owns (R65). -/
def triplesOf (k : Nat) (ts : List Triple) : List (Nat × MapEntry) :=
  (ts.filter fun t => decide (t.circuit / 8 = k)).map fun t => (t.circuit, ⟨t.condition, t.kind, t.diversion⟩)

/-- Every CARRYING slot aimed at a circuit that is now unavailable is re-resolved, and with `services` every one aimed at
a service that is now unavailable too (R152 step 3, R154 step 5, log entry 12). -/
def State.dropUnavailable (s : State) (services : Bool) : State :=
  s.reResolve (s.carryingWhere fun t =>
    match t with
    | .circuit c => !s.circuitAvailable c
    | .service k => services && !s.serviceAvailable k)

/-- A CONDITION frame applied (R152). -/
def State.applyCondition (s : State) (rx : List Byte) : State :=
  let k := rxSender rx
  let cause := s.hearMoves k || s.flagMoves k
  let p := (triplesOf k (rxTriples rx)).foldl State.writeEntry ((s.hear k).flagSet k, cause)
  (p.1.dropUnavailable false).reexamineIf p.2

/-- The entry of the station table after a MUSTER (R154, steps 1 and 3). -/
def Peer.mustered (p : Peer) (rx : List Byte) (own : List Nat) : Peer :=
  { p with
    flag := if rxConfigured rx then .set else .clear
    edition := if rxEdition rx = 0 then none else some (rxEdition rx)
    refusals := 0
    notBefore := .passed
    owed := if rxConfigured rx then own else [] }

/-- The entries a MUSTER writes: its triples, or UNFITTED for all of an unconfigured sender's circuits (R65, R154). -/
def musterEntries (k : Nat) (rx : List Byte) : List (Nat × MapEntry) :=
  if rxConfigured rx then triplesOf k (rxTriples rx) else (List.range 8).map fun l => (8 * k + l, MapEntry.unfitted)

/-- The EDITION report of a MUSTER, when one is called for (R154, step 4). -/
def State.editionReport (s : State) (rx : List Byte) : State :=
  match s.cfg with
  | none => s
  | some img =>
    if rxConfigured rx ∧ rxEdition rx ≠ img.edition then
      s.request (.edition (rxSender rx) (rxEdition rx) img.edition (restartKindOf s.draws (rxCell rx 6)))
    else s

/-- A MUSTER frame applied (R154). -/
def State.applyMuster (s : State) (rx : List Byte) : State :=
  let k := rxSender rx
  let cause := s.hearMoves k || (rxConfigured rx && s.flagMoves k)
  let t := s.hear k
  let t₁ := t.setPeer k ((t.peer k).mustered rx s.ownCircuits)
  let p := (musterEntries k rx).foldl State.writeEntry (t₁, cause)
  let t₂ := if rxConfigured rx then p.1
    else { p.1 with musterPending := p.1.musterPending.filter fun j => decide (j ≠ k) }
  ((t₂.editionReport rx).dropUnavailable true).reexamineIf p.2

/-! ## Reading the receipts (R147, R151, R153) -/

/-- The content of an own frame that station `k` has taken. Of a CARRY, each slot listed with a target of `k` and still
CARRYING to one becomes DONE (R144, R147). -/
def State.takenBy (s : State) (k : Nat) : Frame → State
  | .carry _ m listed =>
    listed.foldl (fun t x => if x.2.owner = k ∧ t.carriesTo m x.1 k then t.finishSlot m x.1 else t) s
  | .condition _ ts =>
    let p := s.peer k
    s.setPeer k { p with owed := p.owed.filter fun c => !ts.any fun t => decide (t.circuit = c ∧ s.tripleOf c = t) }
  | .muster .. => { s with musterPending := s.musterPending.filter fun j => decide (j ≠ k) }

/-- The content of an own frame as its receipts are read, `stamp` being that of the record it was built from: a CARRY whose
record has been released since the frame began lists no slot any more, whatever the record's number now stands for (R144). -/
def State.fixedContent (s : State) (stamp : Option Nat) (f : Frame) : Frame :=
  match f with
  | .carry addr m listed => .carry addr m (if s.bears stamp m then listed else [])
  | .muster .. | .condition .. => f

/-- The retry gap for peer `k` after `n` refusals in a row, in milliseconds (R147). -/
def State.retryGap (s : State) (k n : Nat) : Nat :=
  let i := min 7 n
  10 * s.cfg.elim ((Config.freeRetryGap s.draws k).val + 1) fun img => img.retryGaps.getD i 0

/-- What is read for one addressed station, and its effect (R147). -/
def State.readReceipt (f : Frame) (stamp : Option Nat) (heard take : List Nat) (s : State) (k : Nat) : State :=
  let p := s.peer k
  if k ∈ take then (s.setPeer k { p with refusals := 0, unheard := 0 }).takenBy k (s.fixedContent stamp f)
  else if k ∈ heard then
    s.setPeer k { p with
      notBefore := .waiting (s.retryGap k p.refusals)
      refusals := min 255 (p.refusals + 1)
      unheard := 0 }
  else if p.unheard = 2 then (s.setPeer k { p with unheard := 3 }).becomeSilent k
  else s.setPeer k { p with unheard := min 3 (p.unheard + 1) }

/-- The stations of a HEARD set become PRESENT, with one re-examination for all that moved (R139, R147). -/
def State.hearAll (s : State) (ks : List Nat) : State :=
  (ks.foldl State.hear s).reexamineIf (ks.any s.hearMoves)

/-- An own frame COMPLETED with its receipt sets (R147). A TAKE read without its HEARD is read as both. The stamp is read
before the offer ends with its outcome. That the stations of the HEARD set are heard after every addressed station has been
read is the model's choice (log entry 39). -/
def State.readReceipts (s : State) (f : Frame) (heardSet takeSet : List Nat) : State :=
  let heard := (List.range 16).filter fun k => decide (k ∈ heardSet) || decide (k ∈ takeSet)
  let t := f.addr.foldl (State.readReceipt f s.offeredStamp heard takeSet) { s.ownFrameOver false ⟨true, false⟩ false with streak := 0 }
  (t.hearAll heard).drawn

end Sys2Proof.Machine
end

