-- ==== Sys2Proof/Machine/FrameEngine.lean ====
section
/-! DEFINITION. The frame engine (chapter 7): what a sample of HD does in each state, for the sender and for a
listener, the ways a frame is left, and the cut of a CARRY. -/

namespace Sys2Proof.Machine

/-- A frame at its first bit. -/
def Flight.fresh (own : Option (Frame × List Byte)) (length : Option Nat) : Flight where
  own := own
  symbol := 0
  cutting := false
  discarded := false
  cell := 0
  bit := 1
  slot := 0
  bits := []
  rx := []
  length := length
  reserveDue := false
  reserved := none
  vetoing := false
  slotBegun := false
  hdRead := false
  heard := false
  taking := false
  applied := false
  heardSet := []
  takeSet := []

/-- The timers within a frame after a rising edge of HC (R131, R132). -/
def HwTimers.high : HwTimers := ⟨false, true, false, false⟩

/-- The timers after a falling edge of HC, in a frame or outside one but in STUCK (R121, R131, R132). -/
def HwTimers.low : HwTimers := ⟨false, false, true, false⟩

/-- The frame in progress written. -/
def State.setFlight (s : State) (f : Flight) : State := { s with flight := some f }

/-- The engine is in a frame (R131). -/
def Engine.inFrame : Engine → Bool
  | .contending | .sending | .listening | .receipt => true
  | .idle | .waitingIdle | .stuck => false

/-- The frame is left, and the engine rests (R121, R123). -/
def State.leaveFrame (s : State) (released : Bool) : State :=
  { s with flight := none, timers := HwTimers.outside released }.restEngine

/-! ## The listener -/

/-- A record reserved for the frame is freed unless the frame has been applied (R59, R128). -/
def State.freeReserved (s : State) (f : Flight) : State :=
  match f.reserved with
  | some m => if f.applied then s else s.freeRecord m
  | none => s

/-- The sender of a frame that reached this station's receipt slots without discard is heard (R139, log entry 10). -/
def State.noteSender (s : State) (f : Flight) : State :=
  if f.heard ∧ f.discarded = false then (s.hear (rxSender f.rx)).reexamineIf (s.hearMoves (rxSender f.rx)) else s

/-- A listened frame ends, by a veto, an early stop or start, a stall or STUCK (R123, R128, R139). -/
def State.endListening (s : State) (f : Flight) (released : Bool) : State :=
  ((s.freeReserved f).leaveFrame released).noteSender f

/-- The decoder discards the frame (R137): any reservation is freed, nothing further is driven. -/
def State.discardFrame (s : State) (f : Flight) : State :=
  (s.freeReserved f).setFlight
    { f with discarded := true, reserved := none, reserveDue := false, vetoing := false, heard := false }

/-- The eight data bits of a cell, the first the most significant (R122). -/
def byteOfBits (bits : List Bool) : Byte := cellOf ((bits.take 8).foldl (fun n b => 2 * n + b.toNat) 0)

/-- Parity over the bits read: the number of 1s is even (R122). -/
def parityOk (bits : List Bool) : Bool := decide (bits.countP id % 2 = 0)

/-- The cells still to come are symbols of a CARRY. -/
def Flight.inText (f : Flight) : Bool :=
  rxIsCarry f.rx && decide (8 ≤ f.rx.length) && decide (f.rx.length = rxTextAt f.rx)

/-- A CARRY is received for reservation: addressed here, from a fitted sender (R145). With no image every reservation
is asked for and refused (R61). -/
def State.reserves (s : State) (rx : List Byte) : Bool :=
  rxIsCarry rx && rxAddresses rx s.station && (s.cfg.isNone || s.fitted (rxSender rx))

/-- The flight with a cell before any text added to what has been read. -/
def Flight.withCell (f : Flight) (b : Byte) (reserves : List Byte → Bool) : Flight :=
  let rx := f.rx ++ [b]
  let len := rxFrameLength rx
  { f with rx := rx, length := len, reserveDue := len.isSome && reserves rx }

/-- A cell that passed parity handed to the decoder (R129, R137, R145). -/
def State.handCell (s : State) (f : Flight) (b : Byte) : State :=
  if f.inText then
    match f.reserved with
    | some m => (s.write m (symbolOf b)).setFlight f
    | none => s.setFlight f
  else
    let f' := f.withCell b s.reserves
    if rxFault s.station f'.rx then (s.discardFrame f').finish else s.setFlight f'

/-- Nine bits read (R122): the cell is handed on, or HD is pulled in the veto slot. -/
def State.nineBits (s : State) (f : Flight) : State :=
  if parityOk f.bits then s.handCell f (byteOfBits f.bits) else s.setFlight { f with vetoing := true }

/-- A bit sampled. -/
def Flight.sampled (f : Flight) (hd : Bool) : Flight := { f with bit := f.bit + 1, bits := f.bits ++ [hd], hdRead := hd }

/-- The next cell, the veto slot before it having read released. -/
def Flight.nextCell (f : Flight) : Flight :=
  { f with cell := f.cell + 1, bit := 1, bits := [], vetoing := false, hdRead := true }

/-- A veto slot with no veto (R123): the next cell, or the receipt slots after the last. -/
def State.cellEnd (s : State) (f : Flight) : State :=
  let f' := s.readsSymbol f.nextCell
  let t := s.setFlight f'
  if f'.length = some f'.cell then { t with engine := .receipt }
  else if s.engine = .contending ∧ f'.cell = 2 then { t with engine := .sending }
  else t

/-- A listener's sample in the cells (R122, R127). HC cannot rise while this station stretches it for a reservation. At a
veto HD reads pulled, so the idle run stands (R121); after one of its own it holds HD to the next falling edge. -/
def State.listenerSample (s : State) (f : Flight) (hd : Bool) : State :=
  if f.discarded then { s with timers := .high }.setFlight { f with hdRead := hd }
  else if f.reserveDue then s
  else
    let t := { s with timers := .high }
    if f.bit = 10 then
      if hd && !f.vetoing then t.cellEnd f else { t.endListening f false with parting := ⟨false, f.vetoing⟩ }.finish
    else if f.bit = 9 then t.nineBits (f.sampled hd)
    else t.setFlight (f.sampled hd)

/-! ## The sender -/

/-- Arbitration lost (R125): LISTENING from this bit, with every bit read before it; the own frame stays offered. The
decoder is handed a cell 0 read whole before the loss in cell 1. -/
def State.loseArbitration (s : State) (f : Flight) : State :=
  match f.own with
  | none => s
  | some _ =>
    let g := Flight.fresh none none
    let g₁ := if f.cell = 0 then g else (g.withCell (f.ownCell 0) s.reserves).nextCell
    let g₂ : Flight := { g₁ with bit := f.bit + 1, bits := f.bits ++ [false], hdRead := false }
    let t := { s with engine := .listening, timers := .high }
    if f.bit = 9 then t.nineBits g₂ else t.setFlight g₂

/-- A sender's or contender's sample in the cells (R125, R126, R127). -/
def State.senderSample (s : State) (f : Flight) (hd : Bool) : State :=
  let t := { s with timers := .high }
  if f.bit = 10 then (if hd then t.cellEnd f else (t.vetoedOutcome s.pullsHd).finish)
  else if s.drivenBit f = some hd then t.setFlight (f.sampled hd)
  else if s.engine = .contending ∧ hd = false then (t.loseArbitration f).finish
  else (t.vetoedOutcome s.pullsHd).finish

/-- A receipt slot read by the sender (R128). -/
def Flight.readSlot (f : Flight) (hd : Bool) : Flight :=
  { f with
    slot := f.slot + 1
    hdRead := hd
    heardSet := if hd = false ∧ f.slot < 16 then insertRising f.slot f.heardSet else f.heardSet
    takeSet := if hd = false ∧ 16 ≤ f.slot then insertRising (f.slot - 16) f.takeSet else f.takeSet }

/-- The sample of a receipt slot by the sender; after slot 31 the frame is COMPLETED (R128, R147). -/
def State.senderReceipt (s : State) (f : Flight) (hd : Bool) : State :=
  let f' := f.readSlot hd
  if f.slot = 31 then
    match f.own with
    | some p => (s.readReceipts p.1 f'.heardSet f'.takeSet).finish
    | none => s
  else { s with timers := .high }.setFlight f'

/-! ## The receipt slots of a listener (R128) -/

/-- The present receipt slot is one of this station's own two. -/
def State.atOwnSlot (s : State) (f : Flight) : Bool :=
  decide (f.slot = s.station) || decide (f.slot = 16 + s.station)

/-- The frame is one this station takes (R128, R145, R152, R154). -/
def State.takes (s : State) (f : Flight) : Bool :=
  rxAddresses f.rx s.station && s.fitted (rxSender f.rx) && f.heard &&
    (if rxIsCarry f.rx then f.reserved.isSome else s.configured)

/-- The timers at the sample that ends the TAKE slot. An expiry of the stuck timer that comes together with this sample is
taken after it, so a stuck timer that runs is not stopped here: R133 has the frame applied and then abandoned (log entry
49). -/
def HwTimers.atTake (t : HwTimers) : HwTimers := ⟨false, true, t.stuck, false⟩

/-- The frame applied at the sample that ends the TAKE slot, which this station pulls (R128, R146, R152, R154). -/
def State.applyFrame (s : State) (f : Flight) : State :=
  let t := { s with timers := s.timers.atTake }.setFlight
    { f with slot := f.slot + 1, slotBegun := false, hdRead := false, applied := true }
  (if rxKind f.rx = 0 then t.applyCondition f.rx
  else if rxKind f.rx = 1 then t.applyMuster f.rx
  else f.reserved.elim t (t.commitCarry f.rx)).drawn.finish

/-- The sample that ends this station's TAKE slot after it has pulled TAKE. -/
def State.applyDue (s : State) (f : Flight) : Bool :=
  f.own.isNone && !f.discarded && decide (f.slot = 16 + s.station) && f.slotBegun && f.taking

/-- A listener's sample in the receipt slots, or of the bit in which the sender makes its stop condition. An own slot must
have begun; where it is pulled, HD reads so. -/
def State.listenerReceipt (s : State) (f : Flight) (hd : Bool) : State :=
  if f.discarded then { s with timers := .high }.setFlight { f with hdRead := hd }
  else if 32 ≤ f.slot then { s with timers := .high }.setFlight { f with slot := 33, hdRead := hd }
  else if s.atOwnSlot f && !f.slotBegun then s
  else if s.applyDue f then s.applyFrame f
  else { s with timers := .high }.setFlight { f with slot := f.slot + 1, slotBegun := false, hdRead := hd && !s.pullsHd }

/-! ## Edges outside a frame, and the cut of a frame (R121, R132, R144) -/

/-- The timers in STUCK after a rising edge of HC (R132). -/
def HwTimers.releasing : HwTimers := ⟨false, false, false, true⟩

/-- A rising edge of HC seen outside a frame, HD reading `hd`. It stops the stuck timer; the idle run starts when both wires
read released and stops when HD is pulled (R121). At the stop condition this station is making HD is its own, released a
half-bit later, where the run begins. In STUCK the release timer starts (R132). That the command stands for such an edge is
the model's choice (log entry 5). -/
def State.clockRises (s : State) (hd : Bool) : State :=
  match s.engine with
  | .idle | .waitingIdle =>
    { s with timers := .outside (hd || s.parting.stop), parting := ⟨false, s.parting.stop && !hd⟩ }
  | .stuck => { s with timers := .releasing }
  | .contending | .sending | .listening | .receipt => s

/-- This station has a frame on the wire that it cuts (R144). -/
def State.cutIsDue (s : State) : Bool := s.flight.elim false s.cuts

/-- The sender cuts its frame at a falling edge of HC: a stop condition as for a veto (R127), with the outcome ABANDONED and
no count changed (R144). -/
def State.cutFrame (s : State) : State :=
  { s.abandonedOutcome ⟨true, false⟩ false with timers := .low }.finish

/-! ## A sample in any state -/

/-- A sample of HD at a rising edge of HC (R120), in whatever state the engine is. Of a frame to be cut it presupposes the
falling edge, but where HC is known to be low: it is then the rising edge of the stop condition (R144, log entry 37). -/
def State.sample (s : State) (hd : Bool) : State :=
  match s.flight with
  | none => s
  | some f =>
    match s.engine with
    | .contending | .sending => if s.cutsNext f then s.cutFrame.clockRises hd else s.senderSample f hd
    | .listening => s.listenerSample f hd
    | .receipt => if f.own.isSome then s.senderReceipt f hd else s.listenerReceipt f hd
    | .idle | .waitingIdle | .stuck => s

/-- A frame abandoned at a stall or at STUCK (R131, R132). -/
def State.abandonFrame (s : State) (released : Bool) : State :=
  match s.flight with
  | none => { s with timers := HwTimers.outside released }
  | some f => if f.own.isSome then s.abandonedOutcome .released released else s.endListening f released

end Sys2Proof.Machine
end

