-- ==== Sys2Proof/Machine/Image.lean ====
section
/-! DEFINITION. The configuration image (R194): its fields as the station reads them, and the validation of R195. A
byte and a two-byte number of the image are read as a cell and two cells of a frame are, most significant first. -/

namespace Sys2Proof.Machine

/-! ## Fields -/

/-- The meaning of a decode table byte, when the number has one (R194). -/
def meaningOfByte (n : Nat) : Option Meaning :=
  if 1 ≤ n ∧ n ≤ 26 then some (.letter n)
  else if 32 ≤ n ∧ n ≤ 41 then some (.figure (n - 32))
  else if 48 ≤ n ∧ n ≤ 63 then some (.sign n)
  else
    match n with
    | 64 => some .cr | 65 => some .lf | 66 => some .space | 67 => some .ltrs | 68 => some .figs | 69 => some .blank
    | _ => none

/-- The 64 pairs of the decode table (R194). -/
def imgTable (b : List Byte) : List (Option Meaning) := (List.range 64).map fun i => meaningOfByte (rxCell b (32 + i))

/-- The route count. -/
def imgRoutes (b : List Byte) : Nat := rxCell b 96

/-- The place of route entry `i`. -/
def imgRouteAt (i : Nat) : Nat := 97 + 5 * i

/-- The place of the station block of station `k`. -/
def imgStationAt (b : List Byte) (k : Nat) : Nat := 97 + 5 * imgRoutes b + 10 * k

/-- The place of the check word. -/
def imgCheckAt (b : List Byte) : Nat := 257 + 5 * imgRoutes b

/-- The fitted stations: the first byte's bit 7 is station 0. -/
def imgFitted (b : List Byte) : List Nat :=
  (List.range 16).filter fun k => (cellOf (rxCell b (2 + k / 8))).getLsbD (7 - k % 8)

/-- The three target bytes of route entry `i`. -/
def imgTargets (b : List Byte) (i : Nat) : List Nat := (List.range 3).map fun j => rxCell b (imgRouteAt i + 2 + j)

/-- The line rate of a two-bit number. -/
def rateOf (n : Nat) : Rate :=
  match n % 4 with
  | 0 => .baud45 | 1 => .baud50 | 2 => .baud75 | _ => .baud100

/-- A line's byte of a station block. -/
def lineCfgOf (n : Nat) : LineCfg where
  kind := kindOf (n / 64)
  rate := rateOf (n / 16)
  authority := n / 4 % 4
  watch := decide (n / 2 % 2 = 1)

/-- The station block of station `k`. -/
def imgStation (b : List Byte) (k : Nat) : StationBlock where
  service := officeOfWord (rxWord b (imgStationAt b k))
  lines := (List.range 8).map fun l => lineCfgOf (rxCell b (imgStationAt b k + 2 + l))

/-- A valid image's fields (R194). -/
def Image.parse (b : List Byte) : Image where
  edition := rxWord b 0
  fitted := imgFitted b
  intercept := rxCell b 4
  supervisor := (officeOfWord (rxWord b 5)).getD ⟨0, 0, 0⟩
  holdLimit := rxCell b 7
  retryGaps := (List.range 8).map fun i => rxCell b (8 + i)
  depth := ⟨rxCell b 16, rxCell b 17⟩
  age := ⟨rxCell b 18, rxCell b 19⟩
  blocks := ⟨rxWord b 20, rxWord b 22⟩
  records := ⟨rxCell b 24, rxCell b 25⟩
  held := ⟨rxWord b 26, rxWord b 28⟩
  depthOn := (cellOf (rxCell b 30)).getLsbD 7
  ageOn := (cellOf (rxCell b 30)).getLsbD 6
  blocksOn := (cellOf (rxCell b 30)).getLsbD 5
  recordsOn := (cellOf (rxCell b 30)).getLsbD 4
  heldOn := (cellOf (rxCell b 30)).getLsbD 3
  warningsLatched := (cellOf (rxCell b 30)).getLsbD 1
  alarmsLatched := (cellOf (rxCell b 30)).getLsbD 0
  errorCode := BitVec.ofNat 5 (rxCell b 31)
  decodeTable := (imgTable b).map fun m => m.getD .blank
  routes := (List.range (imgRoutes b)).map fun i =>
    ⟨(officeOfWord (rxWord b (imgRouteAt i))).getD ⟨0, 0, 0⟩, (imgTargets b i).map targetOfCell⟩
  stations := (List.range 16).map (imgStation b)

/-! ## Validation (R195) -/

/-- The six control meanings (R6). -/
def controls : List Meaning := [.cr, .lf, .space, .ltrs, .figs, .blank]

/-- A pair's meaning is a control. -/
def isControl (m : Option Meaning) : Bool := controls.any fun k => decide (m = some k)

/-- The decode table is complete and unambiguous (R6, conditions 1 to 5). -/
def tableOk (t : List (Option Meaning)) : Bool :=
  let ls := t.take 32
  let fs := t.drop 32
  t.all (fun m => m.isSome) &&
    ((List.range 26).all fun i => decide (ls.count (some (.letter (i + 1))) = 1)) &&
    ((List.range 10).all fun d => decide (fs.count (some (.figure d)) = 1)) &&
    (controls.all fun k => decide (ls.count (some k) = 1) && decide (fs.count (some k) = 1) &&
      decide (ls.idxOf (some k) = fs.idxOf (some k))) &&
    (List.zipWith (fun l f => isControl l == isControl f) ls fs).all id

/-- The image was read to its check word, which is the sum it should hold. An image that ends before is invalid (log
entry 14). -/
def imgSumOk (b : List Byte) : Bool :=
  decide (imgRoutes b ≤ 240) && decide (imgCheckAt b + 2 ≤ b.length) &&
    decide (rxWord b (imgCheckAt b) = ((b.take (imgCheckAt b)).foldl (fun n x => n + x.toNat) 0) % 65536)

/-- The route table's codes are three letters and its targets name something or none. -/
def imgRoutesOk (b : List Byte) : Bool :=
  (List.range (imgRoutes b)).all fun i =>
    (officeOfWord (rxWord b (imgRouteAt i))).isSome &&
      (imgTargets b i).all fun n => (targetOfCell n).isSome || decide (n = 255)

/-- The supervisor code and the service codes of fitted stations are three letters. -/
def imgCodesOk (b : List Byte) : Bool :=
  (officeOfWord (rxWord b 5)).isSome && (imgFitted b).all fun k => (imgStation b k).service.isSome

/-- The intercept circuit belongs to a fitted station and is fitted itself. -/
def imgInterceptOk (b : List Byte) : Bool :=
  let c := rxCell b 4
  decide (c / 8 ∈ imgFitted b) &&
    ((imgStation b (c / 8)).lines[c % 8]?).elim false fun x => decide (x.kind ≠ .unfitted)

/-- A number is in a range that starts at 1. -/
def inRange (n top : Nat) : Bool := decide (1 ≤ n) && decide (n ≤ top)

/-- The edition, the hold limit, the retry gaps, the thresholds and the error code are in their ranges. -/
def imgRangesOk (b : List Byte) : Bool :=
  decide (rxWord b 0 ≠ 0) && decide (rxCell b 7 ≠ 0) &&
    ((List.range 8).all fun i => decide (rxCell b (8 + i) ≠ 0)) &&
    (inRange (rxCell b 16) 128 && inRange (rxCell b 17) 128) &&
    (inRange (rxCell b 18) 255 && inRange (rxCell b 19) 255) &&
    (inRange (rxWord b 20) 1024 && inRange (rxWord b 22) 1024) &&
    (inRange (rxCell b 24) 128 && inRange (rxCell b 25) 128) &&
    (inRange (rxWord b 26) 1024 && inRange (rxWord b 28) 1024) &&
    decide (rxCell b 31 ≤ 31)

/-- No own circuit has authority 3. -/
def imgOwnOk (station : Nat) (b : List Byte) : Bool :=
  (imgStation b station).lines.all fun x => decide (x.authority ≠ 3)

/-- The image is valid for the station of this number (R195). -/
def imageOk (station : Nat) (b : List Byte) : Bool :=
  imgSumOk b && decide (station ∈ imgFitted b) && tableOk (imgTable b) && imgRoutesOk b && imgCodesOk b &&
    imgInterceptOk b && imgRangesOk b && imgOwnOk station b

/-- The image as it comes into force: none when it is invalid (R195, R196). -/
def readImage (station : Nat) (b : List Byte) : Option Image :=
  if imageOk station b then some (Image.parse b) else none

end Sys2Proof.Machine
end

