-- ==== Sys2Proof/Machine/Restarts.lean ====
section
/-! DEFINITION. The restarts (R191 to R198): the restart record, the loss of state in a hold, the coming into service at
the end of a load, and the WARM restart. -/

namespace Sys2Proof.Machine

/-! ## The restart record (R192) -/

/-- The flag of a kind set. POWER-ON writes the record whole instead (`RestartRecord.afterPowerOn`). -/
def RestartRecord.flagged (r : RestartRecord) : RestartKind → RestartRecord
  | .powerOn => { r with power := true }
  | .supplyDip => { r with dip := true }
  | .restartPin => { r with pin := true }
  | .cold => { r with cold := true }
  | .warm => { r with warm := true }

/-- The record at the start of a restart of a kind (R192). -/
def RestartRecord.begun (r : RestartRecord) (k : RestartKind) : RestartRecord :=
  match k with
  | .powerOn => .afterPowerOn
  | .warm => { r.flagged .warm with last := .warm, warms := min 255 (r.warms + 1) }
  | .supplyDip | .restartPin | .cold => { r.flagged k with last := k }

/-! ## Hold and load (R191, R193) -/

/-- The state of every block lost; the restart record, the level of the input pins and the commands waiting stay (and the
counter of free values, log entry 13). -/
def State.blockLoss (s : State) : State :=
  { State.reset with
    restart := s.restart
    lines := Vector.ofFn fun l : Fin 8 => Line.fresh (s.line l.val).rxd .ready false
    draws := s.draws
    pending := s.pending }

/-- A hold of a kind begins (R191, R192). -/
def State.beginHold (s : State) (k : RestartKind) : State :=
  { s.blockLoss with phase := .hold k, restart := s.restart.begun k }

/-- A supply trip or a fall of nRST (R191, R192): a new hold, or a further cause of the present one. -/
def State.hardwareCause (s : State) (k : RestartKind) : State :=
  match s.phase with
  | .unpowered => s
  | .hold .powerOn => s
  | .hold _ => { s with restart := s.restart.flagged k }
  | .loading | .running => s.beginHold k

/-- The read order and the starting address, as CFG_DO sends them (R193). -/
def readOrder : List Bool := [false, false, false, false, false, false, true, true] ++ List.replicate 16 false

/-- A full restart's straps are sampled and its configuration read begins (R193, steps 1 and 2). -/
def State.beginLoad (s : State) (straps : BitVec 4) : State :=
  { s.blockLoss with phase := .loading, station := straps.toNat, cfgCs := true, cfgOut := readOrder }

/-! ## What each block holds after a restart -/

/-- A line interface after a restart (R19, R20). -/
def Line.restarted (rxd receives watches : Bool) : Line :=
  Line.fresh rxd (if receives && !rxd then .spacingHold else .ready) (watches && !rxd)

/-- Every line interface takes its restart values (R19, R20). -/
def State.restartLines (s : State) : State :=
  { s with lines := Vector.ofFn fun l : Fin 8 =>
      Line.restarted (s.line l.val).rxd (s.kind l.val).receives (s.watches l.val) }

/-- The map takes its restart values (R83, R84): own conditions derived with wire state MARKING, own diversions kept,
peers not learned. -/
def State.restartMap (s : State) : State :=
  { s with map := Vector.ofFn fun c : Fin 128 =>
      if s.isOwn c.val then
        ⟨deriveCondition (s.kind (lineOf c.val)) (s.adminOf (lineOf c.val)) .marking, s.kind (lineOf c.val),
          (s.mapOf c.val).diversion⟩
      else MapEntry.unlearned }

/-- The highway controller takes its restart values (R134, R135, R157, R158), HC and HD reading as given. -/
def State.restartHighway (s : State) (hc hd : Bool) : State :=
  { s with
    engine := .idle
    offered := none
    holdoffDue := false
    flight := none
    timers := ⟨hc && hd, false, !hc, false⟩
    parting := .released
    peers := peersFresh s.station (if s.cfg.isSome then .set else .clear) (s.cfg.map (·.edition))
    streak := 0 }

/-- The MUSTER pending set is made (R153). -/
def State.makeMusterPending (s : State) : State :=
  { s with musterPending :=
      if s.cfg.isSome then s.fittedPeers else (List.range 16).filter fun k => decide (k ≠ s.station) }

/-! ## The end of a load (R193, step 4; R196, R197) -/

/-- The load ends with the image read, HC and HD reading as given. The START report of an UNCONFIGURED station is
dropped by `State.request`. -/
def State.endLoad (s : State) (image : List Byte) (hc hd : Bool) : State :=
  let t := { s.blockLoss with phase := .running, station := s.station, cfg := readImage s.station image }
  (((t.restartLines.restartMap).restartHighway hc hd).makeMusterPending).request .start

/-! ## The WARM restart (R198) -/

/-- A dispatch context rebuilt from its entries (R105). -/
def Ctx.rebuilt (x : Ctx) : Ctx :=
  { Ctx.fresh with
    queue := (x.current.toList ++ x.stack).foldl (fun q e => insertBy Entry.before e.returned q) x.queue
    next := x.next }

/-- A withdrawal still under way is taken as complete (R174). -/
def Admin.afterWarm : Admin → Admin
  | .inn => .inn
  | .withdrawing | .withdrawn => .withdrawn

/-- Every FILLING record is freed (R62). -/
def State.freeFilling (s : State) : State := (s.recordsIn .filling).foldl State.freeRecord s

/-- The assemblers, the admin states and the dispatch contexts take their WARM values (R42, R105, R174). -/
def State.warmBlocks (s : State) : State :=
  { s with
    mas := s.mas.map fun x => Mas.fresh x.expected
    admin := s.admin.map Admin.afterWarm
    ctx := s.ctx.map Ctx.rebuilt }

/-- The entries on WITHDRAWN circuits are removed, and their slots are answered (R174, R198 step 3). -/
def State.pullWithdrawn (s : State) : State × List (Nat × Nat) :=
  (List.range 8).foldl
    (fun acc l =>
      if acc.1.adminOf l = .withdrawn then
        let p := acc.1.pullQueue l
        (p.1, acc.2 ++ p.2)
      else acc)
    (s, [])

/-- Every gauge is to be evaluated at the end of the event. -/
def State.touchAll (s : State) : State := allGauges.foldl State.touch s

/-- The WARM restart (R198), HC and HD reading as given. Step 8 and the builder's first offer come at the event's end
(`State.finish`). -/
def State.warmRestart (s : State) (hc hd : Bool) : State :=
  let t := { s with restart := s.restart.begun .warm }
  let u := ((t.warmBlocks.freeFilling.restartLines).restartMap).restartHighway hc hd
  let p := u.pullWithdrawn
  let v := (p.1.reResolve p.2).reexamine
  let w := (List.range 8).foldl (fun t l => if t.hasCtx l then t.pick l else t) v
  (w.makeMusterPending.request .start).touchAll

end Sys2Proof.Machine
end

