-- ==== Sys2Proof/Machine/RestartEvents.lean ====
section
/-! DEFINITION. The commands of the start-up loader (chapter 11): supply, restart pin, the end of a hold, the end of the
configuration load. -/

namespace Sys2Proof.Machine

/-- POWER_ON (R191, R192): an unpowered station enters the hold of POWER-ON. -/
def execPowerOn (s : State) : Host.Outcome State Fault Refusal :=
  whenever (decide (s.phase = .unpowered)) s (s.beginHold .powerOn)

/-- SUPPLY_DIP (R191, R192). -/
def execSupplyDip (s : State) : Host.Outcome State Fault Refusal := .next (s.hardwareCause .supplyDip)

/-- RESTART_PIN (R191, R192). -/
def execRestartPin (s : State) : Host.Outcome State Fault Refusal := .next (s.hardwareCause .restartPin)

/-- The station is in restart hold. -/
def State.inHold (s : State) : Bool :=
  match s.phase with
  | .hold _ => true
  | .unpowered | .loading | .running => false

/-- RESTART_HOLD_END (R193, steps 1 and 2): the straps are sampled and the configuration read begins. -/
def execRestartHoldEnd (straps : BitVec 4) (s : State) : Host.Outcome State Fault Refusal :=
  whenever s.inHold s (s.beginLoad straps)

/-- CONFIGURATION_LOAD_END (R193 to R197): the station comes into service, configured or UNCONFIGURED. -/
def execConfigurationLoadEnd (image : List Byte) (hc hd : Bool) (s : State) : Host.Outcome State Fault Refusal :=
  whenever (decide (s.phase = .loading)) s (s.endLoad image hc hd).finish

/-- SUPPLY_REMOVED (R191): all state is lost, the restart record too (log entry 27 says what it reads as). -/
def execSupplyRemoved (s : State) : Host.Outcome State Fault Refusal :=
  whenever (decide (s.phase ≠ .unpowered)) s { s.blockLoss with phase := .unpowered, restart := .afterPowerOn }

end Sys2Proof.Machine
end

