-- ==== Sys2Proof/Machine/LineEvents.lean ====
section
/-! DEFINITION. The commands of the receive side of a line (chapter 1): level changes of RXD, the start sample, the
arrival of a character, and the expiries of the wire watch (chapter 9). -/

namespace Sys2Proof.Machine

/-! ## Level changes (R4, R16, R17) -/

/-- The wire watch at a change of RXD to `marking` (R16, R17). -/
def Line.watchEdge (x : Line) (marking : Bool) : Line :=
  match x.wire with
  | .marking => { x with openTimer := !marking }
  | .opened => { x with restoreTimer := marking }

/-- The receiver at a change of RXD to `marking` (R4). -/
def Line.receiverEdge (x : Line) (marking : Bool) : Line :=
  match x.rx, marking with
  | .ready, false => { x with rx := .start }
  | .spacingHold, true => { x with rx := .ready }
  | _, _ => x

/-- A line interface at a change of RXD to `marking`. -/
def Line.edge (x : Line) (receives watches marking : Bool) : Line :=
  let y := { x with rxd := marking }
  let z := if watches then y.watchEdge marking else y
  if receives then z.receiverEdge marking else z

/-- RXD of line `l` reads `marking`. Outside service the pin alone follows (R191, R193). -/
def State.rxdLevel (s : State) (l : Nat) (marking : Bool) : State :=
  let x := s.line l
  if x.rxd = marking then s
  else if s.running then s.setLine l (x.edge (s.kind l).receives (s.watches l) marking)
  else s.setLine l { x with rxd := marking }

/-- RXD_LEVEL_CHANGE (R4, R16, R17). -/
def execRxdLevelChange (l : Nat) (marking : Bool) (s : State) : Host.Outcome State Fault Refusal :=
  onLine l (.next (s.rxdLevel l marking))

/-- START_SAMPLE (R4): spacing moves START to CODE, marking is a false start. -/
def execStartSample (l : Nat) (s : State) : Host.Outcome State Fault Refusal :=
  onLine l (whenever (s.running && decide ((s.line l).rx = .start)) s
    (s.setLine l { s.line l with rx := if (s.line l).rxd then .ready else .code }))

/-! ## Character arrival (R4, R5, R8, R9, R10) -/

/-- The levels of the five code units of a character, the first unit first (R5): true is marking. -/
def unitLevels (code : Code) : List Bool := (List.range 5).map code.getLsbD

/-- The code that sampled units form: they weigh 1, 2, 4, 8 and 16 in order, and a marking unit counts (R5). -/
def codeOfUnits (units : List Bool) : Code :=
  BitVec.ofNat 5 (List.zipWith (fun weight unit => if unit then weight else 0) [1, 2, 4, 8, 16] units).sum

/-- One code-unit sample (R4): the level read is one code unit, and the fifth moves the receiver to STOP. The units
sampled before it stand beside the line interface (log entry 6). -/
def Line.unitSample (p : Line × List Bool) (level : Bool) : Line × List Bool :=
  let units := p.2 ++ [level]
  (if units.length = 5 then { p.1 with rx := .stop } else p.1, units)

/-- The five code-unit samples of a character (R4), at 1.5 to 5.5 units. -/
def Line.sampleUnits (x : Line) (levels : List Bool) : Line × List Bool := levels.foldl Line.unitSample (x, [])

/-- The tag of a code that is neither a shift nor one of CR, LF, SPACE and BLANK (R8). -/
def Case.tag : Case → Tag
  | .letters => .letters
  | .figures => .figures

/-- A character arrives with a framing result, the level of RXD at the stop sample: the line interface after it (READY,
or SPACING HOLD after an error), and the symbol produced (R4, R8, R9). -/
def Line.arrive (img : Image) (x : Line) (code : Code) : Line × Option Symbol :=
  if x.rxd then
    let y := { x with rx := .ready }
    match meaningOf img x.rxCase code with
    | some .ltrs => ({ y with rxCase := .letters }, none)
    | some .figs => ({ y with rxCase := .figures }, none)
    | some .blank => (y, none)
    | some .cr | some .lf | some .space => (y, some ⟨.neutral, code⟩)
    | some (.letter _) | some (.figure _) | some (.sign _) | none => (y, some ⟨x.rxCase.tag, code⟩)
  else ({ x with rx := .spacingHold }, some ⟨.error, code⟩)

/-- The samples of a character and its arrival taken on line `l`: the five code units, whose levels `code` gives, form
the code received, and the stop sample follows (R4, R5). -/
def State.arrival (s : State) (img : Image) (l : Nat) (code : Code) : State :=
  let q := (s.line l).sampleUnits (unitLevels code)
  let p := q.1.arrive img (codeOfUnits q.2)
  let t := s.setLine l p.1
  p.2.elim t (t.deliver img l)

/-- The receiver of line `l` is within a character whose start has been accepted. -/
def State.reading (s : State) (l : Nat) : Bool :=
  s.running && (decide ((s.line l).rx = .code) || decide ((s.line l).rx = .stop))

/-- CHARACTER_ARRIVAL (R5, R8 to R10, R25). -/
def execCharacterArrival (l : Nat) (code : Code) (s : State) : Host.Outcome State Fault Refusal :=
  onLine l (whenever (s.reading l) s (s.cfg.elim s fun img => (s.arrival img l code).finish))

/-! ## The wire watch's expiries -/

/-- The line interface at the open-line expiry (R16). -/
def Line.goOpen (x : Line) : Line :=
  { x with wire := .opened, rx := .halted, rxCase := .letters, openTimer := false, restoreTimer := false }

/-- The line failure at the resolver, the dispatch and the assembler (R167, R169), and its CIRCUIT report (R160). On a
WITHDRAWN circuit the assembler alone takes the event. -/
def State.lineFails (s : State) (img : Image) (l : Nat) : State :=
  match s.adminOf l with
  | .withdrawn => s.lineOpen img l none
  | .inn =>
    let before := s.ownCondition l
    let p := (s.updateCondition l).dispatchFailure l
    let t := p.1.lineOpen img l none
    t.request (.circuit (s.circuit l) before (t.ownCondition l) .lineOpen (some p.2))
  | .withdrawing =>
    let p := (s.updateCondition l).dispatchFailure l
    (p.1.withdrawalTest l false (some p.2)).lineOpen img l (some p.2)

/-- The open-line timer of line `l` runs in wire state MARKING (R16). -/
def State.openDue (s : State) (l : Nat) : Bool :=
  s.running && s.watches l && decide ((s.line l).wire = .marking) && (s.line l).openTimer

/-- OPEN_LINE_EXPIRY (R16, R167 to R169). -/
def execOpenLineExpiry (l : Nat) (s : State) : Host.Outcome State Fault Refusal :=
  onLine l (whenever (s.openDue l) s
    (s.cfg.elim s fun img => ((s.setLine l (s.line l).goOpen).lineFails img l).finish))

/-- The line interface at the restore expiry (R17). -/
def Line.goMarking (x : Line) : Line :=
  { x with wire := .marking, rx := .ready, rxCase := .letters, openTimer := false, restoreTimer := false }

/-- The condition after the restore expiry and what it calls for (R170). -/
def State.lineRestored (s : State) (l : Nat) : State :=
  let before := s.ownCondition l
  let t := s.updateCondition l
  if t.ownCondition l = .inService ∧ before ≠ .inService then
    (t.owePick l).reexamine.request (.circuit (s.circuit l) before .inService .lineRestored none)
  else t

/-- The restore timer of line `l` runs in wire state OPEN (R17). -/
def State.restoreDue (s : State) (l : Nat) : Bool :=
  s.running && s.watches l && decide ((s.line l).wire = .opened) && (s.line l).restoreTimer

/-- RESTORE_EXPIRY (R17, R170). -/
def execRestoreExpiry (l : Nat) (s : State) : Host.Outcome State Fault Refusal :=
  onLine l (whenever (s.restoreDue l) s ((s.setLine l (s.line l).goMarking).lineRestored l).finish)

end Sys2Proof.Machine
end

