-- ==== Sys2Proof/Machine/SendEvents.lean ====
section
/-! DEFINITION. The commands of the send side of a line: the ends of the characters it keys (R11, R14, R92). -/

namespace Sys2Proof.Machine

/-- The sender of line `l` is in a state. -/
def State.sending (s : State) (l : Nat) (t : TxState) : Bool := s.running && decide ((s.line l).tx = t)

/-- CHARACTER_COMPLETION (R11, R92): the last character of the item in progress ends, the sender goes FREE, and the
dispatch takes the completion. -/
def execCharacterCompletion (l : Nat) (s : State) : Host.Outcome State Fault Refusal :=
  onLine l (whenever (s.sending l .keying) s ((s.setLine l (s.line l).rest).dispatchCompletion l).finish)

/-- INSERTED_SHIFT_END (R11, R12): the item's own code is keyed. -/
def execInsertedShiftEnd (l : Nat) (s : State) : Host.Outcome State Fault Refusal :=
  onLine l (whenever (s.sending l .shifting) s
    (s.cfg.elim s fun img => s.setLine l ((s.line l).afterShift img)))

/-- DRAINING_END (R14): the held item starts, or the sender goes FREE. No completion is raised. -/
def execDrainingEnd (l : Nat) (s : State) : Host.Outcome State Fault Refusal :=
  onLine l (whenever (s.sending l .draining) s
    (s.cfg.elim s fun img => s.setLine l ((s.line l).afterDraining img)))

end Sys2Proof.Machine
end

