-- ==== Sys2Proof/Machine/OfficeEvents.lean ====
section
/-! DEFINITION. The office minute (R179), the hold limit (R79), the circuit request (R161 to R166) and the rest of a
service message (R183). -/

namespace Sys2Proof.Machine

/-! ## The office minute and the hold limit -/

/-- OFFICE_MINUTE_ADVANCE (R177, R179): the minute moves on by one modulo 65536 and every level is evaluated. -/
def execOfficeMinuteAdvance (s : State) : Host.Outcome State Fault Refusal :=
  whenever s.running s ({ s with minute := s.minute + 1 }.touchAll).finish

/-- The HELD slots whose age has reached the hold limit and whose overdue mark is clear, in held-list order (R79). -/
def State.expired (s : State) : List (Nat × Nat) :=
  s.cfg.elim [] fun img => s.heldWhere fun since overdue _ => !overdue && decide (img.holdLimit ≤ ageOf s.minute since)

/-- An expired slot is sent to the intercept circuit; one that stays HELD because that circuit is unavailable is marked
overdue (R79). -/
def State.expireSlot (s : State) (x : Nat × Nat) : State :=
  let t := s.sendToIntercept x.1 x.2
  match t.slotState x.1 x.2 with
  | .held since _ .noRoute => t.setSlotState x.1 x.2 (.held since true .noRoute)
  | .held _ _ (.busy _) | .unrouted | .queued _ | .carrying _ | .done _ => t

/-- HOLD_LIMIT_EXPIRY (R79, R80): every expired slot, in held-list order. -/
def execHoldLimitExpiry (s : State) : Host.Outcome State Fault Refusal :=
  whenever (s.running && !s.expired.isEmpty) s (s.expired.foldl State.expireSlot s).finish

/-! ## The circuit request (R161) -/

/-- Why a circuit of the request is refused, if it is. -/
def State.refusal (s : State) (c : Nat) : Option RequestOutcome :=
  if s.isOwn c = false then some .notOwn
  else if s.kind (lineOf c) = .unfitted then some .unfitted
  else none

/-- The circuits of a part of the request, each once, in ascending order. -/
def rising (cs : List Nat) : List Nat := cs.foldl (fun acc c => insertRising c acc) []

/-- The circuits of a part that remain. -/
def State.remaining (s : State) (cs : List Nat) : List Nat := (rising cs).filter fun c => (s.refusal c).isNone

/-- The reasons for which a request is invalid, its remaining circuits being given (R161). Their order, and so that of the
INVALID line of the COMMAND report, is the model's choice (log entry 38): R187 says only "each reason that held". -/
def invalidReasons (img : Image) (source : Option Source) (outs ins : List Nat) : List InvalidReason :=
  (if !outs.isEmpty && !ins.isEmpty then [.mixed] else []) ++
    (if img.intercept ∈ outs then [.intercept] else []) ++
    (if outs.any (fun c => decide (source = some (.circuit c))) then [.ownLine] else [])

/-- An admin state set by the request, and the condition derived (R159, R162, R166). -/
def State.moveAdmin (a : Admin) (s : State) (c : Nat) : State := (s.setAdmin (lineOf c) a).updateCondition (lineOf c)

/-- A circuit returned to admin IN: an assembler in HUNT takes it as an entry into HUNT, and a circuit that is IN
SERVICE is owed the pick (R166). -/
def State.returnIn (s : State) (c : Nat) : State :=
  let l := lineOf c
  let t := if (s.masOf l).mode = .hunt then s.setMas l (s.masOf l).toHunt else s
  if t.ownCondition l = .inService then t.owePick l else t

/-- The unstarted entries of the circuits removed, their slots answered together. -/
def State.pullQueues (s : State) (cs : List Nat) : State × List (Nat × Nat) :=
  cs.foldl (fun acc c => let p := acc.1.pullQueue (lineOf c); (p.1, acc.2 ++ p.2)) (s, [])

/-- The outcome of an OUT circuit: `t` is the station before the request and `u` after it. -/
def outOutcome (t u : State) (ignored : Bool) (c : Nat) : RequestOutcome :=
  match t.refusal c with
  | some r => r
  | none =>
    if ignored then .ignored
    else
      match t.adminOf (lineOf c), u.adminOf (lineOf c) with
      | .inn, .withdrawn => .withdrawn
      | .inn, _ => .withdrawing
      | .withdrawing, _ | .withdrawn, _ => .noChange

/-- The outcome of an IN circuit: `t` is the station before the request. -/
def inOutcome (t : State) (c : Nat) : RequestOutcome :=
  match t.refusal c with
  | some r => r
  | none => if t.adminOf (lineOf c) = .inn then .noChange else .inn

/-- The request's lines in circuit order (R187). That an OUT stands before an IN of the same circuit is the model's choice
(log entry 38): R187 says only circuit order. -/
def requestLines (t u : State) (ignored : Bool) (outs ins : List Nat) : List RequestLine :=
  sortBy (fun a b => decide (a.circuit < b.circuit))
    (((rising outs).map fun c => ⟨true, c, outOutcome t u ignored c⟩) ++
      (rising ins).map fun c => ⟨false, c, inOutcome t c⟩)

/-- The circuit request carried out whole (R161 to R166): all admin states, then the slots of the unstarted entries of
the OUT circuits, the withdrawal tests, the returns to IN, and one re-examination. -/
def State.circuitRequest (s : State) (img : Image) (q : Rest) : State × List RequestLine × List InvalidReason :=
  let outs := s.remaining q.outs
  let ins := s.remaining q.ins
  let invalid := invalidReasons img q.source outs ins
  let outNow := if invalid.isEmpty then outs.filter fun c => decide (s.adminOf (lineOf c) = .inn) else []
  let inNow := ins.filter fun c => decide (s.adminOf (lineOf c) ≠ .inn)
  let s₁ := inNow.foldl (State.moveAdmin .inn) (outNow.foldl (State.moveAdmin .withdrawing) s)
  let p := s₁.pullQueues outNow
  let s₂ := p.1.reResolve p.2
  let s₃ := outNow.foldl (fun t c => t.withdrawalTest (lineOf c) true none) s₂
  let s₄ := (inNow.foldl State.returnIn s₃).reexamine
  (s₄, requestLines s s₄ (!invalid.isEmpty) q.outs q.ins, invalid)

/-! ## The rest of a service message (R183) -/

/-- Step 1: a diverted circuit's unstarted entries are re-resolved and the held list re-examined (R171). -/
def State.moveDiverted (s : State) (c : Nat) : State :=
  let p := s.pullQueue (lineOf c)
  (p.1.reResolve p.2).reexamine

/-- Step 2: the circuit request, if it has at least one circuit. -/
def State.requestIfAny (s : State) (img : Image) (q : Rest) : State × List RequestLine × List InvalidReason :=
  if q.outs.isEmpty && q.ins.isEmpty then (s, [], []) else s.circuitRequest img q

/-- Steps 1 to 3 for the message kept as `q`. -/
def State.restSteps (s : State) (img : Image) (q : Rest) : State :=
  let p := (q.moves.foldl State.moveDiverted s).requestIfAny img q
  if q.restart = some .cold then p.1 else p.1.request (.command q p.2.1 p.2.2)

/-- Step 4: the fixed restart. A WARM restart is an event of its own, so what steps 1 to 3 owe is settled first (R198,
log entry 32). A COLD restart is a full restart without a hold (R191, R193). -/
def State.fixedRestart (s : State) (straps : BitVec 4) (hc hd : Bool) : Option RestartKind → State
  | some .warm => (s.settle.warmRestart hc hd).finish
  | some .cold => { s with restart := s.restart.begun .cold }.beginLoad straps
  | some .powerOn | some .supplyDip | some .restartPin | none => s.finish

/-- The rest of the first message whose rest is still to be taken. -/
def State.serviceRest (s : State) (straps : BitVec 4) (hc hd : Bool) : State :=
  match s.cfg, s.rests with
  | some img, q :: qs => ({ s with rests := qs }.restSteps img q).fixedRestart straps hc hd q.restart
  | _, _ => s

/-- SERVICE_MESSAGE_REST (R183). -/
def execServiceMessageRest (straps : BitVec 4) (hc hd : Bool) (s : State) : Host.Outcome State Fault Refusal :=
  whenever (s.configured && !s.rests.isEmpty) s (s.serviceRest straps hc hd)

end Sys2Proof.Machine
end

