-- ==== Sys2Proof/Machine/FrameEvents.lean ====
section
/-! DEFINITION. The commands of the frame engine (chapter 7) for a station that sends, contends or stands outside a
frame: start conditions, samples, vetoes, collisions, and the stall, stuck and release expiries. -/

namespace Sys2Proof.Machine

/-- The frame in progress satisfies a test, in service. -/
def State.inFlight (s : State) (p : Flight → Bool) : Bool := s.running && s.flight.elim false p

/-! ## Start conditions -/

/-- The offered frame begins (R124): its content is fixed now, and the station contends from cell 0. -/
def State.startFrame (s : State) (f : Frame) : State :=
  let head := s.frameCells f
  { s with
    engine := .contending
    flight := some (Flight.fresh (some (f, head)) (some (head.length + (s.frameText f).length)))
    timers := .high
    parting := .released }

/-- The idle run is under way, or begins at the stop condition that this station is making (R121), unless HC has been seen
to fall for it and not yet to rise. That its own stop condition is taken to appear on the wires is the model's choice (log
entry 5). -/
def State.idleRuns (s : State) : Bool := s.timers.idleRun || (s.parting.stop && !s.timers.stuck)

/-- FRAME_START (R121, R124): the highway is judged idle, the idle run having run its time, and the hold-off moment has
passed. Neither time is counted (log entry 5). -/
def execFrameStart (s : State) : Host.Outcome State Fault Refusal :=
  whenever (s.running && decide (s.engine = .waitingIdle) && s.offered.isSome && s.idleRuns) s
    (s.offered.elim s fun o => s.startFrame o.frame)

/-- FRAME_START_HEARD (R121, R123): the station becomes the frame's listener. -/
def execFrameStartHeard (s : State) : Host.Outcome State Fault Refusal :=
  whenever (s.running && (decide (s.engine = .idle) || decide (s.engine = .waitingIdle))) s
    { s with engine := .listening, flight := some (Flight.fresh none none), timers := .high, parting := .released }

/-! ## Samples with an outcome of their own -/

/-- A contender that released HD at bit times 1 to 9 (R125). -/
def State.mayLose (s : State) (f : Flight) : Bool :=
  decide (s.engine = .contending) && decide (f.bit ≤ 9) && decide (s.drivenBit f = some true)

/-- ARBITRATION_LOST (R125): it reads HD pulled. -/
def execArbitrationLost (s : State) : Host.Outcome State Fault Refusal :=
  whenever (s.inFlight s.mayLose) s (s.sample false)

/-- A sender at bit times 1 to 9, or a contender that pulls HD, may read a difference (R126). -/
def State.mayCollide (s : State) (f : Flight) : Bool :=
  decide (f.bit ≤ 9) &&
    ((decide (s.engine = .sending) && (s.drivenBit f).isSome) ||
      (decide (s.engine = .contending) && decide (s.drivenBit f = some false)))

/-- What a collision reads: the other level than the one driven. -/
def State.otherBit (s : State) : Bool := s.flight.elim true fun f => (s.drivenBit f).elim true fun b => !b

/-- COLLISION (R126). -/
def execCollision (s : State) : Host.Outcome State Fault Refusal :=
  whenever (s.inFlight s.mayCollide) s (s.sample s.otherBit)

/-- A veto slot of a frame this station follows (R127). -/
def State.inVetoSlot (s : State) (f : Flight) : Bool :=
  match s.engine with
  | .contending | .sending => decide (f.bit = 10)
  | .listening => f.discarded || (decide (f.bit = 10) && !f.reserveDue)
  | .idle | .waitingIdle | .receipt | .stuck => false

/-- A veto taken (R127, R149). A listener that has discarded the frame takes it as the frame's end, HD reading pulled. -/
def State.vetoTaken (s : State) (f : Flight) : State :=
  if s.engine = .listening ∧ f.discarded then (s.endListening f false).finish else s.sample false

/-- VETO (R127). -/
def execVeto (s : State) : Host.Outcome State Fault Refusal :=
  whenever (s.inFlight s.inVetoSlot) s (s.flight.elim s s.vetoTaken)

/-- A listener at the sample of bit time 9 of a cell. -/
def State.atParity (s : State) (f : Flight) : Bool :=
  decide (s.engine = .listening) && !f.discarded && decide (f.bit = 9)

/-- The parity bit that makes the number of 1s odd, for the bits read so far. -/
def oddBit (f : Flight) : Bool := parityOk f.bits

/-- LISTENER_PARITY_VETO (R122): the ninth bit makes the parity fail, and HD is pulled in the veto slot. -/
def execListenerParityVeto (s : State) : Host.Outcome State Fault Refusal :=
  whenever (s.inFlight s.atParity) s (s.flight.elim s fun f => s.sample (oddBit f))

/-- The cell read so far, once it passes parity, is one for which the decoder discards the frame (R137). -/
def State.showsFault (s : State) (f : Flight) : Bool :=
  s.atParity f && !f.inText &&
    rxFault s.station (f.withCell (byteOfBits f.bits) s.reserves).rx

/-- FRAME_DISCARD (R137): the ninth bit makes the parity good, and the cell shows a fault. -/
def execFrameDiscard (s : State) : Host.Outcome State Fault Refusal :=
  whenever (s.inFlight s.showsFault) s (s.flight.elim s fun f => s.sample (!oddBit f))

/-! ## Edges of HC, and stop conditions outside a frame (R121, R131, R132) -/

/-- A falling edge of HC. The idle run, the stall timer and the release timer stop, and but in STUCK the stuck timer starts
(R121, R131, R132). Outside a frame this station lets go of HD if it still pulls it from the frame it has left (R127). That
RECEIPT_SLOT_BEGIN, which the table has for a falling edge that begins an own receipt slot, stands for every other falling
edge too is the model's choice (log entry 5). -/
def State.clockFalls (s : State) : State :=
  match s.engine with
  | .idle | .waitingIdle => { s with timers := .low, parting := ⟨s.parting.stop, false⟩ }
  | .stuck => { s with timers := .outside false }
  | .contending | .sending | .listening | .receipt => if s.cutIsDue then s.cutFrame else { s with timers := .low }

/-- A stop condition seen outside a frame: both wires read released, and the idle run starts (R121). A start condition seen
there is FRAME_START_HEARD. -/
def State.stopSeen (s : State) (byStart : Bool) : State :=
  match s.engine with
  | .idle | .waitingIdle => if byStart then s else { s with timers := .outside true, parting := .released }
  | .contending | .sending | .listening | .receipt | .stuck => s

/-- BIT_SAMPLE (R120): any sample of HD at a rising edge of HC in a frame (log entry 19), and a rising edge seen outside
one. -/
def execBitSample (hd : Bool) (s : State) : Host.Outcome State Fault Refusal :=
  whenever s.running s (if s.flight.isSome then s.sample hd else s.clockRises hd)

/-- This station has a frame of its own on the wire. -/
def ownFlight (f : Flight) : Bool := f.own.isSome

/-- A start or stop condition the sender did not make: VETOED in the cells, ABANDONED in the receipt slots (R123, R126).
HC is high then, and HD still as the last bit has it. -/
def State.foreignCondition (s : State) (byStart : Bool) : State :=
  if s.engine = .receipt then s.abandonedOutcome .released (!byStart) else s.vetoedOutcome s.heldHd

/-- START_OR_STOP_NOT_OWN (R126), and a stop condition seen outside a frame (R121). -/
def execStartOrStopNotOwn (byStart : Bool) (s : State) : Host.Outcome State Fault Refusal :=
  whenever s.running s
    (if s.flight.elim false ownFlight && s.engine.inFrame then (s.foreignCondition byStart).finish
    else if s.flight.isNone then s.stopSeen byStart else s)

/-! ## Stall and stuck (R131, R132) -/

/-- HD as this station last read it in its frame (R120). -/
def State.hdRead (s : State) : Bool := s.flight.elim false (·.hdRead)

/-- STALL_EXPIRY (R131): HC has stayed high in a frame, with no falling edge, which stops the timer (R133). The idle run is counted at once when HD has stayed released with it;
where HD was pulled, it starts when HD is seen to rise (R121). That HD at the last sample says so is the model's choice (log
entry 5). -/
def execStallExpiry (s : State) : Host.Outcome State Fault Refusal :=
  whenever (s.running && s.engine.inFrame && s.timers.stall) s (s.abandonFrame s.hdRead).finish

/-- STUCK entered, any frame abandoned (R132). -/
def State.enterStuck (s : State) : State :=
  { s.abandonFrame false with engine := .stuck, timers := .outside false, parting := .released }.request (.highway .stuck)

/-- STUCK_EXPIRY (R132): HC has stayed low, with no rising edge, which stops the timer (R133). -/
def execStuckExpiry (s : State) : Host.Outcome State Fault Refusal :=
  whenever (s.running && decide (s.engine ≠ .stuck) && s.timers.stuck) s s.enterStuck.finish

/-- STUCK left (R132). -/
def State.leaveStuck (s : State) (hd : Bool) : State :=
  { s with timers := .outside hd }.restEngine.request (.highway .released)

/-- RELEASE_EXPIRY (R132): HC has stayed released in STUCK, with no falling edge, which stops the timer (R133). -/
def execReleaseExpiry (hd : Bool) (s : State) : Host.Outcome State Fault Refusal :=
  whenever (s.running && decide (s.engine = .stuck) && s.timers.release) s (s.leaveStuck hd).finish

end Sys2Proof.Machine
end

