-- ==== Sys2Proof/Machine/ListenerEvents.lean ====
section
/-! DEFINITION. The commands of a listener in a frame (chapters 7 and 8): the reservation for a CARRY, the receipt
slots, the three ways a frame is applied, and its ends. -/

namespace Sys2Proof.Machine

/-! ## The reservation (R49, R145) -/

/-- The length cells of a CARRY to be reserved for have been read. -/
def State.reservationDue (s : State) (f : Flight) : Bool := decide (s.engine = .listening) && f.reserveDue

/-- The whole-message reservation asked for at the frame's class and length (R49, R145). The station releases HC at the
answer (R130), and the stuck timer stops (R133). That HC rises with the release, unless a RECEIPT_SLOT_BEGIN says that it is
still held low, is the model's choice (log entry 5). -/
def State.reserveCarry (s : State) (f : Flight) : State :=
  let t := { s with timers := .high }
  match t.reserve ((classOf (rxCell f.rx 4 / 32)).getD .ordinary) (rxTextLength f.rx) with
  | some (m, u) => u.setFlight { f with reserveDue := false, reserved := some m }
  | none => t.setFlight { f with reserveDue := false }

/-- CARRY_RESERVATION (R145). -/
def execCarryReservation (s : State) : Host.Outcome State Fault Refusal :=
  whenever (s.inFlight s.reservationDue) s (s.flight.elim s fun f => (s.reserveCarry f).finish)

/-! ## The receipt slots (R128) -/

/-- The falling edge that begins one of this station's own two receipt slots. -/
def State.slotDue (s : State) (f : Flight) : Bool :=
  decide (s.engine = .receipt) && f.own.isNone && !f.discarded && decide (f.slot < 32) && s.atOwnSlot f && !f.slotBegun

/-- The own slot begins: HEARD is pulled, TAKE is pulled when the frame is one this station takes. -/
def State.slotBegins (s : State) (f : Flight) : State :=
  let g := { f with slotBegun := true }
  { s with timers := .low }.setFlight
    (if f.slot < 16 then { g with heard := true } else { g with taking := s.takes f })

/-- RECEIPT_SLOT_BEGIN (R128), and any other falling edge of HC (R121, R131, R132, log entry 5). -/
def execReceiptSlotBegin (s : State) : Host.Outcome State Fault Refusal :=
  whenever s.running s (if s.inFlight s.slotDue then s.flight.elim s s.slotBegins else s.clockFalls)

/-! ## Applying a frame (R128) -/

/-- The sample that ends this station's TAKE slot, in a frame of the given kind. -/
def State.applies (s : State) (kind : Nat) (f : Flight) : Bool :=
  decide (s.engine = .receipt) && s.applyDue f && decide (rxKind f.rx = kind)

/-- CARRY_COMMIT (R57, R146). -/
def execCarryCommit (s : State) : Host.Outcome State Fault Refusal :=
  whenever (s.inFlight (s.applies 2)) s (s.flight.elim s s.applyFrame)

/-- CONDITION_APPLY (R152). -/
def execConditionApply (s : State) : Host.Outcome State Fault Refusal :=
  whenever (s.inFlight (s.applies 0)) s (s.flight.elim s s.applyFrame)

/-- MUSTER_APPLY (R154). -/
def execMusterApply (s : State) : Host.Outcome State Fault Refusal :=
  whenever (s.inFlight (s.applies 1)) s (s.flight.elim s s.applyFrame)

/-! ## The ends of a listened frame (R123) -/

/-- A listened frame is before the sample of receipt slot 31. After it the table of R123 has the stop condition alone: a
start condition seen there changes nothing (log entry 43). -/
def State.listensOn (s : State) (f : Flight) : Bool :=
  f.own.isNone &&
    (decide (s.engine = .listening) || (decide (s.engine = .receipt) && decide (f.slot < 32)))

/-- FRAME_ENDED_EARLY (R123, R128). -/
def execFrameEndedEarly (byStart : Bool) (s : State) : Host.Outcome State Fault Refusal :=
  whenever (s.inFlight s.listensOn) s (s.flight.elim s fun f => (s.endListening f (!byStart)).finish)

/-- A listened frame is after the sample of receipt slot 31, or is followed on the wires alone. -/
def State.atListenedEnd (s : State) (f : Flight) : Bool :=
  f.own.isNone &&
    ((decide (s.engine = .receipt) && decide (32 ≤ f.slot)) || (s.engine.inFrame && f.discarded))

/-- LISTENER_FRAME_END (R123, R139). -/
def execListenerFrameEnd (s : State) : Host.Outcome State Fault Refusal :=
  whenever (s.inFlight s.atListenedEnd) s (s.flight.elim s fun f => (s.endListening f true).finish)

end Sys2Proof.Machine
end

