-- ==== Sys2Proof/Machine/BuilderEvents.lean ====
section
/-! DEFINITION. The commands that reach the frame builder (chapter 8): the completion of an own frame and the passing of
a not-before. -/

namespace Sys2Proof.Machine

/-- The sender is at the sample of receipt slot 31. -/
def State.atLastSlot (s : State) (f : Flight) : Bool :=
  decide (s.engine = .receipt) && f.own.isSome && decide (f.slot = 31)

/-- FRAME_COMPLETED (R128, R147): the sample of slot 31, the stop condition, and the reading of the receipts. -/
def execFrameCompleted (hd : Bool) (s : State) : Host.Outcome State Fault Refusal :=
  whenever (s.inFlight s.atLastSlot) s (s.flight.elim s fun f => s.senderReceipt f hd)

/-- The not-before of station `k` has yet to pass. -/
def State.waits (s : State) (k : Nat) : Bool := s.running && decide ((s.peer k).notBefore ≠ .passed)

/-- NOT_BEFORE_PASSES (R138, R141). -/
def execNotBeforePasses (k : Nat) (s : State) : Host.Outcome State Fault Refusal :=
  onStation k (whenever (s.waits k) s (s.setPeer k { s.peer k with notBefore := .passed }).finish)

end Sys2Proof.Machine
end

