-- ==== Sys2Proof/Machine/Dispatch.lean ====
section
/-! DEFINITION. One meaning for each command. -/

namespace Sys2Proof.Machine

def exec (i : Instr) (s : State) : Host.Outcome State Fault Refusal :=
  match i with
  | .powerOn => Sys2Proof.Machine.execPowerOn s
  | .supplyDip => Sys2Proof.Machine.execSupplyDip s
  | .restartPin => Sys2Proof.Machine.execRestartPin s
  | .restartHoldEnd straps => Sys2Proof.Machine.execRestartHoldEnd straps s
  | .configurationLoadEnd image hc hd => Sys2Proof.Machine.execConfigurationLoadEnd image hc hd s
  | .rxdLevelChange line marking => Sys2Proof.Machine.execRxdLevelChange line marking s
  | .characterArrival line code => Sys2Proof.Machine.execCharacterArrival line code s
  | .openLineExpiry line => Sys2Proof.Machine.execOpenLineExpiry line s
  | .restoreExpiry line => Sys2Proof.Machine.execRestoreExpiry line s
  | .characterCompletion line => Sys2Proof.Machine.execCharacterCompletion line s
  | .drainingEnd line => Sys2Proof.Machine.execDrainingEnd line s
  | .officeMinuteAdvance => Sys2Proof.Machine.execOfficeMinuteAdvance s
  | .holdLimitExpiry => Sys2Proof.Machine.execHoldLimitExpiry s
  | .frameStart => Sys2Proof.Machine.execFrameStart s
  | .frameStartHeard => Sys2Proof.Machine.execFrameStartHeard s
  | .arbitrationLost => Sys2Proof.Machine.execArbitrationLost s
  | .collision => Sys2Proof.Machine.execCollision s
  | .veto => Sys2Proof.Machine.execVeto s
  | .listenerParityVeto => Sys2Proof.Machine.execListenerParityVeto s
  | .frameDiscard => Sys2Proof.Machine.execFrameDiscard s
  | .carryReservation => Sys2Proof.Machine.execCarryReservation s
  | .frameEndedEarly byStart => Sys2Proof.Machine.execFrameEndedEarly byStart s
  | .carryCommit => Sys2Proof.Machine.execCarryCommit s
  | .conditionApply => Sys2Proof.Machine.execConditionApply s
  | .musterApply => Sys2Proof.Machine.execMusterApply s
  | .listenerFrameEnd => Sys2Proof.Machine.execListenerFrameEnd s
  | .frameCompleted hd => Sys2Proof.Machine.execFrameCompleted hd s
  | .notBeforePasses station => Sys2Proof.Machine.execNotBeforePasses station s
  | .stallExpiry => Sys2Proof.Machine.execStallExpiry s
  | .stuckExpiry => Sys2Proof.Machine.execStuckExpiry s
  | .releaseExpiry hd => Sys2Proof.Machine.execReleaseExpiry hd s
  | .serviceMessageRest straps hc hd => Sys2Proof.Machine.execServiceMessageRest straps hc hd s
  | .startSample line => Sys2Proof.Machine.execStartSample line s
  | .insertedShiftEnd line => Sys2Proof.Machine.execInsertedShiftEnd line s
  | .bitSample hd => Sys2Proof.Machine.execBitSample hd s
  | .receiptSlotBegin => Sys2Proof.Machine.execReceiptSlotBegin s
  | .startOrStopNotOwn byStart => Sys2Proof.Machine.execStartOrStopNotOwn byStart s
  | .supplyRemoved => Sys2Proof.Machine.execSupplyRemoved s

end Sys2Proof.Machine
end

