-- ==== Sys2Proof/Safety.lean ====
section
/-! DEFINITION. Words the statements use: the receive side of a line, what a station has no trace of after a loss of
state, and the invariants of the station between commands. -/

namespace Sys2Proof.Machine

/-- The receive side of a line interface: its send side cleared. -/
def Line.receiveSide (x : Line) : Line :=
  { x with tx := .free, txCase := .letters, item := none, held := none, keyed := none }

/-- The send side of a line interface: its receive side cleared. -/
def Line.sendSide (x : Line) : Line :=
  { x with
    rxd := true
    rx := .ready
    rxCase := .letters
    wire := .marking
    openTimer := false
    restoreTimer := false }

/-- What the end of every event leaves as it was: all but the store, the dispatch contexts, the send sides of the lines,
the frame engine's own state, the levels, the lost-report count, OALM and the scratch. -/
structure Kept (s t : State) : Prop where
  phase : t.phase = s.phase
  restart : t.restart = s.restart
  station : t.station = s.station
  cfg : t.cfg = s.cfg
  cfgCs : t.cfgCs = s.cfgCs
  cfgOut : t.cfgOut = s.cfgOut
  mas : t.mas = s.mas
  admin : t.admin = s.admin
  map : t.map = s.map
  peers : t.peers = s.peers
  musterPending : t.musterPending = s.musterPending
  streak : t.streak = s.streak
  minute : t.minute = s.minute
  rests : t.rests = s.rests
  pending : t.pending = s.pending
  receive : ∀ l, (t.line l).receiveSide = (s.line l).receiveSide

/-- The engine rests outside a frame, and holds an offer exactly when it waits (R123, note 1). -/
def State.atRest (s : State) : Prop :=
  s.flight = none ∧ s.engine = (if s.offered.isSome then Engine.waitingIdle else Engine.idle)

/-- What the end of an own frame leaves: no frame, a resting engine, the next offer's hold-off as the outcome calls for,
a stop condition being made after VETOED (HD pulled as `hd` says until the falling edge of HC), the idle run not begun, and
both wires released else, and the rest of the station as the end of an event leaves it (R121, R123, R129, R141, R149). -/
structure OwnFrameEnded (s t : State) (vetoed hd : Bool) : Prop where
  rest : t.atRest
  holdoff : ∀ o, t.offered = some o → o.afterVeto = vetoed
  parting : t.parting = if vetoed then ⟨true, hd⟩ else ⟨false, false⟩
  idleRun : vetoed = true → t.timers = ⟨false, false, false, false⟩
  kept : Kept { s with streak := if vetoed then min Config.streakLimit (s.streak + 1) else s.streak } t

/-- What the cut of a CARRY leaves: no frame, a resting engine, no hold-off for the next offer, no count changed, and the rest
of the station as the end of an event leaves it (R123, R144, R149). -/
structure FrameCut (s t : State) : Prop where
  rest : t.atRest
  holdoff : ∀ o, t.offered = some o → o.afterVeto = false
  kept : Kept s t

/-- From `s` to `t` circuit `c` has joined the owed set of every fitted peer that was not SILENT and not known unconfigured
(R150). -/
def State.owedToPeers (s t : State) (c : Nat) : Prop :=
  ∀ k, k < 16 → s.fitted k = true → k ≠ s.station → (s.peer k).presence ≠ .silent → (s.peer k).flag ≠ .clear →
    c ∈ (t.peer k).owed

/-- A listener whose TAKE slot has just been read releases HD at the falling edge of HC and holds HC low in the low half that
follows, while its blocks apply the frame (R120, R130, log entry 29). -/
def State.stretchesAfterTake (s : State) : Prop :=
  s.drive .high = ⟨false, true⟩ ∧ s.drive .fall = ⟨false, false⟩ ∧ s.drive .low = ⟨true, false⟩ ∧
    s.drive .rise = ⟨false, false⟩

/-- No block holds anything (R191): what remains is the phase, the restart record, the station number, the levels of the
input pins, the configuration pins and the commands waiting. -/
structure NothingHeld (s : State) : Prop where
  cfg : s.cfg = none
  lines : ∀ l, l < 8 → s.line l = Line.fresh (s.line l).rxd .ready false
  mas : ∀ l, l < 8 → s.masOf l = Mas.fresh none
  store : s.store = Store.fresh
  admin : ∀ l, l < 8 → s.adminOf l = .inn
  map : ∀ c, s.mapOf c = .unlearned ∨ s.mapOf c = .unfitted
  ctx : ∀ l, l < 8 → s.ctxOf l = Ctx.fresh
  engine : s.engine = .idle
  offered : s.offered = none
  holdoffDue : s.holdoffDue = false
  flight : s.flight = none
  timers : s.timers = ⟨false, false, false, false⟩
  parting : s.parting = ⟨false, false⟩
  peers : ∀ k, s.peer k = Peer.fresh ∨ s.peer k = Peer.self .clear none
  musterPending : s.musterPending = []
  streak : s.streak = 0
  levels : s.levels = Levels.fresh
  lost : s.lost = 0
  minute : s.minute = 0
  rests : s.rests = []
  oalm : s.oalm = false
  ev : s.ev = Event.none

/-! ## A record after it has been handed on -/

/-- `b` is the message that `a` was: resolving its slots may have written states and the pseudo-code into them and set
its INTERCEPT flag, and the service unit may have seen it; nothing else has changed. -/
structure SameMessage (a b : Record) : Prop where
  fields : b = { a with intercept := b.intercept, slots := b.slots, served := b.served }
  intercept : a.intercept ≠ none → b.intercept = a.intercept
  count : b.slots.length = a.slots.length
  dest : ∀ (i : Nat) (x : Slot), b.slots[i]? = some x → x.dest = .pseudo ∨ ∃ y, a.slots[i]? = some y ∧ x.dest = y.dest

/-- A record has been given back (R58, R59): it is FREE, unless a report of the same event has been granted it (R184). -/
def Record.givenBack (r : Record) : Prop := r.state = .free ∨ r.source = some .service

/-- What an event makes of a record that it no longer writes to: the same message, or a record given back. -/
def Handled (a b : Record) : Prop := SameMessage a b ∨ b.givenBack

/-- No route of the image in force leads to this station's own service (R63, R75). -/
def State.noOwnService (s : State) : Prop :=
  ∀ img, s.cfg = some img → ∀ e ∈ img.routes, some (.service s.station) ∉ e.targets

/-! ## Invariants -/

/-- OALM is asserted exactly while, in service, the station is UNCONFIGURED or STUCK or an ALARM level of an enabled
condition is SET or SET CAUSE GONE (R178, R189, R191). -/
def OalmFollows (s : State) : Prop :=
  s.oalm = true ↔ s.running = true ∧
    (s.cfg = none ∨ s.engine = .stuck ∨
      ∃ img, s.cfg = some img ∧ ∃ g ∈ allGauges, img.enabled g = true ∧ (s.levels.get g).alarm ≠ .clear)

/-- The hardware keeps at most three entries on either suspension stack (R109, R113). -/
def StacksBounded (s : State) : Prop :=
  ∀ l, (s.ctxOf l).stack.length ≤ Config.stackLimit ∧ (s.masOf l).rstack.length ≤ Config.stackLimit

/-- No entry of a circuit queue stands behind one that it precedes (R87). -/
def QueuesOrdered (s : State) : Prop := ∀ l, (s.ctxOf l).queue.Pairwise fun a b => b.before a = false

/-- A circuit is IDLE exactly when no entry is in transmission on it (R91). -/
def SendIdleIffNoEntry (s : State) : Prop := ∀ l, (s.ctxOf l).send = .idle ↔ (s.ctxOf l).current = none

/-- The engine is in a frame exactly when there is one, and waits exactly when it rests with a frame offered (R123). -/
def EngineAgrees (s : State) : Prop :=
  s.flight.isSome = s.engine.inFrame ∧ (s.engine = .idle → s.offered = none) ∧
    (s.engine = .waitingIdle → s.offered.isSome = true)

/-- The blocks chained to records, in record order (R43). -/
def State.chained (s : State) : List Nat := (List.range Config.recordCount).flatMap fun m => (s.record m).chain

/-- Each block is in the free pool or chained to exactly one record, and a FREE record has none (R43, R44). -/
def BlocksConserved (s : State) : Prop :=
  (s.store.pool ++ s.chained).Perm (List.range Config.blockCount) ∧
    s.store.pool.Pairwise (· < ·) ∧ ∀ m, (s.record m).state = .free → (s.record m).chain = []

/-- Nothing is under way between commands (log entry 7). -/
def ScratchEmpty (s : State) : Prop := s.ev = Event.none

end Sys2Proof.Machine
end

