-- ==== Sys2Proof/Certificates/Slice0/Obligations.lean ====
section
/-! DEFINITION. The statements put to the provers, family by family. A condition of the form `s.ev = Event.none` says
that nothing is under way, as `Obligations.ScratchEmptyInvariant` says of every state between commands. -/

open Sys2Proof Sys2Proof.Machine

/-! ## The step and the commands -/

/-- A step takes the command at the front of the queue and runs it with the queue's rest. -/
def Obligations.StepRunsTheFrontCommand : Prop :=
  ∀ (s : State) (c : Instr) (cs : List Instr),
    step { s with pending := c :: cs } = exec c { s with pending := cs }

/-- Every well-formed command answers a next state and leaves the commands waiting behind it. That it does so in every
state, also where its event cannot come about, is the model's choice (log entry 2, DEDUCED). An ill-formed command is the
fault illFormed (log entry 3, DESIGN CHOICE). -/
def Obligations.WellFormedCommandsAnswerNext : Prop :=
  ∀ (c : Instr) (s : State),
    (c.wf = true → ∃ t, exec c s = .next t ∧ t.pending = s.pending) ∧ (c.wf = false → exec c s = .fault .illFormed)

/-! ## Invariants -/

/-- OALM (R178): asserted exactly while an ALARM level of an enabled condition is SET or SET CAUSE GONE, or the
controller is STUCK, or the station is UNCONFIGURED; and so after every command, in the event that makes the change. In
restart hold and load it is not asserted (R191, R193). -/
def Obligations.OalmFollowsInvariant : Prop :=
  ∀ s t : State, OalmFollows s → step s = .next t → OalmFollows t

/-- No block is lost or doubled (R43): each is free or in one chain, after every command. -/
def Obligations.BlocksConservedInvariant : Prop :=
  ∀ s t : State, BlocksConserved s → step s = .next t → BlocksConserved t

/-- Every circuit queue stays in precedence order (R87). -/
def Obligations.QueuesOrderedInvariant : Prop :=
  ∀ s t : State, QueuesOrdered s → step s = .next t → QueuesOrdered t

/-- The suspension stacks stay within three entries (R109, R113). -/
def Obligations.StacksBoundedInvariant : Prop :=
  ∀ s t : State, StacksBounded s → step s = .next t → StacksBounded t

/-- A circuit stays IDLE exactly while no entry is in transmission on it (R91). -/
def Obligations.SendIdleInvariant : Prop :=
  ∀ s t : State, SendIdleIffNoEntry s → step s = .next t → SendIdleIffNoEntry t

/-- The frame engine's state keeps agreeing with its frame and its offer (R123, note 1). -/
def Obligations.EngineAgreesInvariant : Prop :=
  ∀ s t : State, EngineAgrees s → step s = .next t → EngineAgrees t

/-- Nothing is left under way at the end of a command (log entry 7). -/
def Obligations.ScratchEmptyInvariant : Prop :=
  ∀ s t : State, ScratchEmpty s → step s = .next t → ScratchEmpty t

/-- The invariants hold right after reset. -/
def Obligations.InvariantsHoldAtReset : Prop :=
  OalmFollows State.reset ∧ BlocksConserved State.reset ∧ QueuesOrdered State.reset ∧ StacksBounded State.reset ∧
    SendIdleIffNoEntry State.reset ∧ EngineAgrees State.reset ∧ ScratchEmpty State.reset

/-! ## Supply, restart pin and load (chapter 11) -/

/-- POWER_ON (R191, R192): the hold of POWER-ON, with POWER set alone, warm count 0, and every block's state lost. A
station that has its supply takes no POWER_ON (log entry 2). What blocks read as in hold is log entry 1 (PRESUMED).
SUPPLY_REMOVED (R191): all state is lost. What the restart record then reads as is log entry 27 (DESIGN CHOICE) and
is not stated here. -/
def Obligations.SupplyOnAndOff : Prop :=
  (∀ s : State,
     (s.phase = .unpowered →
       ∃ t, exec .powerOn s = .next t ∧ t.phase = .hold .powerOn ∧
         t.restart = ⟨true, false, false, false, false, .powerOn, 0⟩ ∧ NothingHeld t ∧ t.pending = s.pending ∧
         ∀ l, l < 8 → (t.line l).rxd = (s.line l).rxd) ∧
     (s.phase ≠ .unpowered → exec .powerOn s = .next s)) ∧
  (∀ s : State, s.phase ≠ .unpowered →
     ∃ t, exec .supplyRemoved s = .next t ∧ t.phase = .unpowered ∧ NothingHeld t ∧ t.pending = s.pending)

/-- SUPPLY_DIP and RESTART_PIN in service or during a load (R191, R192): a hold of that kind begins, its flag is set and
its kind is the last, the other flags and the warm count are kept, every block's state is lost. What the blocks read as
in a hold (`NothingHeld`) is log entry 1 (PRESUMED).
A further cause within a hold (R191): it sets its flag and nothing else in a hold begun by SUPPLY DIP or RESTART
PIN, and nothing at all in a hold begun by POWER-ON. -/
def Obligations.DipAndPinBeginOrExtendAHold : Prop :=
  (∀ s : State, s.phase = .running ∨ s.phase = .loading →
     (∃ t, exec .supplyDip s = .next t ∧ t.phase = .hold .supplyDip ∧
       t.restart = { s.restart with dip := true, last := .supplyDip } ∧ NothingHeld t ∧ t.pending = s.pending ∧
       ∀ l, l < 8 → (t.line l).rxd = (s.line l).rxd) ∧
     (∃ t, exec .restartPin s = .next t ∧ t.phase = .hold .restartPin ∧
       t.restart = { s.restart with pin := true, last := .restartPin } ∧ NothingHeld t ∧ t.pending = s.pending ∧
       ∀ l, l < 8 → (t.line l).rxd = (s.line l).rxd)) ∧
  (∀ s : State,
     (s.phase = .hold .supplyDip ∨ s.phase = .hold .restartPin →
       exec .supplyDip s = .next { s with restart := { s.restart with dip := true } } ∧
         exec .restartPin s = .next { s with restart := { s.restart with pin := true } }) ∧
     (s.phase = .hold .powerOn → exec .supplyDip s = .next s ∧ exec .restartPin s = .next s))

/-- RESTART_HOLD_END (R193, steps 1 and 2): the straps give the station number, CFG_CS is asserted, and CFG_DO carries
the read order 00000011 and sixteen bits of address 0; the restart record is kept and no block holds anything. CFG_DO
shown as the list of the bits sent is log entry 29 (DESIGN CHOICE), and what the blocks read as during the load
(`NothingHeld`) is log entry 1 (PRESUMED). -/
def Obligations.RestartHoldEndBeginsTheLoad : Prop :=
  ∀ (s : State) (k : RestartKind) (straps : BitVec 4), s.phase = .hold k →
    ∃ t, exec (.restartHoldEnd straps) s = .next t ∧ t.phase = .loading ∧ t.station = straps.toNat ∧ t.cfgCs = true ∧
      t.cfgOut = [false, false, false, false, false, false, true, true] ++ List.replicate 16 false ∧
      t.restart = s.restart ∧ NothingHeld t ∧ t.pending = s.pending

/-- CONFIGURATION_LOAD_END with an image that fails validation (R193, R196): the station is UNCONFIGURED. Its circuits
are UNFITTED, its store is empty, OALM is asserted, its own station entry is CLEAR with no edition, and it offers a
MUSTER, not configured, to every other station. The idle run runs when both wires read released, and the stuck timer when HC
reads pulled (R134). -/
def Obligations.LoadOfAnInvalidImage : Prop :=
  ∀ (s : State) (image : List Byte) (hc hd : Bool),
    s.phase = .loading → s.station < 16 → imageOk s.station image = false →
    ∃ t, exec (.configurationLoadEnd image hc hd) s = .next t ∧ t.phase = .running ∧ t.cfg = none ∧ t.cfgCs = false ∧
      t.oalm = true ∧ t.store = Store.fresh ∧ t.station = s.station ∧ t.restart = s.restart ∧
      t.timers = ⟨hc && hd, false, !hc, false⟩ ∧
      t.pending = s.pending ∧ t.minute = 0 ∧ t.lost = 0 ∧
      (∀ l, l < 8 → t.kind l = .unfitted ∧ t.mapOf (t.circuit l) = .unfitted ∧ t.adminOf l = .inn ∧
        t.line l = Line.fresh (s.line l).rxd .ready false ∧ t.masOf l = Mas.fresh none ∧ t.ctxOf l = Ctx.fresh) ∧
      (∀ k, k < 16 → t.peer k = if k = s.station then Peer.self .clear none else Peer.fresh) ∧
      t.engine = .waitingIdle ∧
      t.offered.map (·.frame) = some (.muster ((List.range 16).filter fun k => decide (k ≠ s.station)) 0 false
        s.restart.last ((List.range 8).map fun l => ⟨8 * s.station + l, .unfitted, .unfitted, none⟩))

/-- CONFIGURATION_LOAD_END with a valid image (R193, R197): the image comes into force. Every own circuit is IN, and IN
SERVICE unless UNFITTED, with no diversion; no peer is heard or learned; no serial is expected (R41); the next outgoing
serial is 001, or 002 on a circuit that has begun a report of the load, the START report, with 001 (R94, R104); the lines start
as R19 says; the idle run runs when both wires read released, and the stuck timer when HC reads pulled (R134); and when another
station is fitted, the MUSTER is the first frame offered. -/
def Obligations.LoadOfAValidImage : Prop :=
  ∀ (s : State) (image : List Byte) (hc hd : Bool),
    s.phase = .loading → s.station < 16 → imageOk s.station image = true →
    ∃ t, exec (.configurationLoadEnd image hc hd) s = .next t ∧ t.phase = .running ∧
      t.cfg = some (Image.parse image) ∧ t.cfgCs = false ∧ t.station = s.station ∧ t.restart = s.restart ∧
      t.pending = s.pending ∧ t.minute = 0 ∧ t.streak = 0 ∧ t.timers = ⟨hc && hd, false, !hc, false⟩ ∧
      (∀ l, l < 8 → (t.ctxOf l).stack = [] ∧
        ((t.ctxOf l).current = none → (t.ctxOf l).next = 1) ∧
        ∀ e, (t.ctxOf l).current = some e → e.assigned = some 1 ∧ (t.ctxOf l).next = 2) ∧
      (∀ l, l < 8 → t.adminOf l = .inn ∧ t.masOf l = Mas.fresh none ∧
        t.mapOf (t.circuit l) = ⟨if t.kind l = .unfitted then .unfitted else .inService, t.kind l, none⟩ ∧
        (t.line l).receiveSide =
          Line.fresh (s.line l).rxd (if (t.kind l).receives && !(s.line l).rxd then .spacingHold else .ready)
            (t.watches l && !(s.line l).rxd)) ∧
      (∀ c, c < 128 → c / 8 ≠ s.station → t.mapOf c = ⟨.unknown, .unfitted, none⟩) ∧
      (∀ k, k < 16 → t.peer k =
        if k = s.station then Peer.self .set (some (Image.parse image).edition) else Peer.fresh) ∧
      t.musterPending = t.fittedPeers ∧
      (t.fittedPeers ≠ [] → t.engine = .waitingIdle ∧
        t.offered.map (·.frame) = some (.muster t.fittedPeers (Image.parse image).edition true s.restart.last
          (t.ownCircuits.map t.tripleOf)))

/-! ## The receive side of a line (chapters 1, 2 and 9) -/

/-- RXD_LEVEL_CHANGE in service (R4, R16, R17): the pin follows; spacing starts a character from READY and marking ends
SPACING HOLD on a receiving circuit; where the watch runs, the timer of the present wire state starts or stops. Nothing
else changes. A command that names the present level is no change (log entry 2).
RXD_LEVEL_CHANGE in restart hold, in load or without supply (R191, R193): the pin alone follows, and no start
transition is taken. -/
def Obligations.RxdLevelChangeMovesReceiverAndTimers : Prop :=
  (∀ (s : State) (l : Nat) (m : Bool), l < 8 → s.running = true →
     ((s.line l).rxd ≠ m →
       exec (.rxdLevelChange l m) s = .next (s.setLine l
         { s.line l with
           rxd := m
           rx := if (s.kind l).receives = true ∧ (s.line l).rx = .ready ∧ m = false then .start
             else if (s.kind l).receives = true ∧ (s.line l).rx = .spacingHold ∧ m = true then .ready
             else (s.line l).rx
           openTimer := if s.watches l = true ∧ (s.line l).wire = .marking then !m else (s.line l).openTimer
           restoreTimer := if s.watches l = true ∧ (s.line l).wire = .opened then m else (s.line l).restoreTimer })) ∧
     ((s.line l).rxd = m → exec (.rxdLevelChange l m) s = .next s)) ∧
  (∀ (s : State) (l : Nat) (m : Bool), l < 8 → s.running = false →
     exec (.rxdLevelChange l m) s = .next (s.setLine l { s.line l with rxd := m }))

/-- START_SAMPLE (R4): half a unit after the start transition, spacing moves START to CODE and marking is a false start
that returns to READY. Nothing else changes. -/
def Obligations.StartSampleAcceptsOrDrops : Prop :=
  ∀ (s : State) (l : Nat), l < 8 → s.running = true → (s.line l).rx = .start →
    exec (.startSample l) s = .next (s.setLine l { s.line l with rx := if (s.line l).rxd then .ready else .code })

/-- CHARACTER_ARRIVAL at the receiver (R8, R9, R4): with good framing the receiver is READY and the shifts move the
receive case; with an error it is in SPACING HOLD and the case stays. The rest of the receive side, the other lines'
receive sides and the other assemblers are left. -/
def Obligations.CharacterArrivalMovesTheReceiver : Prop :=
  ∀ (s : State) (l : Nat) (code : Code) (img : Image), l < 8 → s.reading l = true → s.cfg = some img →
    ∃ t, exec (.characterArrival l code) s = .next t ∧
      (t.line l).receiveSide =
        { (s.line l).receiveSide with
          rx := if (s.line l).rxd then .ready else .spacingHold
          rxCase :=
            if (s.line l).rxd = true ∧ meaningOf img (s.line l).rxCase code = some .ltrs then .letters
            else if (s.line l).rxd = true ∧ meaningOf img (s.line l).rxCase code = some .figs then .figures
            else (s.line l).rxCase } ∧
      (∀ k, k ≠ l → (t.line k).receiveSide = (s.line k).receiveSide ∧ t.masOf k = s.masOf k) ∧
      t.phase = s.phase ∧ t.cfg = s.cfg ∧ t.station = s.station ∧ t.restart = s.restart ∧ t.minute = s.minute ∧
      t.streak = s.streak ∧ t.musterPending = s.musterPending

/-- A shift or a blank with good framing gives no symbol, and a WITHDRAWN circuit delivers none (R8, R10): of the line its
receiver and its receive case alone change, and nothing else in the station, but for what the end of every event may
change: the builder's offer, whether a resting engine waits, and OALM (R141, R178), and with a frame of its own in the cells
the mark that it is to be cut (R144). -/
def Obligations.NoSymbolChangesNothingElse : Prop :=
  ∀ (s : State) (l : Nat) (code : Code) (img : Image),
    l < 8 → s.reading l = true → s.cfg = some img → s.ev = Event.none →
    s.adminOf l = .withdrawn ∨
      ((s.line l).rxd = true ∧
        (meaningOf img (s.line l).rxCase code = some .ltrs ∨ meaningOf img (s.line l).rxCase code = some .figs ∨
          meaningOf img (s.line l).rxCase code = some .blank)) →
    ∃ t, exec (.characterArrival l code) s = .next t ∧
      t = { s.setLine l { s.line l with rx := (t.line l).rx, rxCase := (t.line l).rxCase } with
        engine := t.engine, offered := t.offered, flight := t.flight, oalm := t.oalm } ∧
      (s.engine ≠ .idle → s.engine ≠ .waitingIdle → t.engine = s.engine) ∧
      (s.engine ≠ .contending → s.engine ≠ .sending → t.flight = s.flight) ∧
      (s.flight = none → t.flight = none) ∧ ∀ f, s.flight = some f → ∃ b, t.flight = some { f with cutting := b }

/-- The fourth H of a start sequence in HUNT (R26): the assembler goes to HEADER with the four symbols in its header
buffer. Its expected serial and receive stack stay, and no record changes. That the line-start mark is clear in HEADER is the
model's choice: the rule names the buffer and the counts alone (log entry 46, DESIGN CHOICE). -/
def Obligations.StartSequenceBeginsAHeader : Prop :=
  ∀ (s : State) (l : Nat) (code : Code) (img : Image),
    l < 8 → s.reading l = true → s.cfg = some img → s.ev = Event.none → s.adminOf l = .inn →
    (s.line l).rxd = true → meaningOf img (s.line l).rxCase code = some (.letter 8) →
    (s.masOf l).mode = .hunt → (s.masOf l).startSeq.length = 3 →
    ∃ t, exec (.characterArrival l code) s = .next t ∧
      t.masOf l =
        { Mas.fresh (s.masOf l).expected with
          mode := .header
          lineStart := false
          header := (s.masOf l).startSeq ++ [⟨(s.line l).rxCase.tag, code⟩]
          rstack := (s.masOf l).rstack } ∧
      t.store = s.store ∧ t.ctx = s.ctx

/-- A symbol of text away from a line start (R33): it is stored at the end of the current record's text, within a block
already granted. A letter, figure or sign bears the tag of the case; CR, LF and SPACE, whose codes mean the same in both
cases (R6), are NEUTRAL; a character with a framing error is an ERROR symbol and counts in the error count, to 255 at
most. An LF sets the line-start mark. The other fields of the record, the other records and all other assembler state
stay. -/
def Obligations.TextSymbolIsStored : Prop :=
  ∀ (s : State) (l m : Nat) (code : Code) (img : Image) (σ : Symbol),
    l < 8 → m < 128 → s.reading l = true → s.cfg = some img → s.ev = Event.none → s.adminOf l ≠ .withdrawn →
    ((s.line l).rxd = true ∧
        (∃ w, meaningOf img (s.line l).rxCase code = some w ∧
          ((∃ i, w = .letter i) ∨ (∃ d, w = .figure d) ∨ (∃ k, w = .sign k))) ∧
        σ = ⟨(s.line l).rxCase.tag, code⟩) ∨
      ((s.line l).rxd = true ∧
        (∃ w, meaningOf img .letters code = some w ∧ meaningOf img .figures code = some w ∧
          (w = .cr ∨ w = .lf ∨ w = .space)) ∧
        σ = ⟨.neutral, code⟩) ∨
      ((s.line l).rxd = false ∧ σ = ⟨.error, code⟩) →
    (s.masOf l).mode = .text → (s.masOf l).current = some m → (s.masOf l).lineStart = false →
    (s.masOf l).look = [] → (s.masOf l).resumeLf = false →
    (s.record m).state = .filling → (s.record m).text.length < 4096 →
    (s.record m).text.length < 32 * (s.record m).chain.length →
    ∃ t, exec (.characterArrival l code) s = .next t ∧
      t.record m =
        { s.record m with
          text := (s.record m).text ++ [σ]
          errors := if (s.line l).rxd then (s.record m).errors else min 255 ((s.record m).errors + 1) } ∧
      (∀ j, j ≠ m → t.record j = s.record j) ∧
      t.masOf l =
        { s.masOf l with
          lineStart := (s.line l).rxd && decide (meaningOf img (s.line l).rxCase code = some .lf) } ∧
      (∀ k, k ≠ l → t.masOf k = s.masOf k) ∧ t.ctx = s.ctx

/-- OPEN_LINE_EXPIRY (R16, R118, R167, R169): the wire state is OPEN, the receiver HALTED in LETTERS with both timers
stopped; the assembler is in HUNT at a line start with its receive stack empty; an IN circuit reads OPEN, and a
WITHDRAWING one becomes WITHDRAWN; a changed condition puts the circuit into the peers' owed sets (R150). On a sending
circuit that was not WITHDRAWN the dispatch rests with no entry left and its next serial kept. No slot that its entries served
is QUEUED there any more: where no route leads to the own service, each, unless DONE or in a message whose end sequence has
gone, is HELD, QUEUED on another circuit or CARRYING.
The records of the receive side: the current record of a message in TEXT takes the symbols of the lookahead, as far as the
store grants them, and is closed MUTILATED (LINE), or with the reason for which a symbol could not be stored (R38); each
record of the receive stack is closed MUTILATED (LINE). A record so closed is that message, or has been given back by the
service where a route leads to it. -/
def Obligations.OpenLineExpiryOpensTheLine : Prop :=
  ∀ (s : State) (l : Nat) (img : Image), SendIdleIffNoEntry s → l < 8 → s.station < 16 → s.openDue l = true →
    s.cfg = some img →
    ∃ t, exec (.openLineExpiry l) s = .next t ∧
      (t.line l).receiveSide =
        { (s.line l).receiveSide with
          wire := .opened, rx := .halted, rxCase := .letters, openTimer := false, restoreTimer := false } ∧
      t.masOf l = Mas.fresh (s.masOf l).expected ∧
      (∀ k, k ≠ l → (t.line k).receiveSide = (s.line k).receiveSide ∧ t.masOf k = s.masOf k ∧ t.adminOf k = s.adminOf k) ∧
      t.adminOf l = (if s.adminOf l = .inn then .inn else .withdrawn) ∧
      (s.adminOf l ≠ .withdrawn →
        (t.mapOf (s.circuit l)).condition = (if s.adminOf l = .inn then .opened else .withdrawn) ∧
        ((t.mapOf (s.circuit l)).condition ≠ (s.mapOf (s.circuit l)).condition → s.owedToPeers t (s.circuit l)) ∧
        (s.hasCtx l = true →
          t.ctxOf l = { t.ctxOf l with queue := [], current := none, stack := [], next := (s.ctxOf l).next, send := .idle } ∧
          ∀ e ∈ (s.ctxOf l).entries, ∀ i ∈ e.slots,
            t.slotState e.record i ≠ .queued (s.circuit l) ∧
            (s.noOwnService → (s.ctxOf l).endSent = false → e.record < 128 → (s.record e.record).state = .standing →
              (s.slot e.record i).isSome = true → (s.slotState e.record i).isDone = false →
              (∃ since o w, t.slotState e.record i = .held since o w) ∨ (∃ c, t.slotState e.record i = .queued c) ∨
                ∃ x, t.slotState e.record i = .carrying x))) ∧
      (∀ m, (s.masOf l).mode = .text → (s.masOf l).current = some m → m < 128 → (s.record m).state = .filling →
        (s.record m).slots ≠ [] → (s.record m).mutilated = none → m ∉ (s.masOf l).rstack →
        ∃ r stamp, Handled r (t.record m) ∧
          (s.noOwnService → (∀ sl ∈ (s.record m).slots, sl.state = .unrouted) → (∀ e ∈ (s.ctxOf l).entries, e.record ≠ m) →
            SameMessage r (t.record m)) ∧
          r = { s.record m with
            state := .standing, stamp := some stamp, text := r.text, chain := r.chain, errors := r.errors
            mutilated := r.mutilated } ∧
          ((r.mutilated = some .line ∧ r.text = (s.record m).text ++ (s.masOf l).look) ∨
            ((r.mutilated = some .noStore ∨ r.mutilated = some .length) ∧ ∃ kept σ lost,
              (s.masOf l).look = kept ++ σ :: lost ∧ r.text = (s.record m).text ++ kept)) ∧
          ((s.masOf l).look = [] →
            r = { s.record m with state := .standing, stamp := some stamp, mutilated := some .line })) ∧
      ((s.masOf l).rstack.Nodup → ∀ j ∈ (s.masOf l).rstack, j < 128 → (s.record j).state = .filling →
        (s.record j).slots ≠ [] → (s.record j).mutilated = none →
        ((s.masOf l).mode = .text → (s.masOf l).current ≠ some j) →
        ∃ r stamp, r = { s.record j with state := .standing, stamp := some stamp, mutilated := some .line } ∧
          Handled r (t.record j) ∧
          (s.noOwnService → (∀ sl ∈ (s.record j).slots, sl.state = .unrouted) → (∀ e ∈ (s.ctxOf l).entries, e.record ≠ j) →
            SameMessage r (t.record j)))

/-- RESTORE_EXPIRY (R17, R159, R170): the wire state is MARKING, the receiver READY in LETTERS with both timers stopped,
and the condition follows from kind and admin state: IN SERVICE when IN; where it changes, the circuit joins the peers' owed
sets (R150). No assembler and no admin state changes. -/
def Obligations.RestoreExpiryRestoresTheLine : Prop :=
  ∀ (s : State) (l : Nat), l < 8 → s.station < 16 → s.restoreDue l = true →
    ∃ t, exec (.restoreExpiry l) s = .next t ∧
      (t.line l).receiveSide =
        { (s.line l).receiveSide with
          wire := .marking, rx := .ready, rxCase := .letters, openTimer := false, restoreTimer := false } ∧
      (∀ k, k ≠ l → (t.line k).receiveSide = (s.line k).receiveSide) ∧ t.mas = s.mas ∧ t.admin = s.admin ∧
      (t.mapOf (s.circuit l)).condition =
        (match s.adminOf l with
          | .inn => .inService
          | .withdrawing => .withdrawing
          | .withdrawn => .withdrawn) ∧
      ((t.mapOf (s.circuit l)).condition ≠ (s.mapOf (s.circuit l)).condition → s.owedToPeers t (s.circuit l)) ∧
      ∀ c, c ≠ s.circuit l → (t.mapOf c).condition = (s.mapOf c).condition

/-! ## The send side of a line (chapters 1 and 5) -/

/-- What the sender keys for an item it begins when FREE (R12, R13), by the item and the send case: an inserted shift
first, or the item's only character. The send case follows the character keyed: LTRS gives LETTERS, FIGS gives FIGURES,
any other keeps it.
An item offered elsewhere (R11): refused in SHIFTING and KEYING; held in DRAINING when none is held (what happens to an
item already held is log entry 42 and is not stated). Nothing of the receive side changes. -/
def Obligations.SenderKeysByCase : Prop :=
  (∀ (img : Image) (x : Line) (code : Code), x.tx = .free →
    (x.offer img .lettersShift).keyed = some (codeOf img .letters .ltrs) ∧ (x.offer img .lettersShift).tx = .keying ∧
    (x.offer img (.symbol ⟨.neutral, code⟩)).keyed = some code ∧ (x.offer img (.symbol ⟨.neutral, code⟩)).tx = .keying ∧
    (x.txCase = .letters →
      (x.offer img (.symbol ⟨.letters, code⟩)).keyed = some code ∧
      (x.offer img (.symbol ⟨.letters, code⟩)).tx = .keying ∧
      (x.offer img (.symbol ⟨.figures, code⟩)).keyed = some (codeOf img .letters .figs) ∧
      (x.offer img (.symbol ⟨.figures, code⟩)).tx = .shifting ∧
      (x.offer img (.symbol ⟨.error, code⟩)).keyed = some img.errorCode ∧
      (x.offer img (.symbol ⟨.error, code⟩)).tx = .keying) ∧
    (x.txCase = .figures →
      (x.offer img (.symbol ⟨.figures, code⟩)).keyed = some code ∧
      (x.offer img (.symbol ⟨.figures, code⟩)).tx = .keying ∧
      (x.offer img (.symbol ⟨.letters, code⟩)).keyed = some (codeOf img .letters .ltrs) ∧
      (x.offer img (.symbol ⟨.letters, code⟩)).tx = .shifting ∧
      (x.offer img (.symbol ⟨.error, code⟩)).keyed = some (codeOf img .letters .ltrs) ∧
      (x.offer img (.symbol ⟨.error, code⟩)).tx = .shifting)) ∧
  (∀ (img : Image) (x : Line) (it : Item), x.tx = .free →
    (x.offer img it).item = some it ∧ (x.offer img it).held = x.held ∧ (x.offer img it).receiveSide = x.receiveSide ∧
    ∃ c, (x.offer img it).keyed = some c ∧
      (x.offer img it).txCase =
        (if meaningOf img x.txCase c = some .ltrs then .letters
          else if meaningOf img x.txCase c = some .figs then .figures else x.txCase)) ∧
  (∀ (img : Image) (x : Line) (it : Item), x.tx = .shifting ∨ x.tx = .keying → x.offer img it = x) ∧
  (∀ (img : Image) (x : Line) (it : Item), x.tx = .draining → x.held = none →
    x.offer img it = { x with held := some it })

/-- INSERTED_SHIFT_END (R11, R12, R13): the item's own code is keyed (for an ERROR symbol the configured error code), and
the send case follows it. Nothing else changes.
DRAINING_END (R11, R14): the sender begins the item it holds, or goes FREE with TXD marking. No completion is
raised: the dispatch and all else stay. -/
def Obligations.ShiftEndAndDrainingEnd : Prop :=
  (∀ (s : State) (l : Nat) (img : Image) (σ : Symbol),
     l < 8 → s.running = true → s.cfg = some img → (s.line l).tx = .shifting → (s.line l).item = some (.symbol σ) →
     exec (.insertedShiftEnd l) s = .next (s.setLine l
       { s.line l with
         tx := .keying
         keyed := some (if σ.tag = .error then img.errorCode else σ.code)
         txCase := caseAfter img (s.line l).txCase (if σ.tag = .error then img.errorCode else σ.code) })) ∧
  (∀ (s : State) (l : Nat) (img : Image),
     l < 8 → s.running = true → s.cfg = some img → (s.line l).tx = .draining →
     ((s.line l).held = none →
       exec (.drainingEnd l) s = .next (s.setLine l { s.line l with tx := .free, item := none, keyed := none })) ∧
     ∀ it, (s.line l).held = some it →
       exec (.drainingEnd l) s = .next (s.setLine l
         ({ s.line l with tx := .free, item := none, held := none, keyed := none }.begin img it)))

/-- CHARACTER_COMPLETION on a circuit that is IDLE (R11, R92): the sender goes FREE with TXD marking, and the dispatch
does nothing.
CHARACTER_COMPLETION within a header, trailer, break line or resume line (R92): the send position moves on and the
next item is begun in the same event. No record and no other context changes.
The last item of a header or resume line (R91, R97, R106, R111): a break when the queue head preempts, else the text
from the line origin, a guard space first where one is called for, or the trailer when no text is left.
The last item of a break line (R109, R110): the entry goes onto the stack with the line origin as its resume offset,
after the bottom entry of a full stack has gone back to the queue unstarted, or on a WITHDRAWING circuit has been removed
and its slots re-resolved; then the pick. That the held list is re-examined after that removal is the model's reading of
R90 and R78 (log entry 25).
The last item of a trailer (R100): the entry completes, the held list is re-examined, and the pick follows. -/
def Obligations.CompletionInIdleOrInAFraming : Prop :=
  (∀ (s : State) (l : Nat), l < 8 → s.running = true → s.ev = Event.none → (s.line l).tx = .keying →
     (s.ctxOf l).send = .idle →
     ∃ t, exec (.characterCompletion l) s = .next t ∧
       t.line l = { s.line l with tx := .free, item := none, keyed := none } ∧ (∀ k, k ≠ l → t.line k = s.line k) ∧
       t.ctx = s.ctx ∧ t.store = s.store ∧ t.mas = s.mas ∧ t.map = s.map ∧ t.admin = s.admin ∧ t.peers = s.peers) ∧
  (∀ (s : State) (l : Nat) (img : Image) (e : Entry),
     l < 8 → s.running = true → s.ev = Event.none → s.cfg = some img → s.hasCtx l = true → (s.line l).tx = .keying →
     (s.ctxOf l).current = some e → (s.ctxOf l).send ≠ .idle → (s.ctxOf l).send ≠ .text →
     (∀ it, (s.ctxOf l).framing[(s.ctxOf l).pos + 1]? = some it →
       ∃ t, exec (.characterCompletion l) s = .next t ∧
         t.line l = { s.line l with tx := .free, item := none, keyed := none }.begin img it ∧
         t.ctxOf l = { s.ctxOf l with pos := (s.ctxOf l).pos + 1 } ∧
         (∀ k, k ≠ l → t.line k = s.line k ∧ t.ctxOf k = s.ctxOf k) ∧ t.store = s.store) ∧
     ((s.ctxOf l).framing[(s.ctxOf l).pos + 1]? = none → (s.ctxOf l).send = .header ∨ (s.ctxOf l).send = .resuming →
       ∃ t, exec (.characterCompletion l) s = .next t ∧ t.store = s.store ∧
         (∀ k, k ≠ l → t.line k = s.line k ∧ t.ctxOf k = s.ctxOf k) ∧
         (t.ctxOf l).current = some e ∧ (t.ctxOf l).queue = (s.ctxOf l).queue ∧
         (t.ctxOf l).stack = (s.ctxOf l).stack ∧ (t.ctxOf l).origin = (s.ctxOf l).origin ∧
         (s.preempts l = true →
           (t.ctxOf l).send = .breaking ∧ (t.ctxOf l).pos = 0 ∧
           (t.ctxOf l).framing = breakItems img (e.assigned.getD 0)) ∧
         (s.preempts l = false → (s.record e.record).text.length ≤ (s.ctxOf l).origin →
           (t.ctxOf l).send = .trailer ∧ (t.ctxOf l).pos = 0 ∧
           (t.ctxOf l).framing = trailerItems img (s.record e.record)) ∧
         (s.preempts l = false → ∀ σ, (s.record e.record).text[(s.ctxOf l).origin]? = some σ →
           (t.ctxOf l).send = .text ∧ (t.ctxOf l).pos = (s.ctxOf l).origin ∧
           ((t.ctxOf l).guarding = true ↔
             needsGuard img e.assigned ((s.record e.record).text.drop (s.ctxOf l).origin) = true) ∧
           t.line l = { s.line l with tx := .free, item := none, keyed := none }.begin img
             (.symbol (if (t.ctxOf l).guarding then spaceSym img else σ)))) ∧
     ((s.ctxOf l).framing[(s.ctxOf l).pos + 1]? = none → (s.ctxOf l).send = .breaking →
       ((s.ctxOf l).stack.length < 3 →
         exec (.characterCompletion l) s = .next
           ((((s.setLine l { s.line l with tx := .free, item := none, keyed := none }).setCtx l
             { s.ctxOf l with
               pos := (s.ctxOf l).pos + 1
               current := none
               stack := { e with resume := some (s.ctxOf l).origin } :: (s.ctxOf l).stack }).pickAndTest l).finish)) ∧
       (∀ a b bottom, (s.ctxOf l).stack = [a, b, bottom] → s.ownCondition l ≠ .withdrawing →
         exec (.characterCompletion l) s = .next
           ((((s.setLine l { s.line l with tx := .free, item := none, keyed := none }).setCtx l
             { s.ctxOf l with
               pos := (s.ctxOf l).pos + 1
               current := none
               queue := insertBy Entry.before
                 { bottom with repeatSerial := bottom.assigned.or bottom.repeatSerial, assigned := none, resume := none }
                 (s.ctxOf l).queue
               stack := [{ e with resume := some (s.ctxOf l).origin }, a, b] }).pickAndTest l).finish)) ∧
       (∀ a b bottom, (s.ctxOf l).stack = [a, b, bottom] → s.ownCondition l = .withdrawing →
         ∃ v : State,
           v = ((((s.setLine l { s.line l with tx := .free, item := none, keyed := none }).setCtx l
             { s.ctxOf l with pos := (s.ctxOf l).pos + 1, current := none, stack := [a, b] }).touchLine l).reResolve
               (bottom.slots.map fun i => (bottom.record, i))).reexamine ∧
           exec (.characterCompletion l) s = .next
             (((v.setCtx l { v.ctxOf l with
               stack := [{ e with resume := some (s.ctxOf l).origin }, a, b] }).pickAndTest l).finish))) ∧
     ((s.ctxOf l).framing[(s.ctxOf l).pos + 1]? = none → (s.ctxOf l).send = .trailer →
       ∃ t, t = (s.setLine l { s.line l with tx := .free, item := none, keyed := none }).setCtx l
           { s.ctxOf l with pos := (s.ctxOf l).pos + 1 } ∧
         exec (.characterCompletion l) s = .next (((t.completeEntry l e).reexamine.pickAndTest l).finish) ∧
         ((t.completeEntry l e).ctxOf l).current = none ∧ ((t.completeEntry l e).ctxOf l).send = .idle ∧
         ((t.completeEntry l e).ctxOf l).queue = (s.ctxOf l).queue ∧
         ((t.completeEntry l e).ctxOf l).stack = (s.ctxOf l).stack ∧
         ((t.completeEntry l e).ctxOf l).next = (s.ctxOf l).next))

/-- CHARACTER_COMPLETION of a text symbol (R91, R97, R106, R107): past the last symbol the trailer begins; else an entry
of a lower class than the queue head on an IN SERVICE circuit is broken; else, where no guard space is called for, the
next symbol is begun. The line origin follows a completed LF. -/
def Obligations.CompletionInText : Prop :=
  ∀ (s : State) (l : Nat) (img : Image) (e : Entry),
    l < 8 → s.running = true → s.ev = Event.none → s.cfg = some img → s.hasCtx l = true → (s.line l).tx = .keying →
    (s.ctxOf l).current = some e → (s.ctxOf l).send = .text → (s.ctxOf l).guarding = false →
    ∃ t, exec (.characterCompletion l) s = .next t ∧ t.store = s.store ∧
      (∀ k, k ≠ l → t.line k = s.line k ∧ t.ctxOf k = s.ctxOf k) ∧
      (t.ctxOf l).current = some e ∧ (t.ctxOf l).queue = (s.ctxOf l).queue ∧ (t.ctxOf l).stack = (s.ctxOf l).stack ∧
      ((s.record e.record).text.length ≤ (s.ctxOf l).pos + 1 →
        (t.ctxOf l).send = .trailer ∧ (t.ctxOf l).framing = trailerItems img (s.record e.record) ∧ (t.ctxOf l).pos = 0) ∧
      ((s.ctxOf l).pos + 1 < (s.record e.record).text.length →
        (t.ctxOf l).origin =
          (if ((s.record e.record).text[(s.ctxOf l).pos]?).elim false (means img .lf) then (s.ctxOf l).pos + 1
            else (s.ctxOf l).origin) ∧
        (s.preempts l = true →
          (t.ctxOf l).send = .breaking ∧ (t.ctxOf l).pos = 0 ∧
          (t.ctxOf l).framing = breakItems img (e.assigned.getD 0)) ∧
        (s.preempts l = false →
          ((s.ctxOf l).lineStart && needsGuard img e.assigned ((s.record e.record).text.drop ((s.ctxOf l).pos + 1)))
            = false →
          ∀ σ, (s.record e.record).text[(s.ctxOf l).pos + 1]? = some σ →
            (t.ctxOf l).send = .text ∧ (t.ctxOf l).pos = (s.ctxOf l).pos + 1 ∧
            t.line l = { s.line l with tx := .free, item := none, keyed := none }.begin img (.symbol σ)))

/-! ## Circuit dispatch and resolver, by operation (chapters 3 to 6 and 9) -/

/-- The pick rule (R101): what starts, by stack, queue head and condition. A start takes the next serial and leaves the
queue's rest; a resumption takes the stack top and no serial. -/
def Obligations.PickRule : Prop :=
  ∀ (s : State) (l : Nat) (img : Image), l < 8 → s.cfg = some img →
    ((s.ctxOf l).stack = [] → (s.ctxOf l).queue = [] → ((s.pick l).ctxOf l).send = .idle) ∧
    (∀ e rest, (s.ctxOf l).queue = e :: rest →
      ((s.ctxOf l).stack = [] ∨ ∃ top below, (s.ctxOf l).stack = top :: below ∧ top.cls.num < e.cls.num) →
      s.ownCondition l = .inService →
        ((s.pick l).ctxOf l).send = .header ∧ ((s.pick l).ctxOf l).queue = rest ∧
        ((s.pick l).ctxOf l).current = some { e with assigned := some (s.ctxOf l).next } ∧
        ((s.pick l).ctxOf l).next = (if (s.ctxOf l).next = 999 then 1 else (s.ctxOf l).next + 1) ∧
        ((s.pick l).ctxOf l).stack = (s.ctxOf l).stack) ∧
    ((s.ctxOf l).stack = [] → s.ownCondition l ≠ .inService →
      ((s.pick l).ctxOf l).send = .idle ∧ ((s.pick l).ctxOf l).queue = (s.ctxOf l).queue) ∧
    (∀ top below, (s.ctxOf l).stack = top :: below →
      (s.ownCondition l = .withdrawing ∨
        (s.ownCondition l = .inService ∧ ∀ e rest, (s.ctxOf l).queue = e :: rest → ¬ top.cls.num < e.cls.num)) →
        ((s.pick l).ctxOf l).send = .resuming ∧ ((s.pick l).ctxOf l).stack = below ∧
        ((s.pick l).ctxOf l).current = some { top with resume := none } ∧
        ((s.pick l).ctxOf l).next = (s.ctxOf l).next ∧ ((s.pick l).ctxOf l).queue = (s.ctxOf l).queue)

/-- An entry's completion at the store (R100, R48, R58): every slot it serves is DONE, or its record has been released
and is FREE.
A CARRY taken by a station (R144, R147): each slot listed with a target of that station and still CARRYING to one is
DONE, or its record has been released and is FREE; a slot listed for other stations alone is left, or its record has been
released.
FRAME_COMPLETED of a CARRY (R48, R128, R147), when no addressed station becomes SILENT by it: each slot listed for a
station read as TAKE and still CARRYING to it is DONE, or its record has been given back, as long as the record is the one
the frame was built from (it bears the stamp that the offer keeps, log entry 37). `hd` is the level of slot 31. -/
def Obligations.FinishedSlotsAreDone : Prop :=
  (∀ (s : State) (l : Nat) (e : Entry) (i : Nat), e.record < 128 → i ∈ e.slots → (s.slot e.record i).isSome = true →
     ((s.completeEntry l e).record e.record).state = .free ∨
       ((s.completeEntry l e).slotState e.record i).isDone = true) ∧
  (∀ (s : State) (k m i : Nat) (addr : List Nat) (listed : List (Nat × Target)), m < 128 →
     (∀ x, (i, x) ∈ listed → x.owner = k → s.carriesTo m i k = true →
       ((s.takenBy k (.carry addr m listed)).record m).state = .free ∨
         ((s.takenBy k (.carry addr m listed)).slotState m i).isDone = true) ∧
     ((∀ x, (i, x) ∈ listed → x.owner ≠ k) →
       ((s.takenBy k (.carry addr m listed)).record m).state = .free ∨
         (s.takenBy k (.carry addr m listed)).slotState m i = s.slotState m i)) ∧
  (∀ (s : State) (f : Flight) (cells : List Byte) (addr : List Nat) (m : Nat) (listed : List (Nat × Target)) (hd : Bool)
     (o : Offer) (i : Nat) (x : Target),
     s.running = true → s.flight = some f → s.engine = .receipt → f.own = some (.carry addr m listed, cells) →
     f.slot = 31 → addr.Nodup → m < 128 → (s.record m).state = .standing → s.offered = some o →
     o.stamp = (s.record m).stamp →
     (∀ j, j ∈ addr → j ∈ f.takeSet ∨ j ∈ f.heardSet ∨ (j = 15 ∧ hd = false) ∨ (s.peer j).unheard ≠ 2) →
     (i, x) ∈ listed → x.owner ∈ addr → x.owner ∈ f.takeSet ∨ (x.owner = 15 ∧ hd = false) →
     s.carriesTo m i x.owner = true →
     ∃ t, exec (.frameCompleted hd) s = .next t ∧ ((t.record m).givenBack ∨ (t.slotState m i).isDone = true))

/-- The target of a slot (R69, R70): an intercept-bound slot has the intercept circuit or none, as it is available or
not; any other has the first of its code's targets, judged on its diversion, that is available, or none when none is. -/
def Obligations.RoutedTargetOfASlot : Prop :=
  ∀ (s : State) (img : Image) (r : Record) (sl : Slot),
    (interceptBound r sl = true ↔ r.intercept ≠ none ∨ r.hop = 3 ∨ sl.dest = .pseudo) ∧
    (interceptBound r sl = true →
      s.routed img r sl = if s.circuitAvailable img.intercept then some (.circuit img.intercept) else none) ∧
    ∀ code, interceptBound r sl = false → sl.dest = .office code →
      (∀ e, (img.routes.find? fun e => decide (e.code = code)) = some e →
        (∀ t, s.routed img r sl = some t →
          s.available t = true ∧ ∃ before c after, e.targets.filterMap id = before ++ c :: after ∧
            t = s.judged img c ∧ ∀ b ∈ before, s.available (s.judged img b) = false) ∧
        (s.routed img r sl = none → ∀ c ∈ e.targets.filterMap id, s.available (s.judged img c) = false)) ∧
      ((img.routes.find? fun e => decide (e.code = code)) = none → s.routed img r sl = none)

/-- Availability (R66). -/
def Obligations.AvailabilityOfTargets : Prop :=
  ∀ s : State,
    (∀ c, s.circuitAvailable c = true ↔
      (s.mapOf c).condition = .inService ∧ ((s.mapOf c).kind = .duplex ∨ (s.mapOf c).kind = .sendOnly) ∧
        ((c < 128 ∧ c / 8 = s.station) ∨ ((s.peer (c / 8)).presence = .present ∧ (s.peer (c / 8)).flag = .set))) ∧
    (∀ k, s.serviceAvailable k = true ↔ k = s.station ∨ ((s.peer k).presence = .present ∧ (s.peer k).flag = .set))

/-- Grants against the class reserves (R50): who is granted, and by how much the free counts fall. A refusal answers no
new state. The limit of 128 blocks of a record is R49's; an UNCONFIGURED station's store refuses every request (R61). -/
def Obligations.GrantsAgainstReserves : Prop :=
  ∀ (s : State) (cls : MsgClass),
    (s.configured = false → (∀ k, s.grantRecord cls k = none) ∧ ∀ m, s.grantBlock m = none) ∧
    (s.configured = true →
      (∀ k, (s.grantRecord cls k).isSome = true ↔
        (if 3 ≤ cls.num then k ≤ s.freeBlocks ∧ 1 ≤ s.freeRecords
          else 96 + k ≤ s.freeBlocks ∧ 8 + 1 ≤ s.freeRecords)) ∧
      (∀ k m t, s.grantRecord cls k = some (m, t) →
        t.freeBlocks + k = s.freeBlocks ∧ t.freeRecords + 1 = s.freeRecords) ∧
      (∀ m, (s.record m).state = .filling → (s.record m).chain.length < 128 → (s.record m).cls = cls →
        ((s.grantBlock m).isSome = true ↔ (if 3 ≤ cls.num then 1 ≤ s.freeBlocks else 96 + 1 ≤ s.freeBlocks)) ∧
        ∀ t, s.grantBlock m = some t → t.freeBlocks + 1 = s.freeBlocks ∧ t.freeRecords = s.freeRecords))

/-- Completion in the store (R56): the record takes the present stamp and stands, and the counter rises by one, staying
at its last value; a record with no slot is released instead. -/
def Obligations.CompletionStampsTheRecord : Prop :=
  ∀ (s : State) (m : Nat), m < 128 →
    (s.complete m).store.stamp = min (s.store.stamp + 1) (max 4294967295 s.store.stamp) ∧
    ((s.record m).slots ≠ [] →
      (s.complete m).record m = { s.record m with stamp := some s.store.stamp, state := .standing }) ∧
    ((s.record m).slots = [] → (s.record m).state ≠ .free → (s.complete m).record m = Record.empty) ∧
    ∀ j, j ≠ m → (s.complete m).record j = s.record j

/-- The serial check (R29): outcome and expected serial after it, for serials 1 to 999. -/
def Obligations.SerialCheckTable : Prop :=
  ∀ n e : Nat, 1 ≤ n → n ≤ 999 → 1 ≤ e → e ≤ 999 →
    serialCheck none n = (.good, some (if n = 999 then 1 else n + 1)) ∧
    (n = e → serialCheck (some e) n = (.good, some (if n = 999 then 1 else n + 1))) ∧
    (∀ d, d = (n + 999 - e) % 999 → 1 ≤ d → d ≤ 499 →
      serialCheck (some e) n = (.gap e (if n = 1 then 999 else n - 1) d, some (if n = 999 then 1 else n + 1))) ∧
    (∀ d, d = (n + 999 - e) % 999 → 500 ≤ d → serialCheck (some e) n = (.duplicate, some e))

/-! ## The office (chapter 10) -/

/-- How a level moves (R176): its state after an evaluation and the change it reports, RAISED or CLEARED.
Its cause (R175): the free counts at or below the threshold; depth, age and held slots at or above it; none without a measure,
as the oldest age of a circuit with no entries.
One evaluation (R175, R176): of an existing gauge of an enabled condition both levels move, on the measure and their own
threshold and latch option, and their changes are added, WARNING before ALARM; no other gauge is evaluated.
An evaluation event (R177): its gauges, each once, in the order of R175; its changes are one ALARM report, and with no change
none is requested. -/
def Obligations.LevelMoves : Prop :=
  (∀ latched, LevelState.move latched true .clear = (.set, some true)) ∧
  (∀ latched, LevelState.move latched false .clear = (.clear, none)) ∧
  (∀ latched, LevelState.move latched true .set = (.set, none)) ∧
  LevelState.move false false .set = (.clear, some false) ∧
  LevelState.move true false .set = (.causeGone, none) ∧
  (∀ latched, LevelState.move latched true .causeGone = (.set, none)) ∧
  (∀ latched, LevelState.move latched false .causeGone = (.causeGone, none)) ∧
  (∀ (g : Gauge) (th : Nat), causePresent g none th = false) ∧
  (∀ v th : Nat,
    (causePresent .blocks (some v) th = true ↔ v ≤ th) ∧ (causePresent .records (some v) th = true ↔ v ≤ th) ∧
    (causePresent .held (some v) th = true ↔ th ≤ v) ∧
    ∀ l, (causePresent (.depth l) (some v) th = true ↔ th ≤ v) ∧ (causePresent (.age l) (some v) th = true ↔ th ≤ v)) ∧
  (∀ s : State,
    s.measure .blocks = some s.store.pool.length ∧ s.measure .records = some s.freeRecords ∧
    s.measure .held = some s.heldList.length ∧
    ∀ l, s.measure (.depth l) = some (s.ctxOf l).entries.length ∧
      (s.measure (.age l) = none ↔ (s.ctxOf l).entries = []) ∧
      ∀ a, s.measure (.age l) = some a →
        (∃ e ∈ (s.ctxOf l).entries, a = capAge (ageOf s.minute e.queuedAt)) ∧
        ∀ e ∈ (s.ctxOf l).entries, capAge (ageOf s.minute e.queuedAt) ≤ a) ∧
  (∀ (s : State) (img : Image) (cs : List Change) (g : Gauge), img.enabled g = false ∨ s.hasGauge g = false →
    State.evaluateOne img (s, cs) g = (s, cs)) ∧
  (∀ (s : State) (img : Image) (cs : List Change) (g : Gauge) (w a : LevelState) (dw da : Option Bool),
    img.enabled g = true → s.hasGauge g = true →
    (s.levels.get g).warning.move img.warningsLatched (causePresent g (s.measure g) (img.threshold g).warning) = (w, dw) →
    (s.levels.get g).alarm.move img.alarmsLatched (causePresent g (s.measure g) (img.threshold g).alarm) = (a, da) →
    State.evaluateOne img (s, cs) g =
      ({ s with levels := s.levels.put g ⟨w, a⟩ },
        cs ++ (dw.map fun raised => ⟨g, false, raised, s.measure g⟩).toList ++
          (da.map fun raised => ⟨g, true, raised, s.measure g⟩).toList)) ∧
  (∀ (s : State) (gs : List Gauge),
    (s.cfg = none → s.evaluateGauges gs = s) ∧
    ∀ img t changes, s.cfg = some img →
      ((allGauges.filter fun g => decide (g ∈ gs)).foldl (State.evaluateOne img) (s, [])) = (t, changes) →
      s.evaluateGauges gs = if changes = [] then t else t.request (.alarm changes))

/-- A report request in service (R184): refused by the store at class BUSINESS it raises the lost-report count, at most
to 255; with no image it is dropped. Granted, the count is 0 and the report is made: the lowest FREE record stands with
source SERVICE, class BUSINESS, this station's service code as origin, the report's text in the lowest free blocks, the
present stamp, and one slot addressed to the supervisor (or, when that code is this station's own service or has no
available target, as the resolver leaves it); no other record changes. -/
def Obligations.ReportsCountedOrMade : Prop :=
  ∀ (s : State) (r : Report),
    (s.cfg = none → s.request r = s) ∧
    (∀ img, s.cfg = some img → s.running = true →
      (s.freeBlocks < blocksFor (textOf img (cutLines (s.reportLines r))).length + 96 ∨ s.freeRecords < 9 →
        s.request r = { s with lost := min 255 (s.lost + 1) }) ∧
      ((textOf img (cutLines (s.reportLines r))).length ≤ 4096 →
        blocksFor (textOf img (cutLines (s.reportLines r))).length + 96 ≤ s.freeBlocks → 9 ≤ s.freeRecords →
        (s.request r).lost = 0 ∧
        ∃ m sl seen, m < 128 ∧ (s.record m).state = .free ∧ (∀ j, j < m → (s.record j).state ≠ .free) ∧
          (s.request r).record m =
            { Record.empty with
              state := .standing
              source := some .service
              cls := .business
              origin := s.serviceCode
              intercept := if (img.routes.find? fun e => decide (e.code = img.supervisor)).isNone then some .unknown else none
              chain := s.store.pool.take (blocksFor (textOf img (cutLines (s.reportLines r))).length)
              text := textOf img (cutLines (s.reportLines r))
              stamp := some s.store.stamp
              slots := [sl]
              served := seen } ∧
          (sl.dest = .office img.supervisor ∨ sl.dest = .pseudo) ∧
          ((∃ c, sl.state = .queued c) ∨ (∃ x, sl.state = .carrying x) ∨ ∃ w, sl.state = .held s.minute false w) ∧
          ∀ j, j ≠ m → (s.request r).record j = s.record j))

/-- OFFICE_MINUTE_ADVANCE (R179): the minute moves on by one, 65535 being followed by 0; the rest of the station is as
the end of an event leaves it. -/
def Obligations.MinuteAdvances : Prop :=
  ∀ s : State, s.running = true →
    ∃ t, exec .officeMinuteAdvance s = .next t ∧ t.minute.toNat = (s.minute.toNat + 1) % 65536 ∧
      Kept { s with minute := t.minute } t

/-- HOLD_LIMIT_EXPIRY (R79, R80): every expired slot bears the intercept pseudo-code, and is QUEUED or CARRYING to the
intercept circuit, or stays HELD since the same minute, marked overdue unless that circuit is busy with its record. That
a slot held BUSY so keeps its overdue mark clear is log entry 33 (DEDUCED), and that one command takes every expired slot
is log entry 16; both are the model's choice. -/
def Obligations.ExpiredSlotsGoToTheIntercept : Prop :=
  ∀ (s : State) (img : Image), s.running = true → s.cfg = some img → s.expired ≠ [] →
    ∃ t, exec .holdLimitExpiry s = .next t ∧ Kept s t ∧
      ∀ m i since overdue reason, (m, i) ∈ s.expired → s.slotState m i = .held since overdue reason →
        ∃ sl, t.slot m i = some sl ∧ sl.dest = .pseudo ∧
          (sl.state = .queued img.intercept ∨ sl.state = .carrying (.circuit img.intercept) ∨
            sl.state = .held since true .noRoute ∨
            ∃ o, sl.state = .held since o (.busy img.intercept))

/-- SERVICE_MESSAGE_REST of a message with no fixed restart (R183): the message's rest is taken from the front and the
station stays in service with its configuration, its serials and its restart record. That the rests of several messages
wait in a queue whose front is taken first is the model's choice (log entry 11, DEDUCED). With no circuit request, the moves of
its DIVERT lines are carried out in line order, and the COMMAND report is requested.
The move of a diverted circuit (R171): its unstarted entries are removed, their slots re-resolved together, and the held list
re-examined. The entry in transmission, the stack and the next serial stay, and an entry queued there afterwards is a new one
with the present minute and no repeat serial.
A DIVERT line (R171): its outcome by the checks in order; where it gives SET or CLEARED the circuit's diversion is written, its
move is kept for the rest of the message, and the circuit joins the peers' owed sets (R150); else nothing changes. -/
def Obligations.ServiceRestWithoutRestart : Prop :=
  (∀ (s : State) (img : Image) (q : Rest) (qs : List Rest) (straps : BitVec 4) (hc hd : Bool),
    s.running = true → s.cfg = some img → s.rests = q :: qs → q.restart = none →
    ∃ t, exec (.serviceMessageRest straps hc hd) s = .next t ∧ (∃ more, t.rests = qs ++ more) ∧
      t.phase = s.phase ∧ t.cfg = s.cfg ∧ t.station = s.station ∧ t.restart = s.restart ∧ t.minute = s.minute ∧
      t.streak = s.streak ∧ t.pending = s.pending ∧
      (∀ l, l < 8 → (t.masOf l).expected = (s.masOf l).expected ∧ (t.masOf l).rstack = (s.masOf l).rstack) ∧
      (q.outs = [] → q.ins = [] →
        t = ((q.moves.foldl State.moveDiverted { s with rests := qs }).request (.command q [] [])).finish)) ∧
  (∀ (s : State) (l : Nat), l < 8 →
    s.moveDiverted (s.circuit l) =
      (((if (s.ctxOf l).queue = [] then s else (s.setCtx l { s.ctxOf l with queue := [] }).touchLine l).reResolve
        ((s.ctxOf l).queue.flatMap fun e => e.slots.map fun i => (e.record, i))).reexamine) ∧
    ((s.moveDiverted (s.circuit l)).ctxOf l).current = (s.ctxOf l).current ∧
    ((s.moveDiverted (s.circuit l)).ctxOf l).stack = (s.ctxOf l).stack ∧
    ((s.moveDiverted (s.circuit l)).ctxOf l).send = (s.ctxOf l).send ∧
    ((s.moveDiverted (s.circuit l)).ctxOf l).next = (s.ctxOf l).next ∧
    ∀ e ∈ ((s.moveDiverted (s.circuit l)).ctxOf l).queue,
      e.queuedAt = s.minute ∧ e.repeatSerial = none ∧ e.resume = none ∧ e.assigned = none) ∧
  (∀ (s : State) (img : Image) (q : Rest) (n c : Nat) (d : Option Nat), c < 128 →
    s.divertResult img c d =
      (if s.isOwn c = false then .notOwn
      else if s.kind (lineOf c) = .unfitted then .unfitted
      else if c = img.intercept then .intercept
      else if 128 ≤ d.getD 0 then .range
      else if d = some c then .same
      else if (s.mapOf c).diversion = d then .noChange
      else if d = none then .divertCleared
      else .diverted) ∧
    (s.doDivert img q n c d).2 =
      { q with
        answers := q.answers ++ [.known n .divert (s.divertResult img c d)]
        moves :=
          if s.divertResult img c d = .diverted ∨ s.divertResult img c d = .divertCleared then q.moves ++ [c]
          else q.moves } ∧
    (s.divertResult img c d ≠ .diverted → s.divertResult img c d ≠ .divertCleared → (s.doDivert img q n c d).1 = s) ∧
    (s.divertResult img c d = .diverted ∨ s.divertResult img c d = .divertCleared →
      ∃ t, (s.doDivert img q n c d).1 = t ∧
        t = { s with map := t.map, peers := t.peers } ∧
        (∀ b, t.mapOf b = if b = c then { s.mapOf c with diversion := d } else s.mapOf b) ∧
        ∀ k, k < 16 →
          t.peer k =
            if s.fitted k = true ∧ k ≠ s.station ∧ (s.peer k).presence ≠ .silent ∧ (s.peer k).flag ≠ .clear then
              { s.peer k with owed := insertRising c (s.peer k).owed }
            else s.peer k))

/-- SERVICE_MESSAGE_REST with a COLD restart fixed (R183, R191, R192, R193): a full restart begins at once, without a
hold; COLD is set and last, the warm count stays, and the straps are sampled. Every block's state is lost; what the
blocks read as during the load (`NothingHeld`) is log entry 1 (PRESUMED). -/
def Obligations.ServiceRestCold : Prop :=
  ∀ (s : State) (img : Image) (q : Rest) (qs : List Rest) (straps : BitVec 4) (hc hd : Bool),
    s.running = true → s.cfg = some img → s.rests = q :: qs → q.restart = some .cold →
    ∃ t, exec (.serviceMessageRest straps hc hd) s = .next t ∧ t.phase = .loading ∧ t.station = straps.toNat ∧
      t.restart = { s.restart with cold := true, last := .cold } ∧ t.cfgCs = true ∧ NothingHeld t ∧
      t.pending = s.pending

/-- SERVICE_MESSAGE_REST with a WARM restart fixed (R20, R42, R158, R174, R192, R198): WARM is set and last and the warm
count rises to 255 at most; the configuration, the straps, the expected serials and the office minute are kept; every
receiver and assembler starts afresh; a withdrawal under way is complete; no peer is heard. -/
def Obligations.ServiceRestWarm : Prop :=
  ∀ (s : State) (img : Image) (q : Rest) (qs : List Rest) (straps : BitVec 4) (hc hd : Bool),
    s.running = true → s.cfg = some img → s.rests = q :: qs → q.restart = some .warm → q.outs = [] → q.ins = [] →
    ∃ t, exec (.serviceMessageRest straps hc hd) s = .next t ∧ t.phase = .running ∧ t.cfg = some img ∧
      t.station = s.station ∧ t.minute = s.minute ∧ t.streak = 0 ∧ t.pending = s.pending ∧
      t.restart = { s.restart with warm := true, last := .warm, warms := min 255 (s.restart.warms + 1) } ∧
      t.musterPending = s.fittedPeers ∧
      (∀ l, l < 8 → t.masOf l = Mas.fresh (s.masOf l).expected ∧
        t.adminOf l = (if s.adminOf l = .inn then .inn else .withdrawn) ∧
        (t.line l).receiveSide =
          Line.fresh (s.line l).rxd (if (s.kind l).receives && !(s.line l).rxd then .spacingHold else .ready)
            (s.watches l && !(s.line l).rxd)) ∧
      ∀ k, k < 16 → k ≠ s.station →
        (t.peer k).presence = .unknown ∧ (t.peer k).flag = .notKnown ∧ (t.peer k).edition = none

/-- A valid circuit request with OUT circuits (R161, R162, R165): each that is own, fitted and IN is WITHDRAWN when the
withdrawal test passes with its admin state at WITHDRAWING (a circuit with a dispatch context is IDLE with an empty
stack, and its assembler is in HUNT or DISCARD), else WITHDRAWING; its condition reads the same; the other circuits keep
their admin states. A circuit whose condition changes joins the peers' owed sets (R150).
A circuit request with IN circuits, alone or in a request that is invalid (R161, R166): each that is own and fitted is
IN, and its condition follows its wire; the OUT circuits of an invalid request (an own and fitted OUT circuit is the
intercept circuit, or the request's own source, or stands beside an own and fitted IN circuit) and all other circuits
keep their admin states. -/
def Obligations.CircuitRequestMovesAdminStates : Prop :=
  (∀ (s : State) (img : Image) (q : Rest) (qs : List Rest) (straps : BitVec 4) (hc hd : Bool),
     s.running = true → s.cfg = some img → s.rests = q :: qs → q.restart = none → q.moves = [] → q.ins = [] →
     q.outs ≠ [] → (∀ c ∈ q.outs, c ≠ img.intercept ∧ q.source ≠ some (.circuit c)) →
     ∃ t, exec (.serviceMessageRest straps hc hd) s = .next t ∧
       ∀ l, l < 8 →
         (s.adminOf l = .inn → s.isOwn (s.circuit l) = true → s.kind l ≠ .unfitted → s.circuit l ∈ q.outs →
           ((s.hasCtx l = true → (s.ctxOf l).send = .idle ∧ (s.ctxOf l).stack = []) ∧
               ((s.masOf l).mode = .hunt ∨ (s.masOf l).mode = .discard) →
             t.adminOf l = .withdrawn ∧ (t.mapOf (s.circuit l)).condition = .withdrawn) ∧
           (¬ ((s.hasCtx l = true → (s.ctxOf l).send = .idle ∧ (s.ctxOf l).stack = []) ∧
               ((s.masOf l).mode = .hunt ∨ (s.masOf l).mode = .discard)) →
             t.adminOf l = .withdrawing ∧ (t.mapOf (s.circuit l)).condition = .withdrawing)) ∧
         (s.adminOf l ≠ .inn ∨ s.kind l = .unfitted ∨ s.circuit l ∉ q.outs → t.adminOf l = s.adminOf l) ∧
         ((t.mapOf (s.circuit l)).condition ≠ (s.mapOf (s.circuit l)).condition → s.owedToPeers t (s.circuit l))) ∧
  (∀ (s : State) (img : Image) (q : Rest) (qs : List Rest) (straps : BitVec 4) (hc hd : Bool),
     s.running = true → s.cfg = some img → s.rests = q :: qs → q.restart = none → q.moves = [] →
     (q.outs = [] ∧ q.ins ≠ []) ∨
       (∃ c ∈ q.outs, s.isOwn c = true ∧ s.kind (lineOf c) ≠ .unfitted ∧
         (c = img.intercept ∨ q.source = some (.circuit c) ∨
           ∃ d ∈ q.ins, s.isOwn d = true ∧ s.kind (lineOf d) ≠ .unfitted)) →
     ∃ t, exec (.serviceMessageRest straps hc hd) s = .next t ∧
       ∀ l, l < 8 →
         (s.isOwn (s.circuit l) = true → s.kind l ≠ .unfitted → s.circuit l ∈ q.ins →
           t.adminOf l = .inn ∧
           (s.adminOf l ≠ .inn → (t.mapOf (s.circuit l)).condition =
             (if (s.line l).wire = .opened then .opened else .inService))) ∧
         (s.kind l = .unfitted ∨ s.circuit l ∉ q.ins → t.adminOf l = s.adminOf l) ∧
         ((t.mapOf (s.circuit l)).condition ≠ (s.mapOf (s.circuit l)).condition → s.owedToPeers t (s.circuit l)))

/-! ## The sender of a frame (chapter 7) -/

/-- FRAME_START (R123, R124, R136): the offered frame is begun at bit time 1 of cell 0, its cells fixed now and its
length with them, and the station contends. Nothing else changes. It needs the idle run, under way or beginning at the stop
condition that the station is making, HC not having been seen to fall for it and not yet to rise; with neither nothing
changes. That neither the run's 2 cell times nor the hold-off moment guards it is the model's choice (log entry 5, DESIGN
CHOICE).
The start condition (R119, R120, R121; how the drivers are read is log entry 29): HD is pulled with HC released, HC is pulled a half-bit later, and while HC is low
HD is set for the first bit of cell 0.
FRAME_START_HEARD (R121, R123): the station listens from cell 0, an offered frame being kept. Nothing else changes.
That the stall timer runs from the start condition on is log entry 34 (DEDUCED).
Outside a frame (R121, R132): the idle run starts when both wires read released, at a rising edge of HC (BIT_SAMPLE) or at a
stop condition seen (START_OR_STOP_NOT_OWN), and stops when HD reads pulled at a rising edge, but at the edge of the station's
own stop condition, after which HD is held for a half-bit more; a falling edge of HC (RECEIPT_SLOT_BEGIN) stops it and starts
the stuck timer, and a rising edge stops that (R133). That these three commands stand for the edges there is log entry 5
(DESIGN CHOICE). -/
def Obligations.FrameStarts : Prop :=
  (∀ (s : State) (o : Offer), s.running = true → s.engine = .waitingIdle → s.offered = some o →
     s.timers.idleRun = true ∨ (s.parting.stop = true ∧ s.timers.stuck = false) →
     exec .frameStart s = .next
       { s with
         engine := .contending
         flight := some (Flight.fresh (some (o.frame, s.frameCells o.frame))
           (some ((s.frameCells o.frame).length + (s.frameText o.frame).length)))
         timers := ⟨false, true, false, false⟩
         parting := ⟨false, false⟩ }) ∧
  (∀ (s : State) (o : Offer) (b : Byte), s.running = true → s.engine = .waitingIdle → s.offered = some o →
     s.timers.idleRun = true ∨ (s.parting.stop = true ∧ s.timers.stuck = false) →
     (s.frameCells o.frame)[0]? = some b →
     ∃ t, exec .frameStart s = .next t ∧ t.drive .high = ⟨false, true⟩ ∧ t.drive .fall = ⟨true, true⟩ ∧
       t.drive .low = ⟨true, !b.getLsbD 7⟩ ∧ t.drive .rise = ⟨false, !b.getLsbD 7⟩) ∧
  (∀ s : State, s.running = true → s.engine = .idle ∨ s.engine = .waitingIdle →
     exec .frameStartHeard s = .next
       { s with
         engine := .listening
         flight := some (Flight.fresh none none)
         timers := ⟨false, true, false, false⟩
         parting := ⟨false, false⟩ }) ∧
  (∀ s : State, s.timers.idleRun = false → s.parting.stop = false ∨ s.timers.stuck = true →
     exec .frameStart s = .next s) ∧
  (∀ s : State, s.running = true → s.flight = none → s.engine = .idle ∨ s.engine = .waitingIdle →
     (∀ hd, exec (.bitSample hd) s = .next
       { s with
         timers := ⟨hd || s.parting.stop, false, false, false⟩
         parting := ⟨false, s.parting.stop && !hd⟩ }) ∧
     exec .receiptSlotBegin s = .next
       { s with timers := ⟨false, false, true, false⟩, parting := ⟨s.parting.stop, false⟩ } ∧
     exec (.startOrStopNotOwn false) s = .next
       { s with timers := ⟨true, false, false, false⟩, parting := ⟨false, false⟩ } ∧
     exec (.startOrStopNotOwn true) s = .next s)

/-- BIT_SAMPLE by a clocking station (R120, R122, R123): a bit that reads as driven is passed; a released veto slot ends
the cell, the last one giving the receipt slots and cell 1 ending the contention, and the next symbol cell of a CARRY is read
from the record's text (R143). Nothing else changes. A frame that is to be cut goes on so while HC is known to be low, and no
symbol is read for it (R144); with HC high the statement of the own frame's outcomes says what the next sample finds.
BIT_SAMPLE of a receipt slot before slot 31 by the sender (R128): a pulled slot k puts station k into the HEARD set,
a pulled slot 16 + k puts it into the TAKE set. Nothing else changes.
The drivers of a clocking station (R119, R120, R128; read as log entry 29 says): HC is pulled from the falling edge through the low half and released
then; in the cells HD is set while HC is low, pulled for a 0; in the receipt slots it is released throughout. The bit that
follows a frame to be cut, HC being high, is a stop condition: HD is pulled while HC is low, and released a half-bit after HC
rises (R121, R144; that HC is taken to be high unless a falling edge has been given is log entry 37, DESIGN CHOICE). -/
def Obligations.SenderSamplesItsBits : Prop :=
  (∀ (s : State) (f : Flight) (hd : Bool), s.running = true → s.flight = some f →
     s.engine = .contending ∨ s.engine = .sending → f.cutting = false ∨ s.timers.stuck = true →
     (f.bit ≤ 9 → s.drivenBit f = some hd →
       exec (.bitSample hd) s = .next
         { s with
           flight := some { f with bit := f.bit + 1, bits := f.bits ++ [hd], hdRead := hd }
           timers := ⟨false, true, false, false⟩ }) ∧
     (f.bit = 10 →
       ∃ b, exec (.bitSample true) s = .next
         { s with
           engine :=
             if f.length = some (f.cell + 1) then .receipt
             else if s.engine = .contending ∧ f.cell + 1 = 2 then .sending else s.engine
           flight := some { f with symbol := b, cell := f.cell + 1, bit := 1, bits := [], vetoing := false, hdRead := true }
           timers := ⟨false, true, false, false⟩ } ∧
         (∀ addr m listed cells σ, f.own = some (.carry addr m listed, cells) → f.cutting = false →
           cells.length ≤ f.cell + 1 → (s.record m).text[f.cell + 1 - cells.length]? = some σ → b = σ.cell) ∧
         (f.cutting = true → b = f.symbol))) ∧
  (∀ (s : State) (f : Flight) (hd : Bool), s.running = true → s.flight = some f → s.engine = .receipt →
     f.own.isSome = true → f.slot < 31 →
     ∃ h k, exec (.bitSample hd) s = .next
         { s with
           flight := some { f with slot := f.slot + 1, hdRead := hd, heardSet := h, takeSet := k }
           timers := ⟨false, true, false, false⟩ } ∧
       (∀ j, j ∈ h ↔ j ∈ f.heardSet ∨ (hd = false ∧ f.slot < 16 ∧ j = f.slot)) ∧
       (∀ j, j ∈ k ↔ j ∈ f.takeSet ∨ (hd = false ∧ 16 ≤ f.slot ∧ j + 16 = f.slot))) ∧
  (∀ (s : State) (f : Flight), s.flight = some f → f.own.isSome = true →
     s.engine = .contending ∨ s.engine = .sending ∨ s.engine = .receipt →
     ((s.drive .high).hc = false ∧ (s.drive .fall).hc = true ∧ (s.drive .low).hc = true ∧ (s.drive .rise).hc = false) ∧
     (s.engine ≠ .receipt → f.cutting = false ∨ s.timers.stuck = true →
       ((s.drive .low).hd = true ↔ s.drivenBit f = some false) ∧ (s.drive .rise).hd = (s.drive .low).hd) ∧
     (s.engine ≠ .receipt → f.cutting = true → s.timers.stuck = false →
       (s.drive .low).hd = true ∧ (s.drive .rise).hd = true ∧ s.drive .over = ⟨false, false⟩) ∧
     (s.engine = .receipt → ∀ p, (s.drive p).hd = false))

/-- BIT_SAMPLE by a listener that has not discarded the frame (R122, R129): a data bit is kept; the ninth bit with good
parity in the text of a CARRY with a record reserved stores the cell as a symbol, and without one keeps nothing; outside
the text it adds the cell to the cells read, the length fixed by them, and where that calls for it the reservation, due
when the frame is a CARRY that addresses this station from a fitted sender (R145; from any sender with no image, R61). A
veto slot read released ends the cell, the last one giving the receipt slots. Nothing else changes.
LISTENER_PARITY_VETO (R122): at the ninth bit of a cell whose parity fails, the listener pulls HD in the veto slot.
Nothing else changes. -/
def Obligations.ListenerSamplesBits : Prop :=
  (∀ (s : State) (f : Flight) (hd : Bool), s.running = true → s.flight = some f → s.engine = .listening →
     f.discarded = false → f.reserveDue = false →
     (f.bit ≤ 8 →
       exec (.bitSample hd) s = .next
         { s with
           flight := some { f with bit := f.bit + 1, bits := f.bits ++ [hd], hdRead := hd }
           timers := ⟨false, true, false, false⟩ }) ∧
     (f.bit = 9 → parityOk (f.bits ++ [hd]) = true → f.inText = true →
       (∀ m, f.reserved = some m →
         exec (.bitSample hd) s = .next
           ({ s with
             flight := some { f with bit := f.bit + 1, bits := f.bits ++ [hd], hdRead := hd }
             timers := ⟨false, true, false, false⟩ }.setRecord m
               ((s.record m).write (symbolOf (byteOfBits (f.bits ++ [hd])))))) ∧
       (f.reserved = none →
         exec (.bitSample hd) s = .next
           { s with
             flight := some { f with bit := f.bit + 1, bits := f.bits ++ [hd], hdRead := hd }
             timers := ⟨false, true, false, false⟩ })) ∧
     (∀ rx, f.bit = 9 → parityOk (f.bits ++ [hd]) = true → f.inText = false →
       rx = f.rx ++ [byteOfBits (f.bits ++ [hd])] → rxFault s.station rx = false →
       ∃ due, exec (.bitSample hd) s = .next
           { s with
             flight := some
               { f with
                 bit := f.bit + 1, bits := f.bits ++ [hd], hdRead := hd, rx := rx, length := rxFrameLength rx,
                 reserveDue := due }
             timers := ⟨false, true, false, false⟩ } ∧
         (due = true ↔ (rxFrameLength rx).isSome = true ∧ rxKind rx = 2 ∧ rxAddresses rx s.station = true ∧
           (s.cfg = none ∨ s.fitted (rxSender rx) = true))) ∧
     (f.bit = 10 → hd = true → f.vetoing = false →
       exec (.bitSample hd) s = .next
         { s with
           engine := if f.length = some (f.cell + 1) then .receipt else .listening
           flight := some { f with cell := f.cell + 1, bit := 1, bits := [], vetoing := false, hdRead := true }
           timers := ⟨false, true, false, false⟩ })) ∧
  (∀ (s : State) (f : Flight), s.running = true → s.flight = some f → s.engine = .listening → f.discarded = false →
     f.reserveDue = false → f.bit = 9 →
     ∃ b, parityOk (f.bits ++ [b]) = false ∧
       exec .listenerParityVeto s = .next
         { s with
           flight := some { f with bit := f.bit + 1, bits := f.bits ++ [b], hdRead := b, vetoing := true }
           timers := ⟨false, true, false, false⟩ })

/-- ARBITRATION_LOST (R123, R125): the station listens from this bit on with the bits read before it, the bit itself
read as 0; it has no frame on the wire, the offered frame's hold-off is kept, and no count changes. After a data bit it
drives neither wire (read as log entry 29 says). A frame to be cut loses so while HC is known to be low; with HC high the
statement of the own frame's outcomes says what happens. -/
def Obligations.ArbitrationLostTurnsListener : Prop :=
  ∀ (s : State) (f : Flight), s.running = true → s.flight = some f → s.engine = .contending → f.bit ≤ 9 →
    s.drivenBit f = some true → f.cutting = false ∨ s.timers.stuck = true →
    ∃ t g, exec .arbitrationLost s = .next t ∧ t.engine = .listening ∧ t.flight = some g ∧ g.own = none ∧ Kept s t ∧
      (f.bit ≤ 8 → g.bit = f.bit + 1 ∧ g.bits = f.bits ++ [false] ∧ g.discarded = false ∧
        (∀ p, t.drive p = ⟨false, false⟩) ∧
        ∀ o o', s.offered = some o → t.offered = some o' → o'.afterVeto = o.afterVeto)

/-- COLLISION, and a VETO of an own frame (R126, R127, R129, R149): the outcome is VETOED. The frame is off the wire, its
stop condition is made (shown as log entry 29 says: HD as the last bit has it until the falling edge), the streak rises to 8
at most, no station entry changes, and the next frame offered has the hold-off of 5 ms.
START_OR_STOP_NOT_OWN (R123, R126): the outcome is VETOED in the cells and ABANDONED, with no count changed and no
hold-off, in the receipt slots. The idle run stands until the station's own stop condition; in the receipt slots it runs
after a stop condition seen and not after a start condition (R121).
The end of an event marks a CARRY to be cut, and changes the frame no further, when HC has not fallen yet for the first bit of
its last cell and no slot that it lists is CARRYING to its station any more (R120, R144); that HC is taken to be high unless a
falling edge has been given, and that a record is known by the arrival stamp that the offer keeps, is log entry 37 (DESIGN
CHOICE).
The cut (R121, R127, R144): at the next falling edge of HC (RECEIPT_SLOT_BEGIN) the frame is off the wire with the outcome
ABANDONED and no count changed, and the stop condition is made. A BIT_SAMPLE, VETO, COLLISION or ARBITRATION_LOST, HC not being
known to be low, presupposes that edge, so that the frame has been cut before it and the sample is the rising edge of the stop
condition; that the edge need not be given is log entry 37 (DESIGN CHOICE). While HC is low the present bit goes on, and a veto
or collision there gives VETOED. -/
def Obligations.OwnFrameOutcomes : Prop :=
  (∀ (s : State) (f : Flight), s.running = true → s.flight = some f → f.cutting = false ∨ s.timers.stuck = true →
     (f.bit ≤ 9 → (s.engine = .sending ∧ (s.drivenBit f).isSome = true) ∨
         (s.engine = .contending ∧ s.drivenBit f = some false) →
       ∃ t, exec .collision s = .next t ∧ OwnFrameEnded s t true s.pullsHd) ∧
     (f.bit = 10 → s.engine = .contending ∨ s.engine = .sending →
       ∃ t, exec .veto s = .next t ∧ OwnFrameEnded s t true s.pullsHd)) ∧
  (∀ (s : State) (f : Flight) (byStart : Bool), s.running = true → s.flight = some f → f.own.isSome = true →
     (s.engine = .contending ∨ s.engine = .sending →
       ∃ t, exec (.startOrStopNotOwn byStart) s = .next t ∧ OwnFrameEnded s t true s.heldHd) ∧
     (s.engine = .receipt → ∃ t, exec (.startOrStopNotOwn byStart) s = .next t ∧ OwnFrameEnded s t false false ∧
       t.timers = ⟨!byStart, false, false, false⟩)) ∧
  (∀ (s : State) (f : Flight), s.ev = Event.none → s.flight = some f →
     ∃ b, s.finish.flight = some { f with cutting := b } ∧
       (b = true ↔ f.cutting = true ∨
         ((s.engine = .contending ∨ s.engine = .sending) ∧ ∃ addr m listed cells n,
           f.own = some (.carry addr m listed, cells) ∧ f.length = some n ∧
           (f.cell + 1 < n ∨ (f.cell + 1 = n ∧ f.bit = 1 ∧ s.timers.stuck = false)) ∧
           ∀ i x, (i, x) ∈ listed → (s.record m).state = .standing → s.offeredStamp = (s.record m).stamp →
             ∀ y, s.slotState m i = .carrying y → y.owner ≠ x.owner))) ∧
  (∀ (s : State) (f : Flight), s.running = true → s.flight = some f → f.cutting = true →
     s.engine = .contending ∨ s.engine = .sending →
     (∃ t, exec .receiptSlotBegin s = .next t ∧ FrameCut s t ∧ t.timers = ⟨false, false, true, false⟩ ∧
       t.parting = ⟨true, false⟩) ∧
     (s.timers.stuck = false →
       (∀ hd, ∃ t, exec (.bitSample hd) s = .next t ∧ FrameCut s t ∧ t.timers = ⟨true, false, false, false⟩ ∧
         t.parting = ⟨false, !hd⟩) ∧
       (f.bit = 10 → ∃ t, exec .veto s = .next t ∧ FrameCut s t ∧ t.timers = ⟨true, false, false, false⟩) ∧
       (f.bit ≤ 9 → (s.engine = .sending ∧ (s.drivenBit f).isSome = true) ∨
           (s.engine = .contending ∧ s.drivenBit f = some false) →
         ∃ t, exec .collision s = .next t ∧ FrameCut s t ∧ t.timers = ⟨true, false, false, false⟩) ∧
       (f.bit ≤ 9 → s.engine = .contending → s.drivenBit f = some true →
         ∃ t, exec .arbitrationLost s = .next t ∧ FrameCut s t ∧ t.timers = ⟨true, false, false, false⟩)))

/-- FRAME_COMPLETED (R128, R139, R147, R149): the streak is 0, the engine rests, and each addressed peer is read by its
receipts: TAKE clears its refusals; HEARD alone sets its not-before by the retry gap and counts a refusal; neither
counts it unheard, at three SILENT. The stop condition is made (log entry 29). Either receipt makes it PRESENT with unheard count 0. `hd` is the level of slot 31. -/
def Obligations.FrameCompletedReadsTheReceipts : Prop :=
  ∀ (s : State) (f : Flight) (p : Frame × List Byte) (hd : Bool),
    s.running = true → s.flight = some f → s.engine = .receipt → f.own = some p → f.slot = 31 → p.1.addr.Nodup →
    ∃ t, exec (.frameCompleted hd) s = .next t ∧ t.atRest ∧ t.streak = 0 ∧ t.mas = s.mas ∧ t.admin = s.admin ∧
      t.minute = s.minute ∧ t.parting = ⟨true, false⟩ ∧ t.timers = ⟨false, false, false, false⟩ ∧
      (∀ o, t.offered = some o → o.afterVeto = false) ∧
      ∀ k, k < 16 → k ∈ p.1.addr → k ≠ s.station →
        (k ∈ f.takeSet ∨ (k = 15 ∧ hd = false) →
          (t.peer k).presence = .present ∧ (t.peer k).unheard = 0 ∧ (t.peer k).refusals = 0 ∧
          (t.peer k).notBefore = (s.peer k).notBefore) ∧
        (k ∉ f.takeSet → ¬ (k = 15 ∧ hd = false) → k ∈ f.heardSet →
          (t.peer k).presence = .present ∧ (t.peer k).unheard = 0 ∧
          (t.peer k).refusals = min 255 ((s.peer k).refusals + 1) ∧
          (t.peer k).notBefore = .waiting (s.retryGap k (s.peer k).refusals)) ∧
        (k ∉ f.takeSet → ¬ (k = 15 ∧ hd = false) → k ∉ f.heardSet → (s.peer k).unheard ≤ 2 →
          (t.peer k).unheard = (s.peer k).unheard + 1 ∧ (t.peer k).refusals = (s.peer k).refusals ∧
          (t.peer k).presence = (if (s.peer k).unheard = 2 then .silent else (s.peer k).presence))

/-- NOT_BEFORE_PASSES (R138, R140, R141): the peer may be addressed again; with no own frame on the wire the offer is made
or renewed from the builder's choice, the hold-off of a renewed offer kept, and a resting engine waits exactly when there
is one; nothing else changes but what the end of an event changes.
The builder's choice (R140): a MUSTER to the pending stations that are ready; else, on a configured station, a CONDITION
to the ready peers that are owed circuits, with the circuits owed to them; else a CARRY of the first element of the carry
list that has a ready PRESENT station, with its slots for those stations; else nothing. An UNCONFIGURED station chooses
a MUSTER or nothing. -/
def Obligations.NotBeforePassesAndTheBuilderChooses : Prop :=
  (∀ (s : State) (k : Nat), k < 16 → s.running = true → (s.peer k).notBefore ≠ .passed →
    ∃ t, exec (.notBeforePasses k) s = .next t ∧ t.peer k = { s.peer k with notBefore := .passed } ∧
      Kept (s.setPeer k { s.peer k with notBefore := .passed }) t ∧
      (s.engine ≠ .contending → s.engine ≠ .sending → (s.engine = .receipt → ∀ f, s.flight = some f → f.own = none) →
        t.offered.map (·.frame) = t.choice ∧
        (∀ o, t.offered = some o → o.afterVeto = s.offered.elim s.holdoffDue (·.afterVeto)) ∧
        t.engine =
          (if s.engine = .idle ∨ s.engine = .waitingIdle then
            (if t.offered.isSome then .waitingIdle else .idle) else s.engine))) ∧
  (∀ s : State,
    ((∃ k, k < 16 ∧ k ∈ s.musterPending ∧ (s.peer k).notBefore = .passed) →
      ∃ addr, s.choice = some (.muster addr (s.cfg.elim 0 (·.edition)) s.cfg.isSome s.restart.last
          ((List.range 8).map fun l => s.tripleOf (s.circuit l))) ∧
        ∀ k, k ∈ addr ↔ k < 16 ∧ k ∈ s.musterPending ∧ (s.peer k).notBefore = .passed) ∧
    (¬ (∃ k, k < 16 ∧ k ∈ s.musterPending ∧ (s.peer k).notBefore = .passed) →
      (s.cfg = none → s.choice = none) ∧
      (s.cfg.isSome = true →
        ((∃ k, k < 16 ∧ s.owesNow k = true) →
          ∃ addr ts, s.choice = some (.condition addr ts) ∧ (∀ k, k ∈ addr ↔ k < 16 ∧ s.owesNow k = true) ∧
            ∀ x, x ∈ ts ↔ ∃ l, l < 8 ∧ x = s.tripleOf (s.circuit l) ∧ ∃ k ∈ addr, s.circuit l ∈ (s.peer k).owed) ∧
        (¬ (∃ k, k < 16 ∧ s.owesNow k = true) →
          (∀ before m rest, s.carryList = before ++ m :: rest → (∀ j ∈ before, s.carryAddr j = []) → s.carryAddr m ≠ [] →
            ∃ listed, s.choice = some (.carry (s.carryAddr m) m listed) ∧
              ∀ i x, (i, x) ∈ listed ↔ (s.slotState m i) = .carrying x ∧ x.owner ∈ s.carryAddr m) ∧
          ((∀ m ∈ s.carryList, s.carryAddr m = []) → s.choice = none)))) ∧
    (∀ k, s.owesNow k = true ↔ k ≠ s.station ∧ (s.peer k).presence ≠ .silent ∧ (s.peer k).flag ≠ .clear ∧
      (s.peer k).owed ≠ [] ∧ (s.peer k).notBefore = .passed) ∧
    (∀ m k, k ∈ s.carryAddr m ↔ k < 16 ∧ (∃ i x, s.slotState m i = .carrying x ∧ x.owner = k) ∧
      (s.peer k).presence = .present ∧ (s.peer k).notBefore = .passed))

/-! ## Stall and stuck (chapter 7) -/

/-- STALL_EXPIRY (R123, R131, R149): the frame is abandoned. An own frame has the outcome ABANDONED, with no count
changed and no hold-off; a listened one that was not yet heard leaves no trace, and one not yet applied has its
reserved record given back (R59). The idle run is counted at once when HD has stayed released with HC (R121); that HD at the
last sample of the frame says so, also where this station itself pulled HD there, is the model's choice (log entry 5, DESIGN
CHOICE).
It comes while the stall timer runs. A falling edge of HC taken first stops that timer, and the frame goes on (R131, R133);
with the timer stopped the expiry changes nothing. That RECEIPT_SLOT_BEGIN stands for the edge is log entry 5 too. At that edge
a frame to be cut is cut (R144), which the statement of the own frame's outcomes says. -/
def Obligations.StallAbandonsTheFrame : Prop :=
  (∀ (s : State) (f : Flight), s.running = true → s.flight = some f → s.engine.inFrame = true → s.timers.stall = true →
    ∃ t, exec .stallExpiry s = .next t ∧ t.atRest ∧ t.timers = ⟨f.hdRead, false, false, false⟩ ∧
      (f.own.isSome = true → OwnFrameEnded s t false false) ∧
      (f.own = none → f.heard = false → Kept s t) ∧
      ∀ m, f.own = none → f.reserved = some m → m < 128 → f.applied = false → (t.record m).givenBack) ∧
  (∀ (s : State) (f : Flight), s.running = true → s.flight = some f → s.engine.inFrame = true →
    s.engine ≠ .receipt ∨ f.own.isSome = true →
    f.cutting = false ∨ s.engine = .listening ∨ s.engine = .receipt →
    exec .receiptSlotBegin s = .next { s with timers := ⟨false, false, true, false⟩ }) ∧
  (∀ s : State, s.timers.stall = false → exec .stallExpiry s = .next s)

/-- STUCK_EXPIRY (R132, R178): the engine is STUCK with no frame and drives neither wire (log entry 29), OALM is asserted, and
the veto streak, the assemblers, the admin states and the office minute stay. It comes while the stuck timer runs; with the
timer stopped it changes nothing, so a rising edge of HC taken first leaves nothing abandoned (R133).
RELEASE_EXPIRY (R132): the engine rests, waiting when a frame is offered; nothing else changes but what the end of
an event changes. It comes while the release timer runs, which in STUCK a rising edge of HC starts (BIT_SAMPLE) and a falling
edge stops (RECEIPT_SLOT_BEGIN); with the timer stopped it changes nothing (R133).
That these two commands stand for the edges, and that the idle run after RELEASE_EXPIRY is taken from the level of HD, is the
model's choice (log entry 5, DESIGN CHOICE). -/
def Obligations.StuckAndRelease : Prop :=
  (∀ s : State, s.running = true → s.engine ≠ .stuck → s.timers.stuck = true →
     ∃ t, exec .stuckExpiry s = .next t ∧ t.engine = .stuck ∧ t.flight = none ∧ t.oalm = true ∧
       (∀ p, t.drive p = ⟨false, false⟩) ∧
       t.timers = ⟨false, false, false, false⟩ ∧ t.streak = s.streak ∧ t.mas = s.mas ∧ t.admin = s.admin ∧
       t.minute = s.minute ∧ t.cfg = s.cfg) ∧
  (∀ s : State, s.timers.stuck = false → exec .stuckExpiry s = .next s) ∧
  (∀ (s : State) (hd : Bool), s.running = true → s.engine = .stuck → s.flight = none →
     exec (.bitSample hd) s = .next { s with timers := ⟨false, false, false, true⟩ } ∧
       exec .receiptSlotBegin s = .next { s with timers := ⟨false, false, false, false⟩ } ∧
       (s.timers.release = false → exec (.releaseExpiry hd) s = .next s)) ∧
  (∀ (s : State) (hd : Bool), s.running = true → s.engine = .stuck → s.flight = none → s.timers.release = true →
     ∃ t, exec (.releaseExpiry hd) s = .next t ∧ t.atRest ∧ t.timers = ⟨hd, false, false, false⟩ ∧ Kept s t)

/-! ## The listener (chapters 7 and 8) -/

/-- FRAME_DISCARD (R59, R122, R137): the listener drives neither wire from then on (read as log entry 29 says), follows the
wires, and gives back a record reserved for it. -/
def Obligations.FrameDiscardDrivesNothing : Prop :=
  ∀ (s : State) (f : Flight), s.running = true → s.flight = some f → s.showsFault f = true → f.reserveDue = false →
    f.bits.length = 8 →
    ∃ t g, exec .frameDiscard s = .next t ∧ t.engine = .listening ∧ t.flight = some g ∧ g.discarded = true ∧
      g.reserved = none ∧ g.vetoing = false ∧ g.reserveDue = false ∧ g.heard = false ∧
      (∀ p, t.drive p = ⟨false, false⟩) ∧ Kept s t ∧
      ∀ m, f.reserved = some m → m < 128 → f.applied = false → (t.record m).givenBack

/-- VETO of a listened frame (R59, R123, R127): the frame is over for the listener, nothing of it is applied, the engine
rests, and a record reserved for it is given back. A listener that vetoed holds HD until the next falling edge of HC
(shown as log entry 29 says). HD reads pulled, so the idle run stands (R121). -/
def Obligations.VetoEndsAListenedFrame : Prop :=
  ∀ (s : State) (f : Flight), s.running = true → s.flight = some f → s.engine = .listening → f.heard = false →
    f.discarded = true ∨ (f.bit = 10 ∧ f.reserveDue = false) →
    ∃ t, exec .veto s = .next t ∧ t.atRest ∧ t.timers = ⟨false, false, false, false⟩ ∧ Kept s t ∧
      (f.discarded = false → t.parting = ⟨false, f.vetoing⟩) ∧
      ∀ m, f.reserved = some m → m < 128 → f.applied = false → (t.record m).givenBack

/-- CARRY_RESERVATION (R49, R50, R145): one record and the blocks of the frame's length are asked for at the frame's
class. Granted, a record that was FREE is FILLING with those blocks and is kept for the frame; refused, the frame goes
on without one. The station holds HC low until the answer and releases it then (R130, log entry 29). The stuck timer
stops at the answer (R133); that HC rises with it, unless a RECEIPT_SLOT_BEGIN says that it is still held low, is log entry 5
(DESIGN CHOICE). -/
def Obligations.CarryReservationAsksTheStore : Prop :=
  ∀ (s : State) (f : Flight) (cls : MsgClass), s.running = true → s.flight = some f → s.engine = .listening →
    f.reserveDue = true → f.reserved = none → classOf (rxCell f.rx 4 / 32) = some cls → rxTextLength f.rx ≤ 4096 →
    ∃ t, exec .carryReservation s = .next t ∧ t.engine = .listening ∧ t.timers = ⟨false, true, false, false⟩ ∧
      Kept s t ∧ (s.drive .rise).hc = true ∧ (∀ p, (t.drive p).hc = false) ∧
      (s.grants cls (blocksFor (rxTextLength f.rx)) 1 = true →
        ∃ m, t.flight = some { f with reserveDue := false, reserved := some m } ∧ (s.record m).state = .free ∧
          t.record m = Record.granted cls (s.store.pool.take (blocksFor (rxTextLength f.rx)))) ∧
      (s.grants cls (blocksFor (rxTextLength f.rx)) 1 = false → t.flight = some { f with reserveDue := false })

/-- RECEIPT_SLOT_BEGIN (R128, R145, R152, R154): in its HEARD slot the listener pulls HEARD; in its TAKE slot it pulls
TAKE exactly when the frame addresses it, comes from a fitted station, was heard, and has its record reserved, if it is
a CARRY, or else reaches a configured station. Nothing else changes but the timers. At any other slot the command is a falling
edge of HC that changes the timers alone (log entry 5, DESIGN CHOICE).
BIT_SAMPLE after receipt slot 31 (R120, R128, R130): the sample of the bit in which the sender makes its stop condition; from
it on the listener drives neither wire, whichever slot was its own (read as log entry 29 says). -/
def Obligations.ReceiptSlotsArePulled : Prop :=
  ∀ (s : State) (f : Flight), s.running = true → s.station < 16 → s.flight = some f → s.engine = .receipt →
    f.own = none → f.discarded = false → f.slotBegun = false →
    (f.slot = s.station →
      exec .receiptSlotBegin s = .next
        { s with flight := some { f with slotBegun := true, heard := true }, timers := ⟨false, false, true, false⟩ }) ∧
    (f.slot = 16 + s.station →
      ∃ b, exec .receiptSlotBegin s = .next
          { s with flight := some { f with slotBegun := true, taking := b }, timers := ⟨false, false, true, false⟩ } ∧
        (b = true ↔ rxAddresses f.rx s.station = true ∧ s.fitted (rxSender f.rx) = true ∧ f.heard = true ∧
          (if rxKind f.rx = 2 then f.reserved.isSome = true else s.configured = true))) ∧
    (f.slot ≠ s.station → f.slot ≠ 16 + s.station →
      exec .receiptSlotBegin s = .next { s with timers := ⟨false, false, true, false⟩ }) ∧
    (32 ≤ f.slot → ∀ hd, ∃ t, exec (.bitSample hd) s = .next t ∧
      t = { s with flight := some { f with slot := 33, hdRead := hd }, timers := ⟨false, true, false, false⟩ } ∧
      ∀ p, t.drive p = ⟨false, false⟩)

/-- CARRY_COMMIT (R57, R138, R139, R145, R146): at the sample that ends the TAKE slot the sender's flag is SET, it is
PRESENT and its unheard count is 0, its edition and counts of refusals stay; the frame counts as applied, with HC
held low in the low half that follows (R130, log entry 29); no map entry's
condition, no assembler and no admin state changes. A stuck timer that runs is not stopped by this sample: an expiry that comes
together with it abandons the applied frame (R133, log entry 49, DESIGN CHOICE).
The reserved record takes the frame's fields (a filing time above 9999 and an authority of 3 are free values, log entry
13), a hop raised by one, the present stamp and one slot for each kept destination: those whose target is an own circuit
or this station's service, a code kept once; that the pseudo-code is kept once too, like any code, is the model's choice
(log entry 26). It stands as that message, or has been given back when the service has taken
all of it; with no destination kept it is given back. Where every kept target is an own available circuit with no
diversion, from a sender already known, each slot is QUEUED there, or HELD while that circuit is busy with the record. -/
def Obligations.CarryCommitHearsTheSender : Prop :=
  (∀ (s : State) (f : Flight) (m : Nat), s.running = true → s.flight = some f → s.engine = .receipt → f.own = none →
    f.discarded = false → f.slot = 16 + s.station → f.slotBegun = true → f.taking = true → rxKind f.rx = 2 →
    f.reserved = some m → rxSender f.rx ≠ s.station →
    ∃ t, exec .carryCommit s = .next t ∧
      t.flight = some { f with slot := f.slot + 1, slotBegun := false, hdRead := false, applied := true } ∧
      t.stretchesAfterTake ∧ t.timers = ⟨false, true, s.timers.stuck, false⟩ ∧
      (t.peer (rxSender f.rx)).presence = .present ∧ (t.peer (rxSender f.rx)).flag = .set ∧
      (t.peer (rxSender f.rx)).unheard = 0 ∧
      (t.peer (rxSender f.rx)).edition = (s.peer (rxSender f.rx)).edition ∧
      (t.peer (rxSender f.rx)).refusals = (s.peer (rxSender f.rx)).refusals ∧
      (∀ c, (t.mapOf c).condition = (s.mapOf c).condition) ∧ t.mas = s.mas ∧ t.admin = s.admin ∧ t.minute = s.minute ∧
      (m < 128 → (s.record m).state = .filling →
        (s.keptDests f.rx = [] → (t.record m).givenBack) ∧
        ∀ cls, s.keptDests f.rx ≠ [] → classOf (rxCell f.rx 4 / 32) = some cls →
          ∃ r, Handled r (t.record m) ∧
            r =
              { s.record m with
                state := .standing
                source := some (.station (rxSender f.rx))
                cls := cls
                origin := officeOfWord (rxWord f.rx 5)
                filing := rxFiling s.draws f.rx
                serial := none
                hop := min 3 (rxHop f.rx + 1)
                authority := rxAuthority s.draws f.rx
                mutilated := if (cellOf (rxCell f.rx 4)).getLsbD 4 then some .line else none
                intercept := if (cellOf (rxCell f.rx 4)).getLsbD 3 then some .unknown else none
                errors := rxCell f.rx (rxErrorAt f.rx)
                stamp := r.stamp
                slots := (s.keptDests f.rx).map fun x => ⟨x.1, .unrouted⟩ } ∧
            r.stamp.isSome = true ∧ ((s.peer (rxSender f.rx)).presence ≠ .silent → r.stamp = some s.store.stamp) ∧
            ∀ img, s.cfg = some img → (s.peer (rxSender f.rx)).presence = .present →
              (s.peer (rxSender f.rx)).flag = .set → rxHop f.rx < 2 → r.intercept = none →
              (∀ x ∈ s.keptDests f.rx, ∃ code c, x = (.office code, .circuit c) ∧ (img.lookup code).isSome = true ∧
                s.circuitAvailable c = true ∧ (s.mapOf c).diversion = none) →
              SameMessage r (t.record m) ∧
                ∀ i d c, (s.keptDests f.rx)[i]? = some (d, .circuit c) →
                  t.slotState m i = .queued c ∨ ∃ since o, t.slotState m i = .held since o (.busy c))) ∧
  (∀ (s : State) (rx : List Byte),
    ((s.keptDests rx).map (·.1)).Nodup ∧
    (∀ d x, (d, x) ∈ s.keptDests rx → s.keeps x = true ∧
      ∃ i, i < rxCount rx ∧ rxDest (s.cfg.map (·.intercept)) rx i = some (d, x)) ∧
    ∀ i d x, i < rxCount rx → rxDest (s.cfg.map (·.intercept)) rx i = some (d, x) → s.keeps x = true →
      ∃ y, (d, y) ∈ s.keptDests rx)

/-- CONDITION_APPLY (R65, R138, R139, R152): the sender's flag is SET, it is PRESENT and its unheard count is 0; each
circuit of the sender reads as its last triple of the frame says, and every other peer circuit stays. HC is held low in the
low half that follows (R130, log entry 29). A stuck timer that runs is not stopped by this sample (R133, log entry 49, DESIGN
CHOICE). -/
def Obligations.ConditionFrameIsApplied : Prop :=
  ∀ (s : State) (f : Flight), s.running = true → s.station < 16 → s.flight = some f → s.engine = .receipt →
    f.own = none → f.discarded = false → f.slot = 16 + s.station → f.slotBegun = true → f.taking = true →
    rxKind f.rx = 0 → rxSender f.rx ≠ s.station →
    ∃ t, exec .conditionApply s = .next t ∧
      t.flight = some { f with slot := f.slot + 1, slotBegun := false, hdRead := false, applied := true } ∧
      t.stretchesAfterTake ∧ t.timers = ⟨false, true, s.timers.stuck, false⟩ ∧
      (t.peer (rxSender f.rx)).presence = .present ∧ (t.peer (rxSender f.rx)).flag = .set ∧
      (t.peer (rxSender f.rx)).unheard = 0 ∧
      (∀ c, c < 128 → s.isOwn c = false →
        t.mapOf c =
          match (rxTriples f.rx).reverse.find? fun x => decide (x.circuit = c ∧ c / 8 = rxSender f.rx) with
          | some x => ⟨x.condition, x.kind, x.diversion⟩
          | none => s.mapOf c) ∧
      (∀ c, s.isOwn c = true → (t.mapOf c).condition = (s.mapOf c).condition) ∧ t.mas = s.mas ∧ t.admin = s.admin

/-- MUSTER_APPLY (R65, R138, R154): the sender is PRESENT with its flag and edition as the frame says (edition 0 leaves it
absent whatever the configured flag says: log entry 30, DEDUCED), no refusals and no not-before; a configured sender is
owed all own circuits and its circuits read as its triples say; an unconfigured one is owed nothing, leaves the MUSTER
pending set, and its circuits read UNFITTED. HC is held low in the low half that follows (R130, log entry 29). A stuck timer
that runs is not stopped by this sample (R133, log entry 49, DESIGN CHOICE). -/
def Obligations.MusterFrameIsApplied : Prop :=
  ∀ (s : State) (f : Flight), s.running = true → s.station < 16 → s.flight = some f → s.engine = .receipt →
    f.own = none → f.discarded = false → f.slot = 16 + s.station → f.slotBegun = true → f.taking = true →
    rxKind f.rx = 1 → rxSender f.rx ≠ s.station →
    ∃ t, exec .musterApply s = .next t ∧
      t.flight = some { f with slot := f.slot + 1, slotBegun := false, hdRead := false, applied := true } ∧
      t.stretchesAfterTake ∧ t.timers = ⟨false, true, s.timers.stuck, false⟩ ∧
      (t.peer (rxSender f.rx)).presence = .present ∧ (t.peer (rxSender f.rx)).unheard = 0 ∧
      (t.peer (rxSender f.rx)).refusals = 0 ∧ (t.peer (rxSender f.rx)).notBefore = .passed ∧
      (t.peer (rxSender f.rx)).edition = (if rxEdition f.rx = 0 then none else some (rxEdition f.rx)) ∧
      (rxConfigured f.rx = true →
        (t.peer (rxSender f.rx)).flag = .set ∧ (∀ l, l < 8 → s.circuit l ∈ (t.peer (rxSender f.rx)).owed) ∧
        t.musterPending = s.musterPending ∧
        ∀ c, c < 128 → s.isOwn c = false →
          t.mapOf c =
            match (rxTriples f.rx).reverse.find? fun x => decide (x.circuit = c ∧ c / 8 = rxSender f.rx) with
            | some x => ⟨x.condition, x.kind, x.diversion⟩
            | none => s.mapOf c) ∧
      (rxConfigured f.rx = false →
        (t.peer (rxSender f.rx)).flag = .clear ∧ (t.peer (rxSender f.rx)).owed = [] ∧
        rxSender f.rx ∉ t.musterPending ∧
        ∀ c, c < 128 → s.isOwn c = false →
          t.mapOf c = if c / 8 = rxSender f.rx then ⟨.unfitted, .unfitted, none⟩ else s.mapOf c) ∧
      t.mas = s.mas ∧ t.admin = s.admin

/-- FRAME_ENDED_EARLY and LISTENER_FRAME_END (R123, R128, R139): the engine rests; a sender whose frame was heard is
PRESENT with unheard count 0, a frame that was not heard, or was discarded, leaves no trace, and one not applied has its
reserved record given back (R59). The idle run starts at a stop condition, and stands after a start condition (R121). -/
def Obligations.ListenedFrameEnds : Prop :=
  ∀ (s : State) (f : Flight) (byStart : Bool), s.running = true → s.flight = some f → f.own = none →
    (s.engine = .listening ∨ (s.engine = .receipt ∧ f.slot < 32) →
      ∃ t, exec (.frameEndedEarly byStart) s = .next t ∧ t.atRest ∧ t.timers = ⟨!byStart, false, false, false⟩ ∧
        t.mas = s.mas ∧ t.admin = s.admin ∧
        (∀ c, (t.mapOf c).condition = (s.mapOf c).condition) ∧
        (f.heard = false ∨ f.discarded = true → Kept s t) ∧
        (∀ m, f.reserved = some m → m < 128 → f.applied = false → (t.record m).givenBack) ∧
        (f.heard = true → f.discarded = false → rxSender f.rx ≠ s.station →
          (t.peer (rxSender f.rx)).presence = .present ∧ (t.peer (rxSender f.rx)).unheard = 0)) ∧
    (s.engine = .receipt ∧ 32 ≤ f.slot ∨ s.engine = .listening ∧ f.discarded = true →
      ∃ t, exec .listenerFrameEnd s = .next t ∧ t.atRest ∧ t.timers = ⟨true, false, false, false⟩ ∧
        t.mas = s.mas ∧ t.admin = s.admin ∧
        (∀ c, (t.mapOf c).condition = (s.mapOf c).condition) ∧
        (f.heard = false ∨ f.discarded = true → Kept s t) ∧
        (∀ m, f.reserved = some m → m < 128 → f.applied = false → (t.record m).givenBack) ∧
        (f.heard = true → f.discarded = false → rxSender f.rx ≠ s.station →
          (t.peer (rxSender f.rx)).presence = .present ∧ (t.peer (rxSender f.rx)).unheard = 0))

/-! ## The assembler, by operation (chapters 2 and 6) -/

/-- HEADER (R27, R28): CR is ignored, LF ends the line, a 73rd symbol makes it overlong, and the check is made on a header
judged good or bad (R23).
A good header (R28 to R30, R32): a repeat mark is passed to the receive stack first, where it frees the first record of
that serial (R117); the serial check moves the expected serial; granted, the lowest FREE record takes the header's fields
and TEXT begins at a line start; refused, DISCARD begins and a MUTILATED report is requested after the check's.
A bad header (R30 to R32), granted, with its line within one block: a BADHEAD record with the raw line as its text.
The end sequence (R37): the line break before it leaves the text, and the record completes.
A break line (R114, R115): the cut line leaves the text, the record goes onto the receive stack, and the bottom of a full
stack is closed SUSPEND.
A resume line (R116): the first record of its serial is current again, those above it are closed SUSPEND.
A completed record is the message it was, or has been given back by the service where a route leads to it. -/
def Obligations.AssemblerHeaderEndBreakAndResume : Prop :=
  (∀ (s : State) (img : Image) (l : Nat) (σ : Symbol),
    (means img .cr σ = true → s.headerSymbol img l σ = s) ∧
    (means img .cr σ = false → means img .lf σ = true → s.headerSymbol img l σ = s.headerCheck img l none) ∧
    (means img .cr σ = false → means img .lf σ = false →
      ((s.masOf l).header.length < 72 →
        s.headerSymbol img l σ = s.setMas l { s.masOf l with header := (s.masOf l).header ++ [σ] }) ∧
      (72 ≤ (s.masOf l).header.length → s.headerSymbol img l σ = s.headerCheck img l (some σ))) ∧
    (∀ h, parseHeader img ((s.masOf l).header.drop 4) = some h → s.headerCheck img l none = s.goodHeader l h) ∧
    (parseHeader img ((s.masOf l).header.drop 4) = none → s.headerCheck img l none = s.badHeader img l none) ∧
    s.headerCheck img l (some σ) = s.badHeader img l (some σ)) ∧
  (∀ (s : State) (l n : Nat) (h : Header), l < 8 →
    (h.rpt = some n → s.goodHeader l h = (s.repeatMark l n).goodHeader l { h with rpt := none }) ∧
    ((∀ m ∈ (s.masOf l).rstack, (s.record m).serial ≠ some n) → s.repeatMark l n = s) ∧
    (∀ above m below, (s.masOf l).rstack = above ++ m :: below → (∀ j ∈ above, (s.record j).serial ≠ some n) →
      (s.record m).serial = some n → m < 128 → (s.record m).state = .filling →
      (s.repeatMark l n).masOf l = { s.masOf l with rstack := above ++ below } ∧
      (s.repeatMark l n).record m = Record.empty ∧ ∀ j, j ≠ m → (s.repeatMark l n).record j = s.record j)) ∧
  (∀ (s : State) (l : Nat) (h : Header) (e : Option Nat) (o : SerialOutcome), l < 8 → h.rpt = none →
    serialCheck (s.masOf l).expected h.serial = (o, e) →
    (s.grants h.cls 1 1 = true →
      ∃ m, m < 128 ∧ (s.record m).state = .free ∧ (∀ j, j < m → (s.record j).state ≠ .free) ∧
        (s.goodHeader l h).record m =
          { Record.granted h.cls (s.store.pool.take 1) with
            source := some (.circuit (s.circuit l))
            origin := some h.origin
            filing := h.filing
            serial := some h.serial
            authority := s.lineAuthority l
            intercept := if o = .duplicate then some .duplicate else none
            slots := h.dests.map fun c => ⟨.office c, .unrouted⟩ } ∧
        (s.goodHeader l h).masOf l =
          { s.masOf l with
            mode := .text, lineStart := true, startSeq := [], header := [], look := [], current := some m
            expected := e }) ∧
    (s.grants h.cls 1 1 = false →
      s.goodHeader l h =
        ((s.setMas l
          { s.masOf l with
            mode := .discard, lineStart := true, startSeq := [], header := [], look := [], current := none
            resumeLf := false, expected := e }).serialReports l h.serial (s.masOf l).expected o).request
          (.mutilated (s.circuit l) (some h.serial) h.cls .noStore none))) ∧
  (∀ (s : State) (img : Image) (l : Nat) (overlong : Option Symbol) (tail : List Symbol), l < 8 →
    tail = overlong.elim [crSym img, lfSym img] (fun σ => [σ]) →
    (s.grants .ordinary 1 1 = true → (s.masOf l).header.length + tail.length ≤ 32 →
      ∃ m, m < 128 ∧ (s.record m).state = .free ∧ (∀ j, j < m → (s.record j).state ≠ .free) ∧
        (s.badHeader img l overlong).record m =
          { Record.granted .ordinary (s.store.pool.take 1) with
            source := some (.circuit (s.circuit l))
            origin := s.serviceCode
            authority := s.lineAuthority l
            intercept := some .badHead
            errors := ((s.masOf l).header ++ tail).countP fun σ => decide (σ.tag = .error)
            text := (s.masOf l).header ++ tail
            slots := [⟨.pseudo, .unrouted⟩] } ∧
        (s.badHeader img l overlong).masOf l =
          { s.masOf l with
            mode := .text, lineStart := overlong.isNone, startSeq := [], header := [], look := []
            current := some m }) ∧
    (s.grants .ordinary 1 1 = false →
      s.badHeader img l overlong =
        (s.setMas l
          { s.masOf l with
            mode := .discard, lineStart := overlong.isNone, startSeq := [], header := [], look := [], current := none
            resumeLf := false }).request (.mutilated (s.circuit l) none .ordinary .noStore none))) ∧
  (∀ (s : State) (img : Image) (l m : Nat), l < 8 → m < 128 → (s.record m).state = .filling → (s.record m).slots ≠ [] →
    (∀ sl ∈ (s.record m).slots, sl.state = .unrouted) → (s.record m).mutilated = none →
    ∃ r, Handled r ((s.endSequence img l m).record m) ∧
      (s.noOwnService → SameMessage r ((s.endSequence img l m).record m)) ∧
      r = { s.record m with
        state := .standing, stamp := some s.store.stamp, text := r.text, chain := r.chain, errors := r.errors } ∧
      (∀ pre cr lf, (s.record m).text = pre ++ [cr, lf] → means img .lf lf = true → means img .cr cr = true →
        r.text = pre) ∧
      (∀ pre lf, (s.record m).text = pre ++ [lf] → means img .lf lf = true →
        (∀ cr, pre.getLast? = some cr → means img .cr cr = false) → r.text = pre) ∧
      ((∀ lf, (s.record m).text.getLast? = some lf → means img .lf lf = false) → r.text = (s.record m).text) ∧
      (s.endSequence img l m).masOf l =
        { s.masOf l with
          mode := .hunt, lineStart := true, startSeq := [], header := [], look := [], current := none
          resumeLf := false }) ∧
  (∀ (s : State) (img : Image) (l m : Nat), l < 8 → m < 128 → (s.record m).state = .filling → m ∉ (s.masOf l).rstack →
    ∃ r, (s.breakLine img l m).record m = r ∧
      r = { s.record m with text := r.text, chain := r.chain, errors := r.errors } ∧
      (∀ a lf b last, (s.record m).text = a ++ [lf] ++ b ++ [last] → means img .lf lf = true →
        (∀ σ ∈ b, means img .lf σ = false) → r.text = a ++ [lf]) ∧
      ((∀ σ ∈ (s.record m).text.dropLast, means img .lf σ = false) → r.text = []) ∧
      ((s.masOf l).rstack.length < 3 →
        (s.breakLine img l m).masOf l =
          { s.masOf l with
            mode := .hunt, lineStart := true, startSeq := [], header := [], look := [], current := none
            resumeLf := false, rstack := m :: (s.masOf l).rstack } ∧
        ∀ j, j ≠ m → (s.breakLine img l m).record j = s.record j) ∧
      (∀ a b bottom, (s.masOf l).rstack = [a, b, bottom] →
        (s.breakLine img l m).masOf l =
          { s.masOf l with
            mode := .hunt, lineStart := true, startSeq := [], header := [], look := [], current := none
            resumeLf := false, rstack := [m, a, b] } ∧
        (bottom < 128 → (s.record bottom).state = .filling → (s.record bottom).slots ≠ [] →
          (s.record bottom).mutilated = none →
          ∃ r, r = { s.record bottom with
              state := .standing, stamp := some s.store.stamp, mutilated := some .suspend } ∧
            Handled r ((s.breakLine img l m).record bottom) ∧
            (s.noOwnService → (∀ sl ∈ (s.record bottom).slots, sl.state = .unrouted) →
              SameMessage r ((s.breakLine img l m).record bottom))))) ∧
  (∀ (s : State) (l n : Nat) (endedCr : Bool), l < 8 →
    ((∀ m ∈ (s.masOf l).rstack, (s.record m).serial ≠ some n) → s.resumeLine l n endedCr = s) ∧
    ∀ above m below, (s.masOf l).rstack = above ++ m :: below → (∀ j ∈ above, (s.record j).serial ≠ some n) →
      (s.record m).serial = some n →
      (s.resumeLine l n endedCr).masOf l =
        { s.masOf l with
          mode := .text, lineStart := true, startSeq := [], header := [], look := [], current := some m
          rstack := below, resumeLf := endedCr } ∧
      (above = [] → (s.resumeLine l n endedCr).store = s.store) ∧
      (m ∉ above → (s.record m).state = .filling → (s.resumeLine l n endedCr).record m = s.record m) ∧
      (above.Nodup → ∀ j ∈ above, j < 128 → (s.record j).state = .filling → (s.record j).slots ≠ [] →
        (s.record j).mutilated = none →
        ∃ r stamp, r = { s.record j with state := .standing, stamp := some stamp, mutilated := some .suspend } ∧
          Handled r ((s.resumeLine l n endedCr).record j) ∧
          (s.noOwnService → (∀ sl ∈ (s.record j).slots, sl.state = .unrouted) →
            SameMessage r ((s.resumeLine l n endedCr).record j))))
end

