-- ==== Sys2Proof/Laws/State.lean ====
section
/-! SUPPORT. The small lemmas of State: what each named update leaves as it was, and reading after writing. -/

namespace Sys2Proof.Machine

/-! ## Tables -/

@[simp] theorem entryAt_set_self {α : Type} {n : Nat} (v : Vector α n) (d x : α) (i : Nat) (h : i < n) :
    entryAt (v.setIfInBounds i x) d i = x := by
  simp [entryAt, h]

@[simp] theorem entryAt_set_ne {α : Type} {n : Nat} (v : Vector α n) (d x : α) (i j : Nat) (h : i ≠ j) :
    entryAt (v.setIfInBounds i x) d j = entryAt v d j := by
  simp [entryAt, Vector.getElem?_setIfInBounds_ne, h]

theorem entryAt_set {α : Type} {n : Nat} (v : Vector α n) (d x : α) (i j : Nat) (h : i < n) :
    entryAt (v.setIfInBounds i x) d j = if i = j then x else entryAt v d j := by
  by_cases e : i = j
  · subst e; simp [h]
  · simp [e]

theorem entryAt_set_out {α : Type} {n : Nat} (v : Vector α n) (d x : α) (i j : Nat) (h : n ≤ i) :
    entryAt (v.setIfInBounds i x) d j = entryAt v d j := by
  simp [entryAt, Vector.setIfInBounds_eq_of_size_le h]

/-- Reading entry `j` after writing `x` at `i`, where reading any place gives `P`. -/
theorem entryAt_set_of {α : Type} {n : Nat} {P : α → Prop} (v : Vector α n) (d x : α) (i j : Nat)
    (hx : i = j → P x) (hv : P (entryAt v d j)) : P (entryAt (v.setIfInBounds i x) d j) := by
  by_cases h : i < n
  · rw [entryAt_set _ _ _ _ _ h]; split
    · exact hx ‹_›
    · exact hv
  · rw [entryAt_set_out _ _ _ _ _ (by omega)]; exact hv

theorem entryAt_ofFn {α : Type} {n : Nat} (f : Fin n → α) (d : α) (i : Nat) (h : i < n) :
    entryAt (Vector.ofFn f) d i = f ⟨i, h⟩ := by
  simp [entryAt, h]

theorem entryAt_map {α β : Type} {n : Nat} (v : Vector α n) (f : α → β) (d : α) (d' : β) (i : Nat) (h : i < n) :
    entryAt (v.map f) d' i = f (entryAt v d i) := by
  simp [entryAt, h]

theorem entryAt_replicate {α : Type} {n : Nat} (x d : α) (i : Nat) (h : i < n) :
    entryAt (Vector.replicate n x) d i = x := by
  simp [entryAt, h]

/-- Writing back what is read changes nothing. -/
theorem set_entryAt_self {α : Type} {n : Nat} (v : Vector α n) (d : α) (i : Nat) :
    v.setIfInBounds i (entryAt v d i) = v := by
  by_cases h : i < n
  · ext j hj; simp [entryAt, h, Vector.getElem_setIfInBounds]; rintro rfl; rfl
  · exact Vector.setIfInBounds_eq_of_size_le (by omega)

/-! ## Reading after writing -/

variable (s : State)

@[simp] theorem line_setLine_self (i : Nat) (x : Line) (h : i < 8) : (s.setLine i x).line i = x :=
  entryAt_set_self _ _ _ _ h

@[simp] theorem line_setLine_ne (i j : Nat) (x : Line) (h : i ≠ j) : (s.setLine i x).line j = s.line j :=
  entryAt_set_ne _ _ _ _ _ h

theorem line_setLine (i j : Nat) (x : Line) (h : i < 8) :
    (s.setLine i x).line j = if i = j then x else s.line j :=
  entryAt_set _ _ _ _ _ h

theorem line_setLine_of {P : Line → Prop} (i j : Nat) (x : Line) (hx : i = j → P x) (hv : P (s.line j)) :
    P ((s.setLine i x).line j) :=
  entryAt_set_of _ _ _ _ _ hx hv

@[simp] theorem setLine_line (i : Nat) : s.setLine i (s.line i) = s := by
  simp [State.setLine, State.line, set_entryAt_self]

@[simp] theorem masOf_setMas_self (i : Nat) (x : Mas) (h : i < 8) : (s.setMas i x).masOf i = x :=
  entryAt_set_self _ _ _ _ h

@[simp] theorem masOf_setMas_ne (i j : Nat) (x : Mas) (h : i ≠ j) : (s.setMas i x).masOf j = s.masOf j :=
  entryAt_set_ne _ _ _ _ _ h

theorem masOf_setMas (i j : Nat) (x : Mas) (h : i < 8) :
    (s.setMas i x).masOf j = if i = j then x else s.masOf j :=
  entryAt_set _ _ _ _ _ h

theorem masOf_setMas_of {P : Mas → Prop} (i j : Nat) (x : Mas) (hx : i = j → P x) (hv : P (s.masOf j)) :
    P ((s.setMas i x).masOf j) :=
  entryAt_set_of _ _ _ _ _ hx hv

@[simp] theorem setMas_masOf (i : Nat) : s.setMas i (s.masOf i) = s := by
  simp [State.setMas, State.masOf, set_entryAt_self]

@[simp] theorem ctxOf_setCtx_self (i : Nat) (x : Ctx) (h : i < 8) : (s.setCtx i x).ctxOf i = x :=
  entryAt_set_self _ _ _ _ h

@[simp] theorem ctxOf_setCtx_ne (i j : Nat) (x : Ctx) (h : i ≠ j) : (s.setCtx i x).ctxOf j = s.ctxOf j :=
  entryAt_set_ne _ _ _ _ _ h

theorem ctxOf_setCtx (i j : Nat) (x : Ctx) (h : i < 8) :
    (s.setCtx i x).ctxOf j = if i = j then x else s.ctxOf j :=
  entryAt_set _ _ _ _ _ h

theorem ctxOf_setCtx_of {P : Ctx → Prop} (i j : Nat) (x : Ctx) (hx : i = j → P x) (hv : P (s.ctxOf j)) :
    P ((s.setCtx i x).ctxOf j) :=
  entryAt_set_of _ _ _ _ _ hx hv

@[simp] theorem setCtx_ctxOf (i : Nat) : s.setCtx i (s.ctxOf i) = s := by
  simp [State.setCtx, State.ctxOf, set_entryAt_self]

@[simp] theorem adminOf_setAdmin_self (i : Nat) (x : Admin) (h : i < 8) : (s.setAdmin i x).adminOf i = x :=
  entryAt_set_self _ _ _ _ h

@[simp] theorem adminOf_setAdmin_ne (i j : Nat) (x : Admin) (h : i ≠ j) : (s.setAdmin i x).adminOf j = s.adminOf j :=
  entryAt_set_ne _ _ _ _ _ h

theorem adminOf_setAdmin (i j : Nat) (x : Admin) (h : i < 8) :
    (s.setAdmin i x).adminOf j = if i = j then x else s.adminOf j :=
  entryAt_set _ _ _ _ _ h

theorem adminOf_setAdmin_of {P : Admin → Prop} (i j : Nat) (x : Admin) (hx : i = j → P x) (hv : P (s.adminOf j)) :
    P ((s.setAdmin i x).adminOf j) :=
  entryAt_set_of _ _ _ _ _ hx hv

@[simp] theorem setAdmin_adminOf (i : Nat) : s.setAdmin i (s.adminOf i) = s := by
  simp [State.setAdmin, State.adminOf, set_entryAt_self]

@[simp] theorem mapOf_setMap_self (i : Nat) (x : MapEntry) (h : i < 128) : (s.setMap i x).mapOf i = x :=
  entryAt_set_self _ _ _ _ h

@[simp] theorem mapOf_setMap_ne (i j : Nat) (x : MapEntry) (h : i ≠ j) : (s.setMap i x).mapOf j = s.mapOf j :=
  entryAt_set_ne _ _ _ _ _ h

theorem mapOf_setMap (i j : Nat) (x : MapEntry) (h : i < 128) :
    (s.setMap i x).mapOf j = if i = j then x else s.mapOf j :=
  entryAt_set _ _ _ _ _ h

theorem mapOf_setMap_of {P : MapEntry → Prop} (i j : Nat) (x : MapEntry) (hx : i = j → P x) (hv : P (s.mapOf j)) :
    P ((s.setMap i x).mapOf j) :=
  entryAt_set_of _ _ _ _ _ hx hv

@[simp] theorem setMap_mapOf (i : Nat) : s.setMap i (s.mapOf i) = s := by
  simp [State.setMap, State.mapOf, set_entryAt_self]

@[simp] theorem peer_setPeer_self (i : Nat) (x : Peer) (h : i < 16) : (s.setPeer i x).peer i = x :=
  entryAt_set_self _ _ _ _ h

@[simp] theorem peer_setPeer_ne (i j : Nat) (x : Peer) (h : i ≠ j) : (s.setPeer i x).peer j = s.peer j :=
  entryAt_set_ne _ _ _ _ _ h

theorem peer_setPeer (i j : Nat) (x : Peer) (h : i < 16) :
    (s.setPeer i x).peer j = if i = j then x else s.peer j :=
  entryAt_set _ _ _ _ _ h

theorem peer_setPeer_of {P : Peer → Prop} (i j : Nat) (x : Peer) (hx : i = j → P x) (hv : P (s.peer j)) :
    P ((s.setPeer i x).peer j) :=
  entryAt_set_of _ _ _ _ _ hx hv

@[simp] theorem setPeer_peer (i : Nat) : s.setPeer i (s.peer i) = s := by
  simp [State.setPeer, State.peer, set_entryAt_self]

@[simp] theorem record_setRecord_self (i : Nat) (x : Record) (h : i < 128) : (s.setRecord i x).record i = x :=
  entryAt_set_self _ _ _ _ h

@[simp] theorem record_setRecord_ne (i j : Nat) (x : Record) (h : i ≠ j) : (s.setRecord i x).record j = s.record j :=
  entryAt_set_ne _ _ _ _ _ h

theorem record_setRecord (i j : Nat) (x : Record) (h : i < 128) :
    (s.setRecord i x).record j = if i = j then x else s.record j :=
  entryAt_set _ _ _ _ _ h

theorem record_setRecord_of {P : Record → Prop} (i j : Nat) (x : Record) (hx : i = j → P x) (hv : P (s.record j)) :
    P ((s.setRecord i x).record j) :=
  entryAt_set_of _ _ _ _ _ hx hv

@[simp] theorem setRecord_record (i : Nat) : s.setRecord i (s.record i) = s := by
  simp [State.setRecord, State.record, set_entryAt_self]

/-! ## What each update leaves -/

section
variable (i : Nat) (x : Line)
@[simp] theorem setLine_phase : (s.setLine i x).phase = s.phase := rfl
@[simp] theorem setLine_restart : (s.setLine i x).restart = s.restart := rfl
@[simp] theorem setLine_station : (s.setLine i x).station = s.station := rfl
@[simp] theorem setLine_cfg : (s.setLine i x).cfg = s.cfg := rfl
@[simp] theorem setLine_cfgCs : (s.setLine i x).cfgCs = s.cfgCs := rfl
@[simp] theorem setLine_cfgOut : (s.setLine i x).cfgOut = s.cfgOut := rfl
@[simp] theorem setLine_mas : (s.setLine i x).mas = s.mas := rfl
@[simp] theorem setLine_store : (s.setLine i x).store = s.store := rfl
@[simp] theorem setLine_admin : (s.setLine i x).admin = s.admin := rfl
@[simp] theorem setLine_map : (s.setLine i x).map = s.map := rfl
@[simp] theorem setLine_ctx : (s.setLine i x).ctx = s.ctx := rfl
@[simp] theorem setLine_engine : (s.setLine i x).engine = s.engine := rfl
@[simp] theorem setLine_offered : (s.setLine i x).offered = s.offered := rfl
@[simp] theorem setLine_holdoffDue : (s.setLine i x).holdoffDue = s.holdoffDue := rfl
@[simp] theorem setLine_flight : (s.setLine i x).flight = s.flight := rfl
@[simp] theorem setLine_timers : (s.setLine i x).timers = s.timers := rfl
@[simp] theorem setLine_parting : (s.setLine i x).parting = s.parting := rfl
@[simp] theorem setLine_peers : (s.setLine i x).peers = s.peers := rfl
@[simp] theorem setLine_musterPending : (s.setLine i x).musterPending = s.musterPending := rfl
@[simp] theorem setLine_streak : (s.setLine i x).streak = s.streak := rfl
@[simp] theorem setLine_levels : (s.setLine i x).levels = s.levels := rfl
@[simp] theorem setLine_lost : (s.setLine i x).lost = s.lost := rfl
@[simp] theorem setLine_minute : (s.setLine i x).minute = s.minute := rfl
@[simp] theorem setLine_rests : (s.setLine i x).rests = s.rests := rfl
@[simp] theorem setLine_oalm : (s.setLine i x).oalm = s.oalm := rfl
@[simp] theorem setLine_draws : (s.setLine i x).draws = s.draws := rfl
@[simp] theorem setLine_ev : (s.setLine i x).ev = s.ev := rfl
@[simp] theorem setLine_pending : (s.setLine i x).pending = s.pending := rfl
@[simp] theorem setLine_masOf (j : Nat) : (s.setLine i x).masOf j = s.masOf j := rfl
@[simp] theorem setLine_ctxOf (j : Nat) : (s.setLine i x).ctxOf j = s.ctxOf j := rfl
@[simp] theorem setLine_adminOf (j : Nat) : (s.setLine i x).adminOf j = s.adminOf j := rfl
@[simp] theorem setLine_mapOf (j : Nat) : (s.setLine i x).mapOf j = s.mapOf j := rfl
@[simp] theorem setLine_peer (j : Nat) : (s.setLine i x).peer j = s.peer j := rfl
@[simp] theorem setLine_record (j : Nat) : (s.setLine i x).record j = s.record j := rfl
end

section
variable (i : Nat) (x : Mas)
@[simp] theorem setMas_phase : (s.setMas i x).phase = s.phase := rfl
@[simp] theorem setMas_restart : (s.setMas i x).restart = s.restart := rfl
@[simp] theorem setMas_station : (s.setMas i x).station = s.station := rfl
@[simp] theorem setMas_cfg : (s.setMas i x).cfg = s.cfg := rfl
@[simp] theorem setMas_cfgCs : (s.setMas i x).cfgCs = s.cfgCs := rfl
@[simp] theorem setMas_cfgOut : (s.setMas i x).cfgOut = s.cfgOut := rfl
@[simp] theorem setMas_lines : (s.setMas i x).lines = s.lines := rfl
@[simp] theorem setMas_store : (s.setMas i x).store = s.store := rfl
@[simp] theorem setMas_admin : (s.setMas i x).admin = s.admin := rfl
@[simp] theorem setMas_map : (s.setMas i x).map = s.map := rfl
@[simp] theorem setMas_ctx : (s.setMas i x).ctx = s.ctx := rfl
@[simp] theorem setMas_engine : (s.setMas i x).engine = s.engine := rfl
@[simp] theorem setMas_offered : (s.setMas i x).offered = s.offered := rfl
@[simp] theorem setMas_holdoffDue : (s.setMas i x).holdoffDue = s.holdoffDue := rfl
@[simp] theorem setMas_flight : (s.setMas i x).flight = s.flight := rfl
@[simp] theorem setMas_timers : (s.setMas i x).timers = s.timers := rfl
@[simp] theorem setMas_parting : (s.setMas i x).parting = s.parting := rfl
@[simp] theorem setMas_peers : (s.setMas i x).peers = s.peers := rfl
@[simp] theorem setMas_musterPending : (s.setMas i x).musterPending = s.musterPending := rfl
@[simp] theorem setMas_streak : (s.setMas i x).streak = s.streak := rfl
@[simp] theorem setMas_levels : (s.setMas i x).levels = s.levels := rfl
@[simp] theorem setMas_lost : (s.setMas i x).lost = s.lost := rfl
@[simp] theorem setMas_minute : (s.setMas i x).minute = s.minute := rfl
@[simp] theorem setMas_rests : (s.setMas i x).rests = s.rests := rfl
@[simp] theorem setMas_oalm : (s.setMas i x).oalm = s.oalm := rfl
@[simp] theorem setMas_draws : (s.setMas i x).draws = s.draws := rfl
@[simp] theorem setMas_ev : (s.setMas i x).ev = s.ev := rfl
@[simp] theorem setMas_pending : (s.setMas i x).pending = s.pending := rfl
@[simp] theorem setMas_line (j : Nat) : (s.setMas i x).line j = s.line j := rfl
@[simp] theorem setMas_ctxOf (j : Nat) : (s.setMas i x).ctxOf j = s.ctxOf j := rfl
@[simp] theorem setMas_adminOf (j : Nat) : (s.setMas i x).adminOf j = s.adminOf j := rfl
@[simp] theorem setMas_mapOf (j : Nat) : (s.setMas i x).mapOf j = s.mapOf j := rfl
@[simp] theorem setMas_peer (j : Nat) : (s.setMas i x).peer j = s.peer j := rfl
@[simp] theorem setMas_record (j : Nat) : (s.setMas i x).record j = s.record j := rfl
end

section
variable (i : Nat) (x : Ctx)
@[simp] theorem setCtx_phase : (s.setCtx i x).phase = s.phase := rfl
@[simp] theorem setCtx_restart : (s.setCtx i x).restart = s.restart := rfl
@[simp] theorem setCtx_station : (s.setCtx i x).station = s.station := rfl
@[simp] theorem setCtx_cfg : (s.setCtx i x).cfg = s.cfg := rfl
@[simp] theorem setCtx_cfgCs : (s.setCtx i x).cfgCs = s.cfgCs := rfl
@[simp] theorem setCtx_cfgOut : (s.setCtx i x).cfgOut = s.cfgOut := rfl
@[simp] theorem setCtx_lines : (s.setCtx i x).lines = s.lines := rfl
@[simp] theorem setCtx_mas : (s.setCtx i x).mas = s.mas := rfl
@[simp] theorem setCtx_store : (s.setCtx i x).store = s.store := rfl
@[simp] theorem setCtx_admin : (s.setCtx i x).admin = s.admin := rfl
@[simp] theorem setCtx_map : (s.setCtx i x).map = s.map := rfl
@[simp] theorem setCtx_engine : (s.setCtx i x).engine = s.engine := rfl
@[simp] theorem setCtx_offered : (s.setCtx i x).offered = s.offered := rfl
@[simp] theorem setCtx_holdoffDue : (s.setCtx i x).holdoffDue = s.holdoffDue := rfl
@[simp] theorem setCtx_flight : (s.setCtx i x).flight = s.flight := rfl
@[simp] theorem setCtx_timers : (s.setCtx i x).timers = s.timers := rfl
@[simp] theorem setCtx_parting : (s.setCtx i x).parting = s.parting := rfl
@[simp] theorem setCtx_peers : (s.setCtx i x).peers = s.peers := rfl
@[simp] theorem setCtx_musterPending : (s.setCtx i x).musterPending = s.musterPending := rfl
@[simp] theorem setCtx_streak : (s.setCtx i x).streak = s.streak := rfl
@[simp] theorem setCtx_levels : (s.setCtx i x).levels = s.levels := rfl
@[simp] theorem setCtx_lost : (s.setCtx i x).lost = s.lost := rfl
@[simp] theorem setCtx_minute : (s.setCtx i x).minute = s.minute := rfl
@[simp] theorem setCtx_rests : (s.setCtx i x).rests = s.rests := rfl
@[simp] theorem setCtx_oalm : (s.setCtx i x).oalm = s.oalm := rfl
@[simp] theorem setCtx_draws : (s.setCtx i x).draws = s.draws := rfl
@[simp] theorem setCtx_ev : (s.setCtx i x).ev = s.ev := rfl
@[simp] theorem setCtx_pending : (s.setCtx i x).pending = s.pending := rfl
@[simp] theorem setCtx_line (j : Nat) : (s.setCtx i x).line j = s.line j := rfl
@[simp] theorem setCtx_masOf (j : Nat) : (s.setCtx i x).masOf j = s.masOf j := rfl
@[simp] theorem setCtx_adminOf (j : Nat) : (s.setCtx i x).adminOf j = s.adminOf j := rfl
@[simp] theorem setCtx_mapOf (j : Nat) : (s.setCtx i x).mapOf j = s.mapOf j := rfl
@[simp] theorem setCtx_peer (j : Nat) : (s.setCtx i x).peer j = s.peer j := rfl
@[simp] theorem setCtx_record (j : Nat) : (s.setCtx i x).record j = s.record j := rfl
end

section
variable (i : Nat) (x : Admin)
@[simp] theorem setAdmin_phase : (s.setAdmin i x).phase = s.phase := rfl
@[simp] theorem setAdmin_restart : (s.setAdmin i x).restart = s.restart := rfl
@[simp] theorem setAdmin_station : (s.setAdmin i x).station = s.station := rfl
@[simp] theorem setAdmin_cfg : (s.setAdmin i x).cfg = s.cfg := rfl
@[simp] theorem setAdmin_cfgCs : (s.setAdmin i x).cfgCs = s.cfgCs := rfl
@[simp] theorem setAdmin_cfgOut : (s.setAdmin i x).cfgOut = s.cfgOut := rfl
@[simp] theorem setAdmin_lines : (s.setAdmin i x).lines = s.lines := rfl
@[simp] theorem setAdmin_mas : (s.setAdmin i x).mas = s.mas := rfl
@[simp] theorem setAdmin_store : (s.setAdmin i x).store = s.store := rfl
@[simp] theorem setAdmin_map : (s.setAdmin i x).map = s.map := rfl
@[simp] theorem setAdmin_ctx : (s.setAdmin i x).ctx = s.ctx := rfl
@[simp] theorem setAdmin_engine : (s.setAdmin i x).engine = s.engine := rfl
@[simp] theorem setAdmin_offered : (s.setAdmin i x).offered = s.offered := rfl
@[simp] theorem setAdmin_holdoffDue : (s.setAdmin i x).holdoffDue = s.holdoffDue := rfl
@[simp] theorem setAdmin_flight : (s.setAdmin i x).flight = s.flight := rfl
@[simp] theorem setAdmin_timers : (s.setAdmin i x).timers = s.timers := rfl
@[simp] theorem setAdmin_parting : (s.setAdmin i x).parting = s.parting := rfl
@[simp] theorem setAdmin_peers : (s.setAdmin i x).peers = s.peers := rfl
@[simp] theorem setAdmin_musterPending : (s.setAdmin i x).musterPending = s.musterPending := rfl
@[simp] theorem setAdmin_streak : (s.setAdmin i x).streak = s.streak := rfl
@[simp] theorem setAdmin_levels : (s.setAdmin i x).levels = s.levels := rfl
@[simp] theorem setAdmin_lost : (s.setAdmin i x).lost = s.lost := rfl
@[simp] theorem setAdmin_minute : (s.setAdmin i x).minute = s.minute := rfl
@[simp] theorem setAdmin_rests : (s.setAdmin i x).rests = s.rests := rfl
@[simp] theorem setAdmin_oalm : (s.setAdmin i x).oalm = s.oalm := rfl
@[simp] theorem setAdmin_draws : (s.setAdmin i x).draws = s.draws := rfl
@[simp] theorem setAdmin_ev : (s.setAdmin i x).ev = s.ev := rfl
@[simp] theorem setAdmin_pending : (s.setAdmin i x).pending = s.pending := rfl
@[simp] theorem setAdmin_line (j : Nat) : (s.setAdmin i x).line j = s.line j := rfl
@[simp] theorem setAdmin_masOf (j : Nat) : (s.setAdmin i x).masOf j = s.masOf j := rfl
@[simp] theorem setAdmin_ctxOf (j : Nat) : (s.setAdmin i x).ctxOf j = s.ctxOf j := rfl
@[simp] theorem setAdmin_mapOf (j : Nat) : (s.setAdmin i x).mapOf j = s.mapOf j := rfl
@[simp] theorem setAdmin_peer (j : Nat) : (s.setAdmin i x).peer j = s.peer j := rfl
@[simp] theorem setAdmin_record (j : Nat) : (s.setAdmin i x).record j = s.record j := rfl
end

section
variable (i : Nat) (x : MapEntry)
@[simp] theorem setMap_phase : (s.setMap i x).phase = s.phase := rfl
@[simp] theorem setMap_restart : (s.setMap i x).restart = s.restart := rfl
@[simp] theorem setMap_station : (s.setMap i x).station = s.station := rfl
@[simp] theorem setMap_cfg : (s.setMap i x).cfg = s.cfg := rfl
@[simp] theorem setMap_cfgCs : (s.setMap i x).cfgCs = s.cfgCs := rfl
@[simp] theorem setMap_cfgOut : (s.setMap i x).cfgOut = s.cfgOut := rfl
@[simp] theorem setMap_lines : (s.setMap i x).lines = s.lines := rfl
@[simp] theorem setMap_mas : (s.setMap i x).mas = s.mas := rfl
@[simp] theorem setMap_store : (s.setMap i x).store = s.store := rfl
@[simp] theorem setMap_admin : (s.setMap i x).admin = s.admin := rfl
@[simp] theorem setMap_ctx : (s.setMap i x).ctx = s.ctx := rfl
@[simp] theorem setMap_engine : (s.setMap i x).engine = s.engine := rfl
@[simp] theorem setMap_offered : (s.setMap i x).offered = s.offered := rfl
@[simp] theorem setMap_holdoffDue : (s.setMap i x).holdoffDue = s.holdoffDue := rfl
@[simp] theorem setMap_flight : (s.setMap i x).flight = s.flight := rfl
@[simp] theorem setMap_timers : (s.setMap i x).timers = s.timers := rfl
@[simp] theorem setMap_parting : (s.setMap i x).parting = s.parting := rfl
@[simp] theorem setMap_peers : (s.setMap i x).peers = s.peers := rfl
@[simp] theorem setMap_musterPending : (s.setMap i x).musterPending = s.musterPending := rfl
@[simp] theorem setMap_streak : (s.setMap i x).streak = s.streak := rfl
@[simp] theorem setMap_levels : (s.setMap i x).levels = s.levels := rfl
@[simp] theorem setMap_lost : (s.setMap i x).lost = s.lost := rfl
@[simp] theorem setMap_minute : (s.setMap i x).minute = s.minute := rfl
@[simp] theorem setMap_rests : (s.setMap i x).rests = s.rests := rfl
@[simp] theorem setMap_oalm : (s.setMap i x).oalm = s.oalm := rfl
@[simp] theorem setMap_draws : (s.setMap i x).draws = s.draws := rfl
@[simp] theorem setMap_ev : (s.setMap i x).ev = s.ev := rfl
@[simp] theorem setMap_pending : (s.setMap i x).pending = s.pending := rfl
@[simp] theorem setMap_line (j : Nat) : (s.setMap i x).line j = s.line j := rfl
@[simp] theorem setMap_masOf (j : Nat) : (s.setMap i x).masOf j = s.masOf j := rfl
@[simp] theorem setMap_ctxOf (j : Nat) : (s.setMap i x).ctxOf j = s.ctxOf j := rfl
@[simp] theorem setMap_adminOf (j : Nat) : (s.setMap i x).adminOf j = s.adminOf j := rfl
@[simp] theorem setMap_peer (j : Nat) : (s.setMap i x).peer j = s.peer j := rfl
@[simp] theorem setMap_record (j : Nat) : (s.setMap i x).record j = s.record j := rfl
end

section
variable (i : Nat) (x : Peer)
@[simp] theorem setPeer_phase : (s.setPeer i x).phase = s.phase := rfl
@[simp] theorem setPeer_restart : (s.setPeer i x).restart = s.restart := rfl
@[simp] theorem setPeer_station : (s.setPeer i x).station = s.station := rfl
@[simp] theorem setPeer_cfg : (s.setPeer i x).cfg = s.cfg := rfl
@[simp] theorem setPeer_cfgCs : (s.setPeer i x).cfgCs = s.cfgCs := rfl
@[simp] theorem setPeer_cfgOut : (s.setPeer i x).cfgOut = s.cfgOut := rfl
@[simp] theorem setPeer_lines : (s.setPeer i x).lines = s.lines := rfl
@[simp] theorem setPeer_mas : (s.setPeer i x).mas = s.mas := rfl
@[simp] theorem setPeer_store : (s.setPeer i x).store = s.store := rfl
@[simp] theorem setPeer_admin : (s.setPeer i x).admin = s.admin := rfl
@[simp] theorem setPeer_map : (s.setPeer i x).map = s.map := rfl
@[simp] theorem setPeer_ctx : (s.setPeer i x).ctx = s.ctx := rfl
@[simp] theorem setPeer_engine : (s.setPeer i x).engine = s.engine := rfl
@[simp] theorem setPeer_offered : (s.setPeer i x).offered = s.offered := rfl
@[simp] theorem setPeer_holdoffDue : (s.setPeer i x).holdoffDue = s.holdoffDue := rfl
@[simp] theorem setPeer_flight : (s.setPeer i x).flight = s.flight := rfl
@[simp] theorem setPeer_timers : (s.setPeer i x).timers = s.timers := rfl
@[simp] theorem setPeer_parting : (s.setPeer i x).parting = s.parting := rfl
@[simp] theorem setPeer_musterPending : (s.setPeer i x).musterPending = s.musterPending := rfl
@[simp] theorem setPeer_streak : (s.setPeer i x).streak = s.streak := rfl
@[simp] theorem setPeer_levels : (s.setPeer i x).levels = s.levels := rfl
@[simp] theorem setPeer_lost : (s.setPeer i x).lost = s.lost := rfl
@[simp] theorem setPeer_minute : (s.setPeer i x).minute = s.minute := rfl
@[simp] theorem setPeer_rests : (s.setPeer i x).rests = s.rests := rfl
@[simp] theorem setPeer_oalm : (s.setPeer i x).oalm = s.oalm := rfl
@[simp] theorem setPeer_draws : (s.setPeer i x).draws = s.draws := rfl
@[simp] theorem setPeer_ev : (s.setPeer i x).ev = s.ev := rfl
@[simp] theorem setPeer_pending : (s.setPeer i x).pending = s.pending := rfl
@[simp] theorem setPeer_line (j : Nat) : (s.setPeer i x).line j = s.line j := rfl
@[simp] theorem setPeer_masOf (j : Nat) : (s.setPeer i x).masOf j = s.masOf j := rfl
@[simp] theorem setPeer_ctxOf (j : Nat) : (s.setPeer i x).ctxOf j = s.ctxOf j := rfl
@[simp] theorem setPeer_adminOf (j : Nat) : (s.setPeer i x).adminOf j = s.adminOf j := rfl
@[simp] theorem setPeer_mapOf (j : Nat) : (s.setPeer i x).mapOf j = s.mapOf j := rfl
@[simp] theorem setPeer_record (j : Nat) : (s.setPeer i x).record j = s.record j := rfl
end

section
variable (i : Nat) (x : Record)
@[simp] theorem setRecord_phase : (s.setRecord i x).phase = s.phase := rfl
@[simp] theorem setRecord_restart : (s.setRecord i x).restart = s.restart := rfl
@[simp] theorem setRecord_station : (s.setRecord i x).station = s.station := rfl
@[simp] theorem setRecord_cfg : (s.setRecord i x).cfg = s.cfg := rfl
@[simp] theorem setRecord_cfgCs : (s.setRecord i x).cfgCs = s.cfgCs := rfl
@[simp] theorem setRecord_cfgOut : (s.setRecord i x).cfgOut = s.cfgOut := rfl
@[simp] theorem setRecord_lines : (s.setRecord i x).lines = s.lines := rfl
@[simp] theorem setRecord_mas : (s.setRecord i x).mas = s.mas := rfl
@[simp] theorem setRecord_admin : (s.setRecord i x).admin = s.admin := rfl
@[simp] theorem setRecord_map : (s.setRecord i x).map = s.map := rfl
@[simp] theorem setRecord_ctx : (s.setRecord i x).ctx = s.ctx := rfl
@[simp] theorem setRecord_engine : (s.setRecord i x).engine = s.engine := rfl
@[simp] theorem setRecord_offered : (s.setRecord i x).offered = s.offered := rfl
@[simp] theorem setRecord_holdoffDue : (s.setRecord i x).holdoffDue = s.holdoffDue := rfl
@[simp] theorem setRecord_flight : (s.setRecord i x).flight = s.flight := rfl
@[simp] theorem setRecord_timers : (s.setRecord i x).timers = s.timers := rfl
@[simp] theorem setRecord_parting : (s.setRecord i x).parting = s.parting := rfl
@[simp] theorem setRecord_peers : (s.setRecord i x).peers = s.peers := rfl
@[simp] theorem setRecord_musterPending : (s.setRecord i x).musterPending = s.musterPending := rfl
@[simp] theorem setRecord_streak : (s.setRecord i x).streak = s.streak := rfl
@[simp] theorem setRecord_levels : (s.setRecord i x).levels = s.levels := rfl
@[simp] theorem setRecord_lost : (s.setRecord i x).lost = s.lost := rfl
@[simp] theorem setRecord_minute : (s.setRecord i x).minute = s.minute := rfl
@[simp] theorem setRecord_rests : (s.setRecord i x).rests = s.rests := rfl
@[simp] theorem setRecord_oalm : (s.setRecord i x).oalm = s.oalm := rfl
@[simp] theorem setRecord_draws : (s.setRecord i x).draws = s.draws := rfl
@[simp] theorem setRecord_ev : (s.setRecord i x).ev = s.ev := rfl
@[simp] theorem setRecord_pending : (s.setRecord i x).pending = s.pending := rfl
@[simp] theorem setRecord_line (j : Nat) : (s.setRecord i x).line j = s.line j := rfl
@[simp] theorem setRecord_masOf (j : Nat) : (s.setRecord i x).masOf j = s.masOf j := rfl
@[simp] theorem setRecord_ctxOf (j : Nat) : (s.setRecord i x).ctxOf j = s.ctxOf j := rfl
@[simp] theorem setRecord_adminOf (j : Nat) : (s.setRecord i x).adminOf j = s.adminOf j := rfl
@[simp] theorem setRecord_mapOf (j : Nat) : (s.setRecord i x).mapOf j = s.mapOf j := rfl
@[simp] theorem setRecord_peer (j : Nat) : (s.setRecord i x).peer j = s.peer j := rfl
end

section
variable (f : Flight)
@[simp] theorem setFlight_flight : (s.setFlight f).flight = some f := rfl
@[simp] theorem setFlight_phase : (s.setFlight f).phase = s.phase := rfl
@[simp] theorem setFlight_restart : (s.setFlight f).restart = s.restart := rfl
@[simp] theorem setFlight_station : (s.setFlight f).station = s.station := rfl
@[simp] theorem setFlight_cfg : (s.setFlight f).cfg = s.cfg := rfl
@[simp] theorem setFlight_cfgCs : (s.setFlight f).cfgCs = s.cfgCs := rfl
@[simp] theorem setFlight_cfgOut : (s.setFlight f).cfgOut = s.cfgOut := rfl
@[simp] theorem setFlight_lines : (s.setFlight f).lines = s.lines := rfl
@[simp] theorem setFlight_mas : (s.setFlight f).mas = s.mas := rfl
@[simp] theorem setFlight_store : (s.setFlight f).store = s.store := rfl
@[simp] theorem setFlight_admin : (s.setFlight f).admin = s.admin := rfl
@[simp] theorem setFlight_map : (s.setFlight f).map = s.map := rfl
@[simp] theorem setFlight_ctx : (s.setFlight f).ctx = s.ctx := rfl
@[simp] theorem setFlight_engine : (s.setFlight f).engine = s.engine := rfl
@[simp] theorem setFlight_offered : (s.setFlight f).offered = s.offered := rfl
@[simp] theorem setFlight_holdoffDue : (s.setFlight f).holdoffDue = s.holdoffDue := rfl
@[simp] theorem setFlight_timers : (s.setFlight f).timers = s.timers := rfl
@[simp] theorem setFlight_parting : (s.setFlight f).parting = s.parting := rfl
@[simp] theorem setFlight_peers : (s.setFlight f).peers = s.peers := rfl
@[simp] theorem setFlight_musterPending : (s.setFlight f).musterPending = s.musterPending := rfl
@[simp] theorem setFlight_streak : (s.setFlight f).streak = s.streak := rfl
@[simp] theorem setFlight_levels : (s.setFlight f).levels = s.levels := rfl
@[simp] theorem setFlight_lost : (s.setFlight f).lost = s.lost := rfl
@[simp] theorem setFlight_minute : (s.setFlight f).minute = s.minute := rfl
@[simp] theorem setFlight_rests : (s.setFlight f).rests = s.rests := rfl
@[simp] theorem setFlight_oalm : (s.setFlight f).oalm = s.oalm := rfl
@[simp] theorem setFlight_draws : (s.setFlight f).draws = s.draws := rfl
@[simp] theorem setFlight_ev : (s.setFlight f).ev = s.ev := rfl
@[simp] theorem setFlight_pending : (s.setFlight f).pending = s.pending := rfl
@[simp] theorem setFlight_line (j : Nat) : (s.setFlight f).line j = s.line j := rfl
@[simp] theorem setFlight_masOf (j : Nat) : (s.setFlight f).masOf j = s.masOf j := rfl
@[simp] theorem setFlight_ctxOf (j : Nat) : (s.setFlight f).ctxOf j = s.ctxOf j := rfl
@[simp] theorem setFlight_adminOf (j : Nat) : (s.setFlight f).adminOf j = s.adminOf j := rfl
@[simp] theorem setFlight_mapOf (j : Nat) : (s.setFlight f).mapOf j = s.mapOf j := rfl
@[simp] theorem setFlight_peer (j : Nat) : (s.setFlight f).peer j = s.peer j := rfl
@[simp] theorem setFlight_record (j : Nat) : (s.setFlight f).record j = s.record j := rfl
end

section
variable (l : Nat)
@[simp] theorem owePick_phase : (s.owePick l).phase = s.phase := rfl
@[simp] theorem owePick_restart : (s.owePick l).restart = s.restart := rfl
@[simp] theorem owePick_station : (s.owePick l).station = s.station := rfl
@[simp] theorem owePick_cfg : (s.owePick l).cfg = s.cfg := rfl
@[simp] theorem owePick_cfgCs : (s.owePick l).cfgCs = s.cfgCs := rfl
@[simp] theorem owePick_cfgOut : (s.owePick l).cfgOut = s.cfgOut := rfl
@[simp] theorem owePick_lines : (s.owePick l).lines = s.lines := rfl
@[simp] theorem owePick_mas : (s.owePick l).mas = s.mas := rfl
@[simp] theorem owePick_store : (s.owePick l).store = s.store := rfl
@[simp] theorem owePick_admin : (s.owePick l).admin = s.admin := rfl
@[simp] theorem owePick_map : (s.owePick l).map = s.map := rfl
@[simp] theorem owePick_ctx : (s.owePick l).ctx = s.ctx := rfl
@[simp] theorem owePick_engine : (s.owePick l).engine = s.engine := rfl
@[simp] theorem owePick_offered : (s.owePick l).offered = s.offered := rfl
@[simp] theorem owePick_holdoffDue : (s.owePick l).holdoffDue = s.holdoffDue := rfl
@[simp] theorem owePick_flight : (s.owePick l).flight = s.flight := rfl
@[simp] theorem owePick_timers : (s.owePick l).timers = s.timers := rfl
@[simp] theorem owePick_parting : (s.owePick l).parting = s.parting := rfl
@[simp] theorem owePick_peers : (s.owePick l).peers = s.peers := rfl
@[simp] theorem owePick_musterPending : (s.owePick l).musterPending = s.musterPending := rfl
@[simp] theorem owePick_streak : (s.owePick l).streak = s.streak := rfl
@[simp] theorem owePick_levels : (s.owePick l).levels = s.levels := rfl
@[simp] theorem owePick_lost : (s.owePick l).lost = s.lost := rfl
@[simp] theorem owePick_minute : (s.owePick l).minute = s.minute := rfl
@[simp] theorem owePick_rests : (s.owePick l).rests = s.rests := rfl
@[simp] theorem owePick_oalm : (s.owePick l).oalm = s.oalm := rfl
@[simp] theorem owePick_draws : (s.owePick l).draws = s.draws := rfl
@[simp] theorem owePick_pending : (s.owePick l).pending = s.pending := rfl
@[simp] theorem owePick_line (j : Nat) : (s.owePick l).line j = s.line j := rfl
@[simp] theorem owePick_masOf (j : Nat) : (s.owePick l).masOf j = s.masOf j := rfl
@[simp] theorem owePick_ctxOf (j : Nat) : (s.owePick l).ctxOf j = s.ctxOf j := rfl
@[simp] theorem owePick_adminOf (j : Nat) : (s.owePick l).adminOf j = s.adminOf j := rfl
@[simp] theorem owePick_mapOf (j : Nat) : (s.owePick l).mapOf j = s.mapOf j := rfl
@[simp] theorem owePick_peer (j : Nat) : (s.owePick l).peer j = s.peer j := rfl
@[simp] theorem owePick_record (j : Nat) : (s.owePick l).record j = s.record j := rfl
end

/-- A mark changes the scratch alone. -/
theorem touch_eq (g : Gauge) : ∃ e, s.touch g = { s with ev := e } := by
  cases g <;> cases h : s.ev.inReport <;> exact ⟨_, by simp only [State.touch, h]; rfl⟩

section
variable (g : Gauge)
@[simp] theorem touch_phase : (s.touch g).phase = s.phase := by obtain ⟨e, h⟩ := touch_eq s g; rw [h]
@[simp] theorem touch_restart : (s.touch g).restart = s.restart := by obtain ⟨e, h⟩ := touch_eq s g; rw [h]
@[simp] theorem touch_station : (s.touch g).station = s.station := by obtain ⟨e, h⟩ := touch_eq s g; rw [h]
@[simp] theorem touch_cfg : (s.touch g).cfg = s.cfg := by obtain ⟨e, h⟩ := touch_eq s g; rw [h]
@[simp] theorem touch_cfgCs : (s.touch g).cfgCs = s.cfgCs := by obtain ⟨e, h⟩ := touch_eq s g; rw [h]
@[simp] theorem touch_cfgOut : (s.touch g).cfgOut = s.cfgOut := by obtain ⟨e, h⟩ := touch_eq s g; rw [h]
@[simp] theorem touch_lines : (s.touch g).lines = s.lines := by obtain ⟨e, h⟩ := touch_eq s g; rw [h]
@[simp] theorem touch_mas : (s.touch g).mas = s.mas := by obtain ⟨e, h⟩ := touch_eq s g; rw [h]
@[simp] theorem touch_store : (s.touch g).store = s.store := by obtain ⟨e, h⟩ := touch_eq s g; rw [h]
@[simp] theorem touch_admin : (s.touch g).admin = s.admin := by obtain ⟨e, h⟩ := touch_eq s g; rw [h]
@[simp] theorem touch_map : (s.touch g).map = s.map := by obtain ⟨e, h⟩ := touch_eq s g; rw [h]
@[simp] theorem touch_ctx : (s.touch g).ctx = s.ctx := by obtain ⟨e, h⟩ := touch_eq s g; rw [h]
@[simp] theorem touch_engine : (s.touch g).engine = s.engine := by obtain ⟨e, h⟩ := touch_eq s g; rw [h]
@[simp] theorem touch_offered : (s.touch g).offered = s.offered := by obtain ⟨e, h⟩ := touch_eq s g; rw [h]
@[simp] theorem touch_holdoffDue : (s.touch g).holdoffDue = s.holdoffDue := by obtain ⟨e, h⟩ := touch_eq s g; rw [h]
@[simp] theorem touch_flight : (s.touch g).flight = s.flight := by obtain ⟨e, h⟩ := touch_eq s g; rw [h]
@[simp] theorem touch_timers : (s.touch g).timers = s.timers := by obtain ⟨e, h⟩ := touch_eq s g; rw [h]
@[simp] theorem touch_parting : (s.touch g).parting = s.parting := by obtain ⟨e, h⟩ := touch_eq s g; rw [h]
@[simp] theorem touch_peers : (s.touch g).peers = s.peers := by obtain ⟨e, h⟩ := touch_eq s g; rw [h]
@[simp] theorem touch_musterPending : (s.touch g).musterPending = s.musterPending := by obtain ⟨e, h⟩ := touch_eq s g; rw [h]
@[simp] theorem touch_streak : (s.touch g).streak = s.streak := by obtain ⟨e, h⟩ := touch_eq s g; rw [h]
@[simp] theorem touch_levels : (s.touch g).levels = s.levels := by obtain ⟨e, h⟩ := touch_eq s g; rw [h]
@[simp] theorem touch_lost : (s.touch g).lost = s.lost := by obtain ⟨e, h⟩ := touch_eq s g; rw [h]
@[simp] theorem touch_minute : (s.touch g).minute = s.minute := by obtain ⟨e, h⟩ := touch_eq s g; rw [h]
@[simp] theorem touch_rests : (s.touch g).rests = s.rests := by obtain ⟨e, h⟩ := touch_eq s g; rw [h]
@[simp] theorem touch_oalm : (s.touch g).oalm = s.oalm := by obtain ⟨e, h⟩ := touch_eq s g; rw [h]
@[simp] theorem touch_draws : (s.touch g).draws = s.draws := by obtain ⟨e, h⟩ := touch_eq s g; rw [h]
@[simp] theorem touch_pending : (s.touch g).pending = s.pending := by obtain ⟨e, h⟩ := touch_eq s g; rw [h]
@[simp] theorem touch_line (j : Nat) : (s.touch g).line j = s.line j := by obtain ⟨e, h⟩ := touch_eq s g; rw [h]; rfl
@[simp] theorem touch_masOf (j : Nat) : (s.touch g).masOf j = s.masOf j := by obtain ⟨e, h⟩ := touch_eq s g; rw [h]; rfl
@[simp] theorem touch_ctxOf (j : Nat) : (s.touch g).ctxOf j = s.ctxOf j := by obtain ⟨e, h⟩ := touch_eq s g; rw [h]; rfl
@[simp] theorem touch_adminOf (j : Nat) : (s.touch g).adminOf j = s.adminOf j := by obtain ⟨e, h⟩ := touch_eq s g; rw [h]; rfl
@[simp] theorem touch_mapOf (j : Nat) : (s.touch g).mapOf j = s.mapOf j := by obtain ⟨e, h⟩ := touch_eq s g; rw [h]; rfl
@[simp] theorem touch_peer (j : Nat) : (s.touch g).peer j = s.peer j := by obtain ⟨e, h⟩ := touch_eq s g; rw [h]; rfl
@[simp] theorem touch_record (j : Nat) : (s.touch g).record j = s.record j := by obtain ⟨e, h⟩ := touch_eq s g; rw [h]; rfl
end

/-! ## The frame of a meaning -/

@[simp] theorem onLine_ok {l : Nat} (h : l < 8) (k : Host.Outcome State Fault Refusal) : onLine l k = k := by
  simp [onLine, lineOk, h]

@[simp] theorem onStation_ok {n : Nat} (h : n < 16) (k : Host.Outcome State Fault Refusal) : onStation n k = k := by
  simp [onStation, stationOk, h]

@[simp] theorem whenever_true (t : State) : whenever true s t = .next t := rfl

@[simp] theorem whenever_false (t : State) : whenever false s t = .next s := rfl

/-- A command whose event may or may not come about answers a next state: the one or the other. -/
theorem whenever_next (g : Bool) (t : State) : whenever g s t = .next (if g then t else s) := rfl

end Sys2Proof.Machine
end

