-- ==== Sys2Proof/Laws/Frames.lean ====
section
/-! SUPPORT. What the shared operations leave as it was. Three relations say it: `Filed`, for operations that change the
store and the event's scratch alone; `Placed`, for slots placed and reports composed; `Resolved`, for full resolution,
where the service unit may carry out commands. -/

namespace Sys2Proof.Machine

/-! ## Keeping a relation through a fold -/

theorem foldl_keeps {α β : Type} (R : β → β → Prop) (refl : ∀ b, R b b) (trans : ∀ {a b c}, R a b → R b c → R a c)
    (f : β → α → β) (h : ∀ b a, R b (f b a)) (l : List α) : ∀ b, R b (l.foldl f b) := by
  induction l with
  | nil => exact refl
  | cons a l ih => exact fun b => trans (h b a) (ih (f b a))

/-! ## The store and the scratch alone -/

/-- `t` is `s` but for its store and the scratch of the event. -/
def Filed (s t : State) : Prop := ∃ st e, t = { s with store := st, ev := e }

theorem Filed.refl (s : State) : Filed s s := ⟨s.store, s.ev, rfl⟩

theorem Filed.trans {s t u : State} : Filed s t → Filed t u → Filed s u := by
  rintro ⟨st, e, rfl⟩ ⟨st', e', rfl⟩; exact ⟨st', e', rfl⟩

theorem Filed.ite {s t u : State} {p : Prop} [Decidable p] (ht : Filed s t) (hu : Filed s u) :
    Filed s (if p then t else u) := by split <;> assumption

theorem Filed.foldl {α : Type} {f : State → α → State} (h : ∀ s a, Filed s (f s a)) (l : List α) (s : State) :
    Filed s (l.foldl f s) :=
  foldl_keeps Filed Filed.refl Filed.trans f h l s

theorem filed_touch (s : State) (g : Gauge) : Filed s (s.touch g) := by
  obtain ⟨e, h⟩ := touch_eq s g; exact ⟨s.store, e, h⟩

theorem filed_touchLine (s : State) (l : Nat) : Filed s (s.touchLine l) := (filed_touch _ _).trans (filed_touch _ _)

theorem filed_owePick (s : State) (l : Nat) : Filed s (s.owePick l) := ⟨_, _, rfl⟩

theorem filed_setRecord (s : State) (m : Nat) (r : Record) : Filed s (s.setRecord m r) := ⟨_, _, rfl⟩

theorem filed_setStore (s : State) (st : Store) : Filed s { s with store := st } := ⟨_, _, rfl⟩

theorem filed_setPool (s : State) (p : List Nat) : Filed s (s.setPool p) := by
  have h : Filed s { s with store := { s.store with pool := p } } := filed_setStore s _
  exact h.trans (Filed.ite (Filed.refl _) (filed_touch _ _))

theorem filed_freeRecord (s : State) (m : Nat) : Filed s (s.freeRecord m) :=
  Filed.ite (Filed.refl _) (((filed_setPool _ _).trans (filed_setRecord _ _ _)).trans (filed_touch _ _))

theorem filed_complete (s : State) (m : Nat) : Filed s (s.complete m) := by
  unfold State.complete
  exact (filed_setStore s _).trans (Filed.ite (filed_freeRecord _ _) (filed_setRecord _ _ _))

theorem filed_write (s : State) (m : Nat) (σ : Symbol) : Filed s (s.write m σ) := filed_setRecord _ _ _

theorem filed_writeAll (s : State) (m : Nat) (l : List Symbol) : Filed s (s.writeAll m l) :=
  Filed.foldl (fun t σ => filed_write t m σ) l s

theorem filed_rollback (s : State) (m n : Nat) : Filed s (s.rollback m n) := by
  unfold State.rollback
  exact Filed.ite ((filed_setPool _ _).trans (filed_setRecord _ _ _)) (Filed.refl _)

/-- A grant changes the store alone. -/
theorem filed_grantRecord {s t : State} {cls : MsgClass} {k m : Nat} (h : s.grantRecord cls k = some (m, t)) :
    Filed s t := by
  unfold State.grantRecord at h
  split at h
  · cases hr : (s.recordsIn .free).head? with
    | none => simp [hr] at h
    | some n =>
      simp only [hr, Option.map_some, Option.some.injEq, Prod.mk.injEq] at h
      obtain ⟨rfl, rfl⟩ := h
      exact ((filed_setPool _ _).trans (filed_setRecord _ _ _)).trans (filed_touch _ _)
  · cases h

theorem filed_reserve {s t : State} {cls : MsgClass} {n m : Nat} (h : s.reserve cls n = some (m, t)) : Filed s t := by
  unfold State.reserve at h
  split at h
  · exact filed_grantRecord h
  · cases h

theorem filed_grantBlock {s t : State} {m : Nat} (h : s.grantBlock m = some t) : Filed s t := by
  unfold State.grantBlock at h
  dsimp only at h
  split at h
  · simp only [Option.some.injEq] at h; subst h
    exact (filed_setPool _ _).trans (filed_setRecord _ _ _)
  · cases h

theorem filed_setSlot (s : State) (m i : Nat) (x : Slot) : Filed s (s.setSlot m i x) := by
  unfold State.setSlot
  exact Filed.ite (filed_setRecord _ _ _) ((filed_setRecord _ _ _).trans (filed_touch _ _))

theorem filed_setSlotState (s : State) (m i : Nat) (st : SlotState) : Filed s (s.setSlotState m i st) := by
  unfold State.setSlotState
  cases s.slot m i with
  | none => exact Filed.refl s
  | some sl => exact filed_setSlot s m i _

theorem filed_releaseIfDone (s : State) (m : Nat) : Filed s (s.releaseIfDone m) := by
  unfold State.releaseIfDone
  exact Filed.ite (filed_freeRecord _ _) (Filed.refl _)

theorem filed_finishAs (s : State) (m i : Nat) (t : Option Target) : Filed s (s.finishAs m i t) :=
  (filed_setSlotState _ _ _ _).trans (filed_releaseIfDone _ _)

theorem filed_finishSlot (s : State) (m i : Nat) : Filed s (s.finishSlot m i) := filed_finishAs _ _ _ _

theorem filed_holdSlot (s : State) (m i : Nat) (w : HoldReason) : Filed s (s.holdSlot m i w) := by
  unfold State.holdSlot
  split <;> exact filed_setSlotState _ _ _ _

theorem filed_handOffChecks (s : State) (m : Nat) : Filed s (s.handOffChecks m) := by
  unfold State.handOffChecks
  have h : Filed s (if (s.record m).hop = 3 then s.setRecord m ((s.record m).toIntercept .loop) else s) :=
    Filed.ite (filed_setRecord _ _ _) (Filed.refl _)
  exact h.trans (Filed.ite (filed_setRecord _ _ _) (Filed.refl _))

/-! ## Slots placed and reports composed -/

/-- `t` is `s` but for its store, the scratch, the lost-report count and the queues of its dispatch contexts. -/
def Placed (s t : State) : Prop :=
  ∃ st e n cx, t = { s with store := st, ev := e, lost := n, ctx := cx } ∧
    ∀ l, { t.ctxOf l with queue := (s.ctxOf l).queue } = s.ctxOf l

theorem Filed.placed {s t : State} : Filed s t → Placed s t := by
  rintro ⟨st, e, rfl⟩; exact ⟨st, e, s.lost, s.ctx, rfl, fun _ => rfl⟩

theorem Placed.refl (s : State) : Placed s s := (Filed.refl s).placed

theorem Placed.trans {s t u : State} : Placed s t → Placed t u → Placed s u := by
  rintro ⟨st, e, n, cx, rfl, h⟩ ⟨st', e', n', cx', rfl, h'⟩
  refine ⟨st', e', n', cx', rfl, fun l => ?_⟩
  have := h' l
  rw [← h l, ← this]

theorem placed_setEv (s : State) (e : Event) : Placed s { s with ev := e } := ⟨s.store, e, s.lost, s.ctx, rfl, fun _ => rfl⟩

theorem placed_setLost (s : State) (n : Nat) : Placed s { s with lost := n } :=
  ⟨s.store, s.ev, n, s.ctx, rfl, fun _ => rfl⟩

/-- Only the queue of one context changes. -/
theorem placed_setQueue (s : State) (l : Nat) (x : Ctx) (h : { x with queue := (s.ctxOf l).queue } = s.ctxOf l) :
    Placed s (s.setCtx l x) := by
  refine ⟨s.store, s.ev, s.lost, _, rfl, fun k => ?_⟩
  refine ctxOf_setCtx_of (P := fun y => { y with queue := (s.ctxOf k).queue } = s.ctxOf k) s l k x ?_ rfl
  rintro rfl; exact h

theorem placed_placeOwn (s : State) (m i l : Nat) : Placed s (s.placeOwn m i l) := by
  have h₁ := (placed_setQueue s l ((s.ctxOf l).merge m i) rfl).trans
    (filed_setSlotState _ m i (.queued (s.circuit l))).placed
  have h₂ := ((placed_setQueue s l ((s.ctxOf l).enqueue (s.newEntry m i)) rfl).trans
    (filed_setSlotState _ m i (.queued (s.circuit l))).placed).trans (filed_touchLine _ l).placed
  unfold State.placeOwn
  dsimp only
  split
  · exact h₁
  · split
    · exact (filed_holdSlot _ _ _ _).placed
    · split
      · exact h₂.trans (filed_owePick _ _).placed
      · exact h₂

theorem placed_pullQueue (s : State) (l : Nat) : Placed s (s.pullQueue l).1 := by
  have h := (placed_setQueue s l { s.ctxOf l with queue := [] } rfl).trans (filed_touchLine _ l).placed
  unfold State.pullQueue
  dsimp only
  split
  · exact Placed.refl s
  · exact h

/-! ## Resolution, for any relation that holds of placing -/

/-- A relation that resolving slots keeps, once what takes a service slot keeps it. -/
structure Frames (R : State → State → Prop) : Prop where
  trans : ∀ {s t u}, R s t → R t u → R s u
  placed : ∀ {s t}, Placed s t → R s t

theorem Frames.filed {R : State → State → Prop} (F : Frames R) {s t : State} (h : Filed s t) : R s t := F.placed h.placed

theorem Frames.refl {R : State → State → Prop} (F : Frames R) (s : State) : R s s := F.placed (Placed.refl s)

theorem Frames.ite {R : State → State → Prop} {s t u : State} {p : Prop} [Decidable p] (ht : R s t) (hu : R s u) :
    R s (if p then t else u) := by split <;> assumption

theorem Frames.foldl {R : State → State → Prop} (F : Frames R) {α : Type} {f : State → α → State}
    (h : ∀ s a, R s (f s a)) (l : List α) (s : State) : R s (l.foldl f s) :=
  foldl_keeps R F.refl F.trans f h l s

theorem frames_placed : Frames Placed := ⟨Placed.trans, id⟩

section
variable {R : State → State → Prop} (F : Frames R) {svc : ServiceTaker} (hs : ∀ s m i, R s (svc s m i))
include F hs

theorem Frames.place (s : State) (m i : Nat) (t : Option Target) : R s (s.place svc m i t) := by
  match t with
  | none => exact F.filed (filed_holdSlot _ _ _ _)
  | some (.circuit c) => exact Frames.ite (F.placed (placed_placeOwn _ _ _ _)) (F.filed (filed_setSlotState _ _ _ _))
  | some (.service k) => exact Frames.ite (hs _ _ _) (F.filed (filed_setSlotState _ _ _ _))

/-- Resolving a slot (R72). -/
theorem Frames.resolveWith (s : State) (m i : Nat) (named : Option Target) : R s (s.resolveWith svc m i named) :=
  F.place hs _ _ _ _

/-- A hand-off (R68). -/
theorem Frames.handOffWith (s : State) (m : Nat) (named : List (Option Target)) : R s (s.handOffWith svc m named) := by
  unfold State.handOffWith
  split
  · refine F.trans (F.trans (F.filed (filed_handOffChecks s m)) (F.foldl ?_ _ _)) (F.filed (filed_releaseIfDone _ _))
    exact fun t i => Frames.ite (F.resolveWith hs _ _ _ _) (F.refl _)
  · exact F.refl s

end

theorem placed_sendToIntercept (s : State) (m i : Nat) : Placed s (s.sendToIntercept m i) := by
  unfold State.sendToIntercept
  split
  · exact (filed_setSlot _ _ _ _).placed.trans (frames_placed.resolveWith (fun t _ _ => Placed.refl t) _ _ _ _)
  · exact Placed.refl s

theorem placed_reportService (s : State) (m i : Nat) : Placed s (reportService s m i) :=
  (filed_setRecord _ _ _).placed.trans (placed_sendToIntercept _ _ _)

theorem placed_makeReport (s : State) (img : Image) (m : Nat) (text : List Symbol) :
    Placed s (s.makeReport img m text) := by
  unfold State.makeReport
  refine Placed.trans (Filed.placed ?_) (frames_placed.handOffWith placed_reportService _ m [])
  exact ((filed_setRecord s m _).trans (filed_writeAll _ m text)).trans (filed_complete _ m)

/-- A report request (R184) changes nothing but what composing the report, or counting it as lost, changes. -/
theorem placed_request (s : State) (r : Report) : Placed s (s.request r) := by
  unfold State.request
  split
  · exact Placed.refl s
  · split
    · dsimp only
      split
      · exact placed_setLost s _
      · have h₁ := (placed_setEv s { s.ev with inReport := true }).trans (filed_reserve ‹_›).placed
        have h₂ := h₁.trans (placed_setLost _ 0)
        exact (h₂.trans (placed_makeReport _ _ _ _)).trans (placed_setEv _ _)
    · exact Placed.refl s

/-! ## What full resolution leaves -/

/-- What stays as it was when slots are resolved, commands carried out and reports composed: of the map the conditions
and kinds, of the station table all but a growing owed set, of the dispatch contexts all but the queues. -/
structure Resolved (s t : State) : Prop where
  phase : t.phase = s.phase
  restart : t.restart = s.restart
  station : t.station = s.station
  cfg : t.cfg = s.cfg
  cfgCs : t.cfgCs = s.cfgCs
  cfgOut : t.cfgOut = s.cfgOut
  lines : t.lines = s.lines
  mas : t.mas = s.mas
  admin : t.admin = s.admin
  engine : t.engine = s.engine
  offered : t.offered = s.offered
  holdoffDue : t.holdoffDue = s.holdoffDue
  flight : t.flight = s.flight
  timers : t.timers = s.timers
  parting : t.parting = s.parting
  musterPending : t.musterPending = s.musterPending
  streak : t.streak = s.streak
  minute : t.minute = s.minute
  oalm : t.oalm = s.oalm
  pending : t.pending = s.pending
  condition : ∀ c, (t.mapOf c).condition = (s.mapOf c).condition
  kind : ∀ c, (t.mapOf c).kind = (s.mapOf c).kind
  peerMap : ∀ c, s.isOwn c = false → t.mapOf c = s.mapOf c
  peer : ∀ k, { t.peer k with owed := (s.peer k).owed } = s.peer k
  owed : ∀ k c, c ∈ (s.peer k).owed → c ∈ (t.peer k).owed
  notOwed : ∀ k, (s.peer k).presence = .silent ∨ (s.peer k).flag = .clear → t.peer k = s.peer k
  ctx : ∀ l, { t.ctxOf l with queue := (s.ctxOf l).queue } = s.ctxOf l

theorem Placed.resolved {s t : State} : Placed s t → Resolved s t := by
  rintro ⟨st, e, n, cx, rfl, h⟩
  constructor <;> intros <;> first | rfl | assumption | exact h _

theorem Filed.resolved {s t : State} (h : Filed s t) : Resolved s t := h.placed.resolved

theorem Resolved.refl (s : State) : Resolved s s := (Filed.refl s).resolved

theorem Resolved.trans {s t u : State} (a : Resolved s t) (b : Resolved t u) : Resolved s u where
  phase := b.phase.trans a.phase
  restart := b.restart.trans a.restart
  station := b.station.trans a.station
  cfg := b.cfg.trans a.cfg
  cfgCs := b.cfgCs.trans a.cfgCs
  cfgOut := b.cfgOut.trans a.cfgOut
  lines := b.lines.trans a.lines
  mas := b.mas.trans a.mas
  admin := b.admin.trans a.admin
  engine := b.engine.trans a.engine
  offered := b.offered.trans a.offered
  holdoffDue := b.holdoffDue.trans a.holdoffDue
  flight := b.flight.trans a.flight
  timers := b.timers.trans a.timers
  parting := b.parting.trans a.parting
  musterPending := b.musterPending.trans a.musterPending
  streak := b.streak.trans a.streak
  minute := b.minute.trans a.minute
  oalm := b.oalm.trans a.oalm
  pending := b.pending.trans a.pending
  condition c := (b.condition c).trans (a.condition c)
  kind c := (b.kind c).trans (a.kind c)
  peerMap c h := (b.peerMap c (by rw [State.isOwn, a.station]; exact h)).trans (a.peerMap c h)
  peer k := by
    have h := b.peer k
    rw [← a.peer k, ← h]
  owed k c h := b.owed k c (a.owed k c h)
  notOwed k h := (b.notOwed k (by rwa [a.notOwed k h])).trans (a.notOwed k h)
  ctx l := by
    have h := b.ctx l
    rw [← a.ctx l, ← h]

theorem frames_resolved : Frames Resolved := ⟨Resolved.trans, Placed.resolved⟩

/-- Only the levels and the messages kept for their rest change. -/
theorem resolved_of_parts (s : State) (v : Levels) (r : List Rest) : Resolved s { s with levels := v, rests := r } := by
  constructor <;> intros <;> first | rfl | assumption

theorem resolved_setEv (s : State) (e : Event) : Resolved s { s with ev := e } := (placed_setEv s e).resolved

theorem resolved_request (s : State) (r : Report) : Resolved s (s.request r) := (placed_request s r).resolved

theorem resolved_pullQueue (s : State) (l : Nat) : Resolved s (s.pullQueue l).1 := (placed_pullQueue s l).resolved

theorem resolved_sendToIntercept (s : State) (m i : Nat) : Resolved s (s.sendToIntercept m i) :=
  (placed_sendToIntercept s m i).resolved

/-! ## Levels -/

theorem resolved_setLevels (s : State) (v : Levels) : Resolved s { s with levels := v } := resolved_of_parts s v s.rests

theorem evaluateOne_levels (img : Image) (acc : State × List Change) (g : Gauge) :
    ∃ v, (State.evaluateOne img acc g).1 = { acc.1 with levels := v } := by
  unfold State.evaluateOne
  dsimp only
  split
  · exact ⟨_, rfl⟩
  · exact ⟨acc.1.levels, rfl⟩

/-- An evaluation (R176) changes the levels alone. -/
theorem evaluate_levels (s : State) (gs : List Gauge) : ∃ v, (s.evaluate gs).1 = { s with levels := v } := by
  unfold State.evaluate
  split
  · exact ⟨s.levels, rfl⟩
  · refine foldl_keeps (fun (a b : State × List Change) => ∃ v, b.1 = { a.1 with levels := v })
      (fun b => ⟨b.1.levels, rfl⟩) ?_ _ (evaluateOne_levels _) _ (s, [])
    rintro a b c ⟨v, hv⟩ ⟨w, hw⟩
    exact ⟨w, by rw [hw, hv]⟩

/-- The evaluation of a set of gauges with its ALARM report (R177). -/
theorem evaluateGauges_eq (s : State) (gs : List Gauge) : ∃ v, Placed { s with levels := v } (s.evaluateGauges gs) := by
  obtain ⟨v, h⟩ := evaluate_levels s gs
  refine ⟨v, ?_⟩
  unfold State.evaluateGauges
  dsimp only
  rw [← h]
  split
  · exact Placed.refl _
  · exact placed_request _ _

theorem clearOne_levels (acc : State × List Change) (g : Gauge) :
    ∃ v, (State.clearOne acc g).1 = { acc.1 with levels := v } := ⟨_, rfl⟩

theorem clearLevels_levels (s : State) : ∃ v, s.clearLevels.1 = { s with levels := v } := by
  unfold State.clearLevels
  generalize allGauges = gs
  refine foldl_keeps (fun (a b : State × List Change) => ∃ v, b.1 = { a.1 with levels := v })
    (fun b => ⟨b.1.levels, rfl⟩) ?_ _ clearOne_levels gs (s, [])
  rintro a b c ⟨v, hv⟩ ⟨w, hw⟩
  exact ⟨w, by rw [hw, hv]⟩

/-! ## The service unit's commands -/

theorem mem_insertRising (x y : Nat) (l : List Nat) : y ∈ insertRising x l ↔ y = x ∨ y ∈ l := by
  induction l with
  | nil => simp [insertRising]
  | cons z l ih =>
    simp only [insertRising]
    split
    · simp
    · split
      · subst_vars; simp
      · simp [ih]; tauto

/-- Only a growing owed set of one peer changes. -/
theorem resolved_setOwed (s : State) (k : Nat) (p : Peer) (hp : { p with owed := (s.peer k).owed } = s.peer k)
    (ho : ∀ c, c ∈ (s.peer k).owed → c ∈ p.owed)
    (hn : ¬((s.peer k).presence = .silent ∨ (s.peer k).flag = .clear)) : Resolved s (s.setPeer k p) := by
  have h₁ : ∀ j, { (s.setPeer k p).peer j with owed := (s.peer j).owed } = s.peer j := by
    intro j
    refine peer_setPeer_of (P := fun y => { y with owed := (s.peer j).owed } = s.peer j) s k j p ?_ rfl
    rintro rfl; exact hp
  have h₂ : ∀ j c, c ∈ (s.peer j).owed → c ∈ ((s.setPeer k p).peer j).owed := by
    intro j c hc
    refine peer_setPeer_of (P := fun y => c ∈ y.owed) s k j p ?_ hc
    rintro rfl; exact ho c hc
  have h₃ : ∀ j, (s.peer j).presence = .silent ∨ (s.peer j).flag = .clear → (s.setPeer k p).peer j = s.peer j := by
    intro j hj
    refine peer_setPeer_of (P := fun y => y = s.peer j) s k j p ?_ rfl
    rintro rfl; exact absurd hj hn
  constructor <;> intros <;> first | rfl | assumption | exact h₁ _ | exact h₂ _ _ ‹_› | exact h₃ _ ‹_›

theorem resolved_oweTo (s : State) (c k : Nat) : Resolved s (s.oweTo c k) := by
  unfold State.oweTo
  dsimp only
  split
  · rename_i h
    exact resolved_setOwed _ _ _ rfl (fun d hd => (mem_insertRising _ _ _).2 (.inr hd))
      (fun hn => hn.elim h.2.2.1 h.2.2.2)
  · exact Resolved.refl s

theorem resolved_owe (s : State) (c : Nat) : Resolved s (s.owe c) :=
  frames_resolved.foldl (fun t k => resolved_oweTo t c k) _ s

/-- Only the diversion of an own circuit changes. -/
theorem resolved_setDiversionEntry (s : State) (c : Nat) (d : Option Nat) (ho : s.isOwn c = true) :
    Resolved s (s.setMap c { s.mapOf c with diversion := d }) := by
  have h₁ : ∀ j, ((s.setMap c { s.mapOf c with diversion := d }).mapOf j).condition = (s.mapOf j).condition := by
    intro j
    refine mapOf_setMap_of (P := fun y => y.condition = (s.mapOf j).condition) s c j _ ?_ rfl
    rintro rfl; rfl
  have h₂ : ∀ j, ((s.setMap c { s.mapOf c with diversion := d }).mapOf j).kind = (s.mapOf j).kind := by
    intro j
    refine mapOf_setMap_of (P := fun y => y.kind = (s.mapOf j).kind) s c j _ ?_ rfl
    rintro rfl; rfl
  have h₃ : ∀ j, s.isOwn j = false → (s.setMap c { s.mapOf c with diversion := d }).mapOf j = s.mapOf j := by
    intro j hj
    refine mapOf_setMap_of (P := fun y => y = s.mapOf j) s c j _ ?_ rfl
    rintro rfl; rw [ho] at hj; cases hj
  constructor <;> intros <;> first | rfl | assumption | exact h₁ _ | exact h₂ _ | exact h₃ _ ‹_›

theorem resolved_setDiversion (s : State) (c : Nat) (d : Option Nat) (ho : s.isOwn c = true) :
    Resolved s (s.setDiversion c d) :=
  (resolved_setDiversionEntry s c d ho).trans (resolved_owe _ _)

/-- A DIVERT line that gave SET or CLEARED named an own circuit (R171). -/
theorem divertResult_own {s : State} {img : Image} {c : Nat} {d : Option Nat}
    (h : s.divertResult img c d = .diverted ∨ s.divertResult img c d = .divertCleared) : s.isOwn c = true := by
  by_contra ho
  rw [Bool.not_eq_true] at ho
  simp [State.divertResult, ho] at h

theorem resolved_doDivert (s : State) (img : Image) (q : Rest) (n c : Nat) (d : Option Nat) :
    Resolved s (s.doDivert img q n c d).1 := by
  unfold State.doDivert
  dsimp only
  split
  · exact resolved_setDiversion s c d (divertResult_own (.inl ‹_›))
  · exact resolved_setDiversion s c d (divertResult_own (.inr ‹_›))
  · exact Resolved.refl s

theorem resolved_doClear (s : State) (q : Rest) (n : Nat) : Resolved s (s.doClear q n).1 := by
  obtain ⟨v, h⟩ := clearLevels_levels s
  have h' : Resolved s s.clearLevels.1 := by rw [h]; exact resolved_setLevels s v
  unfold State.doClear
  dsimp only
  split
  · exact h'
  · exact h'.trans (resolved_request _ _)

theorem resolved_doCommand (s : State) (img : Image) (q : Rest) (n : Nat) (cmd : Command) :
    Resolved s (s.doCommand img q n cmd).1 := by
  unfold State.doCommand
  split
  · exact Resolved.refl s
  · split
    · exact resolved_request _ _
    · exact resolved_doClear _ _ _
    · exact Resolved.refl s
    · exact Resolved.refl s
    · exact resolved_doDivert _ _ _ _ _ _
    · exact resolved_doDivert _ _ _ _ _ _
    · split <;> exact Resolved.refl s

theorem resolved_doLine (img : Image) (acc : (State × Rest) × Nat) (l : List (Option Meaning)) :
    Resolved acc.1.1 (State.doLine img acc l).1.1 := by
  unfold State.doLine
  dsimp only
  split
  · exact Resolved.refl _
  · split
    · exact resolved_doCommand _ _ _ _ _
    · exact Resolved.refl _

theorem resolved_carryOut (s : State) (img : Image) (m : Nat) : Resolved s (s.carryOut img m) := by
  unfold State.carryOut
  dsimp only
  have h := foldl_keeps (fun (a b : (State × Rest) × Nat) => Resolved a.1.1 b.1.1) (fun b => Resolved.refl _)
    (fun a b => a.trans b) (State.doLine img) (resolved_doLine img)
    (linesFrom [] (meanings img (s.record m).text)) ((s, Rest.of (s.record m)), 1)
  exact h.trans (resolved_of_parts _ _ _)

theorem resolved_refuse (s : State) (m i : Nat) (b : Bool) : Resolved s (s.refuse m i b) := by
  unfold State.refuse
  exact Frames.ite (resolved_sendToIntercept _ _ _) ((resolved_sendToIntercept _ _ _).trans (resolved_request _ _))

/-- The service unit takes a slot (R180). -/
theorem resolved_serviceTake (old : Option Target) (s : State) (m i : Nat) : Resolved s (State.serviceTake old s m i) := by
  unfold State.serviceTake
  split
  · exact Resolved.refl s
  · dsimp only
    refine Frames.ite (filed_finishAs _ _ _ _).resolved (Frames.ite ?_ (Frames.ite ?_ ?_))
    · exact (filed_setRecord _ _ _).resolved.trans (resolved_refuse _ _ _ _)
    · exact (filed_setRecord _ _ _).resolved.trans (resolved_refuse _ _ _ _)
    · exact ((filed_setRecord _ _ _).resolved.trans (resolved_carryOut _ _ _)).trans (filed_finishAs _ _ _ _).resolved

theorem resolved_handOff (s : State) (m : Nat) (named : List (Option Target)) : Resolved s (s.handOff m named) :=
  frames_resolved.handOffWith (resolved_serviceTake none) _ _ _

/-- A re-examination of the held list (R78). -/
theorem resolved_reexamine (s : State) : Resolved s s.reexamine :=
  frames_resolved.foldl
    (fun _ _ => Frames.ite (frames_resolved.resolveWith (resolved_serviceTake _) _ _ _ _) (Resolved.refl _)) _ s

/-- A re-resolution (R76). -/
theorem resolved_reResolve (s : State) (slots : List (Nat × Nat)) : Resolved s (s.reResolve slots) := by
  unfold State.reResolve
  dsimp only
  refine Resolved.trans (frames_resolved.foldl (fun _ _ => (filed_setSlotState _ _ _ _).resolved) _ s) (frames_resolved.foldl ?_ _ _)
  exact fun _ _ => Frames.ite (frames_resolved.resolveWith (resolved_serviceTake _) _ _ _ _) (Resolved.refl _)

end Sys2Proof.Machine
end

