-- ==== Sys2Proof/Laws/Settle.lean ====
section
/-! SUPPORT. What picks and the end of an event leave as it was (`Sent`, `Kept`), and what the end of an event fixes. -/

namespace Sys2Proof.Machine

/-- What picks leave: what the end of an event leaves, the frame engine's own state and the OALM output. -/
structure Sent (s t : State) : Prop extends Kept s t where
  engine : t.engine = s.engine
  offered : t.offered = s.offered
  holdoffDue : t.holdoffDue = s.holdoffDue
  flight : t.flight = s.flight
  timers : t.timers = s.timers
  parting : t.parting = s.parting
  oalm : t.oalm = s.oalm

theorem Kept.trans {s t u : State} (a : Kept s t) (b : Kept t u) : Kept s u where
  phase := b.phase.trans a.phase
  restart := b.restart.trans a.restart
  station := b.station.trans a.station
  cfg := b.cfg.trans a.cfg
  cfgCs := b.cfgCs.trans a.cfgCs
  cfgOut := b.cfgOut.trans a.cfgOut
  mas := b.mas.trans a.mas
  admin := b.admin.trans a.admin
  map := b.map.trans a.map
  peers := b.peers.trans a.peers
  musterPending := b.musterPending.trans a.musterPending
  streak := b.streak.trans a.streak
  minute := b.minute.trans a.minute
  rests := b.rests.trans a.rests
  pending := b.pending.trans a.pending
  receive l := (b.receive l).trans (a.receive l)

theorem Sent.trans {s t u : State} (a : Sent s t) (b : Sent t u) : Sent s u :=
  { a.toKept.trans b.toKept with
    engine := b.engine.trans a.engine
    offered := b.offered.trans a.offered
    holdoffDue := b.holdoffDue.trans a.holdoffDue
    flight := b.flight.trans a.flight
    timers := b.timers.trans a.timers
    parting := b.parting.trans a.parting
    oalm := b.oalm.trans a.oalm }

/-- The store, the scratch, the levels, the lost-report count and the contexts change at most. -/
theorem sent_of_parts (s : State) (st : Store) (e : Event) (v : Levels) (n : Nat) (cx : Vector Ctx 8) :
    Sent s { s with store := st, ev := e, levels := v, lost := n, ctx := cx } := by
  constructor
  · constructor <;> intros <;> rfl
  all_goals rfl

theorem Placed.sent {s t : State} : Placed s t → Sent s t := by
  rintro ⟨st, e, n, cx, rfl, -⟩
  exact sent_of_parts s st e s.levels n cx

theorem Sent.refl (s : State) : Sent s s := (Placed.refl s).sent

theorem Kept.refl (s : State) : Kept s s := (Sent.refl s).toKept

theorem frames_sent : Frames Sent := ⟨Sent.trans, Placed.sent⟩

/-- The frame engine's own state, the OALM output and the scratch change at most. -/
theorem kept_of_engine (s : State) (e : Engine) (o : Option Offer) (d : Bool) (f : Option Flight) (t : HwTimers)
    (p : Parting) (a : Bool) (v : Event) :
    Kept s { s with engine := e, offered := o, holdoffDue := d, flight := f, timers := t, parting := p, oalm := a, ev := v } := by
  constructor <;> intros <;> rfl

theorem sent_setLevels (s : State) (v : Levels) : Sent s { s with levels := v } :=
  sent_of_parts s s.store s.ev v s.lost s.ctx

theorem sent_evaluateGauges (s : State) (gs : List Gauge) : Sent s (s.evaluateGauges gs) := by
  obtain ⟨v, h⟩ := evaluateGauges_eq s gs
  exact (sent_setLevels s v).trans h.sent

/-- Only a dispatch context changes. -/
theorem sent_setCtx (s : State) (l : Nat) (x : Ctx) : Sent s (s.setCtx l x) :=
  sent_of_parts s s.store s.ev s.levels s.lost _

/-! ## The sender of a line -/

@[simp] theorem Line.key_receiveSide (img : Image) (x : Line) (c : Code) : (x.key img c).receiveSide = x.receiveSide := rfl

@[simp] theorem Line.begin_receiveSide (img : Image) (x : Line) (it : Item) :
    (x.begin img it).receiveSide = x.receiveSide := by
  unfold Line.begin; split <;> rfl

@[simp] theorem Line.offer_receiveSide (img : Image) (x : Line) (it : Item) :
    (x.offer img it).receiveSide = x.receiveSide := by
  unfold Line.offer; split <;> first | rfl | exact Line.begin_receiveSide img x it

@[simp] theorem Line.rest_receiveSide (x : Line) : x.rest.receiveSide = x.receiveSide := rfl

@[simp] theorem Line.abandon_receiveSide (x : Line) : x.abandon.receiveSide = x.receiveSide := by
  unfold Line.abandon; split <;> rfl

/-- Only the send side of a line changes. -/
theorem sent_setLine (s : State) (l : Nat) (x : Line) (h : x.receiveSide = (s.line l).receiveSide) :
    Sent s (s.setLine l x) := by
  have hr : ∀ k, ((s.setLine l x).line k).receiveSide = (s.line k).receiveSide := by
    intro k
    refine line_setLine_of (P := fun y => y.receiveSide = (s.line k).receiveSide) s l k x ?_ rfl
    rintro rfl; exact h
  constructor
  · constructor <;> intros <;> first | rfl | exact hr _
  all_goals rfl

theorem sent_offer (s : State) (l : Nat) (it : Item) : Sent s (s.offer l it) := by
  unfold State.offer
  split
  · split
    · exact sent_setLine _ _ _ (Line.offer_receiveSide _ _ _)
    · exact Sent.refl s
  · exact Sent.refl s

theorem sent_beginFraming (s : State) (l : Nat) (x : Ctx) (d : SendState) (items : List Item) :
    Sent s (s.beginFraming l x d items) := by
  unfold State.beginFraming
  dsimp only
  split
  · exact (sent_setCtx s l _).trans (sent_offer _ _ _)
  · exact sent_setCtx s l _

theorem sent_startHead (s : State) (img : Image) (l : Nat) (e : Entry) (r : List Entry) :
    Sent s (s.startHead img l e r) := sent_beginFraming _ _ _ _ _

theorem sent_resumeTop (s : State) (img : Image) (l : Nat) (e : Entry) (r : List Entry) :
    Sent s (s.resumeTop img l e r) := by
  unfold State.resumeTop
  exact sent_beginFraming _ _ _ _ _

/-- The pick rule (R101) changes one context and the send side of its line. -/
theorem sent_pick (s : State) (l : Nat) : Sent s (s.pick l) := by
  unfold State.pick
  split
  · exact Sent.refl s
  · dsimp only
    split
    · exact sent_setCtx _ _ _
    · split
      · exact sent_startHead _ _ _ _ _
      · exact sent_setCtx _ _ _
    · split
      · exact sent_resumeTop _ _ _ _ _
      · exact sent_setCtx _ _ _
    · split
      · exact sent_startHead _ _ _ _ _
      · split
        · exact sent_resumeTop _ _ _ _ _
        · exact sent_setCtx _ _ _

theorem sent_pickIfIdle (s : State) (l : Nat) : Sent s (s.pickIfIdle l) := by
  unfold State.pickIfIdle
  split
  · exact sent_pick s l
  · exact Sent.refl s

theorem sent_setEv (s : State) (e : Event) : Sent s { s with ev := e } := (placed_setEv s e).sent

theorem sent_takePicks (s : State) : Sent s s.takePicks := by
  unfold State.takePicks
  refine Sent.trans (sent_setEv s { s.ev with picks := [] }) (frames_sent.foldl ?_ _ _)
  intro t l
  split
  · exact sent_pickIfIdle t l
  · exact Sent.refl t

/-! ## The end of an event -/

theorem sent_settleReports (n : Nat) : ∀ s, Sent s (State.settleReports n s) := by
  induction n with
  | zero => exact Sent.refl
  | succ n ih =>
    intro s
    unfold State.settleReports
    split
    · exact Sent.refl s
    · have h := (sent_setEv s { s.ev with own := [], rep := [] }).trans
        (sent_evaluateGauges _ (s.ev.own ++ s.ev.rep))
      exact (h.trans (sent_takePicks _)).trans (ih _)

theorem sent_settle (s : State) : Sent s s.settle := by
  have h := (sent_setEv s { s.ev with own := [] }).trans (sent_evaluateGauges _ s.ev.own)
  exact (h.trans (sent_takePicks _)).trans (sent_settleReports 64 _)

theorem kept_abandonedOutcome (s : State) (p : Parting) (r : Bool) : Kept s (s.abandonedOutcome p r) :=
  kept_of_engine s .idle none false none (.outside r) p s.oalm s.ev

theorem markCut_of_flight (s : State) : ∃ f, s.markCut = { s with flight := f } := by
  unfold State.markCut
  split
  · exact ⟨_, rfl⟩
  · exact ⟨_, rfl⟩

/-- The mark of a frame to be cut changes that mark alone (R144). -/
theorem markCut_flight (s : State) :
    s.markCut.flight = s.flight.map fun f => { f with cutting := f.cutting || s.cutDue } := by
  unfold State.markCut
  split
  · rename_i h; simp [h]
  · rename_i h; simp [h]

theorem kept_markCut (s : State) : Kept s s.markCut := by
  obtain ⟨f, h⟩ := markCut_of_flight s
  rw [h]
  exact kept_of_engine s s.engine s.offered s.holdoffDue f s.timers s.parting s.oalm s.ev

theorem kept_build (s : State) : Kept s s.build := by
  unfold State.build
  split
  · dsimp only
    split
    all_goals exact kept_of_engine s _ _ s.holdoffDue s.flight s.timers s.parting s.oalm s.ev
  · exact Kept.refl s

theorem kept_driveOalm (s : State) : Kept s s.driveOalm :=
  kept_of_engine s s.engine s.offered s.holdoffDue s.flight s.timers s.parting s.oalmInput s.ev

/-- The end of an event (`State.finish`) keeps all that `Kept` names. -/
theorem kept_finish (s : State) : Kept s s.finish := by
  have h := ((sent_settle s).toKept.trans (kept_markCut _)).trans (kept_build s.settle.markCut)
  unfold State.finish
  exact (h.trans (sent_setEv _ _).toKept).trans (kept_driveOalm _)

theorem driveOalm_oalm (s : State) : s.driveOalm.oalm = s.driveOalm.oalmInput := rfl

/-- OALM follows its inputs at the end of an event (R178). -/
theorem finish_oalm (s : State) : s.finish.oalm = s.finish.oalmInput := by
  unfold State.finish; exact driveOalm_oalm _

/-- Nothing is left under way at the end of an event. -/
theorem finish_ev (s : State) : s.finish.ev = Event.none := by
  unfold State.finish State.driveOalm; rfl

/-! ## The frame engine at the end of an event -/

theorem markCut_of_not_sending {s : State} (h₁ : s.engine ≠ .contending) (h₂ : s.engine ≠ .sending) :
    s.markCut = s := by
  simp [State.markCut, State.cutDue, h₁, h₂]

theorem markCut_engine (s : State) : s.markCut.engine = s.engine := by
  obtain ⟨f, h⟩ := markCut_of_flight s
  rw [h]

theorem markCut_running (s : State) : s.markCut.running = s.running := by
  obtain ⟨f, h⟩ := markCut_of_flight s
  rw [h]; rfl

/-- Only the offer, and with it whether a resting engine waits, changes when the builder chooses (R141). -/
theorem build_flight (s : State) : s.build.flight = s.flight := by
  unfold State.build
  split
  · dsimp only; split <;> rfl
  · rfl

theorem build_timers (s : State) : s.build.timers = s.timers := by
  unfold State.build
  split
  · dsimp only; split <;> rfl
  · rfl

theorem build_parting (s : State) : s.build.parting = s.parting := by
  unfold State.build
  split
  · dsimp only; split <;> rfl
  · rfl

theorem build_engine_of_busy {s : State} (h₁ : s.engine ≠ .idle) (h₂ : s.engine ≠ .waitingIdle) :
    s.build.engine = s.engine := by
  unfold State.build
  split
  · dsimp only; split <;> first | contradiction | simp_all
  · rfl

/-- A resting engine rests after the builder's choice, waiting exactly when a frame is offered (R123). -/
theorem build_engine_of_resting {s : State} (hp : s.running = true) (h : s.engine = .idle ∨ s.engine = .waitingIdle) :
    s.build.engine = if s.build.offered.isSome then Engine.waitingIdle else Engine.idle := by
  rcases h with h | h <;> simp [State.build, hp, State.renews, h, State.restEngine]

theorem finish_engine_of_busy {s : State} (h₁ : s.engine ≠ .idle) (h₂ : s.engine ≠ .waitingIdle) :
    s.finish.engine = s.engine := by
  have e : s.settle.markCut.engine = s.engine := (markCut_engine _).trans (sent_settle s).engine
  change s.settle.markCut.build.engine = s.engine
  rw [build_engine_of_busy (by rwa [e]) (by rwa [e]), e]

theorem finish_flight {s : State} (h₁ : s.engine ≠ .contending) (h₂ : s.engine ≠ .sending) :
    s.finish.flight = s.flight := by
  have e := (sent_settle s).engine
  change s.settle.markCut.build.flight = s.flight
  rw [markCut_of_not_sending (by rwa [e]) (by rwa [e]), build_flight, (sent_settle s).flight]

/-- The end of an event marks a frame to be cut, and leaves it otherwise as it is (R144). -/
theorem finish_flight_eq (s : State) :
    s.finish.flight = s.flight.map fun f => { f with cutting := f.cutting || s.settle.cutDue } := by
  change s.settle.markCut.build.flight = _
  rw [build_flight, markCut_flight, (sent_settle s).flight]

theorem finish_timers (s : State) : s.finish.timers = s.timers := by
  obtain ⟨f, h⟩ := markCut_of_flight s.settle
  change s.settle.markCut.build.timers = s.timers
  rw [build_timers, h]
  exact (sent_settle s).timers

theorem finish_parting (s : State) : s.finish.parting = s.parting := by
  obtain ⟨f, h⟩ := markCut_of_flight s.settle
  change s.settle.markCut.build.parting = s.parting
  rw [build_parting, h]
  exact (sent_settle s).parting

theorem finish_engine_of_resting {s : State} (hp : s.running = true)
    (h : s.engine = .idle ∨ s.engine = .waitingIdle) :
    s.finish.engine = if s.finish.offered.isSome then Engine.waitingIdle else Engine.idle := by
  have e : s.settle.markCut.engine = s.engine := (markCut_engine _).trans (sent_settle s).engine
  have p : s.settle.markCut.running = true := by
    rw [markCut_running, State.running, (sent_settle s).phase]; exact hp
  change s.settle.markCut.build.engine = if s.settle.markCut.build.offered.isSome then _ else _
  exact build_engine_of_resting p (by rwa [e])

/-! ## The end of an event that left nothing under way -/

theorem evaluateGauges_nil (s : State) : s.evaluateGauges [] = s := by
  have h : s.evaluate [] = (s, []) := by
    unfold State.evaluate
    split
    · rfl
    · simp
  simp [State.evaluateGauges, h]

theorem takePicks_of_none {s : State} (h : s.ev.picks = []) : s.takePicks = { s with ev := { s.ev with picks := [] } } := by
  simp [State.takePicks, h]

/-- Nothing is owed by an event that left no mark. -/
theorem settle_of_quiet {s : State} (h : s.ev = Event.none) : s.settle = s := by
  have e : ({ s with ev := { s.ev with own := [] } } : State) = s := by rw [h]; cases s; cases h; rfl
  unfold State.settle
  rw [e, show s.ev.own = [] by rw [h]; rfl, evaluateGauges_nil, takePicks_of_none (by rw [h]; rfl)]
  have e' : ({ s with ev := { s.ev with picks := [] } } : State) = s := by rw [h]; cases s; cases h; rfl
  rw [e', State.settleReports]
  simp [h, Event.none]

/-- The end of such an event changes the frame engine's own state and OALM at most. -/
theorem finish_of_quiet {s : State} (h : s.ev = Event.none) :
    ∃ e o f a, s.finish = { s with engine := e, offered := o, flight := f, oalm := a } := by
  have h₂ : ∀ t : State, ∃ e o, t.build = { t with engine := e, offered := o } := by
    intro t
    unfold State.build
    split
    · dsimp only
      split <;> exact ⟨_, _, rfl⟩
    · exact ⟨_, _, rfl⟩
  obtain ⟨f, h₁⟩ := markCut_of_flight s
  obtain ⟨e', o', h₂⟩ := h₂ s.markCut
  refine ⟨e', o', f, s.finish.oalm, ?_⟩
  conv_lhs => unfold State.finish State.driveOalm
  have ho : s.finish.oalm = ({ s.settle.markCut.build with ev := Event.none } : State).oalmInput := rfl
  rw [← ho, settle_of_quiet h, h₂, h₁, ← h]

/-! ## A frame cut (R144) -/

/-- The cut of a frame takes it off the wire with a stop condition to be made, and changes no count (R144, R149). -/
theorem kept_cutFrame (s : State) : Kept s s.cutFrame :=
  (kept_of_engine s .idle none false none .low ⟨true, false⟩ s.oalm s.ev).trans (kept_finish _)

theorem cutFrame_flight (s : State) : s.cutFrame.flight = none :=
  (finish_flight (by simp [State.abandonedOutcome, State.ownFrameOver]) (by simp [State.abandonedOutcome, State.ownFrameOver])).trans rfl

theorem cutFrame_timers (s : State) : s.cutFrame.timers = .low := (finish_timers _).trans rfl

theorem cutFrame_parting (s : State) : s.cutFrame.parting = ⟨true, false⟩ := (finish_parting _).trans rfl

theorem cutFrame_engine {s : State} (h : s.running = true) :
    s.cutFrame.engine = if s.cutFrame.offered.isSome then Engine.waitingIdle else Engine.idle :=
  finish_engine_of_resting h (.inl rfl)

/-- The rising edge of the stop condition after the cut: the idle run begins, HD held for a half-bit more where it reads
pulled. -/
theorem cutFrame_clockRises {s : State} (h : s.running = true) (hd : Bool) :
    s.cutFrame.clockRises hd = { s.cutFrame with timers := .outside true, parting := ⟨false, !hd⟩ } := by
  have e := cutFrame_engine h
  have p := cutFrame_parting s
  unfold State.clockRises
  split <;> rename_i h' <;> first | (rw [p, Bool.or_true]; rfl) | (rw [h'] at e; split at e <;> exact absurd e (by decide))

/-- A sample of a frame whose next falling edge cuts it presupposes that edge (R144). -/
theorem sample_of_cutsNext {s : State} {f : Flight} (hf : s.flight = some f) (h : s.cutsNext f = true) (hd : Bool) :
    s.sample hd = s.cutFrame.clockRises hd := by
  have e : s.engine = .contending ∨ s.engine = .sending := by
    simp only [State.cutsNext, State.cuts, Bool.and_eq_true, Bool.or_eq_true, decide_eq_true_eq] at h
    exact h.1.2
  rcases e with e | e <;> simp [State.sample, hf, e, h]

/-- Reading the symbol of the cell about to begin changes that symbol alone, and reads it from the record's text unless the
frame is to be cut (R143, R144). -/
theorem readsSymbol_spec (s : State) (f : Flight) :
    ∃ b, s.readsSymbol f = { f with symbol := b } ∧ (f.cutting = true → b = f.symbol) ∧
      ∀ addr m listed cells σ, f.own = some (.carry addr m listed, cells) → f.cutting = false → cells.length ≤ f.cell →
        (s.record m).text[f.cell - cells.length]? = some σ → b = σ.cell := by
  unfold State.readsSymbol
  split
  · rename_i p ho
    split
    · rename_i h
      refine ⟨f.symbol, rfl, fun _ => rfl, ?_⟩
      rintro addr m listed cells σ h₁ h₂ h₃ -
      cases ho.symm.trans h₁
      rcases h with h | h
      · rw [h₂] at h; contradiction
      · exact absurd h₃ (Nat.not_le.mpr h)
    · rename_i h
      refine ⟨_, rfl, fun c => absurd (.inl c) h, ?_⟩
      rintro addr m listed cells σ h₁ h₂ h₃ h₄
      cases ho.symm.trans h₁
      simp [State.frameText, h₄]
  · rename_i ho
    refine ⟨f.symbol, rfl, fun _ => rfl, ?_⟩
    rintro addr m listed cells σ h₁
    rw [ho] at h₁; contradiction

end Sys2Proof.Machine
end

