-- ==== Sys2Proof/Laws/Restarts.lean ====
section
/-! SUPPORT. What the state reads as after reset, after a loss of state (R191) and while a load runs. -/

namespace Sys2Proof.Machine

/-! ## Tables at their reset values -/

theorem fresh_pool : Store.fresh.pool = List.range 1024 := by simp only [Store.fresh]

theorem fresh_records : Store.fresh.records = Vector.replicate 128 Record.empty := by simp only [Store.fresh]

theorem reset_store : State.reset.store = Store.fresh := by simp only [State.reset]

theorem reset_record (m : Nat) : State.reset.record m = Record.empty := by
  unfold State.record
  rw [reset_store, fresh_records]
  by_cases h : m < 128
  · exact entryAt_replicate _ _ _ h
  · simp [entryAt, h]

theorem reset_ctxOf (l : Nat) : State.reset.ctxOf l = Ctx.fresh := by
  by_cases h : l < 8
  · exact entryAt_replicate _ _ _ h
  · simp [State.ctxOf, entryAt, State.reset, h]

theorem reset_masOf (l : Nat) : State.reset.masOf l = Mas.fresh none := by
  by_cases h : l < 8
  · exact entryAt_replicate _ _ _ h
  · simp [State.masOf, entryAt, State.reset, h]

theorem mapUnconfigured_at (k c : Nat) (h : c < 128) :
    entryAt (mapUnconfigured k) MapEntry.unlearned c = if c / 8 = k then .unfitted else .unlearned := by
  unfold mapUnconfigured; exact entryAt_ofFn _ _ _ h

theorem peersFresh_at (k j : Nat) (f : ConfFlag) (e : Option Nat) (h : j < 16) :
    entryAt (peersFresh k f e) Peer.fresh j = if j = k then Peer.self f e else Peer.fresh := by
  unfold peersFresh; exact entryAt_ofFn _ _ _ h

/-! ## Loss of state -/

/-- A line after a loss of state: its pin's level is all that stays (R191). -/
theorem line_blockLoss (s : State) (l : Nat) (h : l < 8) :
    s.blockLoss.line l = Line.fresh (s.line l).rxd .ready false :=
  entryAt_ofFn (fun k : Fin 8 => Line.fresh (s.line k.val).rxd .ready false) _ l h

theorem rxd_blockLoss (s : State) (l : Nat) (h : l < 8) : (s.blockLoss.line l).rxd = (s.line l).rxd := by
  rw [line_blockLoss s l h]; rfl

/-- After a loss of state no block holds anything, whatever the phase, the restart record, the station number and the
configuration pins are. -/
theorem nothingHeld_blockLoss (s : State) (p : Phase) (r : RestartRecord) (k : Nat) (cs : Bool) (out : List Bool) :
    NothingHeld { s.blockLoss with phase := p, restart := r, station := k, cfgCs := cs, cfgOut := out } where
  cfg := rfl
  lines l h := by
    have e : ({ s.blockLoss with phase := p, restart := r, station := k, cfgCs := cs, cfgOut := out } : State).line l =
      Line.fresh (s.line l).rxd .ready false := line_blockLoss s l h
    rw [e]; rfl
  mas l h := entryAt_replicate _ _ _ h
  store := reset_store
  admin l h := entryAt_replicate _ _ _ h
  map c := by
    change entryAt (mapUnconfigured 0) MapEntry.unlearned c = _ ∨ entryAt (mapUnconfigured 0) MapEntry.unlearned c = _
    by_cases h : c < 128
    · rw [mapUnconfigured_at 0 c h]; split <;> simp
    · left; simp [entryAt, h]
  ctx l h := entryAt_replicate _ _ _ h
  engine := rfl
  offered := rfl
  holdoffDue := rfl
  flight := rfl
  timers := rfl
  parting := rfl
  peers j := by
    change entryAt (peersFresh 0 .clear none) Peer.fresh j = _ ∨ entryAt (peersFresh 0 .clear none) Peer.fresh j = _
    by_cases h : j < 16
    · rw [peersFresh_at _ _ _ _ h]; split <;> simp
    · left; simp [entryAt, h]
  musterPending := rfl
  streak := rfl
  levels := rfl
  lost := rfl
  minute := rfl
  rests := rfl
  oalm := rfl
  ev := rfl

/-! ## The lines and tables at the end of a load -/

theorem line_restartLines (s : State) (l : Nat) (h : l < 8) :
    s.restartLines.line l = Line.restarted (s.line l).rxd (s.kind l).receives (s.watches l) :=
  entryAt_ofFn (fun k : Fin 8 => Line.restarted (s.line k.val).rxd (s.kind k.val).receives (s.watches k.val)) _ l h

theorem mapOf_restartMap (s : State) (c : Nat) (h : c < 128) :
    s.restartMap.mapOf c =
      if s.isOwn c then
        ⟨deriveCondition (s.kind (lineOf c)) (s.adminOf (lineOf c)) .marking, s.kind (lineOf c), (s.mapOf c).diversion⟩
      else MapEntry.unlearned :=
  entryAt_ofFn (fun k : Fin 128 => if s.isOwn k.val then
    (⟨deriveCondition (s.kind (lineOf k.val)) (s.adminOf (lineOf k.val)) .marking, s.kind (lineOf k.val),
      (s.mapOf k.val).diversion⟩ : MapEntry) else MapEntry.unlearned) _ c h

end Sys2Proof.Machine
end

