-- ==== Sys2Proof/Laws/Built.lean ====
section
/-! SUPPORT. What any command can do to the text store, the dispatch contexts and the assemblers, said once: `Built s t`
says that `t` comes from `s` by the store's own operations, by writing fields of a record that keep its state and chain,
and by changes of contexts and assemblers that keep queues ordered and stacks bounded. Every step is `Built`
(`built_step`), so an invariant of the store or the tables needs only the few cases of `Built`. -/

namespace Sys2Proof.Machine

/-! ## The relation -/

/-- No entry stands behind one that it precedes (R87). -/
def Ordered (q : List Entry) : Prop := q.Pairwise fun a b => b.before a = false

/-- A change of a dispatch context that keeps its queue ordered and its stack bounded. -/
structure CtxStep (x y : Ctx) : Prop where
  ordered : Ordered x.queue → Ordered y.queue
  bounded : x.stack.length ≤ Config.stackLimit → y.stack.length ≤ Config.stackLimit

/-- A change of an assembler that keeps its receive stack bounded. -/
def MasStep (x y : Mas) : Prop := x.rstack.length ≤ Config.stackLimit → y.rstack.length ≤ Config.stackLimit

/-- How the store, the contexts and the assemblers change. All else is free. -/
inductive Built : State → State → Prop where
  | trans {s t u : State} : Built s t → Built t u → Built s u
  | tables {s t : State} : t.store = s.store → (∀ l, CtxStep (s.ctxOf l) (t.ctxOf l)) →
      (∀ l, MasStep (s.masOf l) (t.masOf l)) → Built s t
  | fields (s : State) (m : Nat) (r : Record) : r.chain = (s.record m).chain → r.state = (s.record m).state →
      Built s (s.setRecord m r)
  | free (s : State) (m : Nat) : Built s (s.freeRecord m)
  | complete (s : State) (m : Nat) : Built s (s.complete m)
  | grantRecord {s t : State} {cls : MsgClass} {k m : Nat} : s.grantRecord cls k = some (m, t) → Built s t
  | grantBlock {s t : State} {m : Nat} : s.grantBlock m = some t → Built s t
  | rollback (s : State) (m n : Nat) : Built s (s.rollback m n)
  | fresh {s t : State} : t.store = Store.fresh → (∀ l, t.ctxOf l = Ctx.fresh) → (∀ l, (t.masOf l).rstack = []) →
      Built s t

theorem CtxStep.refl (x : Ctx) : CtxStep x x := ⟨id, id⟩

theorem MasStep.refl (x : Mas) : MasStep x x := id

/-- A change that touches neither the store nor the contexts nor the assemblers. -/
theorem Built.other {s t : State} (h₁ : t.store = s.store) (h₂ : t.ctx = s.ctx) (h₃ : t.mas = s.mas) : Built s t :=
  .tables h₁ (fun l => by rw [State.ctxOf, State.ctxOf, h₂]; exact .refl _)
    (fun l => by rw [State.masOf, State.masOf, h₃]; exact .refl _)

theorem Built.refl (s : State) : Built s s := .other rfl rfl rfl

theorem Built.ite {s t u : State} {p : Prop} [Decidable p] (ht : Built s t) (hu : Built s u) :
    Built s (if p then t else u) := by split <;> assumption

theorem Built.foldl {α : Type} {f : State → α → State} (h : ∀ s a, Built s (f s a)) (l : List α) (s : State) :
    Built s (l.foldl f s) :=
  foldl_keeps Built Built.refl Built.trans f h l s

theorem Built.ctx (s : State) (l : Nat) (x : Ctx) (h : CtxStep (s.ctxOf l) x) : Built s (s.setCtx l x) :=
  .tables rfl (fun k => ctxOf_setCtx_of (P := CtxStep (s.ctxOf k)) s l k x (by rintro rfl; exact h) (.refl _))
    (fun _ => .refl _)

theorem Built.mas (s : State) (l : Nat) (x : Mas) (h : MasStep (s.masOf l) x) : Built s (s.setMas l x) :=
  .tables rfl (fun _ => .refl _)
    (fun k => masOf_setMas_of (P := MasStep (s.masOf k)) s l k x (by rintro rfl; exact h) (.refl _))

/-- An assembler written with the receive stack it had. -/
theorem Built.sameStack (s : State) (l : Nat) (x : Mas) (h : x.rstack = (s.masOf l).rstack) : Built s (s.setMas l x) :=
  .mas s l x (fun k => by rw [h]; exact k)

/-- A context written with the queue and the stack it had. -/
theorem Built.sameQueue (s : State) (l : Nat) (x : Ctx) (hq : x.queue = (s.ctxOf l).queue)
    (hs : x.stack = (s.ctxOf l).stack) : Built s (s.setCtx l x) :=
  .ctx s l x ⟨fun k => by rw [hq]; exact k, fun k => by rw [hs]; exact k⟩

/-- An assembler then written with the receive stack it had. -/
theorem Built.thenMas {s t : State} (h : Built s t) {l : Nat} {x : Mas} (e : x.rstack = (t.masOf l).rstack) :
    Built s (t.setMas l x) := h.trans (.sameStack t l x e)

/-- Fields of a record then written. -/
theorem Built.thenFields {s t : State} (h : Built s t) {m : Nat} {r : Record} (hc : r.chain = (t.record m).chain)
    (hs : r.state = (t.record m).state) : Built s (t.setRecord m r) := h.trans (.fields t m r hc hs)

theorem built_touch (s : State) (g : Gauge) : Built s (s.touch g) := .other (by simp) (by simp) (by simp)

theorem built_touchLine (s : State) (l : Nat) : Built s (s.touchLine l) := (built_touch _ _).trans (built_touch _ _)

theorem built_owePick (s : State) (l : Nat) : Built s (s.owePick l) := .other rfl rfl rfl

theorem built_setLine (s : State) (l : Nat) (x : Line) : Built s (s.setLine l x) := .other rfl rfl rfl

theorem built_setPeer (s : State) (k : Nat) (x : Peer) : Built s (s.setPeer k x) := .other rfl rfl rfl

theorem built_setMap (s : State) (c : Nat) (x : MapEntry) : Built s (s.setMap c x) := .other rfl rfl rfl

theorem built_setAdmin (s : State) (l : Nat) (x : Admin) : Built s (s.setAdmin l x) := .other rfl rfl rfl

theorem built_setFlight (s : State) (f : Flight) : Built s (s.setFlight f) := .other rfl rfl rfl

/-! ## Queues -/

theorem before_trans {a b c : Entry} (h₁ : a.before b = true) (h₂ : b.before c = true) : a.before c = true := by
  simp only [Entry.before, precedes, Bool.or_eq_true, Bool.and_eq_true, decide_eq_true_eq] at *
  omega

theorem before_asymm {a b : Entry} (h : a.before b = true) : b.before a = false := by
  rw [← Bool.not_eq_true]
  intro k
  simp only [Entry.before, precedes, Bool.or_eq_true, Bool.and_eq_true, decide_eq_true_eq] at *
  omega

theorem mem_insertBy {α : Type} (before : α → α → Bool) (x y : α) (l : List α) :
    y ∈ insertBy before x l ↔ y = x ∨ y ∈ l := by
  induction l with
  | nil => simp [insertBy]
  | cons z l ih =>
    simp only [insertBy]
    split
    · simp
    · simp only [List.mem_cons, ih]; tauto

/-- An entry put in its place keeps the queue ordered (R87). -/
theorem Ordered.insert {q : List Entry} (h : Ordered q) (e : Entry) : Ordered (insertBy Entry.before e q) := by
  induction q with
  | nil => exact List.pairwise_singleton _ _
  | cons a q ih =>
    obtain ⟨h₁, h₂⟩ := List.pairwise_cons.1 h
    unfold insertBy
    split
    · rename_i hb
      refine List.pairwise_cons.2 ⟨fun b hb' => ?_, h⟩
      rcases List.mem_cons.1 hb' with rfl | hb'
      · exact before_asymm hb
      · rw [← Bool.not_eq_true]
        intro k
        have := h₁ b hb'
        rw [before_trans k hb] at this
        cases this
    · rename_i hb
      refine List.pairwise_cons.2 ⟨fun b hb' => ?_, ih h₂⟩
      rcases (mem_insertBy _ _ _ _).1 hb' with rfl | hb'
      · rwa [Bool.not_eq_true] at hb
      · exact h₁ b hb'

theorem Ordered.tail {e : Entry} {q : List Entry} (h : Ordered (e :: q)) : Ordered q := (List.pairwise_cons.1 h).2

/-- Entries written with the record, class and stamp they had stay ordered. -/
theorem Ordered.map {q : List Entry} (f : Entry → Entry) (h : Ordered q)
    (hf : ∀ a b, (f b).before (f a) = b.before a) : Ordered (q.map f) := by
  refine List.Pairwise.map f (fun a b hab => ?_) h
  rw [hf]; exact hab

theorem ctxStep_merge (x : Ctx) (m i : Nat) : CtxStep x (x.merge m i) := by
  refine ⟨fun h => ?_, id⟩
  refine h.map _ fun a b => ?_
  have k : ∀ e : Entry, (if e.record = m then { e with slots := insertRising i e.slots } else e).cls = e.cls ∧
      (if e.record = m then { e with slots := insertRising i e.slots } else e).stamp = e.stamp ∧
      (if e.record = m then { e with slots := insertRising i e.slots } else e).record = e.record := by
    intro e; split <;> exact ⟨rfl, rfl, rfl⟩
  simp only [Entry.before, k]

theorem ctxStep_enqueue (x : Ctx) (e : Entry) : CtxStep x (x.enqueue e) := ⟨fun h => h.insert e, id⟩

/-! ## The store -/

theorem built_toIntercept (s : State) (m : Nat) (w : IntReason) : Built s (s.setRecord m ((s.record m).toIntercept w)) :=
  .fields s m _ rfl rfl

theorem built_write (s : State) (m : Nat) (σ : Symbol) : Built s (s.write m σ) := by
  refine .fields s m _ ?_ ?_ <;> (unfold Record.write; split <;> rfl)

theorem built_writeAll (s : State) (m : Nat) (l : List Symbol) : Built s (s.writeAll m l) :=
  .foldl (fun t σ => built_write t m σ) l s

theorem built_reserve {s t : State} {cls : MsgClass} {n m : Nat} (h : s.reserve cls n = some (m, t)) : Built s t := by
  unfold State.reserve at h
  split at h
  · exact .grantRecord h
  · cases h

theorem built_setSlot (s : State) (m i : Nat) (x : Slot) : Built s (s.setSlot m i x) := by
  have h : Built s (s.setRecord m { s.record m with slots := (s.record m).slots.set i x }) := .fields s m _ rfl rfl
  unfold State.setSlot
  exact .ite h (h.trans (built_touch _ _))

theorem built_setSlotState (s : State) (m i : Nat) (st : SlotState) : Built s (s.setSlotState m i st) := by
  unfold State.setSlotState
  cases s.slot m i with
  | none => exact .refl s
  | some sl => exact built_setSlot s m i _

theorem built_releaseIfDone (s : State) (m : Nat) : Built s (s.releaseIfDone m) := by
  unfold State.releaseIfDone
  exact .ite (.free _ _) (.refl _)

theorem built_finishAs (s : State) (m i : Nat) (t : Option Target) : Built s (s.finishAs m i t) :=
  (built_setSlotState _ _ _ _).trans (built_releaseIfDone _ _)

theorem built_finishSlot (s : State) (m i : Nat) : Built s (s.finishSlot m i) := built_finishAs _ _ _ _

theorem built_holdSlot (s : State) (m i : Nat) (w : HoldReason) : Built s (s.holdSlot m i w) := by
  unfold State.holdSlot
  split <;> exact built_setSlotState _ _ _ _

theorem built_handOffChecks (s : State) (m : Nat) : Built s (s.handOffChecks m) := by
  unfold State.handOffChecks
  have h : Built s (if (s.record m).hop = 3 then s.setRecord m ((s.record m).toIntercept .loop) else s) :=
    .ite (built_toIntercept _ _ _) (.refl _)
  exact h.trans (.ite (built_toIntercept _ _ _) (.refl _))

/-! ## Resolution -/

theorem built_placeOwn (s : State) (m i l : Nat) : Built s (s.placeOwn m i l) := by
  have h₁ := (Built.ctx s l _ (ctxStep_merge (s.ctxOf l) m i)).trans
    (built_setSlotState _ m i (.queued (s.circuit l)))
  have h₂ := ((Built.ctx s l _ (ctxStep_enqueue (s.ctxOf l) (s.newEntry m i))).trans
    (built_setSlotState _ m i (.queued (s.circuit l)))).trans (built_touchLine _ l)
  unfold State.placeOwn
  dsimp only
  split
  · exact h₁
  · split
    · exact built_holdSlot _ _ _ _
    · split
      · exact h₂.trans (built_owePick _ _)
      · exact h₂

section
variable {svc : ServiceTaker} (hs : ∀ s m i, Built s (svc s m i))
include hs

theorem built_place (s : State) (m i : Nat) (t : Option Target) : Built s (s.place svc m i t) := by
  match t with
  | none => exact built_holdSlot _ _ _ _
  | some (.circuit c) => exact .ite (built_placeOwn _ _ _ _) (built_setSlotState _ _ _ _)
  | some (.service k) => exact .ite (hs _ _ _) (built_setSlotState _ _ _ _)

theorem built_resolveWith (s : State) (m i : Nat) (named : Option Target) : Built s (s.resolveWith svc m i named) :=
  built_place hs _ _ _ _

theorem built_handOffWith (s : State) (m : Nat) (named : List (Option Target)) : Built s (s.handOffWith svc m named) := by
  unfold State.handOffWith
  split
  · refine ((built_handOffChecks s m).trans (.foldl ?_ _ _)).trans (built_releaseIfDone _ _)
    exact fun t i => .ite (built_resolveWith hs _ _ _ _) (.refl _)
  · exact .refl s

end

theorem built_sendToIntercept (s : State) (m i : Nat) : Built s (s.sendToIntercept m i) := by
  unfold State.sendToIntercept
  split
  · exact (built_setSlot _ _ _ _).trans (built_resolveWith (fun t _ _ => .refl t) _ _ _ _)
  · exact .refl s

theorem built_reportService (s : State) (m i : Nat) : Built s (reportService s m i) := by
  have h : Built s (s.setRecord m { s.record m with served := true }) := .fields s m _ rfl rfl
  exact h.trans (built_sendToIntercept _ _ _)

theorem built_makeReport (s : State) (img : Image) (m : Nat) (text : List Symbol) :
    Built s (s.makeReport img m text) := by
  unfold State.makeReport
  refine Built.trans ?_ (built_handOffWith built_reportService _ m [])
  have h : Built s (s.setRecord m ((s.record m).asReport s.serviceCode img.supervisor)) := .fields s m _ rfl rfl
  exact (h.trans (built_writeAll _ m text)).trans (.complete _ m)

theorem built_setEv (s : State) (e : Event) : Built s { s with ev := e } := .other rfl rfl rfl

theorem built_setLost (s : State) (n : Nat) : Built s { s with lost := n } := .other rfl rfl rfl

theorem built_request (s : State) (r : Report) : Built s (s.request r) := by
  unfold State.request
  split
  · exact .refl s
  · split
    · dsimp only
      split
      · exact built_setLost s _
      · have h₁ := (built_setEv s { s.ev with inReport := true }).trans (built_reserve ‹_›)
        have h₂ := h₁.trans (built_setLost _ 0)
        exact (h₂.trans (built_makeReport _ _ _ _)).trans (built_setEv _ _)
    · exact .refl s

theorem built_pullQueue (s : State) (l : Nat) : Built s (s.pullQueue l).1 := by
  have h : Built s (s.setCtx l { s.ctxOf l with queue := [] }) := .ctx s l _ ⟨fun _ => List.Pairwise.nil, id⟩
  unfold State.pullQueue
  dsimp only
  split
  · exact .refl s
  · exact h.trans (built_touchLine _ _)

/-! ## The service unit -/

theorem built_oweTo (s : State) (c k : Nat) : Built s (s.oweTo c k) := .ite (built_setPeer _ _ _) (.refl _)

theorem built_owe (s : State) (c : Nat) : Built s (s.owe c) := .foldl (fun t k => built_oweTo t c k) _ s

theorem built_setDiversion (s : State) (c : Nat) (d : Option Nat) : Built s (s.setDiversion c d) :=
  (built_setMap _ _ _).trans (built_owe _ _)

theorem built_doDivert (s : State) (img : Image) (q : Rest) (n c : Nat) (d : Option Nat) :
    Built s (s.doDivert img q n c d).1 := by
  unfold State.doDivert
  dsimp only
  split
  · exact built_setDiversion s c d
  · exact built_setDiversion s c d
  · exact .refl s

theorem built_setLevels (s : State) (v : Levels) : Built s { s with levels := v } := .other rfl rfl rfl

theorem built_doClear (s : State) (q : Rest) (n : Nat) : Built s (s.doClear q n).1 := by
  obtain ⟨v, h⟩ := clearLevels_levels s
  have h' : Built s s.clearLevels.1 := by rw [h]; exact built_setLevels s v
  unfold State.doClear
  dsimp only
  split
  · exact h'
  · exact h'.trans (built_request _ _)

theorem built_doCommand (s : State) (img : Image) (q : Rest) (n : Nat) (cmd : Command) :
    Built s (s.doCommand img q n cmd).1 := by
  unfold State.doCommand
  split
  · exact .refl s
  · split
    · exact built_request _ _
    · exact built_doClear _ _ _
    · exact .refl s
    · exact .refl s
    · exact built_doDivert _ _ _ _ _ _
    · exact built_doDivert _ _ _ _ _ _
    · split <;> exact .refl s

theorem built_doLine (img : Image) (acc : (State × Rest) × Nat) (l : List (Option Meaning)) :
    Built acc.1.1 (State.doLine img acc l).1.1 := by
  unfold State.doLine
  dsimp only
  split
  · exact .refl _
  · split
    · exact built_doCommand _ _ _ _ _
    · exact .refl _

theorem built_carryOut (s : State) (img : Image) (m : Nat) : Built s (s.carryOut img m) := by
  unfold State.carryOut
  dsimp only
  have h := foldl_keeps (fun (a b : (State × Rest) × Nat) => Built a.1.1 b.1.1) (fun b => .refl _)
    (fun a b => a.trans b) (State.doLine img) (built_doLine img)
    (linesFrom [] (meanings img (s.record m).text)) ((s, Rest.of (s.record m)), 1)
  exact h.trans (.other rfl rfl rfl)

theorem built_refuse (s : State) (m i : Nat) (b : Bool) : Built s (s.refuse m i b) := by
  unfold State.refuse
  exact .ite (built_sendToIntercept _ _ _) ((built_sendToIntercept _ _ _).trans (built_request _ _))

theorem built_serviceTake (old : Option Target) (s : State) (m i : Nat) : Built s (State.serviceTake old s m i) := by
  unfold State.serviceTake
  split
  · exact .refl s
  · dsimp only
    have h : Built s (s.setRecord m { s.record m with served := true }) := .fields s m _ rfl rfl
    refine .ite (built_finishAs _ _ _ _) (.ite ?_ (.ite ?_ ?_))
    · exact h.trans (built_refuse _ _ _ _)
    · exact h.trans (built_refuse _ _ _ _)
    · exact (h.trans (built_carryOut _ _ _)).trans (built_finishAs _ _ _ _)

theorem built_handOff (s : State) (m : Nat) (named : List (Option Target)) : Built s (s.handOff m named) :=
  built_handOffWith (built_serviceTake none) _ _ _

theorem built_reexamine (s : State) : Built s s.reexamine :=
  .foldl (fun _ _ => .ite (built_resolveWith (built_serviceTake _) _ _ _ _) (.refl _)) _ s

theorem built_reResolve (s : State) (slots : List (Nat × Nat)) : Built s (s.reResolve slots) := by
  unfold State.reResolve
  dsimp only
  refine Built.trans (.foldl (fun _ _ => built_setSlotState _ _ _ _) _ s) (.foldl ?_ _ _)
  exact fun _ _ => .ite (built_resolveWith (built_serviceTake _) _ _ _ _) (.refl _)

end Sys2Proof.Machine
end

