-- ==== Sys2Proof/Laws/Steps.lean ====
section
/-! SUPPORT. Every step is `Built`: picks, character completions, line failures, the assembler, the highway's frames,
the restarts, and with them every command. -/

namespace Sys2Proof.Machine

/-! ## Picks and completions -/

theorem built_offer (s : State) (l : Nat) (it : Item) : Built s (s.offer l it) := by
  unfold State.offer
  split
  · exact .ite (built_setLine _ _ _) (.refl _)
  · exact .refl s

theorem built_beginFraming (s : State) (l : Nat) (x : Ctx) (d : SendState) (items : List Item)
    (h : CtxStep (s.ctxOf l) x) : Built s (s.beginFraming l x d items) := by
  have h' : Built s (s.setCtx l { x with send := d, framing := items, pos := 0, guarding := false }) :=
    .ctx s l _ ⟨h.ordered, h.bounded⟩
  unfold State.beginFraming
  dsimp only
  split
  · exact h'.trans (built_offer _ _ _)
  · exact h'

theorem built_toIdle (s : State) (l : Nat) : Built s (s.setCtx l (s.ctxOf l).toIdle) := .sameQueue s l _ rfl rfl

theorem built_startHead (s : State) (img : Image) (l : Nat) (e : Entry) (rest : List Entry)
    (h : (s.ctxOf l).queue = e :: rest) : Built s (s.startHead img l e rest) :=
  built_beginFraming _ _ _ _ _ ⟨fun k => by rw [h] at k; exact k.tail, id⟩

theorem built_resumeTop (s : State) (img : Image) (l : Nat) (e : Entry) (rest : List Entry)
    (h : (s.ctxOf l).stack = e :: rest) : Built s (s.resumeTop img l e rest) := by
  unfold State.resumeTop
  refine built_beginFraming _ _ _ _ _ ⟨id, fun k => ?_⟩
  rw [h, List.length_cons] at k
  exact Nat.le_of_succ_le k

theorem built_pick (s : State) (l : Nat) : Built s (s.pick l) := by
  unfold State.pick
  split
  · exact .refl s
  · dsimp only
    split
    · exact built_toIdle _ _
    · exact .ite (built_startHead _ _ _ _ _ ‹_›) (built_toIdle _ _)
    · exact .ite (built_resumeTop _ _ _ _ _ ‹_›) (built_toIdle _ _)
    · exact .ite (built_startHead _ _ _ _ _ ‹_›) (.ite (built_resumeTop _ _ _ _ _ ‹_›) (built_toIdle _ _))

theorem built_pickIfIdle (s : State) (l : Nat) : Built s (s.pickIfIdle l) := .ite (built_pick _ _) (.refl _)

theorem built_takePicks (s : State) : Built s s.takePicks := by
  have h : Built s { s with ev := { s.ev with picks := [] } } := .other rfl rfl rfl
  exact h.trans (.foldl (fun t l => .ite (built_pickIfIdle t l) (.refl t)) _ _)

theorem built_updateCondition (s : State) (l : Nat) : Built s (s.updateCondition l) := by
  unfold State.updateCondition
  exact .ite (.refl _) ((built_setMap _ _ _).trans (built_owe _ _))

theorem built_toHunt (s : State) (l : Nat) : Built s (s.setMas l (s.masOf l).toHunt) := .sameStack s l _ rfl

theorem built_withdrawalTest (s : State) (l : Nat) (q : Bool) (c : Option FailureCounts) :
    Built s (s.withdrawalTest l q c) := by
  unfold State.withdrawalTest
  refine .ite ?_ (.refl _)
  dsimp only
  have h₁ := (built_setAdmin s l .withdrawn).trans (built_updateCondition _ l)
  have h₂ := h₁.trans (Built.ite (p := (((s.setAdmin l .withdrawn).updateCondition l).masOf l).mode = .discard)
    (built_toHunt _ l) (.refl _))
  exact .ite h₂ (h₂.trans (built_request _ _))

theorem built_pickAndTest (s : State) (l : Nat) : Built s (s.pickAndTest l) :=
  (built_pick s l).trans (.ite (built_withdrawalTest _ _ _ _) (.refl _))

theorem built_completeEntry (s : State) (l : Nat) (e : Entry) : Built s (s.completeEntry l e) := by
  have h : Built s (e.slots.foldl (fun t i => t.finishSlot e.record i) s) :=
    .foldl (fun _ _ => built_finishSlot _ _ _) _ s
  have h' : ∀ t : State, Built t (t.setCtx l { (t.ctxOf l).toIdle with current := none }) :=
    fun t => .sameQueue t l _ rfl rfl
  exact (h.trans (h' _)).trans (built_touchLine _ _)

theorem built_entryDone (s : State) (l : Nat) (e : Entry) : Built s (s.entryDone l e) :=
  ((built_completeEntry s l e).trans (built_reexamine _)).trans (built_pickAndTest _ _)

theorem built_makeRoom (s : State) (l : Nat) (x : Ctx) (hq : x.queue = (s.ctxOf l).queue)
    (hs : x.stack = (s.ctxOf l).stack) : Built s (s.makeRoom l x) := by
  have hd : CtxStep (s.ctxOf l) { x with stack := x.stack.take (Config.stackLimit - 1) } :=
    ⟨fun h => by simpa only [hq] using h, fun h => by rw [← hs] at h; simp only [List.length_take]; omega⟩
  unfold State.makeRoom
  refine .ite (.sameQueue s l x hq hs) ?_
  split
  · exact .sameQueue s l x hq hs
  · dsimp only
    refine .ite ?_ ?_
    · exact (((Built.ctx s l _ hd).trans (built_touchLine _ _)).trans (built_reResolve _ _)).trans (built_reexamine _)
    · exact .ctx s l _ ⟨fun h => (hd.ordered h).insert _, hd.bounded⟩

/-- After room is made the stack has place for one entry more (R110). -/
theorem makeRoom_stack (s : State) (l : Nat) (x : Ctx) :
    ((s.makeRoom l x).ctxOf l).stack.length < Config.stackLimit := by
  have hlim : Config.stackLimit = 3 := rfl
  have h₀ : (s.ctxOf l).stack.length < 3 ∨ l < 8 := by
    by_cases h : l < 8
    · exact .inr h
    · left; simp [State.ctxOf, entryAt, h, Ctx.fresh]
  have put : ∀ (t : State) (y : Ctx), y.stack.length < 3 → (t.ctxOf l).stack.length < 3 ∨ l < 8 →
      ((t.setCtx l y).ctxOf l).stack.length < 3 := by
    intro t y hy ht
    rcases ht with ht | ht
    · exact ctxOf_setCtx_of (P := fun z => z.stack.length < 3) t l l y (fun _ => hy) ht
    · rwa [ctxOf_setCtx_self _ _ _ ht]
  rw [hlim]
  unfold State.makeRoom
  split
  · exact put s x (by omega) h₀
  · split
    · rename_i h
      rw [List.getLast?_eq_none_iff] at h
      exact put s x (by rw [h]; exact Nat.zero_lt_succ 2) h₀
    · have hd : (x.stack.take (Config.stackLimit - 1)).length < 3 := by rw [List.length_take]; omega
      dsimp only
      split
      · have keep : ∀ (t : State) (q : List (Nat × Nat)),
            ((t.reResolve q).reexamine.ctxOf l).stack = (t.ctxOf l).stack := by
          intro t q
          have h := ((resolved_reResolve t q).trans (resolved_reexamine _)).ctx l
          rw [← h]
        rw [keep]
        simp only [State.touchLine, touch_ctxOf]
        exact put s _ hd h₀
      · exact put s _ hd h₀

theorem built_breakingEnd (s : State) (l : Nat) (e : Entry) : Built s (s.breakingEnd l e) := by
  unfold State.breakingEnd
  dsimp only
  refine Built.trans ?_ (built_pickAndTest _ _)
  have hr := makeRoom_stack s l { s.ctxOf l with current := none }
  exact (built_makeRoom s l { s.ctxOf l with current := none } rfl rfl).trans
    (.ctx _ l _ ⟨id, fun _ => by rw [List.length_cons]; exact hr⟩)

/-! ## A character completion -/

theorem built_offerText (s : State) (img : Image) (l : Nat) (e : Entry) : Built s (s.offerText img l e) := by
  unfold State.offerText
  dsimp only
  split
  · exact (Built.sameQueue s l { s.ctxOf l with guarding := true, lineStart := false } rfl rfl).trans (built_offer _ _ _)
  · split
    · rename_i σ _ _
      exact (Built.sameQueue s l { s.ctxOf l with guarding := false, lineStart := means img .lf σ } rfl rfl).trans
        (built_offer _ _ _)
    · exact .refl s

theorem built_toTrailer (s : State) (img : Image) (l : Nat) (e : Entry) : Built s (s.toTrailer img l e) :=
  built_beginFraming _ _ _ _ _ (.refl _)

theorem built_takeBreak (s : State) (img : Image) (l : Nat) : Built s (s.takeBreak img l) := by
  unfold State.takeBreak
  exact built_beginFraming _ _ _ _ _ (.refl _)

theorem built_toText (s : State) (img : Image) (l : Nat) (e : Entry) : Built s (s.toText img l e) := by
  have h : ∀ y : Ctx, y.queue = (s.ctxOf l).queue → y.stack = (s.ctxOf l).stack →
      Built s ((s.setCtx l y).offerText img l e) :=
    fun y hq hs => (Built.sameQueue s l y hq hs).trans (built_offerText _ _ _ _)
  unfold State.toText
  exact .ite (built_takeBreak _ _ _) (.ite (h _ rfl rfl) (built_toTrailer _ _ _ _))

theorem built_textDone (s : State) (img : Image) (l : Nat) (e : Entry) : Built s (s.textDone img l e) := by
  have h : ∀ y : Ctx, y.queue = (s.ctxOf l).queue → y.stack = (s.ctxOf l).stack → Built s (s.setCtx l y) :=
    fun y hq hs => .sameQueue s l y hq hs
  unfold State.textDone
  dsimp only
  refine .ite (Built.trans (h _ ?_ ?_) (built_toTrailer _ _ _ _))
    (.ite (Built.trans (h _ ?_ ?_) (built_takeBreak _ _ _)) (Built.trans (h _ ?_ ?_) (built_offerText _ _ _ _)))
  all_goals (split <;> rfl)

theorem built_framingDone (s : State) (img : Image) (l : Nat) (e : Entry) : Built s (s.framingDone img l e) := by
  have h : Built s (s.setCtx l { s.ctxOf l with pos := (s.ctxOf l).pos + 1 }) := .sameQueue s l _ rfl rfl
  unfold State.framingDone
  dsimp only
  split
  · exact h.trans (built_offer _ _ _)
  · split
    · exact h.trans (built_toText _ _ _ _)
    · exact h.trans (built_toText _ _ _ _)
    · exact h.trans (built_entryDone _ _ _)
    · exact h.trans (built_breakingEnd _ _ _)
    · exact h
    · exact h

theorem built_dispatchCompletion (s : State) (l : Nat) : Built s (s.dispatchCompletion l) := by
  unfold State.dispatchCompletion
  split
  · split
    · exact .refl s
    · exact built_textDone _ _ _ _
    all_goals exact built_framingDone _ _ _ _
  · exact .refl s

/-! ## A line failure -/

theorem built_abandonItem (s : State) (l : Nat) : Built s (s.abandonItem l) := built_setLine _ _ _

theorem built_giveUpCurrent (s : State) (l : Nat) : Built s (s.giveUpCurrent l).1 := by
  have h : ∀ y : Ctx, y.queue = (s.ctxOf l).queue → y.stack = (s.ctxOf l).stack →
      Built s ((s.abandonItem l).setCtx l y) :=
    fun y hq hs => (built_abandonItem s l).trans (.sameQueue (s.abandonItem l) l y hq hs)
  unfold State.giveUpCurrent
  dsimp only
  split
  · exact .refl s
  · split
    · exact (built_abandonItem _ _).trans (built_completeEntry _ _ _)
    · exact h _ rfl rfl

theorem built_dispatchFailure (s : State) (l : Nat) : Built s (s.dispatchFailure l).1 := by
  have clear : ∀ t : State, Built t (t.setCtx l { t.ctxOf l with stack := [], queue := [] }) :=
    fun t => .ctx t l _ ⟨fun _ => List.Pairwise.nil, fun _ => Nat.zero_le _⟩
  unfold State.dispatchFailure
  split
  · dsimp only
    have h := (built_giveUpCurrent s l).trans (clear (s.giveUpCurrent l).1)
    exact ((h.trans (.ite (.refl _) (built_touchLine _ _))).trans (built_reResolve _ _)).trans (built_reexamine _)
  · exact .refl s

/-! ## The assembler -/

theorem built_closeRecord (s : State) (l m : Nat) (w : Option MutReason) : Built s (s.closeRecord l m w) := by
  have h : Built s (s.setRecord m (w.elim (s.record m) (s.record m).mutilate)) := by
    refine .fields s m _ ?_ ?_ <;> (cases w <;> rfl)
  have h' := (h.trans (.complete _ m)).trans (built_handOff _ m [])
  unfold State.closeRecord
  dsimp only
  split
  · exact h'.trans (built_request _ _)
  · exact h'

theorem built_storeSymbol (s : State) (img : Image) (l : Nat) (σ : Symbol) : Built s (s.storeSymbol img l σ).1 := by
  have put : ∀ (t : State) (m : Nat),
      Built t (if means img .lf σ then (t.write m σ).setMas l { (t.write m σ).masOf l with lineStart := true }
        else t.write m σ) :=
    fun t m => .ite ((built_write t m σ).trans (.sameStack _ l _ rfl)) (built_write t m σ)
  unfold State.storeSymbol
  split
  · exact .refl s
  · dsimp only
    split
    · exact .refl s
    · split
      · exact put _ _
      · split
        · exact (Built.grantBlock ‹_›).trans (put _ _)
        · exact .refl s

theorem built_truncate (s : State) (l : Nat) (w : MutReason) (b : Bool) : Built s (s.truncate l w b) := by
  unfold State.truncate
  split
  · exact .refl s
  · exact (built_closeRecord _ _ _ _).trans (.sameStack _ l _ rfl)

theorem built_storeAll (img : Image) (l : Nat) (σs : List Symbol) : ∀ s : State, Built s (s.storeAll img l σs).1 := by
  induction σs with
  | nil => exact fun s => .refl s
  | cons σ rest ih =>
    intro s
    have h := built_storeSymbol s img l σ
    unfold State.storeAll
    split
    · rename_i e; rw [e] at h; exact h.trans (ih _)
    · rename_i e; rw [e] at h; exact h.trans (built_truncate _ _ _ _)

theorem built_repeatMark (s : State) (l n : Nat) : Built s (s.repeatMark l n) := by
  unfold State.repeatMark
  split
  · exact .refl s
  · refine Built.trans (.mas s l _ fun k => ?_) (.free _ _)
    exact Nat.le_trans (List.length_eraseIdx_le _ _) k

theorem built_serialReports (s : State) (l n : Nat) (e : Option Nat) (o : SerialOutcome) :
    Built s (s.serialReports l n e o) := by
  unfold State.serialReports
  split
  · exact .refl s
  · exact built_request _ _
  · exact built_request _ _

theorem built_goodHeader (s : State) (l : Nat) (h : Header) : Built s (s.goodHeader l h) := by
  have h₁ : Built s (h.rpt.elim s (s.repeatMark l)) := by
    cases h.rpt with
    | none => exact .refl s
    | some n => exact built_repeatMark _ _ _
  have h₂ : ∀ e, Built s ((h.rpt.elim s (s.repeatMark l)).setMas l
      { (h.rpt.elim s (s.repeatMark l)).masOf l with expected := e }) := fun e => h₁.thenMas rfl
  unfold State.goodHeader
  dsimp only
  split
  · refine Built.trans ?_ (built_serialReports _ _ _ _ _)
    refine Built.thenMas (Built.thenFields ((h₂ _).trans (.grantRecord ‹_›)) ?_ ?_) ?_ <;> rfl
  · refine Built.trans (Built.trans ?_ (built_serialReports _ _ _ _ _)) (built_request _ _)
    exact (h₂ _).thenMas rfl

theorem built_beginBadHead (s : State) (l m : Nat) : Built s (s.beginBadHead l m) := by
  have h : Built s (s.setRecord m ((s.record m).fromBadHeader (s.circuit l) (s.lineAuthority l) s.serviceCode)) :=
    .fields s m _ rfl rfl
  exact h.trans (.sameStack _ l _ rfl)

theorem built_badHeader (s : State) (img : Image) (l : Nat) (o : Option Symbol) : Built s (s.badHeader img l o) := by
  unfold State.badHeader
  dsimp only
  split
  · rename_i m t ht
    have h := ((Built.grantRecord ht).trans (built_beginBadHead t l m)).trans (built_storeAll img l
      ((s.masOf l).header ++ o.elim [crSym img, lfSym img] fun σ => [σ]) _)
    exact .ite h (h.trans (.sameStack _ l _ rfl))
  · exact (Built.sameStack s l ((s.masOf l).toDiscard o.isNone) rfl).trans (built_request _ _)

theorem built_headerCheck (s : State) (img : Image) (l : Nat) (o : Option Symbol) : Built s (s.headerCheck img l o) := by
  unfold State.headerCheck
  split
  · exact built_goodHeader _ _ _
  · exact built_badHeader _ _ _ _

theorem built_closeAll (s : State) (l : Nat) (w : MutReason) (ms : List Nat) : Built s (s.closeAll l w ms) :=
  .foldl (fun t m => built_closeRecord t l m (some w)) ms s

theorem resolved_closeRecord (s : State) (l m : Nat) (w : Option MutReason) : Resolved s (s.closeRecord l m w) := by
  have h := ((filed_setRecord s m (w.elim (s.record m) (s.record m).mutilate)).trans (filed_complete _ m)).resolved
  have h' := h.trans (resolved_handOff _ m [])
  unfold State.closeRecord
  dsimp only
  split
  · exact h'.trans (resolved_request _ _)
  · exact h'

theorem resolved_closeAll (s : State) (l : Nat) (w : MutReason) (ms : List Nat) : Resolved s (s.closeAll l w ms) :=
  frames_resolved.foldl (fun t m => resolved_closeRecord t l m (some w)) ms s

/-- Closing records leaves the assemblers. -/
theorem masOf_closeAll (s : State) (l k : Nat) (w : MutReason) (ms : List Nat) :
    (s.closeAll l w ms).masOf k = s.masOf k := by
  unfold State.masOf; rw [(resolved_closeAll s l w ms).mas]

theorem built_resumeLine (s : State) (l n : Nat) (b : Bool) : Built s (s.resumeLine l n b) := by
  unfold State.resumeLine
  split
  · exact .refl s
  · refine (built_closeAll _ _ _ _).trans (.mas _ l _ fun k => ?_)
    rw [masOf_closeAll] at k
    exact Nat.le_trans (by simp) k

theorem built_breakLine (s : State) (img : Image) (l m : Nat) : Built s (s.breakLine img l m) := by
  unfold State.breakLine
  dsimp only
  have h := Built.rollback s m (breakLength img (s.record m).text)
  set t := s.rollback m (breakLength img (s.record m).text) with ht
  by_cases hf : Config.stackLimit ≤ (t.masOf l).rstack.length
  · simp only [hf, decide_true, if_true]
    refine (h.trans (built_closeAll _ _ _ _)).trans (.mas _ l _ fun k => ?_)
    rw [masOf_closeAll] at k
    simp only [List.length_cons, List.length_dropLast]
    have : Config.stackLimit = 3 := rfl
    omega
  · simp only [hf, decide_false]
    refine h.trans (.mas _ l _ fun k => ?_)
    simp only [Bool.false_eq_true, if_false, List.length_cons]
    omega

theorem built_newHeader (s : State) (l : Nat) (hs : List Symbol) : Built s (s.newHeader l hs) := by
  unfold State.newHeader
  exact .ite (.sameStack s l _ rfl) (.sameStack s l _ rfl)

theorem built_huntSymbol (s : State) (img : Image) (l : Nat) (σ : Symbol) : Built s (s.huntSymbol img l σ) := by
  unfold State.huntSymbol
  refine .ite (.sameStack s l _ rfl) ?_
  dsimp only
  refine .ite (built_newHeader _ _ _) (.ite ?_ (.ite (.sameStack s l _ rfl) (.sameStack s l _ rfl)))
  exact Built.trans (Built.sameStack s l { s.masOf l with
    startSeq := if means img (.letter 8) σ then (s.masOf l).startSeq ++ [σ] else [], look := [], lineStart := true } rfl)
    (built_resumeLine _ _ _ _)

theorem built_headerSymbol (s : State) (img : Image) (l : Nat) (σ : Symbol) : Built s (s.headerSymbol img l σ) := by
  unfold State.headerSymbol
  exact .ite (.refl _) (.ite (built_headerCheck _ _ _ _) (.ite (built_headerCheck _ _ _ _) (.sameStack s l _ rfl)))

theorem built_endSequence (s : State) (img : Image) (l m : Nat) : Built s (s.endSequence img l m) := by
  unfold State.endSequence
  exact ((Built.rollback _ _ _).trans (built_closeRecord _ _ _ _)).trans (built_toHunt _ _)

theorem built_depart (s : State) (img : Image) (l : Nat) (look : List Symbol) : Built s (s.depart img l look) :=
  (Built.sameStack s l { s.masOf l with lineStart := false, look := [] } rfl).trans (built_storeAll _ _ _ _)

theorem built_textTake (s : State) (img : Image) (l m : Nat) (σ : Symbol) : Built s (s.textTake img l m σ) := by
  unfold State.textTake
  dsimp only
  refine .ite (.ite (built_endSequence _ _ _ _) (.ite ?_ (.ite (built_breakLine _ _ _ _) (.ite (built_depart _ _ _ _)
    (.ite (.sameStack s l _ rfl) (built_depart _ _ _ _)))))) (built_depart _ _ _ _)
  exact (built_closeRecord _ _ _ _).trans (built_newHeader _ _ _)

theorem built_textSymbol (s : State) (img : Image) (l : Nat) (σ : Symbol) : Built s (s.textSymbol img l σ) := by
  unfold State.textSymbol
  dsimp only
  split
  · exact .refl s
  · have h : Built s (s.setMas l { s.masOf l with resumeLf := false }) := .sameStack s l _ rfl
    exact .ite h (h.trans (built_textTake _ _ _ _ _))

theorem built_discardSymbol (s : State) (img : Image) (l : Nat) (σ : Symbol) : Built s (s.discardSymbol img l σ) := by
  unfold State.discardSymbol
  dsimp only
  exact .ite (.ite (built_toHunt _ _) (.ite (built_newHeader _ _ _) (.ite (.sameStack s l _ rfl) (.sameStack s l _ rfl))))
    (.sameStack s l _ rfl)

theorem built_takeSymbol (s : State) (img : Image) (l : Nat) (σ : Symbol) : Built s (s.takeSymbol img l σ) := by
  unfold State.takeSymbol
  dsimp only
  refine Built.trans ?_ (built_withdrawalTest _ _ _ _)
  split
  · exact built_huntSymbol _ _ _ _
  · exact built_headerSymbol _ _ _ _
  · exact built_textSymbol _ _ _ _
  · exact built_discardSymbol _ _ _ _

theorem built_deliver (s : State) (img : Image) (l : Nat) (σ : Symbol) : Built s (s.deliver img l σ) :=
  .ite (.refl _) (built_takeSymbol _ _ _ _)

theorem built_closeUnderWay (s : State) (img : Image) (l : Nat) : Built s (s.closeUnderWay img l) := by
  unfold State.closeUnderWay
  dsimp only
  split
  · exact .refl s
  · exact .refl s
  · split
    · rename_i m t ht
      have h := ((Built.grantRecord ht).trans (built_beginBadHead t l m)).trans
        (built_storeAll img l (s.masOf l).header _)
      exact .ite h (h.trans (built_closeRecord _ _ _ _))
    · exact built_request _ _
  · split
    · exact .refl s
    · have h := built_storeAll img l (s.masOf l).look s
      exact .ite h (h.trans (built_closeRecord _ _ _ _))

theorem built_lineOpen (s : State) (img : Image) (l : Nat) (c : Option FailureCounts) : Built s (s.lineOpen img l c) := by
  unfold State.lineOpen
  dsimp only
  refine ((((built_closeUnderWay s img l).trans (.mas _ l _ fun _ => ?_)).trans (built_withdrawalTest _ _ _ _)).trans
    (built_closeAll _ _ _ _))
  exact Nat.zero_le _

/-! ## The highway -/

theorem built_hear (s : State) (k : Nat) : Built s (s.hear k) := by
  unfold State.hear
  refine .ite (.refl _) ?_
  dsimp only
  split
  · exact built_setPeer _ _ _
  · exact built_setPeer _ _ _
  · exact (built_setPeer _ _ _).trans (built_request _ _)

theorem built_becomeSilent (s : State) (k : Nat) : Built s (s.becomeSilent k) := by
  have h : ∀ t : State, Built t { t with musterPending := t.musterPending.filter fun j => decide (j ≠ k) } :=
    fun t => .other rfl rfl rfl
  exact (((built_setPeer s k _).trans (h _)).trans (built_request _ _)).trans (built_reResolve _ _)

theorem built_reexamineIf (s : State) (c : Bool) : Built s (s.reexamineIf c) := .ite (built_reexamine _) (.refl _)

theorem built_flagSet (s : State) (k : Nat) : Built s (s.flagSet k) := built_setPeer _ _ _

theorem built_commitCarry (s : State) (rx : List Byte) (m : Nat) : Built s (s.commitCarry rx m) := by
  unfold State.commitCarry
  refine Built.trans (Built.trans (Built.trans ?_ (.complete _ m)) (built_reexamineIf _ _)) (built_handOff _ _ _)
  refine Built.thenFields ((built_hear s _).trans (built_flagSet _ _)) ?_ ?_ <;> rfl

theorem built_writeEntries (es : List (Nat × MapEntry)) (acc : State × Bool) :
    Built acc.1 (es.foldl State.writeEntry acc).1 :=
  foldl_keeps (fun (a b : State × Bool) => Built a.1 b.1) (fun _ => .refl _) (fun a b => a.trans b) _
    (fun _ _ => built_setMap _ _ _) es acc

theorem built_dropUnavailable (s : State) (services : Bool) : Built s (s.dropUnavailable services) :=
  built_reResolve _ _

theorem built_applyCondition (s : State) (rx : List Byte) : Built s (s.applyCondition rx) := by
  unfold State.applyCondition
  refine Built.trans (Built.trans ?_ (built_dropUnavailable _ _)) (built_reexamineIf _ _)
  exact ((built_hear s _).trans (built_flagSet _ _)).trans (built_writeEntries _ (_, _))

theorem built_editionReport (s : State) (rx : List Byte) : Built s (s.editionReport rx) := by
  unfold State.editionReport
  split
  · exact .refl s
  · exact .ite (built_request _ _) (.refl _)

theorem built_applyMuster (s : State) (rx : List Byte) : Built s (s.applyMuster rx) := by
  have drop : ∀ (t : State) (q : List Nat), Built t { t with musterPending := q } := fun t q => .other rfl rfl rfl
  unfold State.applyMuster
  refine Built.trans (Built.trans (Built.trans ?_ (built_editionReport _ _)) (built_dropUnavailable _ _))
    (built_reexamineIf _ _)
  have h : ∀ p, Built s ((s.hear (rxSender rx)).setPeer (rxSender rx) p) :=
    fun p => (built_hear s _).trans (built_setPeer _ _ _)
  exact .ite ((h _).trans (built_writeEntries _ (_, _))) (((h _).trans (built_writeEntries _ (_, _))).trans (drop _ _))

theorem built_takenBy (s : State) (k : Nat) (f : Frame) : Built s (s.takenBy k f) := by
  unfold State.takenBy
  split
  · exact .foldl (fun _ _ => .ite (built_finishSlot _ _ _) (.refl _)) _ _
  · exact built_setPeer _ _ _
  · exact .other rfl rfl rfl

theorem built_readReceipt (f : Frame) (stamp : Option Nat) (heard take : List Nat) (s : State) (k : Nat) :
    Built s (State.readReceipt f stamp heard take s k) := by
  unfold State.readReceipt
  dsimp only
  refine .ite ((built_setPeer _ _ _).trans (built_takenBy _ _ _)) (.ite (built_setPeer _ _ _) (.ite ?_ (built_setPeer _ _ _)))
  exact (built_setPeer _ _ _).trans (built_becomeSilent _ _)

theorem built_hearAll (s : State) (ks : List Nat) : Built s (s.hearAll ks) :=
  (Built.foldl built_hear ks s).trans (built_reexamineIf _ _)

theorem built_ownFrameOver (s : State) (v : Bool) (p : Parting) (r : Bool) : Built s (s.ownFrameOver v p r) := .other rfl rfl rfl

theorem built_drawn (s : State) : Built s s.drawn := .other rfl rfl rfl

theorem built_readReceipts (s : State) (f : Frame) (h k : List Nat) : Built s (s.readReceipts f h k) := by
  have h₀ : Built s { s.ownFrameOver false ⟨true, false⟩ false with streak := 0 } := .other rfl rfl rfl
  unfold State.readReceipts
  exact (h₀.trans (.foldl (built_readReceipt _ _ _ _) _ _)).trans (built_hearAll _ _) |>.trans (built_drawn _)

theorem built_vetoedOutcome (s : State) (hd : Bool) : Built s (s.vetoedOutcome hd) := by
  have h₀ : Built s { s.ownFrameOver true ⟨true, hd⟩ false with streak := min Config.streakLimit (s.streak + 1) } := .other rfl rfl rfl
  unfold State.vetoedOutcome
  exact .ite (h₀.trans (built_request _ _)) h₀

theorem built_abandonedOutcome (s : State) (p : Parting) (r : Bool) : Built s (s.abandonedOutcome p r) := built_ownFrameOver _ _ _ _

/-! ## The end of an event -/

theorem built_evaluateGauges (s : State) (gs : List Gauge) : Built s (s.evaluateGauges gs) := by
  obtain ⟨v, h⟩ := evaluate_levels s gs
  have h' : Built s (s.evaluate gs).1 := by rw [h]; exact built_setLevels s v
  unfold State.evaluateGauges
  exact .ite h' (h'.trans (built_request _ _))

theorem built_settleReports (n : Nat) : ∀ s, Built s (State.settleReports n s) := by
  induction n with
  | zero => exact .refl
  | succ n ih =>
    intro s
    unfold State.settleReports
    split
    · exact .refl s
    · have h := (built_setEv s { s.ev with own := [], rep := [] }).trans (built_evaluateGauges _ (s.ev.own ++ s.ev.rep))
      exact (h.trans (built_takePicks _)).trans (ih _)

theorem built_settle (s : State) : Built s s.settle := by
  have h := (built_setEv s { s.ev with own := [] }).trans (built_evaluateGauges _ s.ev.own)
  exact (h.trans (built_takePicks _)).trans (built_settleReports 64 _)

theorem built_setTimers (s : State) (t : HwTimers) : Built s { s with timers := t } := .other rfl rfl rfl

theorem built_markCut (s : State) : Built s s.markCut := .ite (.other rfl rfl rfl) (.refl _)

theorem built_build (s : State) : Built s s.build := by
  unfold State.build
  split
  · dsimp only
    split <;> exact .other rfl rfl rfl
  · exact .refl s

theorem built_finish (s : State) : Built s s.finish := by
  have h := ((built_settle s).trans (built_markCut _)).trans (built_build s.settle.markCut)
  have d : ∀ t : State, Built t t.driveOalm := fun t => .other rfl rfl rfl
  unfold State.finish
  exact (h.trans (built_setEv _ _)).trans (d _)

/-! ## The frame engine -/

theorem built_freeReserved (s : State) (f : Flight) : Built s (s.freeReserved f) := by
  unfold State.freeReserved
  split
  · exact .ite (.refl _) (.free _ _)
  · exact .refl s

theorem built_leaveFrame (s : State) (r : Bool) : Built s (s.leaveFrame r) := .other rfl rfl rfl

theorem built_noteSender (s : State) (f : Flight) : Built s (s.noteSender f) :=
  .ite ((built_hear _ _).trans (built_reexamineIf _ _)) (.refl _)

theorem built_endListening (s : State) (f : Flight) (r : Bool) : Built s (s.endListening f r) :=
  ((built_freeReserved _ _).trans (built_leaveFrame _ _)).trans (built_noteSender _ _)

theorem built_discardFrame (s : State) (f : Flight) : Built s (s.discardFrame f) :=
  (built_freeReserved _ _).trans (built_setFlight _ _)

theorem built_handCell (s : State) (f : Flight) (b : Byte) : Built s (s.handCell f b) := by
  unfold State.handCell
  refine .ite ?_ ?_
  · split
    · exact (built_write _ _ _).trans (built_setFlight _ _)
    · exact built_setFlight _ _
  · exact .ite ((built_discardFrame _ _).trans (built_finish _)) (built_setFlight _ _)

theorem built_nineBits (s : State) (f : Flight) : Built s (s.nineBits f) :=
  .ite (built_handCell _ _ _) (built_setFlight _ _)

theorem built_setParting (s : State) (p : Parting) : Built s { s with parting := p } := .other rfl rfl rfl

theorem built_clockRises (s : State) (hd : Bool) : Built s (s.clockRises hd) := by
  unfold State.clockRises
  split <;> first | exact .refl s | exact .other rfl rfl rfl

theorem built_cutFrame (s : State) : Built s s.cutFrame :=
  ((built_abandonedOutcome s ⟨true, false⟩ false).trans (built_setTimers _ _)).trans (built_finish _)

/-- A falling edge of HC at which no frame is cut changes the timers and what is left of a frame on HD, and nothing else; only the stuck timer may run
after it, and does but in STUCK (R121, R131, R132). -/
theorem clockFalls_eq {s : State} (c : s.cutIsDue = false) : ∃ p, s.clockFalls =
    { s with timers := ⟨false, false, decide (s.engine ≠ .stuck), false⟩, parting := p } := by
  unfold State.clockFalls
  split <;> rename_i h <;> rw [h] <;> first | exact ⟨_, rfl⟩ | (rw [c]; exact ⟨_, rfl⟩)

theorem built_clockFalls (s : State) : Built s s.clockFalls := by
  unfold State.clockFalls
  split <;> first | exact .other rfl rfl rfl | exact .ite (built_cutFrame _) (.other rfl rfl rfl)

theorem built_stopSeen (s : State) (b : Bool) : Built s (s.stopSeen b) := by
  unfold State.stopSeen
  split
  any_goals exact .refl s
  all_goals exact .ite (.refl s) (.other rfl rfl rfl)

theorem built_cellEnd (s : State) (f : Flight) : Built s (s.cellEnd f) := by
  unfold State.cellEnd
  dsimp only
  exact .ite (.other rfl rfl rfl) (.ite (.other rfl rfl rfl) (built_setFlight _ _))

theorem built_listenerSample (s : State) (f : Flight) (hd : Bool) : Built s (s.listenerSample f hd) := by
  have h := built_setTimers s HwTimers.high
  unfold State.listenerSample
  dsimp only
  refine .ite (h.trans (built_setFlight _ _)) (.ite (.refl _) (.ite (.ite (h.trans (built_cellEnd _ _)) ?_) (.ite ?_ ?_)))
  · exact ((h.trans (built_endListening _ _ _)).trans (built_setParting _ _)).trans (built_finish _)
  · exact h.trans (built_nineBits _ _)
  · exact h.trans (built_setFlight _ _)

theorem built_loseArbitration (s : State) (f : Flight) : Built s (s.loseArbitration f) := by
  have h : Built s { s with engine := .listening, timers := .high } := .other rfl rfl rfl
  unfold State.loseArbitration
  split
  · exact .refl s
  · exact .ite (h.trans (built_nineBits _ _)) (h.trans (built_setFlight _ _))

theorem built_senderSample (s : State) (f : Flight) (hd : Bool) : Built s (s.senderSample f hd) := by
  have h := built_setTimers s HwTimers.high
  have v := (h.trans (built_vetoedOutcome _ s.pullsHd)).trans (built_finish _)
  unfold State.senderSample
  dsimp only
  refine .ite (.ite (h.trans (built_cellEnd _ _)) v) (.ite (h.trans (built_setFlight _ _)) (.ite ?_ v))
  exact (h.trans (built_loseArbitration _ _)).trans (built_finish _)

theorem built_senderReceipt (s : State) (f : Flight) (hd : Bool) : Built s (s.senderReceipt f hd) := by
  unfold State.senderReceipt
  dsimp only
  refine .ite ?_ ((built_setTimers s HwTimers.high).trans (built_setFlight _ _))
  split
  · exact (built_readReceipts _ _ _ _).trans (built_finish _)
  · exact .refl s

theorem built_applyFrame (s : State) (f : Flight) : Built s (s.applyFrame f) := by
  have h := (built_setTimers s s.timers.atTake).trans
    (built_setFlight _ { f with slot := f.slot + 1, slotBegun := false, hdRead := false, applied := true })
  unfold State.applyFrame
  have key : ∀ (t : State) (o : Option Nat), Built s t → Built s (o.elim t (t.commitCarry f.rx)) := by
    intro t o ht
    cases o with
    | none => exact ht
    | some m => exact ht.trans (built_commitCarry _ _ _)
  exact (Built.trans (.ite (h.trans (built_applyCondition _ _)) (.ite (h.trans (built_applyMuster _ _)) (key _ _ h)))
    (built_drawn _)).trans (built_finish _)

theorem built_listenerReceipt (s : State) (f : Flight) (hd : Bool) : Built s (s.listenerReceipt f hd) := by
  have h := built_setTimers s HwTimers.high
  unfold State.listenerReceipt
  refine .ite (h.trans (built_setFlight _ _)) (.ite (h.trans (built_setFlight _ _)) ?_)
  exact .ite (.refl _) (.ite (built_applyFrame _ _) (h.trans (built_setFlight _ _)))

theorem built_sample (s : State) (hd : Bool) : Built s (s.sample hd) := by
  unfold State.sample
  split
  · exact .refl s
  · split
    · exact .ite ((built_cutFrame _).trans (built_clockRises _ _)) (built_senderSample _ _ _)
    · exact .ite ((built_cutFrame _).trans (built_clockRises _ _)) (built_senderSample _ _ _)
    · exact built_listenerSample _ _ _
    · exact .ite (built_senderReceipt _ _ _) (built_listenerReceipt _ _ _)
    all_goals exact .refl s

theorem built_abandonFrame (s : State) (r : Bool) : Built s (s.abandonFrame r) := by
  unfold State.abandonFrame
  split
  · exact built_setTimers _ _
  · exact .ite (built_abandonedOutcome _ _ _) (built_endListening _ _ _)

theorem built_reserveCarry (s : State) (f : Flight) : Built s (s.reserveCarry f) := by
  have h := built_setTimers s HwTimers.high
  unfold State.reserveCarry
  dsimp only
  split
  · exact (h.trans (built_reserve ‹_›)).trans (built_setFlight _ _)
  · exact h.trans (built_setFlight _ _)

/-! ## The restarts -/

theorem built_blockLoss (s : State) : Built s s.blockLoss := by
  have h : ∀ (t : State) (r : RestartRecord) (x : Vector Line 8) (n : Nat) (p : List Instr), t.store = Store.fresh →
      (∀ l, t.ctxOf l = Ctx.fresh) → (∀ l, (t.masOf l).rstack = []) →
      Built s { t with restart := r, lines := x, draws := n, pending := p } := fun _ _ _ _ _ h₁ h₂ h₃ => .fresh h₁ h₂ h₃
  exact h State.reset _ _ _ _ reset_store reset_ctxOf (fun l => by rw [reset_masOf]; rfl)

theorem built_beginHold (s : State) (k : RestartKind) : Built s (s.beginHold k) := by
  have h : ∀ (t : State) (r : RestartRecord), Built t { t with phase := .hold k, restart := r } :=
    fun _ _ => .other rfl rfl rfl
  exact (built_blockLoss s).trans (h _ _)

theorem built_hardwareCause (s : State) (k : RestartKind) : Built s (s.hardwareCause k) := by
  unfold State.hardwareCause
  split
  · exact .refl s
  · exact .refl s
  · exact .other rfl rfl rfl
  · exact built_beginHold _ _
  · exact built_beginHold _ _

theorem built_beginLoad (s : State) (straps : BitVec 4) : Built s (s.beginLoad straps) := by
  have h : ∀ t : State, Built t
      { t with phase := .loading, station := straps.toNat, cfgCs := true, cfgOut := readOrder } :=
    fun _ => .other rfl rfl rfl
  exact (built_blockLoss s).trans (h _)

theorem built_restartLines (s : State) : Built s s.restartLines := .other rfl rfl rfl

theorem built_restartMap (s : State) : Built s s.restartMap := by
  have h : ∀ m, Built s { s with map := m } := fun _ => .other rfl rfl rfl
  exact h _

theorem built_restartHighway (s : State) (hc hd : Bool) : Built s (s.restartHighway hc hd) := by
  have h : ∀ (e : Engine) (o : Option Offer) (d : Bool) (f : Option Flight) (t : HwTimers) (w : Parting)
      (p : Vector Peer 16) (n : Nat),
      Built s { s with
        engine := e, offered := o, holdoffDue := d, flight := f, timers := t, parting := w, peers := p, streak := n } :=
    fun _ _ _ _ _ _ _ _ => .other rfl rfl rfl
  exact h _ _ _ _ _ _ _ _

theorem built_makeMusterPending (s : State) : Built s s.makeMusterPending := by
  have h : ∀ q, Built s { s with musterPending := q } := fun _ => .other rfl rfl rfl
  exact h _

theorem built_endLoad (s : State) (image : List Byte) (hc hd : Bool) : Built s (s.endLoad image hc hd) := by
  have g : ∀ (t : State) (k : Nat) (c : Option Image),
      Built t { t with phase := .running, station := k, cfg := c } := fun _ _ _ => .other rfl rfl rfl
  have r : ∀ t : State, Built t ((((t.restartLines.restartMap).restartHighway hc hd).makeMusterPending).request .start) :=
    fun t => ((((built_restartLines t).trans (built_restartMap _)).trans (built_restartHighway _ _ _)).trans
      (built_makeMusterPending _)).trans (built_request _ _)
  unfold State.endLoad
  exact ((built_blockLoss s).trans (g _ s.station (readImage s.station image))).trans (r _)

/-- A rebuilt context has its queue ordered, with the returned entries in their places (R105). -/
theorem ctxStep_rebuilt (x : Ctx) : CtxStep x x.rebuilt := by
  refine ⟨fun h => ?_, fun _ => Nat.zero_le _⟩
  have key : ∀ (es : List Entry) (q : List Entry), Ordered q →
      Ordered (es.foldl (fun q e => insertBy Entry.before e.returned q) q) := by
    intro es
    induction es with
    | nil => exact fun q hq => hq
    | cons e es ih => exact fun q hq => ih _ (hq.insert _)
  exact key _ _ h

theorem built_warmBlocks (s : State) : Built s s.warmBlocks := by
  refine .tables rfl (fun l => ?_) (fun l => ?_)
  · by_cases h : l < 8
    · have e : s.warmBlocks.ctxOf l = (s.ctxOf l).rebuilt := entryAt_map _ _ _ _ l h
      rw [e]; exact ctxStep_rebuilt _
    · have e : ∀ t : State, t.ctxOf l = Ctx.fresh := fun t => by simp [State.ctxOf, entryAt, h]
      rw [e, e]; exact .refl _
  · by_cases h : l < 8
    · have e : s.warmBlocks.masOf l = Mas.fresh (s.masOf l).expected := entryAt_map _ _ _ _ l h
      rw [e]; exact fun _ => Nat.zero_le _
    · have e : ∀ t : State, t.masOf l = Mas.fresh none := fun t => by simp [State.masOf, entryAt, h]
      rw [e, e]; exact .refl _

theorem built_freeFilling (s : State) : Built s s.freeFilling := .foldl (fun t m => .free t m) _ s

theorem built_pullWithdrawn (s : State) : Built s s.pullWithdrawn.1 := by
  refine foldl_keeps (fun (a b : State × List (Nat × Nat)) => Built a.1 b.1) (fun _ => .refl _) (fun a b => a.trans b)
    _ ?_ (List.range 8) (s, [])
  intro acc l
  split
  · exact built_pullQueue _ _
  · exact .refl _

theorem built_touchAll (s : State) : Built s s.touchAll := .foldl built_touch _ s

theorem built_moveWithdrawn (s : State) : Built s (s.pullWithdrawn.1.reResolve s.pullWithdrawn.2).reexamine :=
  ((built_pullWithdrawn s).trans (built_reResolve _ _)).trans (built_reexamine _)

theorem built_warmRestart (s : State) (hc hd : Bool) : Built s (s.warmRestart hc hd) := by
  have h₀ : Built s { s with restart := s.restart.begun .warm } := .other rfl rfl rfl
  have h₁ := ((((h₀.trans (built_warmBlocks _)).trans (built_freeFilling _)).trans (built_restartLines _)).trans
    (built_restartMap _)).trans (built_restartHighway _ hc hd)
  have picks : ∀ t : State, Built t ((List.range 8).foldl (fun t l => if t.hasCtx l then t.pick l else t) t) :=
    fun t => .foldl (fun t l => .ite (built_pick t l) (.refl t)) _ t
  exact ((((h₁.trans (built_moveWithdrawn _)).trans (picks _)).trans (built_makeMusterPending _)).trans
    (built_request _ .start)).trans (built_touchAll _)

/-! ## The circuit request and the rest of a service message -/

theorem built_moveAdmin (a : Admin) (s : State) (c : Nat) : Built s (State.moveAdmin a s c) :=
  (built_setAdmin _ _ _).trans (built_updateCondition _ _)

theorem built_returnIn (s : State) (c : Nat) : Built s (s.returnIn c) := by
  have h : Built s (if (s.masOf (lineOf c)).mode = .hunt then s.setMas (lineOf c) (s.masOf (lineOf c)).toHunt else s) :=
    .ite (built_toHunt _ _) (.refl _)
  unfold State.returnIn
  exact .ite (h.trans (built_owePick _ _)) h

theorem built_pullQueues (s : State) (cs : List Nat) : Built s (s.pullQueues cs).1 :=
  foldl_keeps (fun (a b : State × List (Nat × Nat)) => Built a.1 b.1) (fun _ => .refl _) (fun a b => a.trans b)
    (fun acc c => let p := acc.1.pullQueue (lineOf c); (p.1, acc.2 ++ p.2)) (fun _ _ => built_pullQueue _ _) cs (s, [])

theorem built_circuitRequest (s : State) (img : Image) (q : Rest) : Built s (s.circuitRequest img q).1 := by
  have move : ∀ (a : Admin) (t : State) (cs : List Nat), Built t (cs.foldl (State.moveAdmin a) t) :=
    fun a t cs => .foldl (built_moveAdmin a) cs t
  have pull : ∀ (t : State) (cs : List Nat), Built t ((t.pullQueues cs).1.reResolve (t.pullQueues cs).2) :=
    fun t cs => (built_pullQueues t cs).trans (built_reResolve _ _)
  have test : ∀ (t : State) (cs : List Nat),
      Built t (cs.foldl (fun t c => t.withdrawalTest (lineOf c) true none) t) :=
    fun t cs => .foldl (fun _ _ => built_withdrawalTest _ _ _ _) cs t
  have back : ∀ (t : State) (cs : List Nat), Built t (cs.foldl State.returnIn t) := fun t cs => .foldl built_returnIn cs t
  unfold State.circuitRequest
  exact (((((move _ s _).trans (move _ _ _)).trans (pull _ _)).trans (test _ _)).trans (back _ _)).trans (built_reexamine _)

theorem built_moveDiverted (s : State) (c : Nat) : Built s (s.moveDiverted c) :=
  ((built_pullQueue s _).trans (built_reResolve _ _)).trans (built_reexamine _)

theorem built_restSteps (s : State) (img : Image) (q : Rest) : Built s (s.restSteps img q) := by
  have h : Built s ((q.moves.foldl State.moveDiverted s).requestIfAny img q).1 := by
    refine (Built.foldl built_moveDiverted q.moves s).trans ?_
    unfold State.requestIfAny
    split
    · exact .refl _
    · exact built_circuitRequest _ _ _
  unfold State.restSteps
  exact .ite h (h.trans (built_request _ _))

theorem built_fixedRestart (s : State) (straps : BitVec 4) (hc hd : Bool) (k : Option RestartKind) :
    Built s (s.fixedRestart straps hc hd k) := by
  have h : Built s { s with restart := s.restart.begun .cold } := .other rfl rfl rfl
  unfold State.fixedRestart
  split
  · exact ((built_settle _).trans (built_warmRestart _ _ _)).trans (built_finish _)
  · exact h.trans (built_beginLoad _ _)
  all_goals exact built_finish _

theorem built_serviceRest (s : State) (straps : BitVec 4) (hc hd : Bool) : Built s (s.serviceRest straps hc hd) := by
  have h : ∀ qs, Built s { s with rests := qs } := fun _ => .other rfl rfl rfl
  unfold State.serviceRest
  split
  · exact ((h _).trans (built_restSteps _ _ _)).trans (built_fixedRestart _ _ _ _ _)
  · exact .refl s

/-! ## The commands -/

theorem built_arrival (s : State) (img : Image) (l : Nat) (code : Code) : Built s (s.arrival img l code) := by
  have h : ∀ x, Built s (s.setLine l x) := fun x => built_setLine s l x
  have key : ∀ (x : Line) (o : Option Symbol), Built s (o.elim (s.setLine l x) ((s.setLine l x).deliver img l)) := by
    intro x o
    cases o with
    | none => exact h x
    | some σ => exact (h x).trans (built_deliver _ _ _ _)
  exact key _ _

theorem built_lineFails (s : State) (img : Image) (l : Nat) : Built s (s.lineFails img l) := by
  have h := (built_updateCondition s l).trans (built_dispatchFailure (s.updateCondition l) l)
  unfold State.lineFails
  split
  · exact built_lineOpen _ _ _ _
  · exact (h.trans (built_lineOpen _ _ _ _)).trans (built_request _ _)
  · exact (h.trans (built_withdrawalTest _ _ _ _)).trans (built_lineOpen _ _ _ _)

theorem built_lineRestored (s : State) (l : Nat) : Built s (s.lineRestored l) := by
  have h := built_updateCondition s l
  unfold State.lineRestored
  dsimp only
  exact .ite (((h.trans (built_owePick _ _)).trans (built_reexamine _)).trans (built_request _ _)) h

theorem built_expireSlot (s : State) (x : Nat × Nat) : Built s (s.expireSlot x) := by
  have h := built_sendToIntercept s x.1 x.2
  unfold State.expireSlot
  dsimp only
  split
  · exact h.trans (built_setSlotState _ _ _ _)
  all_goals exact h

/-- What a command leads to is `Built`, when what it leads to where its event comes about is. -/
theorem built_whenever {g : Bool} {s t u : State} (h : Built s t) (e : whenever g s t = .next u) : Built s u := by
  simp only [whenever, Host.Outcome.next.injEq] at e
  subst e
  exact .ite h (.refl s)

theorem built_onLine {l : Nat} {s u : State} {o : Host.Outcome State Fault Refusal}
    (h : o = .next u → Built s u) (e : onLine l o = .next u) : Built s u := by
  unfold onLine at e
  split at e
  · exact h e
  · cases e

theorem built_elim {α : Type} {s : State} {f : α → State} (o : Option α) (h : ∀ a, Built s (f a)) :
    Built s (o.elim s f) := by
  cases o with
  | none => exact .refl s
  | some a => exact h a

/-- Every command is `Built`. -/
theorem built_exec (c : Instr) (s t : State) (h : exec c s = .next t) : Built s t := by
  cases c with
  | powerOn => exact built_whenever (built_beginHold _ _) h
  | supplyDip => cases h; exact built_hardwareCause _ _
  | restartPin => cases h; exact built_hardwareCause _ _
  | restartHoldEnd straps => exact built_whenever (built_beginLoad _ _) h
  | configurationLoadEnd image hc hd => exact built_whenever ((built_endLoad _ _ _ _).trans (built_finish _)) h
  | rxdLevelChange l m =>
    refine built_onLine (fun e => ?_) h
    cases e
    unfold State.rxdLevel
    exact .ite (.refl _) (.ite (built_setLine _ _ _) (built_setLine _ _ _))
  | characterArrival l code =>
    exact built_onLine (built_whenever (built_elim _ fun img => (built_arrival _ img _ _).trans (built_finish _))) h
  | openLineExpiry l =>
    exact built_onLine (built_whenever (built_elim _ fun img =>
      ((built_setLine _ _ _).trans (built_lineFails _ img _)).trans (built_finish _))) h
  | restoreExpiry l =>
    exact built_onLine (built_whenever (((built_setLine _ _ _).trans (built_lineRestored _ _)).trans (built_finish _))) h
  | characterCompletion l =>
    exact built_onLine (built_whenever
      (((built_setLine _ _ _).trans (built_dispatchCompletion _ _)).trans (built_finish _))) h
  | drainingEnd l => exact built_onLine (built_whenever (built_elim _ fun _ => built_setLine _ _ _)) h
  | officeMinuteAdvance =>
    have m : Built s { s with minute := s.minute + 1 } := .other rfl rfl rfl
    exact built_whenever ((m.trans (built_touchAll _)).trans (built_finish _)) h
  | holdLimitExpiry => exact built_whenever ((Built.foldl built_expireSlot _ s).trans (built_finish _)) h
  | frameStart =>
    have m : ∀ f, Built s (s.startFrame f) := fun _ => .other rfl rfl rfl
    exact built_whenever (built_elim _ fun o : Offer => m o.frame) h
  | frameStartHeard =>
    have m : Built s { s with engine := .listening, flight := some (Flight.fresh none none), timers := .high, parting := .released } :=
      .other rfl rfl rfl
    exact built_whenever m h
  | arbitrationLost => exact built_whenever (built_sample _ _) h
  | collision => exact built_whenever (built_sample _ _) h
  | veto =>
    exact built_whenever (built_elim _ fun f =>
      .ite ((built_endListening _ _ _).trans (built_finish _)) (built_sample _ _)) h
  | listenerParityVeto => exact built_whenever (built_elim _ fun _ => built_sample _ _) h
  | frameDiscard => exact built_whenever (built_elim _ fun _ => built_sample _ _) h
  | carryReservation =>
    exact built_whenever (built_elim _ fun _ => (built_reserveCarry _ _).trans (built_finish _)) h
  | frameEndedEarly b =>
    exact built_whenever (built_elim _ fun _ => (built_endListening _ _ _).trans (built_finish _)) h
  | carryCommit => exact built_whenever (built_elim _ fun _ => built_applyFrame _ _) h
  | conditionApply => exact built_whenever (built_elim _ fun _ => built_applyFrame _ _) h
  | musterApply => exact built_whenever (built_elim _ fun _ => built_applyFrame _ _) h
  | listenerFrameEnd =>
    exact built_whenever (built_elim _ fun _ => (built_endListening _ _ _).trans (built_finish _)) h
  | frameCompleted hd => exact built_whenever (built_elim _ fun _ => built_senderReceipt _ _ _) h
  | notBeforePasses k =>
    have e : onStation k (whenever (s.waits k) s (s.setPeer k { s.peer k with notBefore := .passed }).finish) =
      .next t := h
    unfold onStation at e
    split at e
    · exact built_whenever ((built_setPeer _ _ _).trans (built_finish _)) e
    · cases e
  | stallExpiry => exact built_whenever ((built_abandonFrame _ _).trans (built_finish _)) h
  | stuckExpiry =>
    have m : ∀ u : State, Built u { u with engine := .stuck, timers := .outside false, parting := .released } := fun _ => .other rfl rfl rfl
    exact built_whenever ((((built_abandonFrame s false).trans (m _)).trans (built_request _ _)).trans (built_finish _)) h
  | releaseExpiry hd =>
    have m : Built s ({ s with timers := .outside hd }.restEngine) := .other rfl rfl rfl
    exact built_whenever ((m.trans (built_request _ _)).trans (built_finish _)) h
  | serviceMessageRest straps hc hd => exact built_whenever (built_serviceRest _ _ _ _) h
  | startSample l => exact built_onLine (built_whenever (built_setLine _ _ _)) h
  | insertedShiftEnd l => exact built_onLine (built_whenever (built_elim _ fun _ => built_setLine _ _ _)) h
  | bitSample hd => exact built_whenever (.ite (built_sample _ _) (built_clockRises _ _)) h
  | receiptSlotBegin =>
    have m : ∀ f, Built s (s.slotBegins f) := fun _ => .other rfl rfl rfl
    exact built_whenever (.ite (built_elim _ m) (built_clockFalls _)) h
  | startOrStopNotOwn b =>
    have m : Built s (s.foreignCondition b) := .ite (built_abandonedOutcome _ _ _) (built_vetoedOutcome _ _)
    exact built_whenever (.ite (m.trans (built_finish _)) (.ite (built_stopSeen _ _) (.refl s))) h
  | supplyRemoved =>
    have m : ∀ u : State, Built u { u with phase := .unpowered, restart := .afterPowerOn } := fun _ => .other rfl rfl rfl
    exact built_whenever ((built_blockLoss s).trans (m _)) h

/-- Every step is `Built`. -/
theorem built_step {s t : State} (h : step s = .next t) : Built s t := by
  unfold step at h
  split at h
  · cases h; exact .refl s
  · have p : ∀ cs, Built s { s with pending := cs } := fun _ => .other rfl rfl rfl
    exact (p _).trans (built_exec _ _ _ h)

end Sys2Proof.Machine
end

