-- ==== Sys2Proof/Laws/Lines.lean ====
section
/-! SUPPORT. What the assembler, the dispatch and the withdrawal test of one line leave as it was: `Lined l s t`. -/

namespace Sys2Proof.Machine

/-- What an event of line `l` leaves while its assembler, its dispatch and the resolver work: the receive sides, the
other lines' assemblers, admin states and conditions, the peers but for growing owed sets, the frame engine. -/
structure Lined (l : Nat) (s t : State) : Prop where
  phase : t.phase = s.phase
  restart : t.restart = s.restart
  station : t.station = s.station
  cfg : t.cfg = s.cfg
  cfgCs : t.cfgCs = s.cfgCs
  cfgOut : t.cfgOut = s.cfgOut
  engine : t.engine = s.engine
  offered : t.offered = s.offered
  holdoffDue : t.holdoffDue = s.holdoffDue
  flight : t.flight = s.flight
  timers : t.timers = s.timers
  parting : t.parting = s.parting
  musterPending : t.musterPending = s.musterPending
  streak : t.streak = s.streak
  minute : t.minute = s.minute
  oalm : t.oalm = s.oalm
  pending : t.pending = s.pending
  receive : ∀ k, (t.line k).receiveSide = (s.line k).receiveSide
  mas : ∀ k, k ≠ l → t.masOf k = s.masOf k
  admin : ∀ k, k ≠ l → t.adminOf k = s.adminOf k
  condition : ∀ c, c ≠ s.circuit l → (t.mapOf c).condition = (s.mapOf c).condition
  kind : ∀ c, (t.mapOf c).kind = (s.mapOf c).kind
  peer : ∀ k, { t.peer k with owed := (s.peer k).owed } = s.peer k

theorem Lined.trans {l : Nat} {s t u : State} (a : Lined l s t) (b : Lined l t u) : Lined l s u where
  phase := b.phase.trans a.phase
  restart := b.restart.trans a.restart
  station := b.station.trans a.station
  cfg := b.cfg.trans a.cfg
  cfgCs := b.cfgCs.trans a.cfgCs
  cfgOut := b.cfgOut.trans a.cfgOut
  engine := b.engine.trans a.engine
  offered := b.offered.trans a.offered
  holdoffDue := b.holdoffDue.trans a.holdoffDue
  flight := b.flight.trans a.flight
  timers := b.timers.trans a.timers
  parting := b.parting.trans a.parting
  musterPending := b.musterPending.trans a.musterPending
  streak := b.streak.trans a.streak
  minute := b.minute.trans a.minute
  oalm := b.oalm.trans a.oalm
  pending := b.pending.trans a.pending
  receive k := (b.receive k).trans (a.receive k)
  mas k h := (b.mas k h).trans (a.mas k h)
  admin k h := (b.admin k h).trans (a.admin k h)
  condition c h := (b.condition c (by rwa [State.circuit, a.station])).trans (a.condition c h)
  kind c := (b.kind c).trans (a.kind c)
  peer k := by rw [← a.peer k, ← b.peer k]

theorem Resolved.lined {s t : State} (h : Resolved s t) (l : Nat) : Lined l s t where
  phase := h.phase
  restart := h.restart
  station := h.station
  cfg := h.cfg
  cfgCs := h.cfgCs
  cfgOut := h.cfgOut
  engine := h.engine
  offered := h.offered
  holdoffDue := h.holdoffDue
  flight := h.flight
  timers := h.timers
  parting := h.parting
  musterPending := h.musterPending
  streak := h.streak
  minute := h.minute
  oalm := h.oalm
  pending := h.pending
  receive k := by unfold State.line; rw [h.lines]
  mas k _ := by unfold State.masOf; rw [h.mas]
  admin k _ := by unfold State.adminOf; rw [h.admin]
  condition c _ := h.condition c
  kind c := h.kind c
  peer k := h.peer k

theorem Sent.lined {s t : State} (h : Sent s t) (l : Nat) : Lined l s t where
  phase := h.phase
  restart := h.restart
  station := h.station
  cfg := h.cfg
  cfgCs := h.cfgCs
  cfgOut := h.cfgOut
  engine := h.engine
  offered := h.offered
  holdoffDue := h.holdoffDue
  flight := h.flight
  timers := h.timers
  parting := h.parting
  musterPending := h.musterPending
  streak := h.streak
  minute := h.minute
  oalm := h.oalm
  pending := h.pending
  receive := h.receive
  mas k _ := by unfold State.masOf; rw [h.mas]
  admin k _ := by unfold State.adminOf; rw [h.admin]
  condition c _ := by unfold State.mapOf; rw [h.map]
  kind c := by unfold State.mapOf; rw [h.map]
  peer k := by unfold State.peer; rw [h.peers]

theorem Lined.refl (l : Nat) (s : State) : Lined l s s := (Resolved.refl s).lined l

theorem Filed.lined {s t : State} (h : Filed s t) (l : Nat) : Lined l s t := h.resolved.lined l

theorem Lined.ite {l : Nat} {s t u : State} {p : Prop} [Decidable p] (ht : Lined l s t) (hu : Lined l s u) :
    Lined l s (if p then t else u) := by split <;> assumption

theorem Lined.foldl {l : Nat} {α : Type} {f : State → α → State} (h : ∀ s a, Lined l s (f s a)) (xs : List α)
    (s : State) : Lined l s (xs.foldl f s) :=
  foldl_keeps (Lined l) (Lined.refl l) Lined.trans f h xs s

/-- Only the assembler of the line changes. -/
theorem lined_setMas (s : State) (l : Nat) (x : Mas) : Lined l s (s.setMas l x) := by
  have h : ∀ k, k ≠ l → (s.setMas l x).masOf k = s.masOf k := fun k hk => masOf_setMas_ne s l k x (Ne.symm hk)
  constructor <;> intros <;> first | rfl | exact h _ ‹_›

/-- An assembler then written. -/
theorem Lined.thenMas {l : Nat} {s t : State} (h : Lined l s t) (x : Mas) : Lined l s (t.setMas l x) :=
  h.trans (lined_setMas t l x)

/-- Only the admin state of the line changes. -/
theorem lined_setAdmin (s : State) (l : Nat) (x : Admin) : Lined l s (s.setAdmin l x) := by
  have h : ∀ k, k ≠ l → (s.setAdmin l x).adminOf k = s.adminOf k := fun k hk => adminOf_setAdmin_ne s l k x (Ne.symm hk)
  constructor <;> intros <;> first | rfl | exact h _ ‹_›

/-- Only the condition of the line's circuit changes. -/
theorem lined_setCondition (s : State) (l : Nat) (c : Condition) :
    Lined l s (s.setMap (s.circuit l) { s.mapOf (s.circuit l) with condition := c }) := by
  have h₁ : ∀ k, k ≠ s.circuit l →
      ((s.setMap (s.circuit l) { s.mapOf (s.circuit l) with condition := c }).mapOf k).condition =
        (s.mapOf k).condition := by
    intro k hk; rw [mapOf_setMap_ne _ _ _ _ (Ne.symm hk)]
  have h₂ : ∀ k, ((s.setMap (s.circuit l) { s.mapOf (s.circuit l) with condition := c }).mapOf k).kind =
      (s.mapOf k).kind := by
    intro k
    refine mapOf_setMap_of (P := fun y => y.kind = (s.mapOf k).kind) s _ k _ ?_ rfl
    rintro rfl; rfl
  constructor <;> intros <;> first | rfl | exact h₁ _ ‹_› | exact h₂ _

theorem lined_updateCondition (s : State) (l : Nat) : Lined l s (s.updateCondition l) := by
  unfold State.updateCondition
  exact .ite (.refl _ _) ((lined_setCondition _ _ _).trans ((resolved_owe _ _).lined l))

theorem lined_withdrawalTest (s : State) (l : Nat) (q : Bool) (c : Option FailureCounts) :
    Lined l s (s.withdrawalTest l q c) := by
  unfold State.withdrawalTest
  refine .ite ?_ (.refl _ _)
  dsimp only
  have h₁ := (lined_setAdmin s l .withdrawn).trans (lined_updateCondition _ l)
  have h₂ := h₁.trans (Lined.ite (p := (((s.setAdmin l .withdrawn).updateCondition l).masOf l).mode = .discard)
    (lined_setMas _ l (((s.setAdmin l .withdrawn).updateCondition l).masOf l).toHunt) (.refl _ _))
  exact .ite h₂ (h₂.trans ((resolved_request _ _).lined l))

/-! ## The dispatch -/

theorem lined_pick (s : State) (l : Nat) : Lined l s (s.pick l) := (sent_pick s l).lined l

theorem lined_pickAndTest (s : State) (l : Nat) : Lined l s (s.pickAndTest l) :=
  (lined_pick s l).trans (.ite (lined_withdrawalTest _ _ _ _) (.refl _ _))

theorem lined_setCtx (s : State) (l : Nat) (x : Ctx) : Lined l s (s.setCtx l x) := (sent_setCtx s l x).lined l

theorem lined_completeEntry (s : State) (l : Nat) (e : Entry) : Lined l s (s.completeEntry l e) := by
  have h : Lined l s (e.slots.foldl (fun t i => t.finishSlot e.record i) s) :=
    .foldl (fun _ _ => (filed_finishSlot _ _ _).lined l) _ s
  exact (h.trans (lined_setCtx _ l _)).trans ((filed_touchLine _ _).lined l)

theorem lined_reResolve (s : State) (l : Nat) (q : List (Nat × Nat)) : Lined l s (s.reResolve q) :=
  (resolved_reResolve s q).lined l

theorem lined_reexamine (s : State) (l : Nat) : Lined l s s.reexamine := (resolved_reexamine s).lined l

theorem lined_entryDone (s : State) (l : Nat) (e : Entry) : Lined l s (s.entryDone l e) :=
  ((lined_completeEntry s l e).trans (lined_reexamine _ l)).trans (lined_pickAndTest _ _)

theorem lined_makeRoom (s : State) (l : Nat) (x : Ctx) : Lined l s (s.makeRoom l x) := by
  unfold State.makeRoom
  refine .ite (lined_setCtx _ _ _) ?_
  split
  · exact lined_setCtx _ _ _
  · exact .ite ((((lined_setCtx _ l _).trans ((filed_touchLine _ _).lined l)).trans (lined_reResolve _ l _)).trans
      (lined_reexamine _ l)) (lined_setCtx _ _ _)

theorem lined_breakingEnd (s : State) (l : Nat) (e : Entry) : Lined l s (s.breakingEnd l e) :=
  ((lined_makeRoom s l _).trans (lined_setCtx _ l _)).trans (lined_pickAndTest _ _)

theorem lined_offer (s : State) (l : Nat) (it : Item) : Lined l s (s.offer l it) := (sent_offer s l it).lined l

theorem lined_beginFraming (s : State) (l : Nat) (x : Ctx) (d : SendState) (items : List Item) :
    Lined l s (s.beginFraming l x d items) := (sent_beginFraming s l x d items).lined l

theorem lined_offerText (s : State) (img : Image) (l : Nat) (e : Entry) : Lined l s (s.offerText img l e) := by
  unfold State.offerText
  dsimp only
  split
  · exact (lined_setCtx _ l _).trans (lined_offer _ _ _)
  · split
    · exact (lined_setCtx _ l _).trans (lined_offer _ _ _)
    · exact .refl _ s

theorem lined_takeBreak (s : State) (img : Image) (l : Nat) : Lined l s (s.takeBreak img l) := by
  unfold State.takeBreak
  exact lined_beginFraming _ _ _ _ _

theorem lined_toTrailer (s : State) (img : Image) (l : Nat) (e : Entry) : Lined l s (s.toTrailer img l e) :=
  lined_beginFraming _ _ _ _ _

theorem lined_toText (s : State) (img : Image) (l : Nat) (e : Entry) : Lined l s (s.toText img l e) := by
  unfold State.toText
  exact .ite (lined_takeBreak _ _ _) (.ite ((lined_setCtx _ l _).trans (lined_offerText _ _ _ _)) (lined_toTrailer _ _ _ _))

theorem lined_textDone (s : State) (img : Image) (l : Nat) (e : Entry) : Lined l s (s.textDone img l e) := by
  unfold State.textDone
  dsimp only
  exact .ite ((lined_setCtx _ l _).trans (lined_toTrailer _ _ _ _)) (.ite ((lined_setCtx _ l _).trans (lined_takeBreak _ _ _))
    ((lined_setCtx _ l _).trans (lined_offerText _ _ _ _)))

theorem lined_framingDone (s : State) (img : Image) (l : Nat) (e : Entry) : Lined l s (s.framingDone img l e) := by
  have h := lined_setCtx s l { s.ctxOf l with pos := (s.ctxOf l).pos + 1 }
  unfold State.framingDone
  dsimp only
  split
  · exact h.trans (lined_offer _ _ _)
  · split
    · exact h.trans (lined_toText _ _ _ _)
    · exact h.trans (lined_toText _ _ _ _)
    · exact h.trans (lined_entryDone _ _ _)
    · exact h.trans (lined_breakingEnd _ _ _)
    · exact h
    · exact h

/-- What the dispatch does with a character completion (R92). -/
theorem lined_dispatchCompletion (s : State) (l : Nat) : Lined l s (s.dispatchCompletion l) := by
  unfold State.dispatchCompletion
  split
  · split
    · exact .refl _ s
    · exact lined_textDone _ _ _ _
    all_goals exact lined_framingDone _ _ _ _
  · exact .refl _ s

theorem lined_abandonItem (s : State) (l : Nat) : Lined l s (s.abandonItem l) :=
  (sent_setLine s l _ (Line.abandon_receiveSide _)).lined l

theorem lined_giveUpCurrent (s : State) (l : Nat) : Lined l s (s.giveUpCurrent l).1 := by
  unfold State.giveUpCurrent
  dsimp only
  split
  · exact .refl _ s
  · split
    · exact (lined_abandonItem _ _).trans (lined_completeEntry _ _ _)
    · exact (lined_abandonItem s l).trans (lined_setCtx _ _ _)

/-- A line failure at the dispatch (R167, R168). -/
theorem lined_dispatchFailure (s : State) (l : Nat) : Lined l s (s.dispatchFailure l).1 := by
  unfold State.dispatchFailure
  split
  · have h := (lined_giveUpCurrent s l).trans
      (lined_setCtx _ l { (s.giveUpCurrent l).1.ctxOf l with stack := [], queue := [] })
    exact ((h.trans (.ite (.refl _ _) ((filed_touchLine _ _).lined l))).trans (lined_reResolve _ l _)).trans
      (lined_reexamine _ l)
  · exact .refl _ s

/-! ## The assembler -/

theorem lined_closeRecord (s : State) (l m : Nat) (w : Option MutReason) : Lined l s (s.closeRecord l m w) :=
  (resolved_closeRecord s l m w).lined l

theorem lined_closeAll (s : State) (l : Nat) (w : MutReason) (ms : List Nat) : Lined l s (s.closeAll l w ms) :=
  (resolved_closeAll s l w ms).lined l

theorem lined_request (s : State) (l : Nat) (r : Report) : Lined l s (s.request r) := (resolved_request s r).lined l

theorem lined_storeSymbol (s : State) (img : Image) (l : Nat) (σ : Symbol) : Lined l s (s.storeSymbol img l σ).1 := by
  have put : ∀ (t : State) (m : Nat),
      Lined l t (if means img .lf σ then (t.write m σ).setMas l { (t.write m σ).masOf l with lineStart := true }
        else t.write m σ) :=
    fun t m => .ite (((filed_write t m σ).lined l).thenMas _) ((filed_write t m σ).lined l)
  unfold State.storeSymbol
  split
  · exact .refl _ s
  · dsimp only
    split
    · exact .refl _ s
    · split
      · exact put _ _
      · split
        · exact ((filed_grantBlock ‹_›).lined l).trans (put _ _)
        · exact .refl _ s

theorem lined_truncate (s : State) (l : Nat) (w : MutReason) (b : Bool) : Lined l s (s.truncate l w b) := by
  unfold State.truncate
  split
  · exact .refl _ s
  · exact (lined_closeRecord _ _ _ _).thenMas _

theorem lined_storeAll (img : Image) (l : Nat) (σs : List Symbol) : ∀ s : State, Lined l s (s.storeAll img l σs).1 := by
  induction σs with
  | nil => exact fun s => .refl _ s
  | cons σ rest ih =>
    intro s
    have h := lined_storeSymbol s img l σ
    unfold State.storeAll
    split
    · rename_i e; rw [e] at h; exact h.trans (ih _)
    · rename_i e; rw [e] at h; exact h.trans (lined_truncate _ _ _ _)

theorem lined_repeatMark (s : State) (l n : Nat) : Lined l s (s.repeatMark l n) := by
  unfold State.repeatMark
  split
  · exact .refl _ s
  · exact (lined_setMas _ _ _).trans ((filed_freeRecord _ _).lined l)

theorem lined_serialReports (s : State) (l n : Nat) (e : Option Nat) (o : SerialOutcome) :
    Lined l s (s.serialReports l n e o) := by
  unfold State.serialReports
  split
  · exact .refl _ s
  · exact lined_request _ _ _
  · exact lined_request _ _ _

theorem lined_goodHeader (s : State) (l : Nat) (h : Header) : Lined l s (s.goodHeader l h) := by
  have h₁ : Lined l s (h.rpt.elim s (s.repeatMark l)) := by
    cases h.rpt with
    | none => exact .refl _ s
    | some n => exact lined_repeatMark _ _ _
  unfold State.goodHeader
  dsimp only
  split
  · rename_i m t ht
    have h₂ := h₁.trans ((lined_setMas (h.rpt.elim s (s.repeatMark l)) l _).trans ((filed_grantRecord ht).lined l))
    exact ((h₂.trans ((filed_setRecord t m _).lined l)).thenMas _).trans (lined_serialReports _ _ _ _ _)
  · exact (((h₁.thenMas _).thenMas _).trans (lined_serialReports _ _ _ _ _)).trans (lined_request _ _ _)

theorem lined_beginBadHead (s : State) (l m : Nat) : Lined l s (s.beginBadHead l m) :=
  ((filed_setRecord s m _).lined l).thenMas _

theorem lined_badHeader (s : State) (img : Image) (l : Nat) (o : Option Symbol) : Lined l s (s.badHeader img l o) := by
  unfold State.badHeader
  dsimp only
  split
  · rename_i m t ht
    have h := (((filed_grantRecord ht).lined l).trans (lined_beginBadHead t l m)).trans (lined_storeAll img l
      ((s.masOf l).header ++ o.elim [crSym img, lfSym img] fun σ => [σ]) _)
    exact .ite h (h.thenMas _)
  · exact (lined_setMas s l _).trans (lined_request _ _ _)

theorem lined_headerCheck (s : State) (img : Image) (l : Nat) (o : Option Symbol) : Lined l s (s.headerCheck img l o) := by
  unfold State.headerCheck
  split
  · exact lined_goodHeader _ _ _
  · exact lined_badHeader _ _ _ _

theorem lined_resumeLine (s : State) (l n : Nat) (b : Bool) : Lined l s (s.resumeLine l n b) := by
  unfold State.resumeLine
  split
  · exact .refl _ s
  · exact (lined_closeAll _ _ _ _).thenMas _

theorem lined_breakLine (s : State) (img : Image) (l m : Nat) : Lined l s (s.breakLine img l m) := by
  unfold State.breakLine
  dsimp only
  have h := (filed_rollback s m (breakLength img (s.record m).text)).lined l
  exact Lined.thenMas (.ite (h.trans (lined_closeAll _ _ _ _)) h) _

theorem lined_newHeader (s : State) (l : Nat) (hs : List Symbol) : Lined l s (s.newHeader l hs) := by
  unfold State.newHeader
  exact .ite (lined_setMas _ _ _) (lined_setMas _ _ _)

theorem lined_huntSymbol (s : State) (img : Image) (l : Nat) (σ : Symbol) : Lined l s (s.huntSymbol img l σ) := by
  unfold State.huntSymbol
  refine .ite (lined_setMas _ _ _) ?_
  dsimp only
  exact .ite (lined_newHeader _ _ _) (.ite ((lined_setMas _ _ _).trans (lined_resumeLine _ _ _ _))
    (.ite (lined_setMas _ _ _) (lined_setMas _ _ _)))

theorem lined_headerSymbol (s : State) (img : Image) (l : Nat) (σ : Symbol) : Lined l s (s.headerSymbol img l σ) := by
  unfold State.headerSymbol
  exact .ite (.refl _ _) (.ite (lined_headerCheck _ _ _ _) (.ite (lined_headerCheck _ _ _ _) (lined_setMas _ _ _)))

theorem lined_endSequence (s : State) (img : Image) (l m : Nat) : Lined l s (s.endSequence img l m) := by
  unfold State.endSequence
  exact (((filed_rollback _ _ _).lined l).trans (lined_closeRecord _ _ _ _)).thenMas _

theorem lined_depart (s : State) (img : Image) (l : Nat) (look : List Symbol) : Lined l s (s.depart img l look) :=
  (lined_setMas s l _).trans (lined_storeAll _ _ _ _)

theorem lined_textTake (s : State) (img : Image) (l m : Nat) (σ : Symbol) : Lined l s (s.textTake img l m σ) := by
  unfold State.textTake
  dsimp only
  refine .ite (.ite (lined_endSequence _ _ _ _) (.ite ?_ (.ite (lined_breakLine _ _ _ _) (.ite (lined_depart _ _ _ _)
    (.ite (lined_setMas _ _ _) (lined_depart _ _ _ _)))))) (lined_depart _ _ _ _)
  exact (lined_closeRecord _ _ _ _).trans (lined_newHeader _ _ _)

theorem lined_textSymbol (s : State) (img : Image) (l : Nat) (σ : Symbol) : Lined l s (s.textSymbol img l σ) := by
  unfold State.textSymbol
  dsimp only
  split
  · exact .refl _ s
  · exact .ite (lined_setMas _ _ _) ((lined_setMas _ _ _).trans (lined_textTake _ _ _ _ _))

theorem lined_discardSymbol (s : State) (img : Image) (l : Nat) (σ : Symbol) : Lined l s (s.discardSymbol img l σ) := by
  unfold State.discardSymbol
  dsimp only
  exact .ite (.ite (lined_setMas _ _ _) (.ite (lined_newHeader _ _ _) (.ite (lined_setMas _ _ _) (lined_setMas _ _ _))))
    (lined_setMas _ _ _)

/-- What the assembler of line `l` does with a symbol (R25). -/
theorem lined_takeSymbol (s : State) (img : Image) (l : Nat) (σ : Symbol) : Lined l s (s.takeSymbol img l σ) := by
  unfold State.takeSymbol
  dsimp only
  refine Lined.trans ?_ (lined_withdrawalTest _ _ _ _)
  split
  · exact lined_huntSymbol _ _ _ _
  · exact lined_headerSymbol _ _ _ _
  · exact lined_textSymbol _ _ _ _
  · exact lined_discardSymbol _ _ _ _

theorem lined_deliver (s : State) (img : Image) (l : Nat) (σ : Symbol) : Lined l s (s.deliver img l σ) :=
  .ite (.refl _ _) (lined_takeSymbol _ _ _ _)

theorem lined_closeUnderWay (s : State) (img : Image) (l : Nat) : Lined l s (s.closeUnderWay img l) := by
  unfold State.closeUnderWay
  dsimp only
  split
  · exact .refl _ s
  · exact .refl _ s
  · split
    · rename_i m t ht
      have h := (((filed_grantRecord ht).lined l).trans (lined_beginBadHead t l m)).trans
        (lined_storeAll img l (s.masOf l).header _)
      exact .ite h (h.trans (lined_closeRecord _ _ _ _))
    · exact lined_request _ _ _
  · split
    · exact .refl _ s
    · have h := lined_storeAll img l (s.masOf l).look s
      exact .ite h (h.trans (lined_closeRecord _ _ _ _))

/-- The line-open event at the assembler (R169). -/
theorem lined_lineOpen (s : State) (img : Image) (l : Nat) (c : Option FailureCounts) : Lined l s (s.lineOpen img l c) := by
  unfold State.lineOpen
  exact (((lined_closeUnderWay s img l).thenMas _).trans (lined_withdrawalTest _ _ _ _)).trans (lined_closeAll _ _ _ _)

/-- A line failure (R167, R169). -/
theorem lined_lineFails (s : State) (img : Image) (l : Nat) : Lined l s (s.lineFails img l) := by
  have h := (lined_updateCondition s l).trans (lined_dispatchFailure _ l)
  unfold State.lineFails
  split
  · exact lined_lineOpen _ _ _ _
  · exact (h.trans (lined_lineOpen _ _ _ _)).trans (lined_request _ _ _)
  · exact (h.trans (lined_withdrawalTest _ _ _ _)).trans (lined_lineOpen _ _ _ _)

/-- A line restored (R170). -/
theorem lined_lineRestored (s : State) (l : Nat) : Lined l s (s.lineRestored l) := by
  have h := lined_updateCondition s l
  unfold State.lineRestored
  exact .ite (((h.trans ((filed_owePick _ _).lined l)).trans (lined_reexamine _ l)).trans (lined_request _ _ _)) h

/-! ## The code-unit samples (R4, R5) -/

/-- The units of a code form that code. -/
theorem codeOfUnits_unitLevels (code : Code) : codeOfUnits (unitLevels code) = code := by
  revert code; decide

/-- After the five samples the receiver is in STOP with the five levels read, and nothing else has changed. -/
theorem sampleUnits_unitLevels (x : Line) (code : Code) :
    x.sampleUnits (unitLevels code) = ({ x with rx := .stop }, unitLevels code) := rfl

/-- A character's arrival does not read the receiver's state. -/
theorem arrive_stop (img : Image) (x : Line) (code : Code) : Line.arrive img { x with rx := .stop } code = x.arrive img code := by
  unfold Line.arrive
  split
  · rcases meaningOf img x.rxCase code with _ | (_ | _ | _ | _ | _ | _ | _ | _ | _) <;> rfl
  · rfl

/-- What a character's samples and its arrival do. -/
theorem arrival_eq (s : State) (img : Image) (l : Nat) (code : Code) :
    s.arrival img l code =
      ((s.line l).arrive img code).2.elim (s.setLine l ((s.line l).arrive img code).1)
        ((s.setLine l ((s.line l).arrive img code).1).deliver img l) := by
  unfold State.arrival
  simp only [sampleUnits_unitLevels, codeOfUnits_unitLevels, arrive_stop]

end Sys2Proof.Machine
end

