-- ==== Sys2Proof/Laws/PerInstr.lean ====
section
/-! SUPPORT. What is said of every command as syntax, constructor by constructor. -/

namespace Sys2Proof

/-- The line a command names (R1). -/
def Instr.lineOf : Instr → Option Nat
  | .rxdLevelChange l _ | .characterArrival l _ | .openLineExpiry l | .restoreExpiry l => some l
  | .characterCompletion l | .drainingEnd l | .startSample l | .insertedShiftEnd l => some l
  | _ => none

/-- The peer a command names (R141). -/
def Instr.peerOf : Instr → Option Nat
  | .notBeforePasses k => some k
  | _ => none

/-- A command is well-formed exactly when the line it names is 0 to 7 and the station it names is 0 to 15; one that names
neither is well-formed whatever its operands. -/
def Laws.OperandBounds.Statement (i : Instr) : Prop :=
  i.wf = true ↔ (∀ l, i.lineOf = some l → l < 8) ∧ (∀ k, i.peerOf = some k → k < 16)

namespace Laws.OperandBounds

/-- A command that names neither a line nor a station. -/
theorem of_free {i : Instr} (h : i.wf = true) (hl : i.lineOf = none) (hp : i.peerOf = none) : Statement i := by
  simp [Statement, h, hl, hp]

/-- A command of a line. -/
theorem of_line {i : Instr} {l : Nat} (h : i.wf = lineOk l) (hl : i.lineOf = some l) (hp : i.peerOf = none) :
    Statement i := by
  simp [Statement, h, hl, hp, lineOk]

/-- A command of a peer. -/
theorem of_peer {i : Instr} {k : Nat} (h : i.wf = stationOk k) (hl : i.lineOf = none) (hp : i.peerOf = some k) :
    Statement i := by
  simp [Statement, h, hl, hp, stationOk]

theorem powerOn : Statement (.powerOn) := of_free rfl rfl rfl
theorem supplyDip : Statement (.supplyDip) := of_free rfl rfl rfl
theorem restartPin : Statement (.restartPin) := of_free rfl rfl rfl
theorem restartHoldEnd (straps : BitVec 4) : Statement (.restartHoldEnd straps) := of_free rfl rfl rfl
theorem configurationLoadEnd (image : List Byte) (hcReleased : Bool) (hdReleased : Bool) : Statement (.configurationLoadEnd image hcReleased hdReleased) := of_free rfl rfl rfl
theorem rxdLevelChange (line : Nat) (marking : Bool) : Statement (.rxdLevelChange line marking) := of_line rfl rfl rfl
theorem characterArrival (line : Nat) (code : Code) : Statement (.characterArrival line code) := of_line rfl rfl rfl
theorem openLineExpiry (line : Nat) : Statement (.openLineExpiry line) := of_line rfl rfl rfl
theorem restoreExpiry (line : Nat) : Statement (.restoreExpiry line) := of_line rfl rfl rfl
theorem characterCompletion (line : Nat) : Statement (.characterCompletion line) := of_line rfl rfl rfl
theorem drainingEnd (line : Nat) : Statement (.drainingEnd line) := of_line rfl rfl rfl
theorem officeMinuteAdvance : Statement (.officeMinuteAdvance) := of_free rfl rfl rfl
theorem holdLimitExpiry : Statement (.holdLimitExpiry) := of_free rfl rfl rfl
theorem frameStart : Statement (.frameStart) := of_free rfl rfl rfl
theorem frameStartHeard : Statement (.frameStartHeard) := of_free rfl rfl rfl
theorem arbitrationLost : Statement (.arbitrationLost) := of_free rfl rfl rfl
theorem collision : Statement (.collision) := of_free rfl rfl rfl
theorem veto : Statement (.veto) := of_free rfl rfl rfl
theorem listenerParityVeto : Statement (.listenerParityVeto) := of_free rfl rfl rfl
theorem frameDiscard : Statement (.frameDiscard) := of_free rfl rfl rfl
theorem carryReservation : Statement (.carryReservation) := of_free rfl rfl rfl
theorem frameEndedEarly (byStart : Bool) : Statement (.frameEndedEarly byStart) := of_free rfl rfl rfl
theorem carryCommit : Statement (.carryCommit) := of_free rfl rfl rfl
theorem conditionApply : Statement (.conditionApply) := of_free rfl rfl rfl
theorem musterApply : Statement (.musterApply) := of_free rfl rfl rfl
theorem listenerFrameEnd : Statement (.listenerFrameEnd) := of_free rfl rfl rfl
theorem frameCompleted (hd : Bool) : Statement (.frameCompleted hd) := of_free rfl rfl rfl
theorem notBeforePasses (station : Nat) : Statement (.notBeforePasses station) := of_peer rfl rfl rfl
theorem stallExpiry : Statement (.stallExpiry) := of_free rfl rfl rfl
theorem stuckExpiry : Statement (.stuckExpiry) := of_free rfl rfl rfl
theorem releaseExpiry (hdReleased : Bool) : Statement (.releaseExpiry hdReleased) := of_free rfl rfl rfl
theorem serviceMessageRest (straps : BitVec 4) (hcReleased : Bool) (hdReleased : Bool) : Statement (.serviceMessageRest straps hcReleased hdReleased) := of_free rfl rfl rfl
theorem startSample (line : Nat) : Statement (.startSample line) := of_line rfl rfl rfl
theorem insertedShiftEnd (line : Nat) : Statement (.insertedShiftEnd line) := of_line rfl rfl rfl
theorem bitSample (hd : Bool) : Statement (.bitSample hd) := of_free rfl rfl rfl
theorem receiptSlotBegin : Statement (.receiptSlotBegin) := of_free rfl rfl rfl
theorem startOrStopNotOwn (byStart : Bool) : Statement (.startOrStopNotOwn byStart) := of_free rfl rfl rfl
theorem supplyRemoved : Statement (.supplyRemoved) := of_free rfl rfl rfl

end Laws.OperandBounds

end Sys2Proof
end

