-- ==== Sys2Proof/Laws/Records.lean ====
section
/-! SUPPORT. What becomes of the records when slots are resolved, commands carried out, reports composed and an event
ends, said once: every record is the same message as before or has been given back (`Handles`). -/

namespace Sys2Proof.Machine

/-! ## The relation -/

theorem SameMessage.refl (a : Record) : SameMessage a a := ⟨rfl, fun _ => rfl, rfl, fun _ x h => .inr ⟨x, h, rfl⟩⟩

theorem SameMessage.trans {a b c : Record} (h : SameMessage a b) (k : SameMessage b c) : SameMessage a c where
  fields := by rw [k.fields, h.fields]
  intercept ha := by
    have hb := h.intercept ha
    rw [k.intercept (by rw [hb]; exact ha), hb]
  count := k.count.trans h.count
  dest i x hx := by
    rcases k.dest i x hx with hp | ⟨y, hy, e⟩
    · exact .inl hp
    · rcases h.dest i y hy with hp | ⟨z, hz, e'⟩
      · exact .inl (e.trans hp)
      · exact .inr ⟨z, hz, e.trans e'⟩

theorem SameMessage.state {a b : Record} (h : SameMessage a b) : b.state = a.state := by rw [h.fields]

theorem SameMessage.source {a b : Record} (h : SameMessage a b) : b.source = a.source := by rw [h.fields]

theorem Handled.refl (a : Record) : Handled a a := .inl (.refl a)

/-- A record given back stays so. -/
theorem Handled.givenBack {a b : Record} (h : Handled a b) (ha : a.givenBack) : b.givenBack := by
  rcases h with h | h
  · rcases ha with k | k
    · exact .inl (h.state.trans k)
    · exact .inr (h.source.trans k)
  · exact h

theorem Handled.trans {a b c : Record} (h : Handled a b) (k : Handled b c) : Handled a c := by
  rcases h with h | h
  · rcases k with k | k
    · exact .inl (h.trans k)
    · exact .inr k
  · exact .inr (k.givenBack h)

/-- Every record is `Handled`. -/
def Handles (s t : State) : Prop := ∀ m, Handled (s.record m) (t.record m)

theorem Handles.trans {s t u : State} (h : Handles s t) (k : Handles t u) : Handles s u := fun m => (h m).trans (k m)

/-- A change that leaves the store. -/
theorem Handles.store {s t : State} (h : t.store = s.store) : Handles s t := fun m => by
  rw [show t.record m = s.record m by rw [State.record, State.record, h]]; exact .refl _

theorem Handles.refl (s : State) : Handles s s := .store rfl

theorem Handles.ite {s t u : State} {p : Prop} [Decidable p] (ht : Handles s t) (hu : Handles s u) :
    Handles s (if p then t else u) := by split <;> assumption

theorem Handles.foldl {α : Type} {f : State → α → State} (h : ∀ s a, Handles s (f s a)) (l : List α) (s : State) :
    Handles s (l.foldl f s) :=
  foldl_keeps Handles Handles.refl Handles.trans f h l s

theorem Handles.setRecord (s : State) (m : Nat) (r : Record) (h : Handled (s.record m) r) : Handles s (s.setRecord m r) :=
  fun k => record_setRecord_of (P := Handled (s.record k)) s m k r (by rintro rfl; exact h) (.refl _)

/-! ## The store -/

theorem handles_touch (s : State) (g : Gauge) : Handles s (s.touch g) := fun m => by rw [touch_record]; exact .refl _

theorem handles_touchLine (s : State) (l : Nat) : Handles s (s.touchLine l) :=
  (handles_touch _ _).trans (handles_touch _ _)

theorem setPool_record (s : State) (p : List Nat) (m : Nat) : (s.setPool p).record m = s.record m := by
  unfold State.setPool
  dsimp only
  split
  · rfl
  · rw [touch_record]; rfl

theorem handles_freeRecord (s : State) (m : Nat) : Handles s (s.freeRecord m) := by
  unfold State.freeRecord
  refine .ite (.refl s) (fun k => ?_)
  rw [touch_record]
  refine record_setRecord_of (P := Handled (s.record k)) _ m k _ (fun _ => .inr (.inl rfl)) ?_
  rw [setPool_record]; exact .refl _

theorem handles_setSlot (s : State) (m i : Nat) (x : Slot)
    (h : x.dest = .pseudo ∨ ∃ y, s.slot m i = some y ∧ x.dest = y.dest) : Handles s (s.setSlot m i x) := by
  have k : Handles s (s.setRecord m { s.record m with slots := (s.record m).slots.set i x }) := by
    refine .setRecord s m _ (.inl ⟨rfl, fun _ => rfl, List.length_set, fun j y hy => ?_⟩)
    dsimp only at hy
    rw [List.getElem?_set] at hy
    split at hy
    · rename_i e
      subst e
      split at hy
      · cases hy; exact h
      · cases hy
    · exact .inr ⟨y, hy, rfl⟩
  unfold State.setSlot
  exact .ite k (k.trans (handles_touch _ _))

theorem handles_setSlotState (s : State) (m i : Nat) (st : SlotState) : Handles s (s.setSlotState m i st) := by
  unfold State.setSlotState
  cases h : s.slot m i with
  | none => exact .refl s
  | some sl => exact handles_setSlot s m i _ (.inr ⟨sl, h, rfl⟩)

theorem handles_releaseIfDone (s : State) (m : Nat) : Handles s (s.releaseIfDone m) := by
  unfold State.releaseIfDone
  exact .ite (handles_freeRecord _ _) (.refl _)

theorem handles_finishAs (s : State) (m i : Nat) (t : Option Target) : Handles s (s.finishAs m i t) :=
  (handles_setSlotState _ _ _ _).trans (handles_releaseIfDone _ _)

theorem handles_finishSlot (s : State) (m i : Nat) : Handles s (s.finishSlot m i) := handles_finishAs _ _ _ _

theorem handles_holdSlot (s : State) (m i : Nat) (w : HoldReason) : Handles s (s.holdSlot m i w) := by
  unfold State.holdSlot
  split <;> exact handles_setSlotState _ _ _ _

theorem handles_toIntercept (s : State) (m : Nat) (w : IntReason) :
    Handles s (s.setRecord m ((s.record m).toIntercept w)) := by
  refine .setRecord s m _ (.inl ⟨rfl, fun h => ?_, rfl, fun _ x hx => .inr ⟨x, hx, rfl⟩⟩)
  obtain ⟨v, hv⟩ := Option.ne_none_iff_exists'.1 h
  simp only [Record.toIntercept, hv, Option.getD_some]

theorem handles_handOffChecks (s : State) (m : Nat) : Handles s (s.handOffChecks m) := by
  unfold State.handOffChecks
  have h : Handles s (if (s.record m).hop = 3 then s.setRecord m ((s.record m).toIntercept .loop) else s) :=
    .ite (handles_toIntercept _ _ _) (.refl _)
  exact h.trans (.ite (handles_toIntercept _ _ _) (.refl _))

theorem handles_served (s : State) (m : Nat) : Handles s (s.setRecord m { s.record m with served := true }) :=
  .setRecord s m _ (.inl ⟨rfl, fun _ => rfl, rfl, fun _ x hx => .inr ⟨x, hx, rfl⟩⟩)

/-! ## Resolution -/

theorem handles_placeOwn (s : State) (m i l : Nat) : Handles s (s.placeOwn m i l) := by
  have h (x : Ctx) : Handles s ((s.setCtx l x).setSlotState m i (.queued (s.circuit l))) :=
    Handles.trans (.store rfl) (handles_setSlotState (s.setCtx l x) m i _)
  unfold State.placeOwn
  dsimp only
  refine .ite (h _) (.ite (handles_holdSlot _ _ _ _) (.ite ?_ ?_))
  · exact ((h _).trans (handles_touchLine _ l)).trans (.store rfl)
  · exact (h _).trans (handles_touchLine _ l)

section
variable {svc : ServiceTaker} (hs : ∀ s m i, Handles s (svc s m i))
include hs

theorem handles_place (s : State) (m i : Nat) (t : Option Target) : Handles s (s.place svc m i t) := by
  match t with
  | none => exact handles_holdSlot _ _ _ _
  | some (.circuit c) => exact .ite (handles_placeOwn _ _ _ _) (handles_setSlotState _ _ _ _)
  | some (.service k) => exact .ite (hs _ _ _) (handles_setSlotState _ _ _ _)

theorem handles_resolveWith (s : State) (m i : Nat) (named : Option Target) : Handles s (s.resolveWith svc m i named) :=
  handles_place hs _ _ _ _

theorem handles_handOffWith (s : State) (m : Nat) (named : List (Option Target)) :
    Handles s (s.handOffWith svc m named) := by
  unfold State.handOffWith
  refine .ite ?_ (.refl s)
  refine ((handles_handOffChecks s m).trans (.foldl ?_ _ _)).trans (handles_releaseIfDone _ _)
  exact fun t i => .ite (handles_resolveWith hs _ _ _ _) (.refl _)

end

theorem handles_sendToIntercept (s : State) (m i : Nat) : Handles s (s.sendToIntercept m i) := by
  unfold State.sendToIntercept
  split
  · exact (handles_setSlot _ _ _ _ (.inl rfl)).trans (handles_resolveWith (fun t _ _ => .refl t) _ _ _ _)
  · exact .refl s

theorem handles_reportService (s : State) (m i : Nat) : Handles s (reportService s m i) :=
  (handles_served s m).trans (handles_sendToIntercept _ _ _)

/-! ## Reports -/

/-- Writing a text keeps where the record came from. -/
theorem writeAll_source (m : Nat) (l : List Symbol) (s : State) :
    ((s.writeAll m l).record m).source = (s.record m).source ∧ ((s.writeAll m l).record m).slots = (s.record m).slots ∧
      ∀ j, j ≠ m → (s.writeAll m l).record j = s.record j := by
  induction l generalizing s with
  | nil => exact ⟨rfl, rfl, fun _ _ => rfl⟩
  | cons σ l ih =>
    obtain ⟨h₁, h₂, h₃⟩ := ih (s.write m σ)
    have w : ((s.record m).write σ).source = (s.record m).source ∧ ((s.record m).write σ).slots = (s.record m).slots := by
      unfold Record.write; split <;> exact ⟨rfl, rfl⟩
    refine ⟨h₁.trans ?_, h₂.trans ?_, fun j hj => (h₃ j hj).trans ?_⟩
    · exact record_setRecord_of (P := fun r => r.source = (s.record m).source) s m m _ (fun _ => w.1) rfl
    · exact record_setRecord_of (P := fun r => r.slots = (s.record m).slots) s m m _ (fun _ => w.2) rfl
    · exact record_setRecord_ne s m j _ (Ne.symm hj)

/-- The completion of a record leaves the others; with a slot it keeps its fields but stamp and state. -/
theorem complete_record (s : State) (m : Nat) (h : (s.record m).slots ≠ []) (hm : m < 128) :
    (s.complete m).record m = { s.record m with stamp := some s.store.stamp, state := .standing } ∧
      ∀ j, j ≠ m → (s.complete m).record j = s.record j := by
  unfold State.complete
  dsimp only
  rw [if_neg (by rw [List.isEmpty_iff]; exact h)]
  exact ⟨record_setRecord_self _ m _ hm, fun j hj => record_setRecord_ne _ m j _ (Ne.symm hj)⟩

/-- A grant (R43, R44) makes one FREE record FILLING and leaves the others. -/
theorem grantRecord_record {s t : State} {cls : MsgClass} {k m : Nat} (h : s.grantRecord cls k = some (m, t)) :
    m < 128 ∧ (s.record m).state = .free ∧ t.record m = Record.granted cls (s.store.pool.take k) ∧
      ∀ j, j ≠ m → t.record j = s.record j := by
  unfold State.grantRecord at h
  split at h
  · obtain ⟨n, hn, e⟩ := Option.map_eq_some_iff.1 h
    cases e
    have hf := List.mem_of_mem_head? hn
    unfold State.recordsIn at hf
    obtain ⟨hr, hs⟩ := List.mem_filter.1 hf
    have hm : m < 128 := List.mem_range.1 hr
    refine ⟨hm, of_decide_eq_true hs, ?_, fun j hj => ?_⟩
    · rw [touch_record]; exact record_setRecord_self _ m _ hm
    · rw [touch_record, record_setRecord_ne _ m j _ (Ne.symm hj), setPool_record]
  · cases h

/-- A report's record (R184) comes from the service unit; the others are handled. -/
theorem makeReport_record (s : State) (img : Image) (m : Nat) (text : List Symbol) (hm : m < 128) (j : Nat) :
    (j = m → ((s.makeReport img m text).record j).givenBack) ∧
      (j ≠ m → Handled (s.record j) ((s.makeReport img m text).record j)) := by
  have w := writeAll_source m text (s.setRecord m ((s.record m).asReport s.serviceCode img.supervisor))
  rw [record_setRecord_self _ _ _ hm] at w
  have c := complete_record _ m (by rw [w.2.1]; exact List.cons_ne_nil _ _) hm
  have h := handles_handOffWith handles_reportService
    (((s.setRecord m ((s.record m).asReport s.serviceCode img.supervisor)).writeAll m text).complete m) m [] j
  refine ⟨fun e => ?_, fun e => ?_⟩
  · subst e
    exact h.givenBack (.inr (by rw [c.1]; exact w.1))
  · rw [c.2 j e, w.2.2 j e, record_setRecord_ne _ _ _ _ (Ne.symm e)] at h
    exact h

/-- A report request (R184) takes no record but a FREE one. -/
theorem handles_request (s : State) (r : Report) : Handles s (s.request r) := by
  unfold State.request
  cases s.cfg with
  | none => exact .refl s
  | some img =>
    dsimp only
    refine .ite ?_ (.refl s)
    split
    · exact .store rfl
    · rename_i m t h
      have g := grantRecord_record (show State.grantRecord _ _ _ = some (m, t) by
        unfold State.reserve at h; split at h <;> [exact h; cases h])
      intro j
      have k := makeReport_record { t with lost := 0 } img m (textOf img (cutLines (s.reportLines r))) g.1 j
      by_cases e : j = m
      · exact .inr (k.1 e)
      · have k' := k.2 e
        rw [show ({ t with lost := 0 } : State).record j = s.record j from g.2.2.2 j e] at k'
        exact k'

/-! ## The service unit -/

theorem handles_setPeer (s : State) (k : Nat) (x : Peer) : Handles s (s.setPeer k x) := .store rfl

theorem handles_setMap (s : State) (c : Nat) (x : MapEntry) : Handles s (s.setMap c x) := .store rfl

theorem handles_oweTo (s : State) (c k : Nat) : Handles s (s.oweTo c k) := .ite (handles_setPeer _ _ _) (.refl _)

theorem handles_owe (s : State) (c : Nat) : Handles s (s.owe c) := .foldl (fun t k => handles_oweTo t c k) _ s

theorem handles_setDiversion (s : State) (c : Nat) (d : Option Nat) : Handles s (s.setDiversion c d) :=
  (handles_setMap _ _ _).trans (handles_owe _ _)

theorem handles_doDivert (s : State) (img : Image) (q : Rest) (n c : Nat) (d : Option Nat) :
    Handles s (s.doDivert img q n c d).1 := by
  unfold State.doDivert
  dsimp only
  split
  · exact handles_setDiversion s c d
  · exact handles_setDiversion s c d
  · exact .refl s

theorem handles_setLevels (s : State) (v : Levels) : Handles s { s with levels := v } := .store rfl

theorem handles_doClear (s : State) (q : Rest) (n : Nat) : Handles s (s.doClear q n).1 := by
  obtain ⟨v, h⟩ := clearLevels_levels s
  have h' : Handles s s.clearLevels.1 := by rw [h]; exact handles_setLevels s v
  unfold State.doClear
  dsimp only
  split
  · exact h'
  · exact h'.trans (handles_request _ _)

theorem handles_doCommand (s : State) (img : Image) (q : Rest) (n : Nat) (cmd : Command) :
    Handles s (s.doCommand img q n cmd).1 := by
  unfold State.doCommand
  split
  · exact .refl s
  · split
    · exact handles_request _ _
    · exact handles_doClear _ _ _
    · exact .refl s
    · exact .refl s
    · exact handles_doDivert _ _ _ _ _ _
    · exact handles_doDivert _ _ _ _ _ _
    · split <;> exact .refl s

theorem handles_doLine (img : Image) (acc : (State × Rest) × Nat) (l : List (Option Meaning)) :
    Handles acc.1.1 (State.doLine img acc l).1.1 := by
  unfold State.doLine
  dsimp only
  split
  · exact .refl _
  · split
    · exact handles_doCommand _ _ _ _ _
    · exact .refl _

theorem handles_carryOut (s : State) (img : Image) (m : Nat) : Handles s (s.carryOut img m) := by
  unfold State.carryOut
  dsimp only
  have h := foldl_keeps (fun (a b : (State × Rest) × Nat) => Handles a.1.1 b.1.1) (fun b => .refl _)
    (fun a b => a.trans b) (State.doLine img) (handles_doLine img)
    (linesFrom [] (meanings img (s.record m).text)) ((s, Rest.of (s.record m)), 1)
  exact Handles.trans h (.store rfl)

theorem handles_refuse (s : State) (m i : Nat) (b : Bool) : Handles s (s.refuse m i b) := by
  unfold State.refuse
  exact .ite (handles_sendToIntercept _ _ _) ((handles_sendToIntercept _ _ _).trans (handles_request _ _))

theorem handles_serviceTake (old : Option Target) (s : State) (m i : Nat) : Handles s (State.serviceTake old s m i) := by
  unfold State.serviceTake
  split
  · exact .refl s
  · dsimp only
    have h := handles_served s m
    refine .ite (handles_finishAs _ _ _ _) (.ite ?_ (.ite ?_ ?_))
    · exact h.trans (handles_refuse _ _ _ _)
    · exact h.trans (handles_refuse _ _ _ _)
    · exact (h.trans (handles_carryOut _ _ _)).trans (handles_finishAs _ _ _ _)

theorem handles_handOff (s : State) (m : Nat) (named : List (Option Target)) : Handles s (s.handOff m named) :=
  handles_handOffWith (handles_serviceTake none) _ _ _

theorem handles_reexamine (s : State) : Handles s s.reexamine :=
  .foldl (fun _ _ => .ite (handles_resolveWith (handles_serviceTake _) _ _ _ _) (.refl _)) _ s

theorem handles_reexamineIf (s : State) (c : Bool) : Handles s (s.reexamineIf c) := .ite (handles_reexamine _) (.refl _)

theorem handles_reResolve (s : State) (slots : List (Nat × Nat)) : Handles s (s.reResolve slots) := by
  unfold State.reResolve
  dsimp only
  refine Handles.trans (.foldl (fun _ _ => handles_setSlotState _ _ _ _) _ s) (.foldl ?_ _ _)
  exact fun _ _ => .ite (handles_resolveWith (handles_serviceTake _) _ _ _ _) (.refl _)

theorem handles_hear (s : State) (k : Nat) : Handles s (s.hear k) := by
  unfold State.hear
  refine .ite (.refl _) ?_
  dsimp only
  split
  · exact handles_setPeer _ _ _
  · exact handles_setPeer _ _ _
  · exact (handles_setPeer _ _ _).trans (handles_request _ _)

/-! ## The end of an event -/

theorem offer_store (s : State) (l : Nat) (it : Item) : (s.offer l it).store = s.store := by
  unfold State.offer
  split
  · split <;> rfl
  · rfl

theorem beginFraming_store (s : State) (l : Nat) (x : Ctx) (d : SendState) (items : List Item) :
    (s.beginFraming l x d items).store = s.store := by
  unfold State.beginFraming
  dsimp only
  split
  · exact offer_store _ _ _
  · rfl

/-- The pick rule (R101) leaves the store. -/
theorem pick_store (s : State) (l : Nat) : (s.pick l).store = s.store := by
  unfold State.pick
  split
  · rfl
  · dsimp only
    split
    · rfl
    · split <;> [exact beginFraming_store _ _ _ _ _; rfl]
    · split <;> [exact beginFraming_store _ _ _ _ _; rfl]
    · split <;> [exact beginFraming_store _ _ _ _ _; (split <;> [exact beginFraming_store _ _ _ _ _; rfl])]

theorem handles_takePicks (s : State) : Handles s s.takePicks := by
  have h : Handles s { s with ev := { s.ev with picks := [] } } := .store rfl
  have p : ∀ t l, Handles t (State.pickIfIdle t l) := fun t l => .ite (.store (pick_store t l)) (.refl t)
  exact h.trans (.foldl (fun t l => .ite (p t l) (.refl t)) _ _)

theorem handles_evaluateGauges (s : State) (gs : List Gauge) : Handles s (s.evaluateGauges gs) := by
  obtain ⟨v, h⟩ := evaluate_levels s gs
  have h' : Handles s (s.evaluate gs).1 := by rw [h]; exact handles_setLevels s v
  unfold State.evaluateGauges
  exact .ite h' (h'.trans (handles_request _ _))

theorem handles_settleReports (n : Nat) : ∀ s, Handles s (State.settleReports n s) := by
  induction n with
  | zero => exact .refl
  | succ n ih =>
    intro s
    unfold State.settleReports
    refine .ite (.refl s) ?_
    have h : Handles s { s with ev := { s.ev with own := [], rep := [] } } := .store rfl
    exact ((h.trans (handles_evaluateGauges _ _)).trans (handles_takePicks _)).trans (ih _)

theorem handles_settle (s : State) : Handles s s.settle := by
  have h : Handles s { s with ev := { s.ev with own := [] } } := .store rfl
  exact ((h.trans (handles_evaluateGauges _ _)).trans (handles_takePicks _)).trans (handles_settleReports 64 _)

theorem markCut_store (s : State) : s.markCut.store = s.store := by
  unfold State.markCut
  split <;> rfl

theorem build_store (s : State) : s.build.store = s.store := by
  unfold State.build
  split
  · dsimp only
    split <;> rfl
  · rfl

/-- The end of an event (`State.finish`) writes to no record of a message. -/
theorem handles_finish (s : State) : Handles s s.finish :=
  (handles_settle s).trans (.store ((build_store _).trans (markCut_store _)))

/-! ## The records that are left alone -/

/-- Every record but `m` and the FREE ones is as it was. -/
def OnlyRecord (m : Nat) (s t : State) : Prop := ∀ j, j ≠ m → (s.record j).state ≠ .free → t.record j = s.record j

section
variable {m : Nat}

theorem OnlyRecord.trans {s t u : State} (h : OnlyRecord m s t) (k : OnlyRecord m t u) : OnlyRecord m s u :=
  fun j hj hs => (k j hj (by rw [h j hj hs]; exact hs)).trans (h j hj hs)

theorem OnlyRecord.store {s t : State} (h : t.store = s.store) : OnlyRecord m s t := fun j _ _ => by
  rw [State.record, State.record, h]

theorem OnlyRecord.refl (s : State) : OnlyRecord m s s := .store rfl

theorem OnlyRecord.ite {s t u : State} {p : Prop} [Decidable p] (ht : OnlyRecord m s t) (hu : OnlyRecord m s u) :
    OnlyRecord m s (if p then t else u) := by split <;> assumption

theorem OnlyRecord.foldl {α : Type} {f : State → α → State} (h : ∀ s a, OnlyRecord m s (f s a)) (l : List α) (s : State) :
    OnlyRecord m s (l.foldl f s) :=
  foldl_keeps (OnlyRecord m) OnlyRecord.refl OnlyRecord.trans f h l s

theorem OnlyRecord.setRecord (s : State) (r : Record) : OnlyRecord m s (s.setRecord m r) :=
  fun j hj _ => record_setRecord_ne s m j r (Ne.symm hj)

theorem only_touch (s : State) (g : Gauge) : OnlyRecord m s (s.touch g) := fun j _ _ => touch_record _ _ j

theorem only_setPool (s : State) (p : List Nat) : OnlyRecord m s (s.setPool p) := fun j _ _ => setPool_record s p j

theorem only_freeRecord (s : State) : OnlyRecord m s (s.freeRecord m) := by
  unfold State.freeRecord
  exact .ite (.refl s) (((only_setPool s _).trans (.setRecord _ _)).trans (only_touch _ _))

theorem only_setSlot (s : State) (i : Nat) (x : Slot) : OnlyRecord m s (s.setSlot m i x) := by
  unfold State.setSlot
  exact .ite (.setRecord s _) ((OnlyRecord.setRecord s _).trans (only_touch _ _))

theorem only_setSlotState (s : State) (i : Nat) (st : SlotState) : OnlyRecord m s (s.setSlotState m i st) := by
  unfold State.setSlotState
  split
  · exact only_setSlot _ _ _
  · exact .refl s

theorem only_releaseIfDone (s : State) : OnlyRecord m s (s.releaseIfDone m) := by
  unfold State.releaseIfDone
  exact .ite (only_freeRecord _) (.refl _)

theorem only_finishAs (s : State) (i : Nat) (t : Option Target) : OnlyRecord m s (s.finishAs m i t) :=
  (only_setSlotState _ _ _).trans (only_releaseIfDone _)

theorem only_complete (s : State) : OnlyRecord m s (s.complete m) := by
  have h : OnlyRecord m s
      { s with store := { s.store with stamp := if s.store.stamp < Config.lastStamp then s.store.stamp + 1 else s.store.stamp } } :=
    fun _ _ _ => rfl
  unfold State.complete
  exact .ite (h.trans (only_freeRecord _)) (h.trans (.setRecord _ _))

theorem only_holdSlot (s : State) (i : Nat) (w : HoldReason) : OnlyRecord m s (s.holdSlot m i w) := by
  unfold State.holdSlot
  split <;> exact only_setSlotState _ _ _

theorem only_handOffChecks (s : State) : OnlyRecord m s (s.handOffChecks m) := by
  unfold State.handOffChecks
  have h : OnlyRecord m s (if (s.record m).hop = 3 then s.setRecord m ((s.record m).toIntercept .loop) else s) :=
    .ite (.setRecord _ _) (.refl _)
  exact h.trans (.ite (.setRecord _ _) (.refl _))

theorem only_placeOwn (s : State) (i l : Nat) : OnlyRecord m s (s.placeOwn m i l) := by
  have h (x : Ctx) : OnlyRecord m s ((s.setCtx l x).setSlotState m i (.queued (s.circuit l))) :=
    OnlyRecord.trans (.store rfl) (only_setSlotState (s.setCtx l x) i _)
  have k (t : State) : OnlyRecord m t (t.touchLine l) := (only_touch _ _).trans (only_touch _ _)
  unfold State.placeOwn
  dsimp only
  refine .ite (h _) (.ite (only_holdSlot _ _ _) (.ite ?_ ?_))
  · exact ((h _).trans (k _)).trans (.store rfl)
  · exact (h _).trans (k _)

theorem only_resolveWith {svc : ServiceTaker} (hs : ∀ s i, OnlyRecord m s (svc s m i)) (s : State) (i : Nat)
    (named : Option Target) : OnlyRecord m s (s.resolveWith svc m i named) := by
  unfold State.resolveWith
  match s.targetOf m i named with
  | none => exact only_holdSlot _ _ _
  | some (.circuit c) => exact .ite (only_placeOwn _ _ _) (only_setSlotState _ _ _)
  | some (.service k) => exact .ite (hs _ _) (only_setSlotState _ _ _)

theorem only_handOffWith {svc : ServiceTaker} (hs : ∀ s i, OnlyRecord m s (svc s m i)) (s : State)
    (named : List (Option Target)) : OnlyRecord m s (s.handOffWith svc m named) := by
  unfold State.handOffWith
  refine .ite (((only_handOffChecks s).trans (.foldl ?_ _ _)).trans (only_releaseIfDone _)) (.refl s)
  exact fun t i => .ite (only_resolveWith hs _ _ _) (.refl _)

theorem only_sendToIntercept (s : State) (i : Nat) : OnlyRecord m s (s.sendToIntercept m i) := by
  unfold State.sendToIntercept
  split
  · exact (only_setSlot _ _ _).trans (only_resolveWith (fun t _ => .refl t) _ _ _)
  · exact .refl s

theorem only_makeReport (s : State) (img : Image) (text : List Symbol) : OnlyRecord m s (s.makeReport img m text) := by
  have w (t : State) : OnlyRecord m t (t.writeAll m text) := .foldl (fun t _ => .setRecord t _) _ _
  have r (t : State) (i : Nat) : OnlyRecord m t (reportService t m i) :=
    (OnlyRecord.setRecord t _).trans (only_sendToIntercept _ _)
  unfold State.makeReport
  exact (((OnlyRecord.setRecord s _).trans (w _)).trans (only_complete _)).trans (only_handOffWith r _ _)

end

/-- A report request (R184) changes no record but a FREE one. -/
theorem request_record (s : State) (r : Report) (j : Nat) (hj : (s.record j).state ≠ .free) :
    (s.request r).record j = s.record j := by
  unfold State.request
  cases s.cfg with
  | none => rfl
  | some img =>
    dsimp only
    split
    · split
      · rfl
      · rename_i m t h
        have g := grantRecord_record (show State.grantRecord _ _ _ = some (m, t) by
          unfold State.reserve at h; split at h <;> [exact h; cases h])
        have e : j ≠ m := by rintro rfl; exact hj g.2.1
        have k := only_makeReport (m := m) { t with lost := 0 } img (textOf img (cutLines (s.reportLines r))) j e
        rw [show ({ t with lost := 0 } : State).record j = s.record j from g.2.2.2 j e] at k
        exact k hj
    · rfl

theorem only_request {m : Nat} (s : State) (r : Report) : OnlyRecord m s (s.request r) :=
  fun j _ hs => request_record s r j hs

section
variable {m : Nat}

theorem only_doCommand (s : State) (img : Image) (q : Rest) (n : Nat) (cmd : Command) :
    OnlyRecord m s (s.doCommand img q n cmd).1 := by
  have d (c : Nat) (x : Option Nat) : OnlyRecord m s (s.setDiversion c x) := by
    have h : OnlyRecord m s (s.setMap c { s.mapOf c with diversion := x }) := .store rfl
    have o (t : State) (k : Nat) : OnlyRecord m t (t.oweTo c k) := by
      unfold State.oweTo
      exact .ite (.store rfl) (.refl t)
    exact h.trans (.foldl o _ _)
  have v (c : Nat) (x : Option Nat) : OnlyRecord m s (s.doDivert img q n c x).1 := by
    unfold State.doDivert
    dsimp only
    split
    · exact d c x
    · exact d c x
    · exact .refl s
  unfold State.doCommand
  split
  · exact .refl s
  · split
    · exact only_request _ _
    · obtain ⟨w, h⟩ := clearLevels_levels s
      have h' : OnlyRecord m s s.clearLevels.1 := by rw [h]; exact .store rfl
      unfold State.doClear
      dsimp only
      split
      · exact h'
      · exact h'.trans (only_request _ _)
    · exact .refl s
    · exact .refl s
    · exact v _ _
    · exact v _ _
    · split <;> exact .refl s

theorem only_carryOut (s : State) (img : Image) (n : Nat) : OnlyRecord m s (s.carryOut img n) := by
  have d (acc : (State × Rest) × Nat) (l : List (Option Meaning)) : OnlyRecord m acc.1.1 (State.doLine img acc l).1.1 := by
    unfold State.doLine
    dsimp only
    split
    · exact .refl _
    · split
      · exact only_doCommand _ _ _ _ _
      · exact .refl _
  unfold State.carryOut
  dsimp only
  have h := foldl_keeps (fun (a b : (State × Rest) × Nat) => OnlyRecord m a.1.1 b.1.1) (fun b => .refl _)
    (fun a b => a.trans b) (State.doLine img) d
    (linesFrom [] (meanings img (s.record n).text)) ((s, Rest.of (s.record n)), 1)
  exact OnlyRecord.trans h (.store rfl)

theorem only_serviceTake (old : Option Target) (s : State) (i : Nat) : OnlyRecord m s (State.serviceTake old s m i) := by
  have r (t : State) (b : Bool) : OnlyRecord m t (t.refuse m i b) := by
    unfold State.refuse
    exact .ite (only_sendToIntercept _ _) ((only_sendToIntercept _ _).trans (only_request _ _))
  unfold State.serviceTake
  split
  · exact .refl s
  · dsimp only
    have h : OnlyRecord m s (s.setRecord m { s.record m with served := true }) := .setRecord s _
    refine .ite (only_finishAs _ _ _) (.ite (h.trans (r _ _)) (.ite (h.trans (r _ _)) ?_))
    exact (h.trans (only_carryOut _ _ _)).trans (only_finishAs _ _ _)

/-- A hand-off (R68) changes no record but its own and FREE ones. -/
theorem only_handOff (s : State) (named : List (Option Target)) : OnlyRecord m s (s.handOff m named) :=
  only_handOffWith (only_serviceTake none) _ _

/-- Closing a record (R40) changes no record but it and FREE ones. -/
theorem only_closeRecord (s : State) (l : Nat) (w : Option MutReason) : OnlyRecord m s (s.closeRecord l m w) := by
  have h : OnlyRecord m s (((s.setRecord m (w.elim (s.record m) (s.record m).mutilate)).complete m).handOff m []) :=
    ((OnlyRecord.setRecord s _).trans (only_complete _)).trans (only_handOff _ _)
  unfold State.closeRecord
  dsimp only
  split
  · exact h.trans (only_request _ _)
  · exact h

end

/-- The end of an event (`State.finish`) changes no record but FREE ones. -/
theorem finish_record (s : State) (j : Nat) (hj : (s.record j).state ≠ .free) : s.finish.record j = s.record j := by
  have p (t : State) : OnlyRecord (j + 1) t t.takePicks := by
    have h : OnlyRecord (j + 1) t { t with ev := { t.ev with picks := [] } } := .store rfl
    exact h.trans (.foldl (fun u l => .ite (.ite (.store (pick_store u l)) (.refl u)) (.refl u)) _ _)
  have e (t : State) (gs : List Gauge) : OnlyRecord (j + 1) t (t.evaluateGauges gs) := by
    obtain ⟨v, h⟩ := evaluate_levels t gs
    have h' : OnlyRecord (j + 1) t (t.evaluate gs).1 := by rw [h]; exact .store rfl
    unfold State.evaluateGauges
    exact .ite h' (h'.trans (only_request _ _))
  have r (n : Nat) : ∀ t, OnlyRecord (j + 1) t (State.settleReports n t) := by
    induction n with
    | zero => exact .refl
    | succ n ih =>
      intro t
      unfold State.settleReports
      refine .ite (.refl t) ?_
      have h : OnlyRecord (j + 1) t { t with ev := { t.ev with own := [], rep := [] } } := .store rfl
      exact ((h.trans (e _ _)).trans (p _)).trans (ih _)
  have h : OnlyRecord (j + 1) s { s with ev := { s.ev with own := [] } } := .store rfl
  have k : OnlyRecord (j + 1) s s.settle := ((h.trans (e _ _)).trans (p _)).trans (r 64 _)
  have d : s.finish.store = s.settle.store := (build_store _).trans (markCut_store _)
  rw [State.record, d]
  exact k j (Nat.ne_of_lt (Nat.lt_succ_self j)) hj

/-! ## A listened frame left -/

theorem record_freeRecord (s : State) (m : Nat) (hm : m < 128) : ((s.freeRecord m).record m).state = .free := by
  unfold State.freeRecord
  dsimp only
  split
  · assumption
  · rw [touch_record, record_setRecord_self _ _ _ hm]; rfl

/-- Leaving a listened frame gives back what was reserved for it (R59, R128). -/
theorem endListening_record (s : State) (f : Flight) (r : Bool) (m : Nat) (hm : m < 128) (h₁ : f.reserved = some m)
    (h₂ : f.applied = false) : ((s.endListening f r).record m).givenBack := by
  have h : ((s.freeReserved f).record m).state = .free := by
    unfold State.freeReserved
    simp only [h₁, h₂, Bool.false_eq_true, if_false]
    exact record_freeRecord s m hm
  have n : ∀ t : State, Handles t (t.noteSender f) := fun t =>
    .ite ((handles_hear _ _).trans (handles_reexamineIf _ _)) (.refl _)
  exact (n _ m).givenBack (.inl h)

end Sys2Proof.Machine
end

