-- ==== Sys2Proof/Laws/Slots.lean ====
section
/-! SUPPORT. A slot that is DONE stays DONE while its record holds it (R48): what resolving other slots, reports, commands
and the end of an event leave of it, and a CARRY's slots as a TAKE is read. -/

namespace Sys2Proof.Machine

/-- Slot `i` of record `m` is DONE, or the record has been given back. -/
def Finished (m i : Nat) (s : State) : Prop := (s.record m).givenBack ∨ (s.slotState m i).isDone = true

/-- A change that leaves a finished slot finished. -/
def KeepsDone (m i : Nat) (s t : State) : Prop := Finished m i s → Finished m i t

section
variable {m i : Nat}

theorem KeepsDone.refl (s : State) : KeepsDone m i s s := id

theorem KeepsDone.trans {s t u : State} (h : KeepsDone m i s t) (k : KeepsDone m i t u) : KeepsDone m i s u := k ∘ h

theorem KeepsDone.ite {s t u : State} {p : Prop} [Decidable p] (ht : KeepsDone m i s t) (hu : KeepsDone m i s u) :
    KeepsDone m i s (if p then t else u) := by split <;> assumption

theorem KeepsDone.foldl {α : Type} {f : State → α → State} (h : ∀ s a, KeepsDone m i s (f s a)) (l : List α) (s : State) :
    KeepsDone m i s (l.foldl f s) :=
  foldl_keeps (KeepsDone m i) KeepsDone.refl KeepsDone.trans f h l s

theorem KeepsDone.of_slot {s t : State} (h : Handles s t) (k : t.slot m i = s.slot m i) : KeepsDone m i s t :=
  fun hs => hs.imp (h m).givenBack fun d => by rw [State.slotState, k]; exact d

theorem KeepsDone.of_record {s t : State} (h : Handles s t) (k : (s.record m).state ≠ .free → t.record m = s.record m) :
    KeepsDone m i s t := by
  by_cases hf : (s.record m).state = .free
  · exact fun _ => .inl ((h m).givenBack (.inl hf))
  · exact .of_slot h (by rw [State.slot, State.slot, k hf])

/-- A change to another record than `m`. -/
theorem KeepsDone.of_only {s t : State} {n : Nat} (hn : n ≠ m) (h : Handles s t) (k : OnlyRecord n s t) :
    KeepsDone m i s t :=
  .of_record h (k m (Ne.symm hn))

theorem KeepsDone.store {s t : State} (h : t.store = s.store) : KeepsDone m i s t :=
  .of_slot (.store h) (by rw [State.slot, State.slot, State.record, State.record, h])

theorem keeps_touchLine (s : State) (l : Nat) : KeepsDone m i s (s.touchLine l) :=
  .of_slot (handles_touchLine s l) (by simp only [State.slot, State.touchLine, touch_record])

theorem keeps_request (s : State) (r : Report) : KeepsDone m i s (s.request r) :=
  .of_record (handles_request s r) (request_record s r m)

theorem keeps_finish (s : State) : KeepsDone m i s s.finish := .of_record (handles_finish s) (finish_record s m)

theorem keeps_drawn (s : State) : KeepsDone m i s s.drawn := .store rfl

/-! ## Another slot written or resolved -/

theorem slot_setSlot_ne (s : State) (j : Nat) (x : Slot) (hj : j ≠ i) : (s.setSlot m j x).slot m i = s.slot m i := by
  have h : (s.setRecord m { s.record m with slots := (s.record m).slots.set j x }).slot m i = s.slot m i :=
    record_setRecord_of (P := fun r => r.slots[i]? = s.slot m i) s m m _ (fun _ => List.getElem?_set_ne hj) rfl
  unfold State.setSlot
  dsimp only
  split
  · exact h
  · rw [State.slot, touch_record]; exact h

theorem slot_setSlotState_ne (s : State) (j : Nat) (st : SlotState) (hj : j ≠ i) :
    (s.setSlotState m j st).slot m i = s.slot m i := by
  unfold State.setSlotState
  split
  · exact slot_setSlot_ne s j _ hj
  · rfl

theorem keeps_setSlotState (s : State) (n j : Nat) (st : SlotState) (h : n = m → j ≠ i) :
    KeepsDone m i s (s.setSlotState n j st) := by
  by_cases hn : n = m
  · subst hn
    exact .of_slot (handles_setSlotState _ _ _ _) (slot_setSlotState_ne s j st (h rfl))
  · exact .of_only hn (handles_setSlotState _ _ _ _) (only_setSlotState _ _ _)

theorem record_out (s : State) (n : Nat) (h : ¬ n < 128) : s.record n = Record.empty := by
  simp only [State.record, entryAt, Vector.getElem?_eq_none (Nat.le_of_not_lt h), Option.getD_none]

/-- Releasing a record gives it back. -/
theorem freeRecord_givenBack (s : State) (n : Nat) : ((s.freeRecord n).record n).givenBack := by
  by_cases hn : n < 128
  · exact .inl (record_freeRecord s n hn)
  · rw [record_out _ n hn]
    exact .inl rfl

theorem keeps_releaseIfDone (s : State) (n : Nat) : KeepsDone m i s (s.releaseIfDone n) := by
  by_cases hn : n = m
  · subst hn
    unfold State.releaseIfDone
    exact .ite (fun _ => .inl (freeRecord_givenBack s n)) (.refl s)
  · exact .of_only hn (handles_releaseIfDone s n) (only_releaseIfDone s)

theorem slot_setSlotState_self (s : State) (n j : Nat) (st : SlotState) (x : Slot) (h : s.slot n j = some x) :
    (s.setSlotState n j st).slot n j = some { x with state := st } := by
  have hn : n < 128 := by
    refine Classical.byContradiction fun hn => ?_
    rw [State.slot, record_out s n hn] at h
    cases h
  have hj := (List.getElem?_eq_some_iff.1 h).1
  have e (y : Slot) : (s.setRecord n { s.record n with slots := (s.record n).slots.set j y }).slot n j = some y := by
    rw [State.slot, record_setRecord_self _ _ _ hn, List.getElem?_set_self hj]
  unfold State.setSlotState
  simp only [h]
  unfold State.setSlot
  dsimp only
  split
  · exact e _
  · rw [State.slot, touch_record]; exact e _

/-- A slot finished (R58) is DONE, or its record has been given back. -/
theorem finishAs_finished (s : State) (n j : Nat) (t : Option Target) (h : (s.slot n j).isSome = true) :
    Finished n j (s.finishAs n j t) := by
  obtain ⟨x, hx⟩ := Option.isSome_iff_exists.1 h
  refine keeps_releaseIfDone _ _ (.inr ?_)
  rw [State.slotState, slot_setSlotState_self s n j _ x hx]
  rfl

theorem finishSlot_finished (s : State) (n j : Nat) (h : (s.slot n j).isSome = true) : Finished n j (s.finishSlot n j) :=
  finishAs_finished s n j _ h

theorem keeps_finishAs (s : State) (n j : Nat) (t : Option Target) : KeepsDone m i s (s.finishAs n j t) := by
  by_cases h : n = m ∧ j = i
  · obtain ⟨rfl, rfl⟩ := h
    refine fun hs => hs.elim (fun g => .inl ((handles_finishAs s n j t n).givenBack g)) fun d =>
      finishAs_finished s n j t ?_
    cases hx : s.slot n j with
    | none => rw [State.slotState, hx] at d; cases d
    | some x => rfl
  · exact (keeps_setSlotState s n j _ fun hn hj => h ⟨hn, hj⟩).trans (keeps_releaseIfDone _ _)

theorem keeps_finishSlot (s : State) (n j : Nat) : KeepsDone m i s (s.finishSlot n j) := keeps_finishAs _ _ _ _

theorem keeps_holdSlot (s : State) (j : Nat) (w : HoldReason) (hj : j ≠ i) : KeepsDone m i s (s.holdSlot m j w) := by
  unfold State.holdSlot
  split <;> exact keeps_setSlotState _ _ _ _ fun _ => hj

theorem keeps_placeOwn (s : State) (j l : Nat) (hj : j ≠ i) : KeepsDone m i s (s.placeOwn m j l) := by
  have h (x : Ctx) : KeepsDone m i s ((s.setCtx l x).setSlotState m j (.queued (s.circuit l))) :=
    KeepsDone.trans (.store rfl) (keeps_setSlotState (s.setCtx l x) m j _ fun _ => hj)
  unfold State.placeOwn
  dsimp only
  refine .ite (h _) (.ite (keeps_holdSlot _ _ _ hj) (.ite ?_ ?_))
  · exact ((h _).trans (keeps_touchLine _ l)).trans (.store rfl)
  · exact (h _).trans (keeps_touchLine _ l)

theorem keeps_place {svc : ServiceTaker} {j : Nat} (hs : ∀ s, KeepsDone m i s (svc s m j)) (s : State) (t : Option Target)
    (hj : j ≠ i) : KeepsDone m i s (s.place svc m j t) := by
  match t with
  | none => exact keeps_holdSlot _ _ _ hj
  | some (.circuit c) => exact .ite (keeps_placeOwn _ _ _ hj) (keeps_setSlotState _ _ _ _ fun _ => hj)
  | some (.service k) => exact .ite (hs _) (keeps_setSlotState _ _ _ _ fun _ => hj)

theorem keeps_sendToIntercept (s : State) (j : Nat) (hj : j ≠ i) : KeepsDone m i s (s.sendToIntercept m j) := by
  unfold State.sendToIntercept
  split
  · refine KeepsDone.trans ?_ (keeps_place (fun t => .refl t) _ _ hj)
    exact .of_slot (handles_setSlot _ _ _ _ (.inl rfl)) (slot_setSlot_ne _ _ _ hj)
  · exact .refl s

theorem keeps_served (s : State) : KeepsDone m i s (s.setRecord m { s.record m with served := true }) :=
  .of_slot (handles_served s m)
    (record_setRecord_of (P := fun r => r.slots[i]? = s.slot m i) s m m _ (fun _ => rfl) rfl)

theorem keeps_serviceTake (old : Option Target) (s : State) (j : Nat) (hj : j ≠ i) :
    KeepsDone m i s (State.serviceTake old s m j) := by
  have r (t : State) (b : Bool) : KeepsDone m i t (t.refuse m j b) := by
    unfold State.refuse
    exact .ite (keeps_sendToIntercept _ _ hj) ((keeps_sendToIntercept _ _ hj).trans (keeps_request _ _))
  have c (t : State) (img : Image) : KeepsDone m i t (t.carryOut img m) :=
    .of_only (n := m + 1) (Nat.succ_ne_self m) (handles_carryOut t img m) (only_carryOut t img m)
  unfold State.serviceTake
  split
  · exact .refl s
  · dsimp only
    refine .ite (keeps_finishAs _ _ _ _) (.ite ((keeps_served s).trans (r _ _)) (.ite ((keeps_served s).trans (r _ _)) ?_))
    exact ((keeps_served s).trans (c _ _)).trans (keeps_finishAs _ _ _ _)

/-- Resolving a slot leaves every other that is DONE so. -/
theorem keeps_resolve (old : Option Target) (s : State) (n j : Nat) (named : Option Target) (h : n = m → j ≠ i) :
    KeepsDone m i s (s.resolveWith (State.serviceTake old) n j named) := by
  by_cases hn : n = m
  · subst hn
    exact keeps_place (fun t => keeps_serviceTake old t j (h rfl)) s _ (h rfl)
  · exact .of_only hn (handles_resolveWith (handles_serviceTake old) s n j named)
      (only_resolveWith (only_serviceTake old) s j named)

/-! ## Re-examination and re-resolution (R76, R78) -/

theorem mem_sortBy {α : Type} (before : α → α → Bool) (y : α) (l : List α) : y ∈ sortBy before l ↔ y ∈ l := by
  have h : ∀ acc : List α, y ∈ l.foldl (fun acc x => insertBy before x acc) acc ↔ y ∈ acc ∨ y ∈ l := by
    induction l with
    | nil => simp
    | cons a l ih => intro acc; simp only [List.foldl_cons, ih, mem_insertBy, List.mem_cons]; tauto
  simpa [sortBy] using h []

/-- A re-examination leaves every DONE slot so: it resolves HELD slots alone. -/
theorem keeps_reexamine (s : State) : KeepsDone m i s s.reexamine := by
  refine .foldl (fun t x => ?_) _ s
  split
  · by_cases h : x.1 = m ∧ x.2 = i
    · obtain ⟨rfl, rfl⟩ := h
      refine fun hs => hs.elim (fun g => .inl ((handles_resolveWith (handles_serviceTake none) t _ _ none _).givenBack g)) fun d => ?_
      rename_i e
      cases k : t.slotState x.1 x.2 <;>
        simp only [k, SlotState.isDone, SlotState.isHeld, Bool.false_eq_true] at d e
    · exact keeps_resolve _ t _ _ _ fun hn hj => h ⟨hn, hj⟩
  · exact .refl t

theorem keeps_reexamineIf (s : State) (c : Bool) : KeepsDone m i s (s.reexamineIf c) := .ite (keeps_reexamine _) (.refl _)

/-- A DONE slot stays DONE when it is given back (R76). -/
theorem keeps_reResolve (s : State) (slots : List (Nat × Nat)) : KeepsDone m i s (s.reResolve slots) := by
  intro hs
  rcases hs with g | d
  · exact .inl ((handles_reResolve s slots m).givenBack g)
  · have out : ∀ x ∈ sortBy s.slotBefore (slots.filter fun x => !(s.slotState x.1 x.2).isDone), x.1 = m → x.2 ≠ i := by
      rintro x hx rfl rfl
      have := (List.mem_filter.1 ((mem_sortBy _ _ _).1 hx)).2
      rw [d] at this
      cases this
    have fold {f : State → Nat × Nat → State} (h : ∀ t x, (x.1 = m → x.2 ≠ i) → KeepsDone m i t (f t x)) :
        ∀ (l : List (Nat × Nat)), (∀ x ∈ l, x.1 = m → x.2 ≠ i) → ∀ t, KeepsDone m i t (l.foldl f t) := by
      intro l
      induction l with
      | nil => exact fun _ t => .refl t
      | cons a l ih =>
        exact fun hl t => (h t a (hl a (List.mem_cons_self ..))).trans
          (ih (fun x hx => hl x (List.mem_cons_of_mem _ hx)) _)
    unfold State.reResolve
    dsimp only
    refine fold (fun t x hx => ?_) _ out _ (fold (fun t x hx => keeps_setSlotState t _ _ _ hx) _ out s (.inr d))
    exact .ite (keeps_resolve _ t _ _ _ hx) (.refl t)

/-! ## Receipts (R147, R148) -/

theorem keeps_setPeer (s : State) (k : Nat) (x : Peer) : KeepsDone m i s (s.setPeer k x) := .store rfl

theorem keeps_hear (s : State) (k : Nat) : KeepsDone m i s (s.hear k) := by
  unfold State.hear
  refine .ite (.refl _) ?_
  dsimp only
  split
  · exact keeps_setPeer _ _ _
  · exact keeps_setPeer _ _ _
  · exact (keeps_setPeer _ _ _).trans (keeps_request _ _)

theorem keeps_hearAll (s : State) (ks : List Nat) : KeepsDone m i s (s.hearAll ks) :=
  (KeepsDone.foldl keeps_hear ks s).trans (keeps_reexamineIf _ _)

theorem keeps_becomeSilent (s : State) (k : Nat) : KeepsDone m i s (s.becomeSilent k) := by
  have h (t : State) (f : List Nat) : KeepsDone m i t { t with musterPending := f } := .store rfl
  unfold State.becomeSilent
  exact (((keeps_setPeer _ _ _).trans (h _ _)).trans (keeps_request _ _)).trans (keeps_reResolve _ _)

theorem keeps_takenBy (s : State) (k : Nat) (f : Frame) : KeepsDone m i s (s.takenBy k f) := by
  unfold State.takenBy
  split
  · exact .foldl (fun t x => .ite (keeps_finishSlot t _ _) (.refl t)) _ s
  · exact keeps_setPeer _ _ _
  · exact .store rfl

/-- What is read for one station leaves every DONE slot so. -/
theorem keeps_readReceipt (f : Frame) (stamp : Option Nat) (heard take : List Nat) (s : State) (k : Nat) :
    KeepsDone m i s (State.readReceipt f stamp heard take s k) := by
  unfold State.readReceipt
  dsimp only
  exact .ite ((keeps_setPeer _ _ _).trans (keeps_takenBy _ _ _))
    (.ite (keeps_setPeer _ _ _) (.ite ((keeps_setPeer _ _ _).trans (keeps_becomeSilent _ _)) (keeps_setPeer _ _ _)))

end

end Sys2Proof.Machine
end

