-- ==== Sys2Proof/Tests/Slice0.lean ====
section
/-! SUPPORT. The author's tests: ill-formed commands are refused, commands do what their rules say on small states, and
for every statement with hypotheses a state and operands that meet them, clause by clause. -/

namespace Sys2Proof.Tests

open Sys2Proof.Machine

set_option Elab.async false

/-! ## A small office: station 2 of an office with stations 2 and 4 -/

/-- The controls of the decode table, in both cases. -/
def controlMeanings : List Meaning := [.cr, .lf, .space, .ltrs, .figs]

/-- Codes 0 to 31 in letters case, then in figures case. -/
def table : List Meaning :=
  [.blank] ++ (List.range 26).map (fun i => .letter (i + 1)) ++ controlMeanings ++
  ([.blank] ++ (List.range 10).map .figure ++ (List.range 16).map (fun k => .sign (48 + k)) ++ controlMeanings)

/-- A line of 50 baud and authority 2, watched. -/
def watchedLine (k : CircuitKind) : LineCfg := ⟨k, .baud50, 2, true⟩

/-- Lines 0, 1, 3, 5 and 6 are DUPLEX, line 2 SEND-ONLY, line 4 RECEIVE-ONLY, line 7 UNFITTED. -/
def kinds : List CircuitKind :=
  [.duplex, .duplex, .sendOnly, .duplex, .receiveOnly, .duplex, .duplex, .unfitted]

/-- The station blocks: stations 2 and 4 are fitted. -/
def blockOf (k : Nat) : StationBlock :=
  if k = 2 then ⟨some ⟨19, 20, 2⟩, kinds.map watchedLine⟩
  else if k = 4 then ⟨some ⟨19, 20, 4⟩, List.replicate 8 (watchedLine .duplex)⟩
  else ⟨none, List.replicate 8 (watchedLine .unfitted)⟩

/-- The image in force. Code SUP routes to circuit 16, code WDY to 19 and then 21. -/
def img : Image where
  edition := 12
  fitted := [2, 4]
  intercept := 17
  supervisor := ⟨19, 21, 16⟩
  holdLimit := 20
  retryGaps := [10, 20, 40, 80, 160, 255, 255, 255]
  depth := ⟨2, 5⟩
  age := ⟨10, 20⟩
  blocks := ⟨100, 50⟩
  records := ⟨10, 5⟩
  held := ⟨2, 10⟩
  depthOn := true
  ageOn := true
  blocksOn := true
  recordsOn := true
  heldOn := true
  warningsLatched := true
  alarmsLatched := true
  errorCode := 5
  decodeTable := table
  routes := [⟨⟨19, 21, 16⟩, [some (.circuit 16), none, none]⟩, ⟨⟨23, 4, 25⟩, [some (.circuit 19), some (.circuit 21), none]⟩]
  stations := (List.range 16).map blockOf

/-- The map: own circuits and those of station 4 IN SERVICE where fitted. -/
def mapAt (c : Nat) : MapEntry :=
  let k := ((blockOf (c / 8)).lines[c % 8]?).elim .unfitted (·.kind)
  if c / 8 = 2 ∨ c / 8 = 4 then ⟨if k = .unfitted then .unfitted else .inService, k, none⟩ else .unlearned

/-- The station table: station 4 is PRESENT and configured. -/
def peerAt (k : Nat) : Peer :=
  if k = 2 ∨ k = 4 then Peer.self .set (some 12) else Peer.fresh

/-- The station in service, at rest. -/
def served : State :=
  { State.reset with
    phase := .running
    station := 2
    cfg := some img
    map := Vector.ofFn fun c => mapAt c.val
    peers := Vector.ofFn fun k => peerAt k.val
    minute := 100 }

/-- The station during a load, with the straps at `k`. -/
def loading (k : Nat) : State := { State.reset with phase := .loading, station := k, cfgCs := true }

/-- What holds of the state a command answers. -/
def answers (o : Host.Outcome State Fault Refusal) (p : State → Bool) : Bool :=
  match o with
  | .next t => p t
  | _ => false

/-- Two commands, the second in the state that the first answers. -/
def andThen (a b : Instr) (s : State) (p : State → Bool) : Bool := answers (exec a s) fun t => answers (exec b t) p

/-- The line `l` of the served station with fields changed. -/
def onLine (l : Nat) (f : Line → Line) (s : State := served) : State := s.setLine l (f (s.line l))

/-- The assembler of line `l` with fields changed. -/
def onMas (l : Nat) (f : Mas → Mas) (s : State := served) : State := s.setMas l (f (s.masOf l))

/-- The dispatch context of line `l` with fields changed. -/
def onCtx (l : Nat) (f : Ctx → Ctx) (s : State := served) : State := s.setCtx l (f (s.ctxOf l))

/-- The admin state and map condition of line `l` set. -/
def onAdmin (l : Nat) (a : Admin) (c : Condition) (s : State := served) : State :=
  (s.setAdmin l a).setMap (s.circuit l) { s.mapOf (s.circuit l) with condition := c }

/-- A symbol of letters case. -/
def sym (c : Code) : Symbol := ⟨.letters, c⟩

/-! ## Well-formedness -/

theorem test_wf_rxdLevelChange : (Instr.rxdLevelChange 7 true).wf = true ∧ (Instr.rxdLevelChange 8 true).wf = false := by
  decide

theorem test_wf_characterArrival : (Instr.characterArrival 7 3).wf = true ∧ (Instr.characterArrival 8 3).wf = false := by
  decide

theorem test_wf_openLineExpiry : (Instr.openLineExpiry 7).wf = true ∧ (Instr.openLineExpiry 8).wf = false := by decide

theorem test_wf_restoreExpiry : (Instr.restoreExpiry 7).wf = true ∧ (Instr.restoreExpiry 8).wf = false := by decide

theorem test_wf_characterCompletion :
    (Instr.characterCompletion 7).wf = true ∧ (Instr.characterCompletion 8).wf = false := by decide

theorem test_wf_drainingEnd : (Instr.drainingEnd 7).wf = true ∧ (Instr.drainingEnd 8).wf = false := by decide

theorem test_wf_startSample : (Instr.startSample 7).wf = true ∧ (Instr.startSample 8).wf = false := by decide

theorem test_wf_insertedShiftEnd :
    (Instr.insertedShiftEnd 7).wf = true ∧ (Instr.insertedShiftEnd 8).wf = false := by decide

theorem test_wf_notBeforePasses :
    (Instr.notBeforePasses 15).wf = true ∧ (Instr.notBeforePasses 16).wf = false := by decide

/-- An ill-formed command is a fault, whatever the state. -/
theorem test_illFormed_faults (s : State) :
    exec (.startSample 8) s = .fault .illFormed ∧ exec (.notBeforePasses 16) s = .fault .illFormed := ⟨rfl, rfl⟩

/-! ## The step -/

theorem test_step_takes_the_front (s : State) :
    step { s with pending := [.supplyDip, .supplyRemoved] } = exec .supplyDip { s with pending := [.supplyRemoved] } :=
  rfl

theorem test_step_idles : step State.reset = .next State.reset := rfl

theorem test_no_word_spells_a_command (n w : Nat) : decodeTableWord n w = none ∧ served.withFetchWord n w = served :=
  ⟨rfl, rfl⟩

/-! ## Supply, restart pin and load -/

theorem test_hyps_SupplyOnAndOff :
    { State.reset with phase := .unpowered }.phase = .unpowered ∧ served.phase ≠ .unpowered := by decide +kernel

theorem test_powerOn :
    answers (exec .powerOn { State.reset with phase := .unpowered }) (fun t => decide (t.phase = .hold .powerOn)) = true := by
  decide +kernel

theorem test_supplyRemoved :
    answers (exec .supplyRemoved served) (fun t => decide (t.phase = .unpowered ∧ t.cfg = none)) = true := by
  decide +kernel

theorem test_hyps_DipAndPin :
    served.phase = .running ∧ (loading 0).phase = .loading ∧
      { State.reset with phase := .hold .supplyDip }.phase = .hold .supplyDip ∧
      { State.reset with phase := .hold .restartPin }.phase = .hold .restartPin ∧ State.reset.phase = .hold .powerOn := by
  decide +kernel

theorem test_supplyDip_in_service :
    answers (exec .supplyDip served) (fun t => decide (t.phase = .hold .supplyDip ∧ t.restart.dip = true)) = true := by
  decide +kernel

theorem test_restartPin_in_a_dip :
    answers (exec .restartPin { State.reset with phase := .hold .supplyDip })
      (fun t => decide (t.phase = .hold .supplyDip ∧ t.restart.pin = true)) = true := by decide +kernel

theorem test_hyps_RestartHoldEnd : State.reset.phase = .hold .powerOn := rfl

theorem test_restartHoldEnd :
    answers (exec (.restartHoldEnd 15) State.reset) (fun t => decide (t.station = 15 ∧ t.cfgOut.length = 24)) = true := by
  decide +kernel

theorem test_hyps_LoadOfAnInvalidImage :
    ((loading 0).phase = .loading ∧ (loading 0).station < 16 ∧ imageOk 0 [] = false) ∧
      ((loading 15).phase = .loading ∧ (loading 15).station < 16 ∧ imageOk 15 [] = false) := by decide +kernel

theorem test_load_of_nothing :
    answers (exec (.configurationLoadEnd [] true true) (loading 15))
      (fun t => decide (t.cfg = none ∧ t.oalm = true ∧ t.engine = .waitingIdle)) = true := by decide +kernel

/-- A small valid image: no routes, stations 2 and 4 fitted. -/
def imageHead : List Byte :=
  [0, 12, 40, 0, 17, 78, 176, 20, 10, 20, 40, 80, 160, 255, 255, 255, 2, 5, 10, 20, 0, 100, 0, 50, 10, 5, 0, 2, 0, 10, 251, 5]

/-- Its decode table in letters case. -/
def imageLetters : List Byte :=
  [69, 1, 2, 3, 4, 5, 6, 7, 8, 9, 10, 11, 12, 13, 14, 15, 16, 17, 18, 19, 20, 21, 22, 23, 24, 25, 26, 64, 65, 66, 67, 68]

/-- Its decode table in figures case. -/
def imageFigures : List Byte :=
  [69, 32, 33, 34, 35, 36, 37, 38, 39, 40, 41, 48, 49, 50, 51, 52, 53, 54, 55, 56, 57, 58, 59, 60, 61, 62, 63,
    64, 65, 66, 67, 68]

/-- Its station blocks. -/
def imageStations : List Byte :=
  List.replicate 20 0 ++ [78, 130, 26, 26, 90, 26, 150, 26, 26, 192] ++ List.replicate 10 0 ++
    [78, 132, 26, 26, 26, 26, 26, 26, 26, 26] ++ List.replicate 110 0

/-- The image as the configuration memory gives it. -/
def image : List Byte := imageHead ++ imageLetters ++ imageFigures ++ [0] ++ imageStations ++ [21, 102]

theorem test_hyps_LoadOfAValidImage : (loading 2).phase = .loading ∧ (loading 2).station < 16 ∧ imageOk 2 image = true := by
  decide +kernel

/-- The idle run and the stuck timer by the wires (R134); the START report, with no route, begins on the intercept circuit with
serial 001. -/
theorem test_load_of_an_image :
    answers (exec (.configurationLoadEnd image true true) (loading 2)) (fun t => decide
      (t.timers = ⟨true, false, false, false⟩ ∧ (t.ctxOf 1).next = 2 ∧ (t.ctxOf 1).current.bind (·.assigned) = some 1 ∧
        (t.ctxOf 0).next = 1 ∧ (t.ctxOf 0).current = none)) = true ∧
    answers (exec (.configurationLoadEnd [] false true) (loading 2)) (fun t => decide
      (t.timers = ⟨false, false, true, false⟩)) = true := by decide +kernel

theorem test_image_fields :
    (Image.parse image).fitted = [2, 4] ∧ (Image.parse image).intercept = 17 ∧ (Image.parse image).supervisor = ⟨19, 21, 16⟩ ∧
      (Image.parse image).decodeTable = table := by decide +kernel

/-! ## The receive side of a line -/

theorem test_hyps_RxdLevelChange :
    (served.running = true ∧ (served.line 0).rxd ≠ false) ∧ (served.running = true ∧ (served.line 7).rxd = true) ∧
      State.reset.running = false := by decide +kernel

theorem test_rxdLevelChange_starts_a_character :
    answers (exec (.rxdLevelChange 0 false) served)
      (fun t => decide ((t.line 0).rx = .start ∧ (t.line 0).openTimer = true)) = true := by decide +kernel

theorem test_rxdLevelChange_on_a_send_only_line :
    answers (exec (.rxdLevelChange 2 false) served)
      (fun t => decide ((t.line 2).rxd = false ∧ (t.line 2).rx = .ready ∧ (t.line 2).openTimer = false)) = true := by
  decide +kernel

/-- A line in START. -/
def starting (marking : Bool) : State := onLine 6 fun x => { x with rx := .start, rxd := marking }

theorem test_hyps_StartSample :
    ((starting false).running = true ∧ ((starting false).line 6).rx = .start) ∧
      ((starting true).running = true ∧ ((starting true).line 6).rx = .start) := by decide +kernel

theorem test_startSample :
    answers (exec (.startSample 6) (starting false)) (fun t => decide ((t.line 6).rx = .code)) = true ∧
      answers (exec (.startSample 6) (starting true)) (fun t => decide ((t.line 6).rx = .ready)) = true := by
  decide +kernel

/-- Line 0 within a character, in letters case, with RXD as given. -/
def receiving (marking : Bool := true) (s : State := served) : State :=
  onLine 0 (fun x => { x with rx := .code, rxd := marking }) s

theorem test_hyps_CharacterArrival :
    (receiving.reading 0 = true ∧ receiving.cfg = some img) ∧
      ((receiving false).reading 0 = true ∧ (receiving false).cfg = some img) := by decide +kernel

theorem test_characterArrival_of_figs :
    answers (exec (.characterArrival 0 31) receiving)
      (fun t => decide ((t.line 0).rx = .ready ∧ (t.line 0).rxCase = .figures)) = true := by decide +kernel

theorem test_characterArrival_framing_error :
    answers (exec (.characterArrival 0 31) (receiving false))
      (fun t => decide ((t.line 0).rx = .spacingHold ∧ (t.line 0).rxCase = .letters)) = true := by decide +kernel

theorem test_hyps_NoSymbol :
    (receiving.ev = Event.none ∧ receiving.engine ≠ .contending ∧ receiving.engine ≠ .sending ∧ (receiving.line 0).rxd = true ∧ meaningOf img (receiving.line 0).rxCase 30 = some .ltrs ∧
      meaningOf img (receiving.line 0).rxCase 31 = some .figs ∧ meaningOf img (receiving.line 0).rxCase 0 = some .blank) ∧
    ((receiving true (onAdmin 0 .withdrawn .withdrawn)).reading 0 = true ∧
      (receiving true (onAdmin 0 .withdrawn .withdrawn)).adminOf 0 = .withdrawn) ∧
    (let s : State := { receiving with engine := .listening, flight := some (Flight.fresh none none) }
     s.reading 0 = true ∧ s.engine ≠ .idle ∧ s.engine ≠ .waitingIdle ∧ s.flight = some (Flight.fresh none none) ∧
       receiving.flight = none) := by decide +kernel

/-- Line 0 after HHH of a start sequence. -/
def threeHs : State := onMas 0 (fun x => { x with lineStart := false, startSeq := [sym 8, sym 8, sym 8] }) receiving

theorem test_hyps_StartSequence :
    threeHs.reading 0 = true ∧ threeHs.cfg = some img ∧ threeHs.ev = Event.none ∧ threeHs.adminOf 0 = .inn ∧
      (threeHs.line 0).rxd = true ∧ meaningOf img (threeHs.line 0).rxCase 8 = some (.letter 8) ∧
      (threeHs.masOf 0).mode = .hunt ∧ (threeHs.masOf 0).startSeq.length = 3 := by decide +kernel

theorem test_fourth_h :
    answers (exec (.characterArrival 0 8) threeHs)
      (fun t => decide ((t.masOf 0).mode = .header ∧ (t.masOf 0).header = [sym 8, sym 8, sym 8, sym 8])) = true := by
  decide +kernel

/-- A record of one block that is being filled from line 0, with `n` symbols of text. -/
def filling (n : Nat) (k : Nat := 1) : Record :=
  { Record.empty with
    state := .filling, source := some (.circuit 16), chain := List.range k, text := List.replicate n (sym 1) }

/-- Line 0 within the text of record 127, with `n` symbols in `k` blocks. -/
def inText (n : Nat) (k : Nat := 1) (c : Case := .letters) : State :=
  onLine 0 (fun x => { x with rxCase := c }) (onMas 0 (fun x => { x with mode := .text, lineStart := false, current := some 127 })
    (receiving.setRecord 127 (filling n k)))

/-- What `Obligations.TextSymbolIsStored` asks of a state, for record 127 of line 0, the code's meaning apart. -/
def storesText (s : State) : Bool :=
  s.reading 0 && decide (s.cfg = some img) && decide (s.ev = Event.none) && decide (s.adminOf 0 ≠ .withdrawn) &&
    decide ((s.masOf 0).mode = .text) &&
    decide ((s.masOf 0).current = some 127) && !(s.masOf 0).lineStart && decide ((s.masOf 0).look = []) &&
    !(s.masOf 0).resumeLf && decide ((s.record 127).state = .filling) && decide ((s.record 127).text.length < 4096) &&
    decide ((s.record 127).text.length < 32 * (s.record 127).chain.length)

/-- A letter, a figure and a sign at the ends of a block; CR, LF and SPACE; a framing error; the last symbol of all. -/
theorem test_hyps_TextSymbol :
    (storesText (inText 31) && storesText (inText 0 1 .figures) && storesText (inText 4095 128)) = true ∧
    (((inText 31).line 0).rxd = true ∧ meaningOf img ((inText 31).line 0).rxCase 26 = some (.letter 26) ∧
      meaningOf img ((inText 0 1 .figures).line 0).rxCase 10 = some (.figure 9) ∧
      meaningOf img ((inText 0 1 .figures).line 0).rxCase 26 = some (.sign 63)) ∧
    ([(27, Meaning.cr), (28, .lf), (29, .space)].all fun x =>
      decide (meaningOf img .letters (BitVec.ofNat 5 x.1) = some x.2 ∧ meaningOf img .figures (BitVec.ofNat 5 x.1) = some x.2))
        = true ∧
    (storesText (onLine 0 (fun x => { x with rxd := false }) (inText 1)) = true ∧
      ((onLine 0 (fun x => { x with rxd := false }) (inText 1)).line 0).rxd = false) := by
  decide +kernel

theorem test_text_symbol :
    answers (exec (.characterArrival 0 28) (inText 1)) (fun t => decide ((t.record 127).text = [sym 1, lfSym img] ∧
      (t.masOf 0).lineStart = true)) = true ∧
    answers (exec (.characterArrival 0 28) (onLine 0 (fun x => { x with rxd := false }) (inText 1)))
      (fun t => decide ((t.record 127).text = [sym 1, ⟨.error, 28⟩] ∧ (t.record 127).errors = 1 ∧
        (t.masOf 0).lineStart = false)) = true := by
  decide +kernel

/-- A block refused for an LF (R38): DISCARD begins at a line start; refused for the X before it, not at one. -/
theorem test_discarded_symbol_marks_the_line_start :
    ((((inText 32).setPool []).storeAll img 0 [lfSym img]).1.masOf 0).lineStart = true ∧
      ((((inText 32).setPool []).storeAll img 0 [sym 24, lfSym img]).1.masOf 0).lineStart = false := by decide +kernel

/-- The code-unit samples of a character (R4, R5): the first unit weighs 1, a marking unit counts, the fifth gives STOP. -/
theorem test_code_unit_samples :
    codeOfUnits [true, false, false, true, false] = 9 ∧
      ((receiving.line 0).sampleUnits [true, false, false, true, false]).1.rx = .stop ∧
      ((receiving.line 0).sampleUnits [true, false, false, true]).1.rx = .code := by decide +kernel

/-- Line 0 with its open-line timer running, and the admin state given. -/
def openingLine (a : Admin) (c : Condition) : State :=
  onLine 0 (fun x => { x with rxd := false, rx := .spacingHold, openTimer := true }) (onAdmin 0 a c)

theorem openingLine_ctx (a : Admin) (c : Condition) (l : Nat) : (openingLine a c).ctxOf l = Ctx.fresh := reset_ctxOf l

theorem test_hyps_OpenLineExpiry_idle (a : Admin) (c : Condition) : SendIdleIffNoEntry (openingLine a c) := fun l => by
  rw [openingLine_ctx]; decide

theorem test_hyps_OpenLineExpiry :
    ((openingLine .inn .inService).openDue 0 = true ∧ (openingLine .inn .inService).adminOf 0 = .inn ∧
      (openingLine .inn .inService).hasCtx 0 = true) ∧
    ((openingLine .withdrawing .withdrawing).openDue 0 = true ∧
      (openingLine .withdrawing .withdrawing).adminOf 0 = .withdrawing) ∧
    ((openingLine .withdrawn .withdrawn).openDue 0 = true ∧ (openingLine .withdrawn .withdrawn).adminOf 0 = .withdrawn) ∧
    (openingLine .inn .inService).station < 16 ∧ (openingLine .inn .inService).cfg = some img := by decide +kernel

theorem test_openLineExpiry :
    answers (exec (.openLineExpiry 0) (openingLine .inn .inService))
      (fun t => decide ((t.line 0).rx = .halted ∧ (t.mapOf 16).condition = .opened)) = true := by decide +kernel

/-- Line 0 OPEN with its restore timer running, and the admin state given. -/
def restoring (a : Admin) (c : Condition) : State :=
  onLine 0 (fun x => { x with rx := .halted, wire := .opened, restoreTimer := true }) (onAdmin 0 a c)

theorem test_hyps_RestoreExpiry :
    ((restoring .inn .opened).restoreDue 0 = true ∧ (restoring .inn .opened).adminOf 0 = .inn) ∧
      ((restoring .withdrawing .withdrawing).restoreDue 0 = true ∧
        (restoring .withdrawing .withdrawing).adminOf 0 = .withdrawing) ∧
      ((restoring .withdrawn .withdrawn).restoreDue 0 = true ∧ (restoring .withdrawn .withdrawn).adminOf 0 = .withdrawn) ∧
      (restoring .inn .opened).station < 16 := by decide +kernel

theorem test_restoreExpiry :
    answers (exec (.restoreExpiry 0) (restoring .inn .opened))
      (fun t => decide ((t.line 0).rx = .ready ∧ (t.mapOf 16).condition = .inService ∧ (t.peer 4).owed = [16])) = true := by
  decide +kernel

/-- The changed condition is owed to the peer that R150 names. -/
theorem test_hyps_owed :
    ((restoring .inn .opened).mapOf 16).condition = .opened ∧ (restoring .inn .opened).fitted 4 = true ∧
      4 ≠ (restoring .inn .opened).station ∧ ((restoring .inn .opened).peer 4).presence ≠ .silent ∧
      ((restoring .inn .opened).peer 4).flag ≠ .clear := by decide +kernel

/-! ## The send side of a line -/

theorem test_hyps_SenderKeys :
    ((Line.fresh true .ready false).tx = .free ∧ (Line.fresh true .ready false).txCase = .letters) ∧
      ({ Line.fresh true .ready false with txCase := .figures }.tx = .free ∧
        { Line.fresh true .ready false with txCase := .figures }.txCase = .figures) ∧
      ({ Line.fresh true .ready false with tx := .shifting }.tx = .shifting ∧
        { Line.fresh true .ready false with tx := .keying }.tx = .keying) ∧
      { Line.fresh true .ready false with tx := .draining }.tx = .draining ∧
      { Line.fresh true .ready false with tx := .draining }.held = none := by decide

theorem test_send_case_follows_the_shift :
    ((Line.fresh true .ready false).offer img (.symbol ⟨.figures, 3⟩)).txCase = .figures := by decide

/-- The sender of line 3 in state `x` with the item given. -/
def sending (x : TxState) (it : Option Item) (s : State := served) : State :=
  onLine 3 (fun y => { y with tx := x, item := it, keyed := some 30 }) s

theorem test_hyps_ShiftEndAndDrainingEnd :
    (((sending .shifting (some (.symbol (sym 3)))).line 3).tx = .shifting ∧
      ((sending .shifting (some (.symbol (sym 3)))).line 3).item = some (.symbol (sym 3))) ∧
    (((sending .draining none).line 3).tx = .draining ∧ ((sending .draining none).line 3).held = none) ∧
    ((onLine 3 (fun y => { y with held := some .lettersShift }) (sending .draining none)).line 3).held = some .lettersShift ∧
    (sending .draining none).running = true ∧ (sending .draining none).cfg = some img := by decide +kernel

theorem test_insertedShiftEnd_of_an_error_symbol :
    answers (exec (.insertedShiftEnd 3) (sending .shifting (some (.symbol ⟨.error, 9⟩))))
      (fun t => decide ((t.line 3).keyed = some 5 ∧ (t.line 3).tx = .keying)) = true := by decide +kernel

theorem test_drainingEnd_begins_the_held_item :
    answers (exec (.drainingEnd 3) (onLine 3 (fun y => { y with held := some .lettersShift }) (sending .draining none)))
      (fun t => decide ((t.line 3).keyed = some 30 ∧ (t.line 3).tx = .keying ∧ (t.line 3).held = none)) = true := by
  decide +kernel

/-- A queue entry for slot 0 of record `m`. -/
def entry (m : Nat) (cls : MsgClass := .business) : Entry :=
  { record := m, slots := [0], cls := cls, stamp := 0, queuedAt := 0, repeatSerial := none, resume := none, assigned := none }

/-- A standing record with one slot, in the state given, and `n` symbols of text. -/
def standing (st : SlotState) (n : Nat := 3) : Record :=
  { Record.empty with
    state := .standing
    source := some (.circuit 21)
    cls := .business
    origin := some ⟨19, 21, 16⟩
    serial := some 7
    authority := 2
    chain := [0]
    text := List.replicate n (sym 1)
    stamp := some 0
    slots := [⟨.office ⟨23, 4, 25⟩, st⟩] }

/-- Line 3 keying, with its circuit sending record 5. -/
def keying (d : SendState) (pos : Nat) (queue : List Entry := []) (items : List Item := []) : State :=
  sending .keying (some .lettersShift)
    (onCtx 3 (fun x =>
      { x with
        current := some { entry 5 with assigned := some 41 }
        send := d
        pos := pos
        framing := items
        queue := queue })
      (served.setRecord 5 (standing (.queued 19))))

theorem test_hyps_CompletionInIdle :
    (sending .keying (some .lettersShift)).running = true ∧ (sending .keying (some .lettersShift)).ev = Event.none ∧
      ((sending .keying (some .lettersShift)).line 3).tx = .keying ∧
      ((sending .keying (some .lettersShift)).ctxOf 3).send = .idle := by decide +kernel

/-- A line within its header, another item to come. -/
def inHeader : State := keying .header 0 [] [.lettersShift, .symbol (sym 8)]

theorem test_hyps_CompletionInAFraming :
    inHeader.running = true ∧ inHeader.ev = Event.none ∧ inHeader.cfg = some img ∧ inHeader.hasCtx 3 = true ∧
      (inHeader.line 3).tx = .keying ∧ (inHeader.ctxOf 3).current = some { entry 5 with assigned := some 41 } ∧
      (inHeader.ctxOf 3).send ≠ .idle ∧ (inHeader.ctxOf 3).send ≠ .text ∧
      (inHeader.ctxOf 3).framing[(inHeader.ctxOf 3).pos + 1]? = some (.symbol (sym 8)) := by decide +kernel

theorem test_characterCompletion_in_a_header :
    answers (exec (.characterCompletion 3) inHeader)
      (fun t => decide ((t.line 3).keyed = some 8 ∧ (t.ctxOf 3).pos = 1)) = true := by decide +kernel

/-- Line 3 at the last item of a framing, with the stack, condition and queue given. -/
def lastItem (d : SendState) (stack : List Entry := []) (c : Condition := .inService) (queue : List Entry := [])
    (origin : Nat := 1) : State :=
  (onCtx 3 (fun x => { x with stack := stack, origin := origin }) (keying d 0 queue [.lettersShift])).setMap 19
    { served.mapOf 19 with condition := c }

/-- An entry on the stack. -/
def stacked (m : Nat) (cls : MsgClass) : Entry := { entry m cls with assigned := some 7, resume := some 1 }

/-- A full stack. -/
def fullStack : List Entry := [stacked 8 .urgent, stacked 7 .business, stacked 6 .ordinary]

/-- What the ends of the framings ask of a state, for line 3. -/
def endsFraming (s : State) (d : SendState) : Bool :=
  s.running && decide (s.ev = Event.none) && decide (s.cfg = some img) && s.hasCtx 3 && decide ((s.line 3).tx = .keying) &&
    decide ((s.ctxOf 3).current = some { entry 5 with assigned := some 41 }) && decide ((s.ctxOf 3).send = d) &&
    decide ((s.ctxOf 3).framing[(s.ctxOf 3).pos + 1]? = none)

theorem test_hyps_FramingEnds :
    (endsFraming (lastItem .header) .header && endsFraming (lastItem .resuming) .resuming) = true ∧
    (lastItem .header [] .inService [entry 6 .emergency]).preempts 3 = true ∧
    ((lastItem .header [] .inService [] 3).preempts 3 = false ∧
      ((lastItem .header [] .inService [] 3).record 5).text.length ≤ ((lastItem .header [] .inService [] 3).ctxOf 3).origin) ∧
    ((lastItem .header).preempts 3 = false ∧
      ((lastItem .header).record 5).text[((lastItem .header).ctxOf 3).origin]? = some (sym 1)) ∧
    (endsFraming (lastItem .breaking (fullStack.drop 1)) .breaking = true ∧
      ((lastItem .breaking (fullStack.drop 1)).ctxOf 3).stack.length < 3) ∧
    (endsFraming (lastItem .breaking fullStack) .breaking = true ∧
      ((lastItem .breaking fullStack).ctxOf 3).stack = fullStack ∧
      (lastItem .breaking fullStack).ownCondition 3 ≠ .withdrawing) ∧
    (lastItem .breaking fullStack .withdrawing).ownCondition 3 = .withdrawing ∧
    endsFraming (lastItem .trailer) .trailer = true := by decide +kernel

theorem test_header_gives_text_or_a_break :
    answers (exec (.characterCompletion 3) (lastItem .header))
      (fun t => decide ((t.ctxOf 3).send = .text ∧ (t.ctxOf 3).pos = 1 ∧ (t.line 3).keyed = some 1)) = true ∧
    answers (exec (.characterCompletion 3) (lastItem .resuming [] .inService [entry 6 .emergency]))
      (fun t => decide ((t.ctxOf 3).send = .breaking ∧ (t.ctxOf 3).framing = breakItems img 41)) = true := by decide +kernel

theorem test_full_stack_gives_its_bottom_back :
    answers (exec (.characterCompletion 3) (lastItem .breaking fullStack .inService [entry 9 .emergency]))
      (fun t => decide ((t.ctxOf 3).stack.map (·.record) = [5, 8, 7] ∧
        (t.ctxOf 3).queue = [{ stacked 6 .ordinary with repeatSerial := some 7, assigned := none, resume := none }] ∧
        (t.ctxOf 3).current.map (·.record) = some 9)) = true := by decide +kernel

theorem test_trailer_completes_the_entry :
    answers (exec (.characterCompletion 3) (lastItem .trailer))
      (fun t => decide ((t.record 5).state = .free ∧ (t.ctxOf 3).send = .idle)) = true := by decide +kernel

/-- What `Obligations.CompletionInText` asks of a state, for line 3. -/
def completesText (s : State) : Bool :=
  s.running && decide (s.ev = Event.none) && decide (s.cfg = some img) && s.hasCtx 3 && decide ((s.line 3).tx = .keying) &&
    decide ((s.ctxOf 3).current = some { entry 5 with assigned := some 41 }) && decide ((s.ctxOf 3).send = .text) &&
    !(s.ctxOf 3).guarding

/-- The text after the last symbol, before it with nothing waiting, and before it with an EMERGENCY entry waiting. -/
theorem test_hyps_CompletionInText :
    (completesText (keying .text 2) = true ∧ ((keying .text 2).record 5).text.length ≤ ((keying .text 2).ctxOf 3).pos + 1) ∧
    (completesText (keying .text 1) = true ∧ (keying .text 1).preempts 3 = false ∧
      ((keying .text 1).record 5).text[((keying .text 1).ctxOf 3).pos + 1]? = some (sym 1) ∧
      (((keying .text 1).ctxOf 3).lineStart && needsGuard img (some 41)
        (((keying .text 1).record 5).text.drop (((keying .text 1).ctxOf 3).pos + 1))) = false) ∧
    (completesText (keying .text 1 [entry 6 .emergency]) = true ∧ (keying .text 1 [entry 6 .emergency]).preempts 3 = true) := by
  decide +kernel

theorem test_characterCompletion_breaks_the_text :
    answers (exec (.characterCompletion 3) (keying .text 1 [entry 6 .emergency]))
      (fun t => decide ((t.ctxOf 3).send = .breaking ∧ (t.ctxOf 3).pos = 0)) = true := by decide +kernel

/-! ## Dispatch and resolver, by operation -/

/-- Line 3 with the queue, stack and condition given. -/
def picking (queue stack : List Entry) (c : Condition := .inService) : State :=
  onCtx 3 (fun x => { x with queue := queue, stack := stack, next := 999 }) (onAdmin 3 .inn c)

/-- An entry cut into, with its resume offset. -/
def suspended : Entry := { entry 5 .business with resume := some 2, assigned := some 41 }

theorem test_hyps_PickRule :
    (((picking [] []).ctxOf 3).stack = [] ∧ ((picking [] []).ctxOf 3).queue = []) ∧
    (((picking [entry 6] []).ctxOf 3).queue = entry 6 :: [] ∧ (picking [entry 6] []).ownCondition 3 = .inService) ∧
    (((picking [entry 6 .urgent] [suspended]).ctxOf 3).stack = suspended :: [] ∧ suspended.cls.num < (entry 6 .urgent).cls.num) ∧
    (((picking [entry 6] [] .opened).ctxOf 3).stack = [] ∧ (picking [entry 6] [] .opened).ownCondition 3 ≠ .inService) ∧
    ((picking [entry 6 .urgent] [suspended] .withdrawing).ownCondition 3 = .withdrawing) ∧
    (((picking [entry 6 .business] [suspended]).ctxOf 3).stack = suspended :: [] ∧
      (picking [entry 6 .business] [suspended]).ownCondition 3 = .inService ∧
      ¬ suspended.cls.num < (entry 6 .business).cls.num) ∧ (picking [] []).cfg = some img := by decide +kernel

theorem test_pick_starts_a_head_of_greater_class :
    (((picking [entry 6 .urgent] [suspended]).pick 3).ctxOf 3).current = some { entry 6 .urgent with assigned := some 999 } ∧
      (((picking [entry 6 .urgent] [suspended]).pick 3).ctxOf 3).next = 1 := by decide +kernel

theorem test_pick_resumes_before_an_equal_class :
    (((picking [entry 6 .business] [suspended]).pick 3).ctxOf 3).send = .resuming := by decide +kernel

/-- Record 127 with one slot QUEUED on circuit 19. -/
def queuedRecord : State := served.setRecord 127 (standing (.queued 19))

/-- Record 127 with one slot CARRYING to circuit 33 of station 4. -/
def carryingRecord : State := served.setRecord 127 (standing (.carrying (.circuit 33)))

theorem test_hyps_FinishedSlotsAreDone :
    ((entry 127).record < 128 ∧ 0 ∈ (entry 127).slots ∧ (queuedRecord.slot (entry 127).record 0).isSome = true) ∧
      ((0, Target.circuit 33) ∈ [(0, Target.circuit 33)] ∧ (Target.circuit 33).owner = 4 ∧
        carryingRecord.carriesTo 127 0 4 = true) ∧
      (∀ x, (0, x) ∈ [(0, Target.circuit 9)] → x.owner ≠ 4) := by
  refine ⟨by decide +kernel, by decide +kernel, fun x h => ?_⟩
  rw [List.mem_singleton] at h
  cases h
  decide

/-- A slot that has left the station it was listed for is not DONE by another station's TAKE (R144). -/
theorem test_a_slot_listed_elsewhere_is_left :
    (carryingRecord.takenBy 4 (.carry [1, 4] 127 [(0, .circuit 9)])).slotState 127 0 = .carrying (.circuit 33) := by
  decide +kernel

theorem test_last_slot_done_releases_the_record :
    ((queuedRecord.completeEntry 3 (entry 127)).record 127).state = .free := by decide +kernel

/-- Code WDY routed to this station's own service, record 127 with a slot for it and a slot QUEUED on circuit 16. -/
def ownServiceRecord (st : SlotState) : State :=
  { served with
    cfg := some { img with routes := [⟨⟨23, 4, 25⟩, [some (.service 2), none, none]⟩] } }.setRecord 127
      { standing st with slots := [⟨.office ⟨23, 4, 25⟩, st⟩, ⟨.office ⟨19, 21, 16⟩, .queued 16⟩] }

/-- A slot re-resolved to this station's own service keeps the target it had (R47, R72); one from the held list has none. -/
theorem test_target_kept_at_the_own_service :
    ((((ownServiceRecord (.queued 19)).reResolve [(127, 0)]).record 127).slots.map (·.state) =
      [.done (some (.circuit 19)), .queued 16]) ∧
    ((((ownServiceRecord (.carrying (.circuit 33))).reResolve [(127, 0)]).record 127).slots.map (·.state) =
      [.done (some (.circuit 33)), .queued 16]) ∧
    (((ownServiceRecord (.held 0 false .noRoute)).reexamine.record 127).slots.map (·.state) =
      [.done none, .queued 16]) := by decide +kernel

/-- A record of the source given for the code given. -/
def addressedTo (d : Dest) : Record := { standing .unrouted with slots := [⟨d, .unrouted⟩] }

theorem test_hyps_RoutedTarget :
    interceptBound (addressedTo .pseudo) ⟨.pseudo, .unrouted⟩ = true ∧
    (interceptBound (addressedTo (.office ⟨23, 4, 25⟩)) ⟨.office ⟨23, 4, 25⟩, .unrouted⟩ = false ∧
      (img.routes.find? fun e => decide (e.code = ⟨23, 4, 25⟩)).isSome = true) ∧
    (served.routed img (addressedTo (.office ⟨23, 4, 25⟩)) ⟨.office ⟨23, 4, 25⟩, .unrouted⟩ = some (.circuit 19)) ∧
    ((onAdmin 3 .inn .opened (onAdmin 5 .inn .opened)).routed img (addressedTo (.office ⟨23, 4, 25⟩))
      ⟨.office ⟨23, 4, 25⟩, .unrouted⟩ = none) ∧
    (img.routes.find? fun e => decide (e.code = ⟨1, 1, 1⟩)) = none := by decide +kernel

theorem test_second_target_when_the_first_is_open :
    (onAdmin 3 .inn .opened).routed img (addressedTo (.office ⟨23, 4, 25⟩)) ⟨.office ⟨23, 4, 25⟩, .unrouted⟩ =
      some (.circuit 21) := by decide +kernel

theorem test_hyps_Grants :
    State.reset.configured = false ∧ served.configured = true ∧ (served.grantRecord .ordinary 928).isSome = true ∧
      (served.grantRecord .ordinary 929).isSome = false ∧ (served.grantRecord .train 1024).isSome = true ∧
      (let s := served.setRecord 127 { filling 0 127 with cls := .emergency };
        (s.record 127).state = .filling ∧ (s.record 127).chain.length < 128 ∧ (s.record 127).cls = .emergency ∧
          (s.grantBlock 127).isSome = true) := by decide +kernel

theorem test_hyps_Completion :
    ((served.setRecord 127 (standing .unrouted)).record 127).slots ≠ [] ∧
      ((served.setRecord 127 (filling 1)).record 127).slots = [] ∧
      ((served.setRecord 127 (filling 1)).record 127).state ≠ .free := by decide +kernel

theorem test_hyps_SerialCheck :
    ((1 : Nat) = (1 + 999 - 999) % 999 ∧ (499 : Nat) = (499 + 999 - 999) % 999) ∧
      ((500 : Nat) = (500 + 999 - 999) % 999 ∧ (998 : Nat) = (998 + 999 - 999) % 999) := by decide

theorem test_serialCheck :
    serialCheck (some 999) 999 = (.good, some 1) ∧ serialCheck (some 999) 1 = (.gap 999 999 1, some 2) ∧
      serialCheck (some 2) 1 = (.duplicate, some 2) := by decide

/-! ## The office -/

theorem test_hyps_LevelMoves :
    { img with heldOn := false }.enabled .held = false ∧ (img.enabled (.depth 4) = true ∧ served.hasGauge (.depth 4) = false) ∧
      (img.enabled (.depth 3) = true ∧ served.hasGauge (.depth 3) = true) ∧ served.measure (.age 3) = none ∧
      State.reset.cfg = none ∧ served.cfg = some img := by decide +kernel

/-- The served station with no free block. -/
def full : State := served.setPool []

/-- A STUCK report is shorter than a record, and the empty store takes it. -/
theorem test_stuck_report_fits :
    (fun n => decide (n ≤ 4096 ∧ blocksFor n + 96 ≤ 1024)) (textOf img (cutLines (served.reportLines (.highway .stuck)))).length
      = true := by decide +kernel

theorem test_hyps_Reports :
    State.reset.cfg = none ∧ (served.running = true ∧ served.cfg = some img ∧ served.freeBlocks = 1024 ∧ 9 ≤ served.freeRecords) ∧
      (full.running = true ∧ full.cfg = some img ∧ ∀ n, full.freeBlocks < blocksFor n + 96) := by
  refine ⟨rfl, by decide +kernel, by decide +kernel, by decide +kernel, fun n => ?_⟩
  have h : full.freeBlocks = 0 := by decide +kernel
  omega

/-- No free block is left: both levels are raised in one report, which the store refuses (R175 to R177, R184). -/
theorem test_evaluation_of_no_free_block :
    (full.evaluate [.blocks]).2 = [⟨.blocks, false, true, some 0⟩, ⟨.blocks, true, true, some 0⟩] ∧
      ((full.evaluateGauges [.blocks]).levels.get .blocks = ⟨.set, .set⟩ ∧ (full.evaluateGauges [.blocks]).lost = 1) ∧
      (causePresent .blocks (some 50) 50 = true ∧ causePresent .blocks (some 51) 50 = false) ∧
      (causePresent (.depth 3) (some 5) 5 = true ∧ causePresent (.depth 3) (some 4) 5 = false) := by decide +kernel

/-- The entries of a circuit give its depth and its oldest age (R103, R175). -/
theorem test_measures_of_a_circuit :
    (keying .text 1).measure (.depth 3) = some 1 ∧ (keying .text 1).measure (.age 3) = some 100 := by decide +kernel

theorem test_report_made :
    (served.request (.highway .stuck)).lost = 0 ∧
      (fun r => decide (r.state = .standing ∧ r.source = some .service ∧ r.cls = .business ∧ r.origin = some ⟨19, 20, 2⟩ ∧
        r.text = textOf img (cutLines (served.reportLines (.highway .stuck))) ∧
        r.slots = [⟨.office ⟨19, 21, 16⟩, .queued 16⟩])) ((served.request (.highway .stuck)).record 0) = true := by
  decide +kernel

theorem test_hyps_MinuteAdvances : served.running = true ∧ { served with minute := 65535 }.running = true := by decide +kernel

theorem test_minute_wraps :
    answers (exec .officeMinuteAdvance { served with minute := 65535 }) (fun t => decide (t.minute = 0)) = true := by
  decide +kernel

/-- Record 0 with a slot held since the minute given, at minute 100. -/
def holding (since : Minute) : State := served.setRecord 0 (standing (.held since false .noRoute))

theorem test_hyps_Expired :
    (holding 80).running = true ∧ (holding 80).cfg = some img ∧ (holding 80).expired = [(0, 0)] ∧
      (holding 80).slotState 0 0 = .held 80 false .noRoute ∧ (holding 81).expired = [] := by decide +kernel

theorem test_holdLimitExpiry :
    answers (exec .holdLimitExpiry (holding 80)) (fun t => decide (t.slotState 0 0 = .queued 17)) = true := by decide +kernel

/-- The rest of a message with the requests and the restart given. -/
def restOf (outs ins : List Nat) (k : Option RestartKind) : Rest :=
  { source := some (.circuit 21), authority := 2, answers := [], moves := [], outs := outs, ins := ins, restart := k }

/-- The served station with a message's rest waiting. -/
def resting (q : Rest) (s : State := served) : State := { s with rests := [q] }

theorem test_hyps_ServiceRest (k : Option RestartKind) :
    (resting (restOf [] [] k)).running = true ∧ (resting (restOf [] [] k)).cfg = some img ∧
      (resting (restOf [] [] k)).rests = restOf [] [] k :: [] ∧ (restOf [] [] k).restart = k ∧
      (restOf [] [] k).outs = [] ∧ (restOf [] [] k).ins = [] := ⟨rfl, rfl, rfl, rfl, rfl, rfl⟩

theorem test_cold_restart :
    answers (exec (.serviceMessageRest 4 true true) (resting (restOf [] [] (some .cold))))
      (fun t => decide (t.phase = .loading ∧ t.station = 4 ∧ t.restart.last = .cold)) = true := by decide +kernel

/-- Record 127 queued on circuit 19, which a message has diverted to circuit 21. -/
def diverted : State :=
  resting { restOf [] [] none with moves := [19] }
    ((onCtx 3 (fun x => { x with queue := [entry 127] }) queuedRecord).setMap 19 ⟨.inService, .duplex, some 21⟩)

theorem test_hyps_Diverted :
    diverted.running = true ∧ diverted.cfg = some img ∧ diverted.rests = { restOf [] [] none with moves := [19] } :: [] ∧
      (diverted.ctxOf 3).queue ≠ [] ∧ (served.ctxOf 3).queue = [] := by decide +kernel

/-- The unstarted entry leaves for the diversion (R171), and the COMMAND report is made. -/
theorem test_divert_moves_the_queue :
    answers (exec (.serviceMessageRest 0 true true) diverted) (fun t => decide
      ((t.ctxOf 3).queue = [] ∧ t.slotState 127 0 = .queued 21 ∧ (t.record 0).source = some .service ∧ t.rests = [])) = true := by
  decide +kernel

/-- The outcomes of a DIVERT line, check by check (R171). -/
theorem test_divert_outcomes :
    ([(33, some 21), (23, some 21), (17, some 21), (19, some 128), (19, some 19), (19, some 21), (19, some 127), (19, none)].map
      fun x => diverted.divertResult img x.1 x.2) =
      [.notOwn, .unfitted, .intercept, .range, .same, .noChange, .diverted, .divertCleared] ∧
    served.divertResult img 19 none = .noChange ∧
    (let p := served.doDivert img (restOf [] [] none) 1 19 (some 21)
     decide ((p.1.mapOf 19).diversion = some 21 ∧ (p.1.peer 4).owed = [19] ∧ p.2.moves = [19]) = true) := by decide +kernel

theorem test_hyps_CircuitRequest :
    (∀ c ∈ (restOf [16, 19] [] none).outs, c ≠ img.intercept ∧ (restOf [16, 19] [] none).source ≠ some (.circuit c)) ∧
      (restOf [16, 19] [] none).outs ≠ [] ∧ (restOf [] [16] none).ins ≠ [] ∧
      (served.adminOf 0 = .inn ∧ served.isOwn (served.circuit 0) = true ∧ served.kind 0 ≠ .unfitted ∧
        served.circuit 0 ∈ (restOf [16, 19] [] none).outs) ∧ served.kind 7 = .unfitted := by decide +kernel

/-- Line 3 keeps its entry in transmission, so its circuit stays WITHDRAWING; three requests are invalid. -/
theorem test_hyps_CircuitRequest_open_and_invalid :
    ((keying .text 1).hasCtx 3 = true ∧ ((keying .text 1).ctxOf 3).send ≠ .idle) ∧
    (17 ∈ (restOf [17] [] none).outs ∧ served.isOwn 17 = true ∧ served.kind (lineOf 17) ≠ .unfitted ∧ 17 = img.intercept) ∧
    (21 ∈ (restOf [19, 21] [] none).outs ∧ served.isOwn 21 = true ∧ served.kind (lineOf 21) ≠ .unfitted ∧
      (restOf [19, 21] [] none).source = some (.circuit 21)) ∧
    (19 ∈ (restOf [19] [18] none).outs ∧ 18 ∈ (restOf [19] [18] none).ins ∧ served.isOwn 18 = true ∧
      served.kind (lineOf 18) ≠ .unfitted) := by decide +kernel

theorem test_out_circuit_with_work_stays_withdrawing :
    answers (exec (.serviceMessageRest 0 true true) (resting (restOf [19, 16] [] none) (keying .text 1)))
      (fun t => decide (t.adminOf 3 = .withdrawing ∧ (t.mapOf 19).condition = .withdrawing ∧ t.adminOf 0 = .withdrawn))
      = true := by decide +kernel

theorem test_invalid_request_carries_out_its_in :
    answers (exec (.serviceMessageRest 0 true true) (resting (restOf [19] [18] none) (onAdmin 2 .withdrawn .withdrawn)))
      (fun t => decide (t.adminOf 3 = .inn ∧ t.adminOf 2 = .inn ∧ (t.mapOf 18).condition = .inService)) = true := by
  decide +kernel

theorem test_out_circuit :
    answers (exec (.serviceMessageRest 0 true true) (resting (restOf [16, 19] [] none)))
      (fun t => decide (t.adminOf 0 = .withdrawn ∧ t.adminOf 3 = .withdrawn ∧ t.adminOf 1 = .inn ∧ (t.peer 4).owed = [16, 19]))
      = true := by decide +kernel

theorem test_in_circuit :
    answers (exec (.serviceMessageRest 0 true true) (resting (restOf [] [16] none) (onAdmin 0 .withdrawn .withdrawn)))
      (fun t => decide (t.adminOf 0 = .inn ∧ (t.mapOf 16).condition = .inService)) = true := by decide +kernel

/-! ## The sender of a frame -/

/-- A CONDITION frame to station 4 about circuit 16. -/
def condition : Frame := .condition [4] [⟨16, .inService, .duplex, none⟩]

/-- The cells of that frame. -/
def conditionCells : List Byte := [0, 33, 8, 0, 16, 0, 255]

theorem test_cells_of_a_condition_frame : served.frameCells condition = conditionCells := by decide +kernel

/-- Waiting with that frame offered, the idle run under way or not. -/
def waiting (idleRun : Bool := true) : State :=
  { served with engine := .waitingIdle, offered := some ⟨condition, false, none⟩, timers := ⟨idleRun, false, false, false⟩ }

/-- Waiting while a stop condition of its own is being made. -/
def stopping : State := { waiting false with parting := ⟨true, false⟩ }

/-- The same after the falling edge of HC. -/
def stoppingLow : State := { stopping with timers := ⟨false, false, true, false⟩ }

theorem test_hyps_FrameStarts :
    (waiting.running = true ∧ waiting.engine = .waitingIdle ∧ waiting.offered = some ⟨condition, false, none⟩ ∧
      waiting.timers.idleRun = true) ∧
    (stopping.running = true ∧ stopping.engine = .waitingIdle ∧ stopping.offered = some ⟨condition, false, none⟩ ∧
      stopping.parting.stop = true ∧ stopping.timers.stuck = false) ∧
    ((waiting false).timers.idleRun = false ∧ (waiting false).parting.stop = false) ∧
    (stoppingLow.timers.idleRun = false ∧ stoppingLow.timers.stuck = true) ∧
    (served.running = true ∧ served.engine = .idle ∧ served.flight = none ∧ stopping.flight = none) := by decide +kernel

/-- The own frame at the place given. -/
def ownFrame (cell bit : Nat) (bits : List Bool) : Flight :=
  { Flight.fresh (some (condition, conditionCells)) (some 7) with cell := cell, bit := bit, bits := bits }

/-- The station with that frame on the wire. -/
def clocking (e : Engine) (f : Flight) : State :=
  { served with engine := e, offered := some ⟨condition, false, none⟩, flight := some f, timers := ⟨false, false, true, false⟩ }

theorem test_frameStart :
    answers (exec .frameStart waiting) (fun t => decide (t.engine = .contending ∧ t.flight = some (ownFrame 0 1 []))) = true := by
  decide +kernel

/-- The idle run outside a frame (R121): FRAME_START waits for it; a rising edge of HC with HD pulled stops it, one with HD
released starts it, a falling edge stops it; at the stop condition of its own the first rising edge lets it begin, the next
stops it. -/
theorem test_idle_run_outside_a_frame :
    answers (exec .frameStart (waiting false)) (fun t => decide (t = waiting false)) = true ∧
    answers (exec (.bitSample false) waiting) (fun t => decide (t.timers.idleRun = false)) = true ∧
    answers (exec (.bitSample true) (waiting false)) (fun t => decide (t = waiting)) = true ∧
    answers (exec (.startOrStopNotOwn false) (waiting false)) (fun t => decide (t = waiting)) = true ∧
    answers (exec .receiptSlotBegin waiting) (fun t => decide (t.timers = ⟨false, false, true, false⟩)) = true ∧
    answers (exec .receiptSlotBegin stopping) (fun t => decide (t = stoppingLow)) = true ∧
    answers (exec (.bitSample false) stoppingLow) (fun t => decide (t.timers.idleRun = true ∧ t.parting = ⟨false, true⟩) &&
      answers (exec (.bitSample false) t) (fun u => decide (u = waiting false))) = true := by decide +kernel

theorem test_frameStartHeard :
    answers (exec .frameStartHeard waiting)
      (fun t => decide (t.engine = .listening ∧ t.offered = some ⟨condition, false, none⟩)) = true := by decide +kernel

/-- Receipt slot `n` of the own frame. -/
def ownReceipt (n : Nat) (heard taken : List Nat := []) : Flight :=
  { ownFrame 7 1 [] with slot := n, heardSet := heard, takeSet := taken }

theorem test_hyps_SenderSamples :
    ((clocking .contending (ownFrame 0 1 [])).running = true ∧
      (clocking .contending (ownFrame 0 1 [])).drivenBit (ownFrame 0 1 []) = some false) ∧
    (clocking .sending (ownFrame 2 9 [])).drivenBit (ownFrame 2 9 []) = some true ∧
    (ownFrame 6 10 []).bit = 10 ∧ (ownReceipt 0).slot < 31 ∧ (ownReceipt 30).slot < 31 ∧ (ownReceipt 30).own.isSome = true := by
  decide +kernel

/-- What the drivers do, part by part. -/
def drives (s : State) : List Drive := [BitPart.high, .fall, .low, .rise, .over].map s.drive

theorem test_hyps_Drives :
    (served.frameCells condition)[0]? = some 0 ∧ (clocking .receipt (ownReceipt 4)).flight = some (ownReceipt 4) ∧
      (ownReceipt 4).own.isSome = true ∧ (clocking .sending (ownFrame 2 9 [])).engine ≠ .receipt := by decide +kernel

/-- HD before HC at the start condition, then a bit of 0; a bit of 1 after a 0 (bit times 4 and 5 of cell 2, which is 8); and a receipt
slot of the sender (R119, R120, R121, R128). -/
theorem test_a_clocking_station_drives_both_wires :
    answers (exec .frameStart waiting) (fun t => decide
      (drives t = [⟨false, true⟩, ⟨true, true⟩, ⟨true, true⟩, ⟨false, true⟩, ⟨false, true⟩])) = true ∧
    drives (clocking .sending (ownFrame 2 5 [])) =
      [⟨false, true⟩, ⟨true, true⟩, ⟨true, false⟩, ⟨false, false⟩, ⟨false, false⟩] ∧
    drives (clocking .receipt (ownReceipt 4)) =
      [⟨false, false⟩, ⟨true, false⟩, ⟨true, false⟩, ⟨false, false⟩, ⟨false, false⟩] := by decide +kernel

/-- A stop not its own before a bit of 0, after a bit of 1 (bit times 5 and 6 of cell 2, which is 8): HD stays released until
HC is low (R121, R126). -/
theorem test_stop_after_a_foreign_condition :
    (clocking .sending (ownFrame 2 6 [])).pullsHd = true ∧
    answers (exec (.startOrStopNotOwn false) (clocking .sending (ownFrame 2 6 []))) (fun t => decide
      (drives t = [⟨false, false⟩, ⟨true, false⟩, ⟨true, true⟩, ⟨false, true⟩, ⟨false, false⟩])) = true := by decide +kernel

/-- The stop condition after a veto (R121, R127), none after a start or stop condition in the receipt slots (R123), and the
wires released after a lost arbitration (R125). -/
theorem test_ways_of_leaving_the_wires :
    answers (exec .veto (clocking .sending (ownFrame 2 10 []))) (fun t => decide
      (drives t = [⟨false, false⟩, ⟨true, false⟩, ⟨true, true⟩, ⟨false, true⟩, ⟨false, false⟩])) = true ∧
    answers (exec (.startOrStopNotOwn true) (clocking .receipt (ownReceipt 5))) (fun t => decide
      (drives t = List.replicate 5 ⟨false, false⟩)) = true ∧
    answers (exec .arbitrationLost (clocking .contending (ownFrame 1 3 [false, false]))) (fun t => decide
      (drives t = List.replicate 5 ⟨false, false⟩)) = true := by decide +kernel

theorem test_last_cell_gives_the_receipts :
    answers (exec (.bitSample true) (clocking .sending (ownFrame 6 10 [])))
      (fun t => decide (t.engine = .receipt)) = true ∧
    answers (exec (.bitSample true) (clocking .contending (ownFrame 1 10 [])))
      (fun t => decide (t.engine = .sending)) = true := by decide +kernel

/-- In the receipt slots the sender drives no bit and releases HD (R128); in the cells a bit of 0 pulls it. -/
theorem test_sender_releases_hd_in_the_receipts :
    (clocking .receipt (ownReceipt 4)).drivenBit (ownReceipt 4) = none ∧
      (clocking .receipt (ownReceipt 4)).pullsHd = false ∧ (clocking .contending (ownFrame 0 1 [])).pullsHd = true := by
  decide +kernel

theorem test_receipt_slots_read :
    answers (exec (.bitSample false) (clocking .receipt (ownReceipt 4))) (fun t =>
      decide (t.flight.map (·.heardSet) = some [4])) = true ∧
    answers (exec (.bitSample false) (clocking .receipt (ownReceipt 20))) (fun t =>
      decide (t.flight.map (·.takeSet) = some [4])) = true := by decide +kernel

theorem test_hyps_ArbitrationLost :
    (clocking .contending (ownFrame 1 3 [false, false])).running = true ∧
      (clocking .contending (ownFrame 1 3 [false, false])).drivenBit (ownFrame 1 3 [false, false]) = some true ∧
      (ownFrame 1 3 []).bit ≤ 8 ∧ (ownFrame 0 9 []).bit ≤ 9 := by decide +kernel

theorem test_arbitrationLost :
    answers (exec .arbitrationLost (clocking .contending (ownFrame 1 3 [false, false])))
      (fun t => decide (t.engine = .listening ∧ t.flight.map (·.rx) = some [0] ∧
        t.flight.map (·.bits) = some [false, false, false])) = true := by decide +kernel

theorem test_hyps_OwnFrameOutcomes :
    ((clocking .sending (ownFrame 2 9 [])).engine = .sending ∧
      ((clocking .sending (ownFrame 2 9 [])).drivenBit (ownFrame 2 9 [])).isSome = true) ∧
    (clocking .contending (ownFrame 0 1 [])).drivenBit (ownFrame 0 1 []) = some false ∧
    (ownFrame 0 10 []).bit = 10 ∧ (ownFrame 0 1 []).own.isSome = true ∧
    (clocking .receipt (ownReceipt 0)).engine = .receipt := by decide +kernel

theorem test_collision :
    answers (exec .collision (clocking .sending (ownFrame 2 1 [])))
      (fun t => decide (t.streak = 1 ∧ t.flight = none)) = true := by decide +kernel

theorem test_veto :
    answers (exec .veto (clocking .sending (ownFrame 2 10 []))) (fun t => decide (t.streak = 1 ∧ t.flight = none)) = true := by
  decide +kernel

theorem test_startOrStopNotOwn_in_the_receipts :
    answers (exec (.startOrStopNotOwn true) (clocking .receipt (ownReceipt 5)))
      (fun t => decide (t.streak = 0 ∧ t.flight = none)) = true := by decide +kernel

/-- The cases of a peer's receipts: TAKE, HEARD alone, neither with unheard count 1 and 2, and TAKE in slot 31. -/
theorem test_hyps_FrameCompleted :
    (ownReceipt 31).own = some (condition, conditionCells) ∧ (ownReceipt 31).slot = 31 ∧ condition.addr.Nodup ∧
      4 ∈ condition.addr ∧ 4 ≠ (clocking .receipt (ownReceipt 31)).station ∧ 4 ∈ (ownReceipt 31 [4] [4]).takeSet ∧
      (4 ∉ (ownReceipt 31 [4]).takeSet ∧ 4 ∈ (ownReceipt 31 [4]).heardSet) ∧ 4 ∉ (ownReceipt 31).heardSet ∧
      ((clocking .receipt (ownReceipt 31)).peer 4).unheard ≤ 2 ∧ 15 ∈ (Frame.condition [15] []).addr := by decide +kernel

theorem test_frameCompleted :
    answers (exec (.frameCompleted true) (clocking .receipt (ownReceipt 31 [4])))
      (fun t => decide ((t.peer 4).refusals = 1 ∧ (t.peer 4).notBefore = .waiting 100 ∧ t.flight = none)) = true ∧
    answers (exec (.frameCompleted true) (clocking .receipt (ownReceipt 31)))
      (fun t => decide ((t.peer 4).refusals = 0 ∧ (t.peer 4).unheard = 1)) = true := by decide +kernel

/-- A CARRY of record 127 to stations 4 and 5, at receipt slot 31 with TAKE read from station 4. -/
def carried (stamp : Option Nat) : State :=
  let carry : Frame := .carry [4, 5] 127 [(0, .circuit 33), (1, .circuit 41)]
  { clocking .receipt { ownReceipt 31 [4, 5] [4] with own := some (carry, []) } with
    offered := some ⟨carry, false, stamp⟩ }.setRecord 127
      { standing (.carrying (.circuit 33)) with
        slots := [⟨.office ⟨23, 4, 25⟩, .carrying (.circuit 33)⟩, ⟨.office ⟨16, 18, 19⟩, .carrying (.circuit 41)⟩] }

theorem test_hyps_CarryCompleted :
    (carried (some 0)).running = true ∧ (carried (some 0)).engine = .receipt ∧
      (carried (some 0)).flight.map (·.slot) = some 31 ∧ [4, 5].Nodup ∧
      ((carried (some 0)).record 127).state = .standing ∧
      (carried (some 0)).offeredStamp = ((carried (some 0)).record 127).stamp ∧
      (carried (some 0)).flight.map (·.takeSet) = some [4] ∧ (carried (some 0)).flight.map (·.heardSet) = some [4, 5] ∧
      (Target.circuit 33).owner = 4 ∧ (carried (some 0)).carriesTo 127 0 4 = true := by decide +kernel

/-- The TAKE finishes the slots listed for its station, and of the record the frame was built from alone (R144, R147). -/
theorem test_frameCompleted_of_a_carry :
    answers (exec (.frameCompleted true) (carried (some 0)))
      (fun t => decide ((t.record 127).slots.map (·.state) = [.done (some (.circuit 33)), .carrying (.circuit 41)] ∧
        (t.peer 5).refusals = 1)) = true ∧
    answers (exec (.frameCompleted true) (carried (some 9)))
      (fun t => decide ((t.record 127).slots.map (·.state) = [.carrying (.circuit 33), .carrying (.circuit 41)])) = true ∧
    answers (exec (.frameCompleted false) (carried (some 0)))
      (fun t => decide ((t.slotState 127 0).isDone = true)) = true := by decide +kernel

/-! ## The cut of a CARRY (R144) -/

/-- A CARRY of record 127 to station 4. -/
def carry : Frame := .carry [4] 127 [(0, .circuit 33)]

/-- That CARRY on the wire at the place given, of a record that the frame still lists or no more. -/
def carrying (cutting : Bool) (cell bit : Nat) (low : Bool) (st : SlotState := .carrying (.circuit 33)) : State :=
  { clocking .sending
      { ownFrame cell bit [] with own := some (carry, carryingRecord.frameCells carry), length := some 16, cutting := cutting } with
    offered := some ⟨carry, false, some 0⟩
    timers := ⟨false, !low, low, false⟩ }.setRecord 127 (standing st)

theorem test_cells_of_a_carry : (carryingRecord.frameCells carry).length = 13 ∧ (carrying false 2 1 true).running = true := by
  decide +kernel

theorem test_hyps_Cut :
    (let f : Flight :=
       { ownFrame 2 1 [] with own := some (carry, carryingRecord.frameCells carry), length := some 16, cutting := true }
     (carrying true 2 1 false).flight = some f ∧ (carrying true 2 1 false).engine = .sending ∧
       (carrying true 2 1 false).timers.stuck = false ∧ ((carrying true 2 1 false).drivenBit f).isSome = true ∧
       (carrying true 2 1 true).timers.stuck = true ∧ (carrying true 2 1 false).ev = Event.none) ∧
    (let f := { ownFrame 0 3 [] with cutting := true }
     let s : State := { clocking .contending f with timers := ⟨false, true, false, false⟩ }
     s.engine = .contending ∧ f.bit ≤ 9 ∧ s.drivenBit f = some false ∧
       s.drivenBit { f with cell := 1 } = some true) := by decide +kernel

/-- The last listed slot leaves CARRYING before the falling edge that begins the last cell, and after it: the frame is to be
cut, or goes on. -/
theorem test_last_slot_gone_marks_the_frame :
    ((carrying false 14 10 true (.queued 19)).finish.flight.map (·.cutting) = some true) ∧
      ((carrying false 15 1 false (.queued 19)).finish.flight.map (·.cutting) = some true) ∧
      ((carrying false 15 1 true (.queued 19)).finish.flight.map (·.cutting) = some false) ∧
      ((carrying false 15 2 false (.queued 19)).finish.flight.map (·.cutting) = some false) ∧
      ((carrying false 14 1 false).finish.flight.map (·.cutting) = some false) := by decide +kernel

/-- With HC high the next falling edge cuts the frame, given or presupposed by the next sample: no count changes. -/
theorem test_cut_at_the_falling_edge :
    answers (exec .receiptSlotBegin (carrying true 2 1 false)) (fun t => decide
      (t.flight = none ∧ t.streak = 0 ∧ t.holdoffDue = false ∧ t.parting = ⟨true, false⟩ ∧
        (drives t).drop 2 = [⟨true, true⟩, ⟨false, true⟩, ⟨false, false⟩])) = true ∧
    ([Instr.bitSample true, .bitSample false, .collision].all fun c =>
      answers (exec c (carrying true 2 1 false)) fun t => decide
        (t.flight = none ∧ t.streak = 0 ∧ t.timers = ⟨true, false, false, false⟩)) = true ∧
    answers (exec .veto (carrying true 2 10 false)) (fun t => decide (t.flight = none ∧ t.streak = 0)) = true ∧
    drives (carrying true 2 1 false) =
      [⟨false, false⟩, ⟨true, false⟩, ⟨true, true⟩, ⟨false, true⟩, ⟨false, false⟩] := by decide +kernel

/-- With HC low the present bit goes on: its sample, then the falling edge that cuts the frame; or a veto or a collision. -/
theorem test_cut_waits_for_the_falling_edge :
    andThen (.bitSample true) .receiptSlotBegin (carrying true 2 10 true)
      (fun t => decide (t.flight = none ∧ t.streak = 0 ∧ t.parting = ⟨true, false⟩)) = true ∧
    answers (exec (.bitSample true) (carrying true 2 10 true)) (fun t => decide
      (t.flight.map (·.cell) = some 3 ∧ t.engine = .sending)) = true ∧
    answers (exec .veto (carrying true 2 10 true)) (fun t => decide (t.flight = none ∧ t.streak = 1)) = true ∧
    answers (exec .collision (carrying true 2 1 true)) (fun t => decide (t.flight = none ∧ t.streak = 1)) = true := by
  decide +kernel

/-- A symbol is read from the store as its cell begins, and none once the frame is to be cut (R143, R144). -/
theorem test_symbols_of_a_carry_are_read :
    answers (exec (.bitSample true) (carrying false 12 10 true)) (fun t => decide
      (t.flight.map (·.symbol) = some (sym 1).cell)) = true ∧
    answers (exec (.bitSample true) (carrying true 12 10 true)) (fun t => decide
      (t.flight.map (·.symbol) = some 0)) = true := by decide +kernel

/-- Peer 4 backing off. -/
def backingOff (k : Nat := 4) : State := served.setPeer k { served.peer k with notBefore := .waiting 100 }

/-- Peer 4 backing off and owed circuits 17 and 19. -/
def owing : State := backingOff.setPeer 4 { backingOff.peer 4 with owed := [17, 19] }

theorem test_hyps_NotBefore :
    (backingOff.running = true ∧ (backingOff.peer 4).notBefore ≠ .passed) ∧ ((backingOff 15).peer 15).notBefore ≠ .passed ∧
      (backingOff.engine ≠ .contending ∧ backingOff.engine ≠ .sending) := by
  decide +kernel

/-- A state for each source of the builder, and for none. -/
theorem test_hyps_Choice :
    (4 ∈ { served with musterPending := [4] }.musterPending ∧ ({ served with musterPending := [4] }.peer 4).notBefore = .passed) ∧
    (State.reset.cfg = none ∧ State.reset.musterPending = []) ∧
    (served.cfg.isSome = true ∧ (served.setPeer 4 { served.peer 4 with owed := [17] }).owesNow 4 = true) ∧
    (carryingRecord.carryList = [127] ∧ carryingRecord.carryAddr 127 = [4] ∧
      ∀ k, k < 16 → carryingRecord.owesNow k = false) ∧
    served.carryList = [] := by decide +kernel

theorem test_notBeforePasses :
    answers (exec (.notBeforePasses 4) owing) (fun t => decide ((t.peer 4).notBefore = .passed ∧ t.engine = .waitingIdle ∧
      t.offered.map (·.frame) =
        some (.condition [4] [⟨17, .inService, .duplex, none⟩, ⟨19, .inService, .duplex, none⟩]))) = true := by
  decide +kernel

/-! ## Stall and stuck -/

/-- The station a listener of a frame from station 4. -/
def listening (f : Flight) (e : Engine := .listening) : State :=
  { served with engine := e, flight := some f, timers := ⟨false, true, false, false⟩ }

/-- A listened frame with the cells given read. -/
def heardFrame (rx : List Byte) (bit : Nat) (bits : List Bool) (len : Option Nat := none) : Flight :=
  { Flight.fresh none len with rx := rx, cell := rx.length, bit := bit, bits := bits }

theorem test_hyps_Stall :
    ((listening (heardFrame [] 1 [])).running = true ∧ (listening (heardFrame [] 1 [])).engine.inFrame = true ∧
      (listening (heardFrame [] 1 [])).timers.stall = true ∧ (heardFrame [] 1 []).heard = false) ∧
    ({ clocking .sending (ownFrame 0 1 []) with timers := ⟨false, true, false, false⟩ }.timers.stall = true ∧
      (ownFrame 0 1 []).own.isSome = true) ∧
    ((listening (heardFrame [] 1 [])).engine ≠ .receipt ∧ (clocking .receipt (ownReceipt 4)).engine.inFrame = true ∧
      (ownReceipt 4).own.isSome = true ∧ served.timers.stall = false) := by decide +kernel

/-- A listened frame with record 9 reserved, and record 9 FILLING. -/
def reserving (f : Flight) (e : Engine := .listening) : State :=
  (listening { f with reserved := some 9 } e).setRecord 9 (filling 0)

theorem test_hyps_GivenBack :
    ({ heardFrame [] 1 [] with reserved := some 9 }.own = none ∧ { heardFrame [] 1 [] with reserved := some 9 }.applied = false) ∧
      ((reserving (heardFrame [] 1 [])).record 9).state = .filling := by decide +kernel

theorem test_stall_gives_the_reservation_back :
    answers (exec .stallExpiry (reserving (heardFrame [] 1 []))) (fun t => decide ((t.record 9).state = .free)) = true := by
  decide +kernel

/-- The idle run after a stall and after a veto follows HD (R121). -/
theorem test_idle_run_after_a_frame :
    ([true, false].map fun hd =>
      answers (exec .stallExpiry (listening { heardFrame [] 1 [] with hdRead := hd })) fun t => t.timers.idleRun) =
        [true, false] ∧
    answers (exec .veto (listening (heardFrame [] 10 []))) (fun t => !t.timers.idleRun) = true ∧
    answers (exec .veto (clocking .sending (ownFrame 2 10 []))) (fun t => !t.timers.idleRun && t.parting.stop) = true := by
  decide +kernel

theorem test_stallExpiry :
    answers (exec .stallExpiry (listening (heardFrame [] 1 [])))
      (fun t => decide (t.engine = .idle ∧ t.flight = none)) = true := by decide +kernel

/-- STUCK after a rising edge of HC. -/
def stuck : State := { served with engine := .stuck, oalm := true, timers := ⟨false, false, false, true⟩ }

/-- HC low outside a frame. -/
def clockLow : State := { served with timers := ⟨false, false, true, false⟩ }

theorem test_hyps_Stuck :
    (clockLow.running = true ∧ clockLow.engine ≠ .stuck ∧ clockLow.timers.stuck = true ∧ served.timers.stuck = false) ∧
      (stuck.running = true ∧ stuck.engine = .stuck ∧ stuck.flight = none ∧ stuck.timers.release = true) ∧
      (served.timers.release = false ∧ { served with engine := .stuck }.flight = none) := by decide +kernel

theorem test_stuckExpiry :
    answers (exec .stuckExpiry clockLow) (fun t => decide (t.engine = .stuck ∧ t.oalm = true)) = true := by decide +kernel

/-- An expiry and an edge of HC in either order (R133): the stuck timer and a rising edge, the stall timer and a falling edge,
the release timer and a falling edge. -/
theorem test_expiry_and_edge_in_either_order :
    (andThen (.bitSample true) .stuckExpiry (clocking .sending (ownFrame 2 5 [])) fun t =>
        decide (t.engine = .sending ∧ t.timers = ⟨false, true, false, false⟩)) = true ∧
    (andThen .stuckExpiry (.bitSample true) (clocking .sending (ownFrame 2 5 [])) fun t =>
        decide (t.engine = .stuck ∧ t.flight = none ∧ t.timers.release = true)) = true ∧
    (andThen .receiptSlotBegin .stallExpiry (listening (heardFrame [] 1 [])) fun t =>
        decide (t.engine = .listening ∧ t.timers = ⟨false, false, true, false⟩)) = true ∧
    (andThen .stallExpiry .receiptSlotBegin (listening { heardFrame [] 1 [] with hdRead := true }) fun t =>
        decide (t.flight = none ∧ t.timers = ⟨false, false, true, false⟩)) = true ∧
    (andThen .receiptSlotBegin (.releaseExpiry true) stuck fun t =>
        decide (t.engine = .stuck ∧ t.timers.release = false)) = true ∧
    (andThen (.releaseExpiry true) .receiptSlotBegin stuck fun t =>
        decide (t.engine ≠ .stuck ∧ t.timers = ⟨false, false, true, false⟩)) = true := by decide +kernel

theorem test_releaseExpiry :
    answers (exec (.releaseExpiry true) stuck) (fun t => decide (t.engine ≠ .stuck ∧ t.oalm = false)) = true ∧
    answers (exec (.bitSample false) { stuck with timers := ⟨false, false, false, false⟩ }) (fun t => decide (t = stuck))
      = true := by decide +kernel

/-! ## The listener -/

/-- Seven bits of 0 and a 1. -/
def lastBitSet : List Bool := List.replicate 7 false ++ [true]

theorem test_hyps_FrameDiscard :
    (listening (heardFrame [] 9 lastBitSet)).showsFault (heardFrame [] 9 lastBitSet) = true ∧
      (heardFrame [] 9 lastBitSet).reserveDue = false ∧ (heardFrame [] 9 lastBitSet).bits.length = 8 := by decide +kernel

theorem test_frameDiscard :
    answers (exec .frameDiscard (listening (heardFrame [] 9 lastBitSet)))
      (fun t => decide (t.flight.map (·.discarded) = some true ∧ drives t = List.replicate 5 ⟨false, false⟩)) = true := by
  decide +kernel

theorem test_hyps_VetoEndsAListenedFrame :
    ((heardFrame [] 10 []).bit = 10 ∧ (heardFrame [] 10 []).reserveDue = false ∧ (heardFrame [] 10 []).heard = false) ∧
      { heardFrame [] 1 [] with discarded := true }.discarded = true ∧
      (listening (heardFrame [] 10 [])).engine = .listening := by decide +kernel

theorem test_veto_of_a_listened_frame :
    answers (exec .veto (listening (heardFrame [] 10 []))) (fun t => decide (t.engine = .idle ∧ t.streak = 0)) = true := by
  decide +kernel

/-- A listener that vetoed holds HD to the falling edge of HC (R127). -/
theorem test_vetoing_listener_lets_go :
    drives (listening { heardFrame [] 10 [] with vetoing := true }) =
      [⟨false, false⟩, ⟨false, false⟩, ⟨false, true⟩, ⟨false, true⟩, ⟨false, true⟩] ∧
    answers (exec .veto (listening { heardFrame [] 10 [] with vetoing := true })) (fun t => decide
      (drives t = [⟨false, true⟩, ⟨false, false⟩, ⟨false, false⟩, ⟨false, false⟩, ⟨false, false⟩])) = true := by
  decide +kernel

/-- The cells of a CARRY of station 4 to station 2 up to its length cells: BUSINESS, one destination, `n` symbols. -/
def carryCells (n : Nat) : List Byte :=
  [144, 65, 32, 0, 34, 78, 176, 0] ++ [78, 176, 16] ++ cells2 n

/-- The first cell of an origin code or of a text length shows a fault when it already has one (R137). -/
theorem test_faults_at_the_first_of_two_cells :
    ([128, 0, 108, 78, 4].map fun b => rxFault 2 [144, 65, 32, 0, 34, b]) = [true, true, true, false, false] ∧
    (rxFault 2 [144, 65, 32, 0, 34, 78, 176] = false ∧ rxFault 2 [144, 65, 32, 0, 34, 78, 160] = true) ∧
    ([17, 16, 0].map fun b => rxFault 2 ([144, 65, 32, 0, 34, 78, 176, 0] ++ [78, 176, 16] ++ [b])) = [true, false, false] ∧
    (rxFault 2 (carryCells 4096) = false ∧ rxFault 2 (carryCells 4097) = true) := by decide +kernel

/-- That CARRY at its first symbol cell. -/
def carryFrame (n : Nat) (due : Bool) (m : Option Nat) : Flight :=
  { heardFrame (carryCells n) 1 [] (some (13 + n)) with reserveDue := due, reserved := m }

theorem test_carry_cells :
    rxKind (carryCells 40) = 2 ∧ rxSender (carryCells 40) = 4 ∧ rxTextLength (carryCells 40) = 40 ∧
      rxFrameLength (carryCells 40) = some 53 ∧ rxAddresses (carryCells 40) 2 = true := by decide +kernel

/-- That CARRY at the parity bit of a symbol, record 9 being reserved. -/
def symbolRead : Flight := { carryFrame 40 false (some 9) with bit := 9, bits := lastBitSet }

/-- A CONDITION frame of station 4 that opens circuit 33. -/
def openCells : List Byte := [0, 65, 32, 0, 33, 16, 255]

/-- That CARRY at the parity bit of its last length cell. -/
def carryEnding : Flight := heardFrame (carryCells 40).dropLast 9 [false, false, true, false, true, false, false, false]

theorem test_hyps_ListenerSamples :
    ((heardFrame [] 8 []).bit ≤ 8 ∧ (heardFrame [] 8 []).discarded = false ∧ (heardFrame [] 8 []).reserveDue = false) ∧
    (symbolRead.bit = 9 ∧ parityOk (symbolRead.bits ++ [true]) = true ∧ symbolRead.inText = true ∧
      symbolRead.reserved = some 9) ∧
    ({ symbolRead with reserved := none }.inText = true ∧ { symbolRead with reserved := none }.reserved = none) ∧
    ((heardFrame [] 9 lastBitSet).bit = 9 ∧ (listening (heardFrame [] 9 lastBitSet)).engine = .listening) ∧
    ((carryEnding.bit = 9 ∧ parityOk (carryEnding.bits ++ [false]) = true ∧ carryEnding.inText = false) ∧
      carryEnding.rx ++ [byteOfBits (carryEnding.bits ++ [false])] = carryCells 40 ∧ rxFault 2 (carryCells 40) = false) ∧
    ((heardFrame openCells 10 []).bit = 10 ∧ (heardFrame openCells 10 []).vetoing = false) := by decide +kernel

/-- The last length cell makes the reservation due, and the released veto slot after a frame's last cell its receipts. -/
theorem test_listener_reads_on :
    answers (exec (.bitSample false) (listening carryEnding)) (fun t =>
      decide (t.flight.map (fun f => (f.rx, f.length, f.reserveDue)) = some (carryCells 40, some 53, true))) = true ∧
    answers (exec (.bitSample true) (listening { heardFrame openCells 10 [] (some 7) with cell := 6 }))
      (fun t => decide (t.engine = .receipt)) = true := by decide +kernel

theorem test_symbol_of_a_carry_is_stored :
    answers (exec (.bitSample true)
        ((listening symbolRead).setRecord 9 (filling 0)))
      (fun t => decide ((t.record 9).text = [⟨.neutral, 1⟩])) = true := by decide +kernel

theorem test_listenerParityVeto :
    answers (exec .listenerParityVeto (listening (heardFrame [] 9 lastBitSet)))
      (fun t => decide (t.flight.map (·.vetoing) = some true)) = true := by decide +kernel

theorem test_hyps_CarryReservation :
    (carryFrame 40 true none).reserveDue = true ∧ (carryFrame 40 true none).reserved = none ∧
      classOf (rxCell (carryFrame 40 true none).rx 4 / 32) = some .business ∧
      rxTextLength (carryFrame 4096 true none).rx ≤ 4096 ∧
      (listening (carryFrame 40 true none)).grants .business (blocksFor 40) 1 = true ∧
      ((listening (carryFrame 40 true none)).setPool (List.range 97)).grants .business (blocksFor 40) 1 = false := by
  decide +kernel

theorem test_carryReservation :
    answers (exec .carryReservation (listening (carryFrame 40 true none)))
      (fun t => decide (t.flight.map (·.reserved) = some (some 0) ∧ (t.record 0).chain = [0, 1])) = true := by decide +kernel

/-- A STUCK_EXPIRY and the answer of a stretch in either order (R133). -/
theorem test_reservation_and_stuck_expiry :
    andThen .carryReservation .stuckExpiry
      { listening (carryFrame 40 true none) with timers := ⟨false, false, true, false⟩ }
      (fun t => decide (t.engine = .listening ∧ t.flight.map (·.reserved) = some (some 0))) = true ∧
    andThen .receiptSlotBegin .stuckExpiry (listening (carryFrame 40 true none))
      (fun t => decide (t.engine = .stuck ∧ t.flight = none)) = true := by decide +kernel

/-- HC is held low until the answer and released then (R130). -/
theorem test_reservation_stretches :
    ((listening (carryFrame 40 true none)).drive .rise).hc = true ∧
    answers (exec .carryReservation (listening (carryFrame 40 true none)))
      (fun t => decide (drives t = List.replicate 5 ⟨false, false⟩)) = true := by decide +kernel

/-- A MUSTER of station 4: edition 13, configured as said, POWER-ON, eight triples IN SERVICE and DUPLEX. -/
def musterCells (flag : Byte) : List Byte :=
  [8, 72, 32, 0, 0, 13, flag] ++ ([32, 33, 34, 35, 36, 37, 38, 39].flatMap fun c => [c, 0, 255])

/-- A frame at this station's own receipt slot. -/
def atSlot (rx : List Byte) (n : Nat) (begun : Bool) (m : Option Nat := none) : Flight :=
  { heardFrame rx 1 [] (some rx.length) with
    slot := n, slotBegun := begun, heard := decide (16 ≤ n), taking := begun && decide (16 ≤ n), reserved := m }

theorem test_hyps_ReceiptSlots :
    (listening (atSlot openCells 2 false) .receipt).running = true ∧ (atSlot openCells 2 false).slot = 2 ∧
      (atSlot openCells 18 false).slot = 16 + 2 ∧ (atSlot openCells 18 false).own = none ∧
      (atSlot openCells 18 false).discarded = false ∧ (atSlot openCells 18 false).slotBegun = false ∧
      ((atSlot openCells 3 false).slot ≠ 2 ∧ (atSlot openCells 3 false).slot ≠ 16 + 2) ∧
      32 ≤ (atSlot openCells 32 false).slot := by decide +kernel

theorem test_receiptSlotBegin_takes :
    answers (exec .receiptSlotBegin (listening (atSlot openCells 18 false) .receipt))
      (fun t => decide (t.flight.map (·.taking) = some true)) = true ∧
    answers (exec .receiptSlotBegin (listening (atSlot (carryCells 40) 18 false) .receipt))
      (fun t => decide (t.flight.map (·.taking) = some false)) = true := by decide +kernel

/-- What the statements of an applied frame ask of a flight, for the kind given. -/
def appliesFrom4 (f : Flight) (kind : Nat) : Bool :=
  decide (f.own = none) && !f.discarded && decide (f.slot = 18) && f.slotBegun && f.taking && decide (rxKind f.rx = kind) &&
    decide (rxSender f.rx = 4)

theorem test_hyps_AppliedFrames :
    appliesFrom4 (atSlot openCells 18 true) 0 = true ∧ appliesFrom4 (atSlot (musterCells 128) 18 true) 1 = true ∧
      rxConfigured (musterCells 128) = true ∧ appliesFrom4 (atSlot (musterCells 0) 18 true) 1 = true ∧
      rxConfigured (musterCells 0) = false ∧ appliesFrom4 (atSlot (carryCells 40) 18 true (some 9)) 2 = true ∧
      (atSlot (carryCells 40) 18 true (some 9)).reserved = some 9 := by decide +kernel

theorem test_conditionApply :
    answers (exec .conditionApply (listening (atSlot openCells 18 true) .receipt))
      (fun t => decide ((t.mapOf 33).condition = .opened ∧ (t.mapOf 34).condition = .inService)) = true := by decide +kernel

/-- A stuck expiry that comes with the sample ending the TAKE slot, taken after it or before it (R133). -/
theorem test_stuck_expiry_at_the_take_slot :
    andThen .conditionApply .stuckExpiry
      { listening (atSlot openCells 18 true) .receipt with timers := ⟨false, false, true, false⟩ }
      (fun t => decide ((t.mapOf 33).condition = .opened ∧ t.engine = .stuck ∧ t.flight = none)) = true ∧
    andThen .stuckExpiry .conditionApply
      { listening (atSlot openCells 18 true) .receipt with timers := ⟨false, false, true, false⟩ }
      (fun t => decide ((t.mapOf 33).condition ≠ .opened ∧ t.engine = .stuck)) = true := by decide +kernel

theorem test_causes_of_a_kind :
    MapEntry.causes ⟨.inService, .duplex, none⟩ ⟨.inService, .sendOnly, none⟩ = true ∧
      MapEntry.causes ⟨.inService, .duplex, none⟩ ⟨.inService, .receiveOnly, none⟩ = false := by decide

/-- The listener takes a CONDITION frame of circuit 34 while a slot is CARRYING to circuit 33, which is OPEN. -/
def carryingToOpen : State :=
  ((listening (atSlot [0, 65, 32, 0, 34, 0, 255] 18 true) .receipt).setRecord 127 (standing (.carrying (.circuit 33)))).setMap
    33 ⟨.opened, .duplex, none⟩

theorem test_conditionApply_drops_unwritten_circuits :
    answers (exec .conditionApply carryingToOpen)
      (fun t => decide ((t.mapOf 33).condition = .opened ∧
        (t.record 127).slots.map (·.state) ≠ [.carrying (.circuit 33)])) = true := by decide +kernel

/-- TAKE is held to the falling edge of HC, and HC low while the blocks apply the frame (R120, R130). -/
theorem test_application_stretches :
    answers (exec .conditionApply (listening (atSlot openCells 18 true) .receipt)) (fun t => decide
      (drives t = [⟨false, true⟩, ⟨false, false⟩, ⟨true, false⟩, ⟨false, false⟩, ⟨false, false⟩])) = true ∧
    drives (listening (atSlot openCells 18 true) .receipt) =
      [⟨false, false⟩, ⟨false, false⟩, ⟨false, true⟩, ⟨false, true⟩, ⟨false, true⟩] := by decide +kernel

/-- At station 15, whose TAKE slot is the last, the wires are released from the sample of the stop condition's bit on. -/
theorem test_station_15_lets_go_after_the_stop_bit :
    andThen .conditionApply (.bitSample false)
      { listening (atSlot openCells 31 true) .receipt with station := 15 }
      (fun t => decide (t.flight.map (·.slot) = some 33 ∧ drives t = List.replicate 5 ⟨false, false⟩)) = true ∧
    answers (exec .conditionApply { listening (atSlot openCells 31 true) .receipt with station := 15 }) (fun t => decide
      (drives t = [⟨false, true⟩, ⟨false, false⟩, ⟨true, false⟩, ⟨false, false⟩, ⟨false, false⟩])) = true := by decide +kernel

theorem test_musterApply :
    answers (exec .musterApply (listening (atSlot (musterCells 128) 18 true) .receipt))
      (fun t => decide ((t.peer 4).edition = some 13 ∧ (t.peer 4).owed = [16, 17, 18, 19, 20, 21, 22, 23])) = true ∧
    answers (exec .musterApply (listening (atSlot (musterCells 0) 18 true) .receipt))
      (fun t => decide ((t.peer 4).flag = .clear ∧ (t.mapOf 33).condition = .unfitted)) = true := by decide +kernel

theorem test_carryCommit :
    answers (exec .carryCommit
        ((listening (atSlot (carryCells 1) 18 true (some 9)) .receipt).setRecord 9 (filling 1)))
      (fun t => decide ((t.record 9).state = .standing ∧ t.slotState 9 0 = .queued 16)) = true := by decide +kernel

/-- A reserved record to be filled by that CARRY. -/
def committing : State := (listening (atSlot (carryCells 1) 18 true (some 9)) .receipt).setRecord 9 (filling 1)

theorem test_hyps_CarryCommit :
    ((committing.record 9).state = .filling ∧ committing.keptDests (carryCells 1) = [(.office ⟨19, 21, 16⟩, .circuit 16)] ∧
      classOf (rxCell (carryCells 1) 4 / 32) = some .business) ∧
    ((committing.peer 4).presence = .present ∧ (committing.peer 4).flag = .set ∧ rxHop (carryCells 1) < 2 ∧
      (img.lookup ⟨19, 21, 16⟩).isSome = true ∧ committing.circuitAvailable 16 = true ∧ (committing.mapOf 16).diversion = none) ∧
    committing.keptDests ([144, 65, 32, 0, 34, 78, 176, 0] ++ [78, 176, 33] ++ cells2 1) = [] := by decide +kernel

theorem test_carryCommit_completes_the_record :
    answers (exec .carryCommit committing) (fun t => decide (t.record 9 =
      { committing.record 9 with
        state := .standing, source := some (.station 4), cls := .business, origin := some ⟨19, 21, 16⟩, hop := 1
        authority := 2, stamp := some 0, slots := [⟨.office ⟨19, 21, 16⟩, .queued 16⟩] })) = true := by decide +kernel

theorem test_hyps_ListenedFrameEnds :
    ((listening (heardFrame [] 1 [])).engine = .listening ∧ (heardFrame [] 1 []).own = none ∧
      (heardFrame [] 1 []).heard = false) ∧
    ((atSlot openCells 31 false).slot < 32 ∧ (atSlot openCells 31 false).heard = true ∧
      rxSender (atSlot openCells 31 false).rx ≠ (listening (atSlot openCells 31 false) .receipt).station) ∧
    (atSlot openCells 32 false).slot = 32 ∧ { heardFrame [] 1 [] with discarded := true }.discarded = true := by decide +kernel

theorem test_frameEndedEarly :
    answers (exec (.frameEndedEarly false) (listening (atSlot openCells 20 false) .receipt))
      (fun t => decide (t.flight = none ∧ (t.peer 4).presence = .present)) = true := by decide +kernel

theorem test_listenerFrameEnd :
    answers (exec .listenerFrameEnd (listening (atSlot openCells 32 false) .receipt))
      (fun t => decide (t.flight = none ∧ t.engine = .idle)) = true := by decide +kernel

/-! ## The assembler, by operation -/

/-- Line 0 in HEADER with the buffer and the expected serial given. -/
def inHead (buf : List Symbol) (e : Option Nat) : State :=
  onMas 0 (fun x => { x with mode := .header, header := buf, expected := e }) served

/-- A good header to two offices. -/
def goodHead (rpt : Option Nat) : Header := ⟨5, .urgent, ⟨1, 2, 3⟩, [⟨23, 4, 25⟩, ⟨1, 1, 1⟩], some 1230, rpt⟩

/-- A record being filled from line 0. -/
def partRecord (n : Nat) (text : List Symbol) : Record :=
  { Record.granted .urgent [0] with
    source := some (.circuit 16), serial := some n, text := text, slots := [⟨.office ⟨23, 4, 25⟩, .unrouted⟩] }

/-- Line 0 in TEXT of record 9, with the records 10, 11 and 12 to stack. -/
def inBody (text : List Symbol) (stack : List Nat) : State :=
  onMas 0 (fun x => { x with mode := .text, current := some 9, look := [sym 24], rstack := stack })
    ((((served.setRecord 9 (partRecord 9 text)).setRecord 10 (partRecord 10 [sym 1])).setRecord 11
      (partRecord 11 [sym 1])).setRecord 12 (partRecord 12 [sym 1]))

theorem test_hyps_AssemblerHeader :
    (means img .cr (crSym img) = true ∧ means img .cr (lfSym img) = false ∧ means img .lf (lfSym img) = true ∧
      means img .lf (sym 1) = false) ∧
    ((inHead (List.replicate 71 (sym 8)) none).masOf 0).header.length < 72 ∧
    72 ≤ ((inHead (List.replicate 72 (sym 8)) none).masOf 0).header.length ∧
    parseHeader img [] = none ∧
    (served.grants .urgent 1 1 = true ∧ (served.setPool []).grants .urgent 1 1 = false ∧ (goodHead none).rpt = none) ∧
    ((goodHead (some 10)).rpt = some 10 ∧ ((inBody [] [11, 10]).masOf 0).rstack = [11] ++ 10 :: [] ∧
      ((inBody [] [11, 10]).record 11).serial ≠ some 10 ∧ ((inBody [] [11, 10]).record 10).serial = some 10 ∧
      ((inBody [] [11, 10]).record 10).state = .filling) ∧
    (served.grants .ordinary 1 1 = true ∧ (served.setPool []).grants .ordinary 1 1 = false ∧
      ((inHead (List.replicate 30 (sym 8)) none).masOf 0).header.length + [crSym img, lfSym img].length ≤ 32) := by
  decide +kernel

theorem test_hyps_AssemblerText :
    (((inBody [] []).record 9).state = .filling ∧ ((inBody [] []).record 9).slots ≠ [] ∧
      ((inBody [] []).record 9).mutilated = none ∧
      ((inBody [] []).record 9).slots.all (fun sl => decide (sl.state = .unrouted)) = true) ∧
    (9 ∉ ((inBody [] [10, 11, 12]).masOf 0).rstack ∧ ((inBody [] [10, 11, 12]).record 12).slots ≠ [] ∧
      ((inBody [] [10, 11]).masOf 0).rstack.length < 3) ∧
    (((inBody [] [10, 11, 12]).masOf 0).rstack = [10, 11] ++ 12 :: [] ∧ [10, 11].Nodup ∧ 12 ∉ [10, 11] ∧
      ((inBody [] [10, 11, 12]).record 12).serial = some 12) ∧
    ([10, 11, 12].all fun j => ((inBody [] [10, 11, 12]).record j).slots.all fun sl => decide (sl.state = .unrouted)) = true := by
  decide +kernel

theorem test_no_own_service : served.noOwnService := by
  intro i h e he
  have hi : i = img := (Option.some.inj h).symm
  subst hi
  revert e
  decide +kernel

theorem test_header_check :
    (((inHead [sym 8] (some 3)).goodHeader 0 (goodHead none)).masOf 0).expected = some 6 ∧
      (fun r => decide (r.serial = some 5 ∧ r.origin = some ⟨1, 2, 3⟩ ∧ r.slots.length = 2))
        (((inHead [sym 8] (some 3)).goodHeader 0 (goodHead none)).record 0) = true ∧
      (((inHead [sym 8, ⟨.error, 3⟩] none).badHeader img 0 none).record 0).text =
        [sym 8, ⟨.error, 3⟩, crSym img, lfSym img] ∧
      (((inHead [sym 8, ⟨.error, 3⟩] none).badHeader img 0 none).record 0).errors = 1 := by decide +kernel

/-- HUNT on a WITHDRAWING circuit discards every symbol, and a line start follows an LF (R26, R164, log entry 24). -/
theorem test_hunt_while_withdrawing :
    (let s := served.setAdmin 0 .withdrawing
     decide (((s.huntSymbol img 0 (sym 8)).masOf 0).startSeq = [] ∧ ((s.huntSymbol img 0 (sym 8)).masOf 0).lineStart = false ∧
       (((s.huntSymbol img 0 (sym 8)).huntSymbol img 0 (lfSym img)).masOf 0).lineStart = true)) = true := by decide +kernel

theorem test_end_sequence_drops_its_line_break :
    (((inBody [sym 1, crSym img, lfSym img] []).endSequence img 0 9).record 9).text = [sym 1] ∧
      (((inBody [lfSym img] []).endSequence img 0 9).record 9).text = [] ∧
      (((inBody [sym 1] []).endSequence img 0 9).record 9).text = [sym 1] := by decide +kernel

theorem test_break_and_resume :
    (((inBody [sym 1, lfSym img, sym 2, lfSym img] [10, 11, 12]).breakLine img 0 9).record 9).text = [sym 1, lfSym img] ∧
      (((inBody [] [10, 11, 12]).breakLine img 0 9).masOf 0).rstack = [9, 10, 11] ∧
      (((inBody [] [10, 11, 12]).breakLine img 0 9).record 12).mutilated = some .suspend ∧
      (((inBody [] [10, 11, 12]).resumeLine 0 11 true).masOf 0).current = some 11 ∧
      (((inBody [] [10, 11, 12]).resumeLine 0 11 true).record 10).mutilated = some .suspend := by decide +kernel

/-! ## A line failure with work under way -/

/-- Line 0 about to open, in TEXT of record 9 with records 10 and 11 on its receive stack, and with record 127 in its queue. -/
def failing (text look : List Symbol) : State :=
  onMas 0 (fun x => { x with mode := .text, current := some 9, look := look, rstack := [10, 11] })
    (onCtx 0 (fun x => { x with queue := [entry 127] })
      (((((openingLine .inn .inService).setRecord 9 (partRecord 9 text)).setRecord 10 (partRecord 10 [sym 1])).setRecord 11
        (partRecord 11 [sym 1])).setRecord 127 (standing (.queued 16))))

theorem failing_ctx (text look : List Symbol) (l : Nat) :
    (failing text look).ctxOf l = if l = 0 then { Ctx.fresh with queue := [entry 127] } else Ctx.fresh := by
  have r : ∀ k, (((((openingLine .inn .inService).setRecord 9 (partRecord 9 text)).setRecord 10
      (partRecord 10 [sym 1])).setRecord 11 (partRecord 11 [sym 1])).setRecord 127 (standing (.queued 16))).ctxOf k =
        Ctx.fresh := fun k => by
    rw [setRecord_ctxOf, setRecord_ctxOf, setRecord_ctxOf, setRecord_ctxOf, openingLine_ctx]
  unfold failing onMas onCtx
  rw [setMas_ctxOf]
  by_cases h : l = 0
  · subst h; rw [if_pos rfl, ctxOf_setCtx_self _ _ _ (by decide), r]
  · rw [if_neg h, ctxOf_setCtx_ne _ _ _ _ (Ne.symm h), r]

theorem test_hyps_OpenLineExpiry_work (text look : List Symbol) : SendIdleIffNoEntry (failing text look) := fun l => by
  rw [failing_ctx]; split <;> decide

theorem test_hyps_OpenLineExpiry_records :
    (let s := failing [sym 1] []
     s.openDue 0 = true ∧ s.station < 16 ∧ s.cfg = some img ∧ s.adminOf 0 ≠ .withdrawn ∧ s.hasCtx 0 = true ∧
       (s.ctxOf 0).endSent = false ∧ (s.ctxOf 0).entries = [entry 127] ∧ (s.record 127).state = .standing ∧
       (s.slot 127 0).isSome = true ∧ (s.slotState 127 0).isDone = false ∧ (s.masOf 0).mode = .text ∧
       (s.masOf 0).current = some 9 ∧ (s.masOf 0).rstack = [10, 11] ∧ (s.masOf 0).look = []) ∧
    ([9, 10, 11].all fun j =>
      let r := (failing [sym 1] [sym 24]).record j
      decide (r.state = .filling ∧ r.slots ≠ [] ∧ r.mutilated = none) &&
        r.slots.all fun sl => decide (sl.state = .unrouted)) = true := by decide +kernel

/-- The current record takes the lookahead and is closed LINE, or NOSTORE where a block is refused; the stacked ones LINE; the
queued slot leaves for the second target (R118, R167, R169). -/
theorem test_open_line_closes_and_re_resolves :
    answers (exec (.openLineExpiry 0) (failing [sym 1] [sym 24])) (fun t => decide
      ((t.record 9).text = [sym 1, sym 24] ∧ (t.record 9).mutilated = some .line ∧ (t.record 9).state = .standing ∧
        (t.record 10).mutilated = some .line ∧ (t.record 11).mutilated = some .line ∧ (t.masOf 0).rstack = [] ∧
        t.slotState 127 0 = .queued 19 ∧ (t.ctxOf 0).queue = [] ∧ (t.peer 4).owed = [16])) = true ∧
    answers (exec (.openLineExpiry 0) ((failing (List.replicate 32 (sym 1)) [sym 24]).setPool [])) (fun t => decide
      ((t.record 9).text.length = 32 ∧ (t.record 9).mutilated = some .noStore)) = true := by decide +kernel

/-! ## The invariants -/

/-- The served station with a command waiting. -/
def commanded : State := { served with pending := [.rxdLevelChange 0 false] }

theorem commanded_ctx (l : Nat) : commanded.ctxOf l = Ctx.fresh := reset_ctxOf l

theorem commanded_record (m : Nat) : commanded.record m = Record.empty := reset_record m

/-- No level of the served station is up. -/
theorem commanded_clear : ∀ g ∈ allGauges, (commanded.levels.get g).alarm = .clear := by decide +kernel

theorem test_hyps_OalmFollows : OalmFollows commanded ∧ ∃ t, step commanded = .next t := by
  refine ⟨?_, _, rfl⟩
  have h₀ : commanded.oalm = false := rfl
  have h₁ : commanded.cfg = some img := rfl
  have h₂ : commanded.engine ≠ .stuck := by decide
  simp only [OalmFollows, h₀, h₁, Bool.false_eq_true, false_iff, not_and, reduceCtorEq, false_or, h₂]
  rintro - ⟨i, -, g, hg, -, h⟩
  exact h (commanded_clear g hg)

theorem test_hyps_BlocksConserved : BlocksConserved commanded := by
  have h₁ : commanded.store.pool = List.range Config.blockCount := fresh_pool
  have h₂ : commanded.chained = [] := by
    simp only [State.chained, commanded_record, List.flatMap_eq_nil_iff]
    exact fun _ _ => rfl
  refine ⟨?_, ?_, fun m _ => by rw [commanded_record]; rfl⟩
  · rw [h₁, h₂, List.append_nil]
  · rw [h₁]; exact List.pairwise_lt_range

theorem test_hyps_DispatchInvariants :
    QueuesOrdered commanded ∧ SendIdleIffNoEntry commanded ∧ EngineAgrees commanded ∧ ScratchEmpty commanded := by
  refine ⟨fun l => ?_, fun l => ?_, ⟨rfl, fun _ => rfl, fun h => absurd h (by decide)⟩, rfl⟩
  · rw [commanded_ctx]; exact List.Pairwise.nil
  · rw [commanded_ctx]; decide

theorem test_hyps_StacksBounded : StacksBounded commanded := fun l => by
  have h : commanded.masOf l = Mas.fresh none := reset_masOf l
  rw [commanded_ctx, h]; decide

end Sys2Proof.Tests
end

