-- ==== Sys2Proof/Proofs/Grants.lean ====
section
/-! PROOF. Grants against the class reserves (R50): when a request is granted, and by how much a grant lowers the free
counts. -/

namespace Sys2Proof.Machine

/-! ## The free counts after an update -/

@[simp] theorem setPool_pool (s : State) (p : List Nat) : (s.setPool p).store.pool = p := by
  unfold State.setPool
  dsimp only
  split
  · rfl
  · rw [touch_store]

/-- The free block count once `k` blocks have left the pool, whatever record takes them. -/
theorem freeBlocks_taken (s : State) (m k : Nat) (r : Record) (h : k ≤ s.freeBlocks) :
    ((s.setPool (s.store.pool.drop k)).setRecord m r).freeBlocks + k = s.freeBlocks := by
  calc ((s.setPool (s.store.pool.drop k)).setRecord m r).freeBlocks + k
      = (s.setPool (s.store.pool.drop k)).store.pool.length + k := rfl
    _ = s.store.pool.length - k + k := by rw [setPool_pool, List.length_drop]
    _ = s.freeBlocks := Nat.sub_add_cancel h

theorem freeRecords_congr {s t : State} (h : ∀ m, (t.record m).state = (s.record m).state) :
    t.freeRecords = s.freeRecords := by
  simp only [State.freeRecords, State.recordsIn, h]

/-- The FREE records once record `m` has been taken: the others. -/
theorem recordsIn_free_taken {s t : State} {m : Nat} (ht : (t.record m).state ≠ .free)
    (h : ∀ j, j ≠ m → t.record j = s.record j) : t.recordsIn .free = (s.recordsIn .free).erase m := by
  have hs : (s.recordsIn .free).Nodup := List.nodup_range.filter _
  rw [hs.erase_eq_filter, State.recordsIn, State.recordsIn, List.filter_filter]
  refine List.filter_congr fun j _ => ?_
  by_cases e : j = m
  · subst e; simp [ht]
  · simp [e, h j e]

theorem freeRecords_taken {s t : State} {m : Nat} (hm : m < 128) (hs : (s.record m).state = .free)
    (ht : (t.record m).state ≠ .free) (h : ∀ j, j ≠ m → t.record j = s.record j) :
    t.freeRecords + 1 = s.freeRecords := by
  have hmem : m ∈ s.recordsIn .free := List.mem_filter.2 ⟨List.mem_range.2 hm, decide_eq_true hs⟩
  rw [State.freeRecords, recordsIn_free_taken ht h]
  exact List.length_erase_add_one hmem

/-! ## What is granted -/

/-- The rule of R50 (and R61), with the reserves written out. -/
theorem grants_iff {s : State} {cls : MsgClass} {k r : Nat} :
    s.grants cls k r = true ↔ s.configured = true ∧
      if 3 ≤ cls.num then k ≤ s.freeBlocks ∧ (r = 0 ∨ r ≤ s.freeRecords)
      else 96 + k ≤ s.freeBlocks ∧ (r = 0 ∨ 8 + r ≤ s.freeRecords) := by
  rw [Nat.add_comm 96, Nat.add_comm 8]
  unfold State.grants
  by_cases hc : 3 ≤ cls.num
  · simp only [hc, if_true, Bool.and_eq_true, Bool.or_eq_true, decide_eq_true_eq]
  · simp only [hc, if_false, Bool.and_eq_true, Bool.or_eq_true, decide_eq_true_eq]
    rfl

theorem not_grants_of_unconfigured {s : State} (h : s.configured = false) (cls : MsgClass) (k r : Nat) :
    s.grants cls k r = false := by
  rw [State.grants, h, Bool.false_and]

/-- A request for one record and `k` blocks. -/
theorem grants_record_iff {s : State} (h : s.configured = true) (cls : MsgClass) (k : Nat) :
    s.grants cls k 1 = true ↔
      if 3 ≤ cls.num then k ≤ s.freeBlocks ∧ 1 ≤ s.freeRecords
      else 96 + k ≤ s.freeBlocks ∧ 8 + 1 ≤ s.freeRecords := by
  simp [grants_iff, h]

/-- A request for one block and no record. -/
theorem grants_block_iff {s : State} (h : s.configured = true) (cls : MsgClass) :
    s.grants cls 1 0 = true ↔ if 3 ≤ cls.num then 1 ≤ s.freeBlocks else 96 + 1 ≤ s.freeBlocks := by
  simp [grants_iff, h]

/-- Whatever is granted is there. -/
theorem grants_le {s : State} {cls : MsgClass} {k r : Nat} (h : s.grants cls k r = true) :
    k ≤ s.freeBlocks ∧ r ≤ s.freeRecords := by
  obtain ⟨-, h⟩ := grants_iff.1 h
  split at h <;> omega

/-! ## A record request -/

theorem grantRecord_isSome (s : State) (cls : MsgClass) (k : Nat) :
    (s.grantRecord cls k).isSome = s.grants cls k 1 := by
  unfold State.grantRecord
  split
  case isTrue h =>
    have hpos : 0 < (s.recordsIn .free).length := (grants_le h).2
    rw [Option.isSome_map, List.head?_eq_getElem?, h, List.getElem?_eq_getElem hpos, Option.isSome_some]
  case isFalse h => exact (Bool.eq_false_of_not_eq_true h).symm

theorem grantRecord_of_unconfigured {s : State} (h : s.configured = false) (cls : MsgClass) (k : Nat) :
    s.grantRecord cls k = none := by
  simp [State.grantRecord, not_grants_of_unconfigured h]

/-- A granted record request takes its `k` blocks off the free count. -/
theorem grantRecord_freeBlocks {s t : State} {cls : MsgClass} {k m : Nat} (h : s.grantRecord cls k = some (m, t)) :
    t.freeBlocks + k = s.freeBlocks := by
  unfold State.grantRecord at h
  split at h
  case isTrue hg =>
    obtain ⟨n, -, e⟩ := Option.map_eq_some_iff.1 h
    cases e
    rw [State.freeBlocks, touch_store]
    exact freeBlocks_taken s m k _ (grants_le hg).1
  case isFalse => cases h

/-- A granted record request takes one record off the free count. -/
theorem grantRecord_freeRecords {s t : State} {cls : MsgClass} {k m : Nat} (h : s.grantRecord cls k = some (m, t)) :
    t.freeRecords + 1 = s.freeRecords := by
  obtain ⟨hm, hfree, hgranted, hothers⟩ := grantRecord_record h
  have hfilling : (t.record m).state = .filling := by rw [hgranted]; rfl
  exact freeRecords_taken hm hfree (by rw [hfilling]; decide) hothers

/-! ## A block request -/

theorem grantBlock_isSome {s : State} {m : Nat} (hst : (s.record m).state = .filling)
    (hlen : (s.record m).chain.length < 128) : (s.grantBlock m).isSome = s.grants (s.record m).cls 1 0 := by
  unfold State.grantBlock
  cases hg : s.grants (s.record m).cls 1 0 <;> simp [hst, hlen, hg]

/-- A granted block request takes one block off the free count and no record. -/
theorem grantBlock_counts {s t : State} {m : Nat} (h : s.grantBlock m = some t) :
    t.freeBlocks + 1 = s.freeBlocks ∧ t.freeRecords = s.freeRecords := by
  unfold State.grantBlock at h
  dsimp only at h
  split at h
  case isTrue hg =>
    obtain ⟨-, hgrants⟩ := Bool.and_eq_true_iff.1 hg
    cases h
    refine ⟨freeBlocks_taken s m 1 _ (grants_le hgrants).1, freeRecords_congr fun j => ?_⟩
    refine record_setRecord_of (P := fun r => r.state = (s.record j).state) _ m j _ ?_ ?_
    · rintro rfl; rfl
    · rw [setPool_record]
  case isFalse => cases h

theorem grantBlock_of_unconfigured {s : State} (h : s.configured = false) (m : Nat) : s.grantBlock m = none := by
  simp [State.grantBlock, not_grants_of_unconfigured h]

/-! ## The obligation -/

/-- Settles O32: a request is granted when the free counts cover it and the reserve of its class, and a grant takes off
the counts what was asked. -/
theorem grantsAgainstReserves : Obligations.GrantsAgainstReserves := by
  intro s cls
  refine ⟨fun hc => ⟨grantRecord_of_unconfigured hc cls, grantBlock_of_unconfigured hc⟩,
    fun hc => ⟨fun k => ?_, fun k m t h => ?_, ?_⟩⟩
  · rw [grantRecord_isSome, grants_record_iff hc]
  · exact ⟨grantRecord_freeBlocks h, grantRecord_freeRecords h⟩
  · rintro m hst hlen rfl
    exact ⟨by rw [grantBlock_isSome hst hlen, grants_block_iff hc], fun t => grantBlock_counts⟩

end Sys2Proof.Machine
end

