-- ==== Sys2Proof/Proofs/Availability.lean ====
section
/-! PROOF. Availability of circuits and services (R66): each condition of the rule as the model's test for it. -/

namespace Sys2Proof.Machine

/-! ## The conditions of R66, one by one -/

theorem CircuitKind.sends_iff (k : CircuitKind) : k.sends = true ↔ k = .duplex ∨ k = .sendOnly := by
  cases k <;> simp [CircuitKind.sends]

theorem isOwn_iff (s : State) (c : Nat) : s.isOwn c = true ↔ c < 128 ∧ c / 8 = s.station := by
  simp only [State.isOwn, Bool.and_eq_true, decide_eq_true_iff]

theorem peerAvailable_iff (s : State) (k : Nat) :
    s.peerAvailable k = true ↔ (s.peer k).presence = .present ∧ (s.peer k).flag = .set := by
  simp only [State.peerAvailable, Bool.and_eq_true, decide_eq_true_iff]

/-! ## Availability -/

/-- The three conditions of R66: IN SERVICE, a sending kind, and an owner that is this station or a present configured
peer. -/
theorem circuitAvailable_iff (s : State) (c : Nat) :
    s.circuitAvailable c = true ↔
      (s.mapOf c).condition = .inService ∧ (s.mapOf c).kind.sends = true ∧
        (s.isOwn c = true ∨ s.peerAvailable (c / 8) = true) := by
  simp only [State.circuitAvailable, Bool.and_eq_true, Bool.or_eq_true, decide_eq_true_iff, and_assoc]

theorem serviceAvailable_iff (s : State) (k : Nat) :
    s.serviceAvailable k = true ↔ k = s.station ∨ s.peerAvailable k = true := by
  simp only [State.serviceAvailable, Bool.or_eq_true, decide_eq_true_iff]

/-! ## The obligation -/

/-- Settles O31: the model's tests of availability are the conditions R66 lists, the owner's among them. -/
theorem availabilityOfTargets : Obligations.AvailabilityOfTargets := by
  intro s
  refine ⟨fun c => ?circuit, fun k => ?service⟩
  case circuit => rw [circuitAvailable_iff, CircuitKind.sends_iff, isOwn_iff, peerAvailable_iff]
  case service => rw [serviceAvailable_iff, peerAvailable_iff]

end Sys2Proof.Machine
end

/-! PROOF. OALM follows its inputs after every command (R178). A command either ends its event, which drives OALM, or
leaves OALM and its inputs as they were, or puts the station out of service. -/

namespace Sys2Proof.Machine

/-! ## The output and its inputs -/

theorem alarmStands_iff (s : State) :
    s.alarmStands = true ↔
      ∃ img, s.cfg = some img ∧ ∃ g ∈ allGauges, img.enabled g = true ∧ (s.levels.get g).alarm ≠ .clear := by
  unfold State.alarmStands
  cases s.cfg <;> simp

theorem oalmInput_iff (s : State) :
    s.oalmInput = true ↔ s.running = true ∧ (s.cfg = none ∨ s.engine = .stuck ∨
      ∃ img, s.cfg = some img ∧ ∃ g ∈ allGauges, img.enabled g = true ∧ (s.levels.get g).alarm ≠ .clear) := by
  simp only [State.oalmInput, Bool.and_eq_true, Bool.or_eq_true, Option.isNone_iff_eq_none, decide_eq_true_iff,
    alarmStands_iff, or_assoc]

/-- R178's three inputs are the model's `oalmInput`. -/
theorem oalmFollows_iff (s : State) : OalmFollows s ↔ s.oalm = s.oalmInput := by
  rw [Bool.eq_iff_iff, oalmInput_iff, OalmFollows]

/-! ## The three ways a command keeps OALM to its inputs -/

theorem oalmFollows_finish (s : State) : OalmFollows s.finish := (oalmFollows_iff _).2 (finish_oalm s)

/-- In restart hold, load and without supply OALM is not asserted (R189, R191). -/
theorem oalmFollows_of_not_running {s : State} (hp : s.running = false) (ho : s.oalm = false) : OalmFollows s := by
  rw [oalmFollows_iff, ho, State.oalmInput, hp, Bool.false_and]

theorem OalmFollows.congr {s t : State} (h : OalmFollows s) (ho : t.oalm = s.oalm) (hi : t.oalmInput = s.oalmInput) :
    OalmFollows t := by
  rw [oalmFollows_iff] at h ⊢
  rw [ho, hi, h]

theorem OalmFollows.setEngine {s : State} {e : Engine} (h : OalmFollows s) (hs : s.engine ≠ .stuck) (he : e ≠ .stuck) :
    OalmFollows { s with engine := e } := by
  refine h.congr rfl ?_
  have hn : decide (e = .stuck) = decide (s.engine = .stuck) := by rw [decide_eq_false hs, decide_eq_false he]
  exact congrArg (fun b => s.running && (s.cfg.isNone || b || s.alarmStands)) hn

theorem OalmFollows.setTimers {s : State} (h : OalmFollows s) (x : HwTimers) : OalmFollows { s with timers := x } :=
  h.congr rfl rfl

theorem OalmFollows.setFlight {s : State} (h : OalmFollows s) (f : Flight) : OalmFollows (s.setFlight f) :=
  h.congr rfl rfl

theorem OalmFollows.setLine {s : State} (h : OalmFollows s) (l : Nat) (x : Line) : OalmFollows (s.setLine l x) :=
  h.congr rfl rfl

/-- A change of the store and the scratch alone. -/
theorem OalmFollows.filed {s t : State} (h : OalmFollows s) : Filed s t → OalmFollows t := by
  rintro ⟨st, e, rfl⟩
  exact h.congr rfl rfl

theorem OalmFollows.elim {α : Type} {s : State} {f : α → State} (h : OalmFollows s) (o : Option α)
    (hf : ∀ a, OalmFollows (f a)) : OalmFollows (o.elim s f) := by
  cases o with
  | none => exact h
  | some a => exact hf a

/-! ## The frame engine -/

theorem OalmFollows.handCell {s : State} (h : OalmFollows s) (f : Flight) (b : Byte) : OalmFollows (s.handCell f b) := by
  unfold State.handCell
  split
  · split
    · exact (h.filed (filed_write s _ _)).setFlight f
    · exact h.setFlight f
  · dsimp only
    split
    · exact oalmFollows_finish _
    · exact h.setFlight _

theorem OalmFollows.nineBits {s : State} (h : OalmFollows s) (f : Flight) : OalmFollows (s.nineBits f) := by
  unfold State.nineBits
  split
  · exact h.handCell f _
  · exact h.setFlight _

/-- The end of a cell moves the engine within the frame, and never out of STUCK. -/
theorem OalmFollows.cellEnd {s : State} (h : OalmFollows s) (hs : s.engine ≠ .stuck) (f : Flight) :
    OalmFollows (s.cellEnd f) := by
  unfold State.cellEnd
  dsimp only
  split
  · exact (h.setFlight _).setEngine hs (by decide)
  · split
    · exact (h.setFlight _).setEngine hs (by decide)
    · exact h.setFlight _

theorem OalmFollows.listenerSample {s : State} (h : OalmFollows s) (hs : s.engine ≠ .stuck) (f : Flight) (hd : Bool) :
    OalmFollows (s.listenerSample f hd) := by
  have ht := h.setTimers .high
  unfold State.listenerSample
  dsimp only
  split
  case isTrue => exact ht.setFlight _
  split
  case isTrue => exact h
  split
  case isTrue =>
    split
    · exact ht.cellEnd hs f
    · exact oalmFollows_finish _
  split
  · exact ht.nineBits _
  · exact ht.setFlight _

theorem OalmFollows.senderSample {s : State} (h : OalmFollows s) (hs : s.engine ≠ .stuck) (f : Flight) (hd : Bool) :
    OalmFollows (s.senderSample f hd) := by
  have ht := h.setTimers .high
  unfold State.senderSample
  dsimp only
  split
  case isTrue =>
    split
    · exact ht.cellEnd hs f
    · exact oalmFollows_finish _
  split
  case isTrue => exact ht.setFlight _
  split <;> exact oalmFollows_finish _

theorem OalmFollows.senderReceipt {s : State} (h : OalmFollows s) (f : Flight) (hd : Bool) :
    OalmFollows (s.senderReceipt f hd) := by
  unfold State.senderReceipt
  dsimp only
  split
  · split
    · exact oalmFollows_finish _
    · exact h
  · exact (h.setTimers .high).setFlight _

theorem oalmFollows_applyFrame (s : State) (f : Flight) : OalmFollows (s.applyFrame f) := oalmFollows_finish _

theorem OalmFollows.listenerReceipt {s : State} (h : OalmFollows s) (f : Flight) (hd : Bool) :
    OalmFollows (s.listenerReceipt f hd) := by
  have ht := h.setTimers .high
  unfold State.listenerReceipt
  split
  case isTrue => exact ht.setFlight _
  split
  case isTrue => exact ht.setFlight _
  split
  case isTrue => exact h
  split
  · exact oalmFollows_applyFrame s f
  · exact ht.setFlight _

theorem OalmFollows.clockRises {s : State} (h : OalmFollows s) (hd : Bool) : OalmFollows (s.clockRises hd) := by
  unfold State.clockRises
  split <;> exact h.congr rfl rfl

theorem oalmFollows_cutFrame (s : State) : OalmFollows s.cutFrame := oalmFollows_finish _

theorem OalmFollows.clockFalls {s : State} (h : OalmFollows s) : OalmFollows s.clockFalls := by
  cases c : s.cutIsDue with
  | false =>
    obtain ⟨p, e⟩ := clockFalls_eq c
    rw [e]
    exact h.congr rfl rfl
  | true =>
    unfold State.clockFalls
    split
    case h_1 | h_2 | h_3 => exact h.congr rfl rfl
    all_goals rw [c]; exact oalmFollows_cutFrame s

theorem OalmFollows.stopSeen {s : State} (h : OalmFollows s) (byStart : Bool) : OalmFollows (s.stopSeen byStart) := by
  unfold State.stopSeen
  split
  case h_1 | h_2 =>
    split
    · exact h
    · exact h.congr rfl rfl
  all_goals exact h

theorem OalmFollows.sample {s : State} (h : OalmFollows s) (hd : Bool) : OalmFollows (s.sample hd) := by
  have sender : ∀ f, s.engine ≠ .stuck →
      OalmFollows (if s.cutsNext f then s.cutFrame.clockRises hd else s.senderSample f hd) := by
    intro f hs
    split
    · exact (oalmFollows_cutFrame s).clockRises hd
    · exact h.senderSample hs f hd
  unfold State.sample
  split
  case h_1 => exact h
  case h_2 f _ =>
    split
    case h_1 e => exact sender f (by rw [e]; decide)
    case h_2 e => exact sender f (by rw [e]; decide)
    case h_3 e => exact h.listenerSample (by rw [e]; decide) f hd
    case h_4 =>
      split
      · exact h.senderReceipt f hd
      · exact h.listenerReceipt f hd
    all_goals exact h

/-! ## The restarts -/

theorem oalmFollows_beginHold (s : State) (k : RestartKind) : OalmFollows (s.beginHold k) :=
  oalmFollows_of_not_running rfl rfl

theorem oalmFollows_beginLoad (s : State) (straps : BitVec 4) : OalmFollows (s.beginLoad straps) :=
  oalmFollows_of_not_running rfl rfl

theorem OalmFollows.hardwareCause {s : State} (h : OalmFollows s) (k : RestartKind) :
    OalmFollows (s.hardwareCause k) := by
  unfold State.hardwareCause
  split
  case h_1 | h_2 => exact h
  case h_3 => exact h.congr rfl rfl
  all_goals exact oalmFollows_beginHold s k

theorem oalmFollows_fixedRestart (s : State) (straps : BitVec 4) (hc hd : Bool) (k : Option RestartKind) :
    OalmFollows (s.fixedRestart straps hc hd k) := by
  unfold State.fixedRestart
  split
  case h_2 => exact oalmFollows_beginLoad _ straps
  all_goals exact oalmFollows_finish _

theorem OalmFollows.serviceRest {s : State} (h : OalmFollows s) (straps : BitVec 4) (hc hd : Bool) :
    OalmFollows (s.serviceRest straps hc hd) := by
  unfold State.serviceRest
  split
  · exact oalmFollows_fixedRestart _ straps hc hd _
  · exact h

/-! ## The commands -/

/-- OALM follows its inputs in the state that an outcome leads to. -/
def OalmFollowsAfter (o : Host.Outcome State Fault Refusal) : Prop := ∀ t, o = .next t → OalmFollows t

theorem oalmFollowsAfter_next {t : State} (h : OalmFollows t) : OalmFollowsAfter (.next t) := by
  rintro u ⟨⟩; exact h

theorem OalmFollows.whenever {g : Bool} {s t : State} (h : OalmFollows s) (ht : g = true → OalmFollows t) :
    OalmFollowsAfter (whenever g s t) := by
  cases g with
  | true => exact oalmFollowsAfter_next (ht rfl)
  | false => exact oalmFollowsAfter_next h

theorem OalmFollowsAfter.onLine {o : Host.Outcome State Fault Refusal} (h : OalmFollowsAfter o) (l : Nat) :
    OalmFollowsAfter (onLine l o) := by
  unfold Machine.onLine
  split
  · exact h
  · rintro t ⟨⟩

theorem OalmFollowsAfter.onStation {o : Host.Outcome State Fault Refusal} (h : OalmFollowsAfter o) (k : Nat) :
    OalmFollowsAfter (onStation k o) := by
  unfold Machine.onStation
  split
  · exact h
  · rintro t ⟨⟩

theorem OalmFollows.rxdLevel {s : State} (h : OalmFollows s) (l : Nat) (marking : Bool) :
    OalmFollows (s.rxdLevel l marking) := by
  unfold State.rxdLevel
  dsimp only
  split
  · exact h
  · split <;> exact h.setLine l _

/-- A frame is entered from rest, so STUCK is neither entered nor left (R123). -/
theorem OalmFollows.enterFrame {s : State} (h : OalmFollows s) (hs : s.engine = .idle ∨ s.engine = .waitingIdle)
    {e : Engine} (he : e ≠ .stuck) (f : Flight) :
    OalmFollows { s with engine := e, flight := some f, timers := .high, parting := .released } := by
  have hn : s.engine ≠ .stuck := by rcases hs with e | e <;> rw [e] <;> decide
  exact (h.setEngine hn he).congr rfl rfl

theorem OalmFollows.vetoTaken {s : State} (h : OalmFollows s) (f : Flight) : OalmFollows (s.vetoTaken f) := by
  unfold State.vetoTaken
  split
  · exact oalmFollows_finish _
  · exact h.sample false

theorem OalmFollows.exec {s : State} (h : OalmFollows s) (c : Instr) : OalmFollowsAfter (exec c s) := by
  cases c with
  | powerOn => exact h.whenever fun _ => oalmFollows_beginHold s _
  | supplyDip => exact oalmFollowsAfter_next (h.hardwareCause _)
  | restartPin => exact oalmFollowsAfter_next (h.hardwareCause _)
  | restartHoldEnd straps => exact h.whenever fun _ => oalmFollows_beginLoad s straps
  | configurationLoadEnd image hc hd => exact h.whenever fun _ => oalmFollows_finish _
  | supplyRemoved => exact h.whenever fun _ => oalmFollows_of_not_running rfl rfl
  | rxdLevelChange l marking => exact (oalmFollowsAfter_next (h.rxdLevel l marking)).onLine l
  | startSample l => exact (h.whenever fun _ => h.setLine l _).onLine l
  | characterArrival l code => exact (h.whenever fun _ => h.elim _ fun _ => oalmFollows_finish _).onLine l
  | openLineExpiry l => exact (h.whenever fun _ => h.elim _ fun _ => oalmFollows_finish _).onLine l
  | restoreExpiry l => exact (h.whenever fun _ => oalmFollows_finish _).onLine l
  | characterCompletion l => exact (h.whenever fun _ => oalmFollows_finish _).onLine l
  | insertedShiftEnd l => exact (h.whenever fun _ => h.elim _ fun _ => h.setLine l _).onLine l
  | drainingEnd l => exact (h.whenever fun _ => h.elim _ fun _ => h.setLine l _).onLine l
  | officeMinuteAdvance => exact h.whenever fun _ => oalmFollows_finish _
  | holdLimitExpiry => exact h.whenever fun _ => oalmFollows_finish _
  | serviceMessageRest straps hc hd => exact h.whenever fun _ => h.serviceRest straps hc hd
  | frameStart =>
    refine h.whenever fun hg => h.elim _ fun o => ?_
    simp only [Bool.and_eq_true, decide_eq_true_iff] at hg
    obtain ⟨⟨⟨-, hw⟩, -⟩, -⟩ := hg
    exact h.enterFrame (.inr hw) (by decide) _
  | frameStartHeard =>
    refine h.whenever fun hg => ?_
    simp only [Bool.and_eq_true, Bool.or_eq_true, decide_eq_true_iff] at hg
    obtain ⟨-, hrests⟩ := hg
    exact h.enterFrame hrests (by decide) _
  | arbitrationLost => exact h.whenever fun _ => h.sample _
  | collision => exact h.whenever fun _ => h.sample _
  | veto => exact h.whenever fun _ => h.elim _ h.vetoTaken
  | listenerParityVeto => exact h.whenever fun _ => h.elim _ fun _ => h.sample _
  | frameDiscard => exact h.whenever fun _ => h.elim _ fun _ => h.sample _
  | bitSample hd =>
    refine h.whenever fun _ => ?_
    split
    · exact h.sample hd
    · exact h.clockRises hd
  | receiptSlotBegin =>
    refine h.whenever fun _ => ?_
    split
    · exact h.elim _ fun _ => h.congr rfl rfl
    · exact h.clockFalls
  | startOrStopNotOwn byStart =>
    refine h.whenever fun _ => ?_
    split
    · exact oalmFollows_finish _
    · split
      · exact h.stopSeen byStart
      · exact h
  | stallExpiry => exact h.whenever fun _ => oalmFollows_finish _
  | stuckExpiry => exact h.whenever fun _ => oalmFollows_finish _
  | releaseExpiry hd => exact h.whenever fun _ => oalmFollows_finish _
  | carryReservation => exact h.whenever fun _ => h.elim _ fun _ => oalmFollows_finish _
  | frameEndedEarly byStart => exact h.whenever fun _ => h.elim _ fun _ => oalmFollows_finish _
  | listenerFrameEnd => exact h.whenever fun _ => h.elim _ fun _ => oalmFollows_finish _
  | carryCommit => exact h.whenever fun _ => h.elim _ fun f => oalmFollows_applyFrame s f
  | conditionApply => exact h.whenever fun _ => h.elim _ fun f => oalmFollows_applyFrame s f
  | musterApply => exact h.whenever fun _ => h.elim _ fun f => oalmFollows_applyFrame s f
  | frameCompleted hd => exact h.whenever fun _ => h.elim _ fun f => h.senderReceipt f hd
  | notBeforePasses k => exact (h.whenever fun _ => oalmFollows_finish _).onStation k

/-! ## The obligation -/

/-- Settles O3: a step runs the command at the front of the queue, and every command keeps OALM to its inputs. -/
theorem oalmFollowsInvariant : Obligations.OalmFollowsInvariant := by
  intro s t h hstep
  unfold step at hstep
  split at hstep
  case h_1 => cases hstep; exact h
  case h_2 cs _ =>
    have hrest : OalmFollows { s with pending := cs } := h.congr rfl rfl
    exact hrest.exec _ t hstep

end Sys2Proof.Machine

/-! PROOF. The invariants of the store and of the tables (R43, R87, R109, R113): every step is `Built`, so each invariant
needs only the few cases of `Built`. -/

namespace Sys2Proof.Machine

/-! ## The queues and the stacks -/

theorem QueuesOrdered.built {s t : State} (b : Built s t) : QueuesOrdered s → QueuesOrdered t := by
  have other : ∀ {s t : State}, t.ctx = s.ctx → QueuesOrdered s → QueuesOrdered t := by
    intro s t e h l
    rw [State.ctxOf, e]
    exact h l
  induction b with
  | trans _ _ ih₁ ih₂ => exact fun h => ih₂ (ih₁ h)
  | tables _ hctx _ => exact fun h l => (hctx l).ordered (h l)
  | fields s m r _ _ => exact other rfl
  | free s m => obtain ⟨st, e, ht⟩ := filed_freeRecord s m; exact other (by rw [ht])
  | complete s m => obtain ⟨st, e, ht⟩ := filed_complete s m; exact other (by rw [ht])
  | grantRecord g => obtain ⟨st, e, rfl⟩ := filed_grantRecord g; exact other rfl
  | grantBlock g => obtain ⟨st, e, rfl⟩ := filed_grantBlock g; exact other rfl
  | rollback s m n => obtain ⟨st, e, ht⟩ := filed_rollback s m n; exact other (by rw [ht])
  | fresh _ hctx _ => intro _ l; rw [hctx l]; exact List.Pairwise.nil

theorem StacksBounded.built {s t : State} (b : Built s t) : StacksBounded s → StacksBounded t := by
  have other : ∀ {s t : State}, t.ctx = s.ctx → t.mas = s.mas → StacksBounded s → StacksBounded t := by
    intro s t e₁ e₂ h l
    rw [State.ctxOf, State.masOf, e₁, e₂]
    exact h l
  induction b with
  | trans _ _ ih₁ ih₂ => exact fun h => ih₂ (ih₁ h)
  | tables _ hctx hmas => exact fun h l => ⟨(hctx l).bounded (h l).1, hmas l (h l).2⟩
  | fields s m r _ _ => exact other rfl rfl
  | free s m => obtain ⟨st, e, ht⟩ := filed_freeRecord s m; exact other (by rw [ht]) (by rw [ht])
  | complete s m => obtain ⟨st, e, ht⟩ := filed_complete s m; exact other (by rw [ht]) (by rw [ht])
  | grantRecord g => obtain ⟨st, e, rfl⟩ := filed_grantRecord g; exact other rfl rfl
  | grantBlock g => obtain ⟨st, e, rfl⟩ := filed_grantBlock g; exact other rfl rfl
  | rollback s m n => obtain ⟨st, e, ht⟩ := filed_rollback s m n; exact other (by rw [ht]) (by rw [ht])
  | fresh _ hctx hmas => intro _ l; rw [hctx l, hmas l]; exact ⟨Nat.zero_le _, Nat.zero_le _⟩

/-- Settles O5: no case of `Built` puts an entry behind one that it precedes. -/
theorem queuesOrderedInvariant : Obligations.QueuesOrderedInvariant :=
  fun _ _ h hstep => QueuesOrdered.built (built_step hstep) h

/-- Settles O6: no case of `Built` lets a stack grow past three entries. -/
theorem stacksBoundedInvariant : Obligations.StacksBoundedInvariant :=
  fun _ _ h hstep => StacksBounded.built (built_step hstep) h

/-! ## Lists of blocks -/

theorem insertRising_sorted {x : Nat} {l : List Nat} (h : l.Pairwise (· < ·)) :
    (insertRising x l).Pairwise (· < ·) := by
  induction l with
  | nil => exact List.pairwise_singleton _ _
  | cons y ys ih =>
    obtain ⟨hy, hys⟩ := List.pairwise_cons.1 h
    rw [insertRising]
    split
    case isTrue hlt =>
      exact List.pairwise_cons.2 ⟨fun z hz => by
        rcases List.mem_cons.1 hz with rfl | hz
        · exact hlt
        · exact hlt.trans (hy z hz), h⟩
    case isFalse hlt =>
      split
      case isTrue => exact h
      case isFalse hne =>
        refine List.pairwise_cons.2 ⟨fun z hz => ?_, ih hys⟩
        rcases (mem_insertRising x z ys).1 hz with rfl | hz
        · omega
        · exact hy z hz

theorem insertRising_perm {x : Nat} {l : List Nat} (h : x ∉ l) : (insertRising x l).Perm (x :: l) := by
  induction l with
  | nil => exact .refl _
  | cons y ys ih =>
    rw [List.mem_cons, not_or] at h
    rw [insertRising, if_neg h.1]
    split
    · exact .refl _
    · exact ((ih h.2).cons y).trans (.swap x y ys)

theorem returnBlocks_cons (pool : List Nat) (b : Nat) (bs : List Nat) :
    returnBlocks pool (b :: bs) = returnBlocks (insertRising b pool) bs := rfl

theorem returnBlocks_sorted {bs : List Nat} : ∀ {pool : List Nat}, pool.Pairwise (· < ·) →
    (returnBlocks pool bs).Pairwise (· < ·) := by
  induction bs with
  | nil => exact id
  | cons b bs ih => exact fun h => ih (insertRising_sorted h)

/-- Blocks that are not in the pool come back one by one. -/
theorem returnBlocks_perm {bs : List Nat} : ∀ {pool : List Nat}, (pool ++ bs).Nodup →
    (returnBlocks pool bs).Perm (pool ++ bs) := by
  induction bs with
  | nil => intro pool _; rw [List.append_nil]; exact .refl _
  | cons b bs ih =>
    intro pool h
    have hb : b ∉ pool := fun hp => List.disjoint_of_nodup_append h hp List.mem_cons_self
    have e : (insertRising b pool ++ bs).Perm (pool ++ b :: bs) :=
      ((insertRising_perm hb).append_right bs).trans List.perm_middle.symm
    exact (ih (e.nodup_iff.2 h)).trans e

/-! ## The blocks chained -/

/-- Writing record `m` moves what the chains hold from its old chain to its new one. -/
theorem chained_setRecord (s : State) {m : Nat} (hm : m < 128) (r : Record) :
    ∃ rest, s.chained.Perm ((s.record m).chain ++ rest) ∧ (s.setRecord m r).chained.Perm (r.chain ++ rest) := by
  have hmem : m ∈ List.range Config.recordCount := List.mem_range.2 hm
  have split : ∀ u : State, u.chained.Perm
      ((u.record m).chain ++ ((List.range Config.recordCount).erase m).flatMap fun j => (u.record j).chain) :=
    fun u => (List.perm_cons_erase hmem).flatMap_right _
  refine ⟨((List.range Config.recordCount).erase m).flatMap fun j => (s.record j).chain, split s, ?_⟩
  have e : ((List.range Config.recordCount).erase m).flatMap (fun j => ((s.setRecord m r).record j).chain) =
      ((List.range Config.recordCount).erase m).flatMap fun j => (s.record j).chain := by
    refine List.flatMap_congr fun j hj => ?_
    have hne : m ≠ j := by
      rintro rfl
      exact (List.nodup_range.not_mem_erase) hj
    rw [record_setRecord_ne s m j r hne]
  have h := split (s.setRecord m r)
  rwa [record_setRecord_self s m r hm, e] at h

theorem chained_congr {s t : State} (h : ∀ m, (t.record m).chain = (s.record m).chain) : t.chained = s.chained := by
  simp only [State.chained, h]

/-- What the two halves of the invariant say of a pool and the chains' blocks. -/
def PoolFits (pool blocks : List Nat) : Prop :=
  (pool ++ blocks).Perm (List.range Config.blockCount) ∧ pool.Pairwise (· < ·)

theorem PoolFits.perm {pool a b : List Nat} (h : PoolFits pool a) (e : a.Perm b) : PoolFits pool b :=
  ⟨(e.append_left pool).symm.trans h.1, h.2⟩

theorem PoolFits.nodup {pool a : List Nat} (h : PoolFits pool a) : (pool ++ a).Nodup :=
  h.1.nodup_iff.2 List.nodup_range

/-- Blocks leave the pool for a chain. -/
theorem PoolFits.take {pool a : List Nat} (h : PoolFits pool a) (k : Nat) :
    PoolFits (pool.drop k) (pool.take k ++ a) := by
  refine ⟨?_, h.2.sublist (List.drop_sublist k pool)⟩
  have e : (pool.drop k ++ (pool.take k ++ a)).Perm (pool ++ a) := by
    calc (pool.drop k ++ (pool.take k ++ a)).Perm ((pool.take k ++ pool.drop k) ++ a) := by
          rw [← List.append_assoc]
          exact List.perm_append_comm.append_right a
      _ = pool ++ a := by rw [List.take_append_drop]
  exact e.trans h.1

/-- Blocks of a chain return to the pool. -/
theorem PoolFits.giveBack {pool a b : List Nat} (h : PoolFits pool (b ++ a)) : PoolFits (returnBlocks pool b) a := by
  have hn : (pool ++ b).Nodup := (List.append_assoc pool b a ▸ h.nodup).of_append_left
  refine ⟨?_, returnBlocks_sorted h.2⟩
  have e := (returnBlocks_perm hn).append_right a
  rw [List.append_assoc] at e
  exact e.trans h.1

/-! ## The invariant of the blocks -/

theorem BlocksConserved.congr {s t : State} (h : BlocksConserved s) (hp : t.store.pool = s.store.pool)
    (hc : ∀ m, (t.record m).chain = (s.record m).chain)
    (hf : ∀ m, (t.record m).state = .free → (s.record m).state = .free) : BlocksConserved t := by
  obtain ⟨hperm, hsort, hfree⟩ := h
  refine ⟨?_, by rw [hp]; exact hsort, fun m hm => by rw [hc m]; exact hfree m (hf m hm)⟩
  rw [hp, chained_congr hc]
  exact hperm

theorem BlocksConserved.store {s t : State} (h : BlocksConserved s) (e : t.store = s.store) : BlocksConserved t :=
  h.congr (by rw [e]) (fun m => by rw [State.record, e]; rfl) (fun m => by rw [State.record, e]; exact id)

theorem BlocksConserved.touch {s : State} (h : BlocksConserved s) (g : Gauge) : BlocksConserved (s.touch g) :=
  h.store (touch_store s g)

/-- Record `m` written together with the pool: it is enough that the pool fits what `m` holds after, for whatever the
other records hold, and that `m` holds nothing when it is FREE. -/
theorem BlocksConserved.write {s : State} (h : BlocksConserved s) {m : Nat} (hm : m < 128) (p : List Nat) (r : Record)
    (hp : ∀ rest, PoolFits s.store.pool ((s.record m).chain ++ rest) → PoolFits p (r.chain ++ rest))
    (hr : r.state = .free → r.chain = []) : BlocksConserved ((s.setPool p).setRecord m r) := by
  obtain ⟨hperm, hsort, hfree⟩ := h
  obtain ⟨rest, h₁, h₂⟩ := chained_setRecord (s.setPool p) hm r
  have hc : (s.setPool p).chained = s.chained := chained_congr fun j => by rw [setPool_record]
  rw [setPool_record, hc] at h₁
  have fits : PoolFits p (((s.setPool p).setRecord m r).chained) :=
    (hp rest (PoolFits.perm ⟨hperm, hsort⟩ h₁)).perm h₂.symm
  have hpool : ((s.setPool p).setRecord m r).store.pool = p := setPool_pool s p
  refine ⟨by rw [hpool]; exact fits.1, by rw [hpool]; exact fits.2, fun j => ?_⟩
  refine record_setRecord_of (P := fun x => x.state = .free → x.chain = []) (s.setPool p) m j r (fun _ => hr) ?_
  rw [setPool_record]
  exact hfree j

theorem BlocksConserved.setRecord {s : State} (h : BlocksConserved s) (m : Nat) (r : Record)
    (hc : r.chain = (s.record m).chain) (hf : r.state = .free → (s.record m).state = .free) :
    BlocksConserved (s.setRecord m r) :=
  h.congr rfl
    (fun j => record_setRecord_of (P := fun x => x.chain = (s.record j).chain) s m j r (by rintro rfl; exact hc) rfl)
    (fun j => record_setRecord_of (P := fun x => x.state = .free → (s.record j).state = .free) s m j r
      (by rintro rfl; exact hf) id)

theorem BlocksConserved.freeRecord {s : State} (h : BlocksConserved s) (m : Nat) : BlocksConserved (s.freeRecord m) := by
  unfold State.freeRecord
  dsimp only
  split
  case isTrue => exact h
  case isFalse hst =>
    have hm : m < 128 := by
      by_contra hm
      exact hst (by rw [record_out s m hm]; rfl)
    exact (h.write hm _ _ (fun rest fits => fits.giveBack) (fun _ => rfl)).touch .records

theorem BlocksConserved.complete {s : State} (h : BlocksConserved s) (m : Nat) : BlocksConserved (s.complete m) := by
  have counted : ∀ n, BlocksConserved { s with store := { s.store with stamp := n } } := fun _ =>
    h.congr rfl (fun _ => rfl) fun _ => id
  unfold State.complete
  dsimp only
  split
  · exact (counted _).freeRecord m
  · exact (counted _).setRecord m _ rfl nofun

theorem BlocksConserved.grantRecord {s t : State} (h : BlocksConserved s) {cls : MsgClass} {k m : Nat}
    (g : s.grantRecord cls k = some (m, t)) : BlocksConserved t := by
  obtain ⟨hm, hst, -, -⟩ := grantRecord_record g
  have hchain : (s.record m).chain = [] := h.2.2 m hst
  unfold State.grantRecord at g
  split at g
  case isFalse => cases g
  case isTrue =>
    obtain ⟨j, -, hj⟩ := Option.map_eq_some_iff.1 g
    obtain ⟨rfl, rfl⟩ := Prod.mk.injEq .. ▸ hj
    refine (h.write hm _ _ (fun rest fits => ?_) fun hf => nomatch (hf : RecState.filling = .free)).touch .records
    rw [hchain] at fits
    exact fits.take k

theorem BlocksConserved.grantBlock {s t : State} (h : BlocksConserved s) {m : Nat} (g : s.grantBlock m = some t) :
    BlocksConserved t := by
  unfold State.grantBlock at g
  dsimp only at g
  split at g
  case isFalse => cases g
  case isTrue c =>
    cases g
    have hst : (s.record m).state = .filling := by
      simp only [Bool.and_eq_true, decide_eq_true_eq] at c
      exact c.1.1
    have hm : m < 128 := by
      by_contra hm
      rw [record_out s m hm] at hst
      cases hst
    refine h.write hm _ _ (fun rest fits => ?_) (fun hf => absurd (hst.symm.trans hf) nofun)
    refine (fits.take 1).perm ?_
    rw [← List.append_assoc]
    exact List.perm_append_comm.append_right rest

theorem BlocksConserved.rollback {s : State} (h : BlocksConserved s) (m n : Nat) : BlocksConserved (s.rollback m n) := by
  unfold State.rollback
  dsimp only
  split
  case isFalse => exact h
  case isTrue hn =>
    have hm : m < 128 := by
      by_contra hm
      rw [record_out s m hm] at hn
      exact absurd hn (Nat.not_lt_zero n)
    refine h.write hm _ _ (fun rest fits => ?_) (fun hf => ?_)
    · refine PoolFits.giveBack (fits.perm ?_)
      rw [← List.append_assoc]
      refine List.Perm.append_right rest ?_
      refine (List.Perm.of_eq (List.take_append_drop (max (blocksFor n) (s.record m).minBlocks) _).symm).trans ?_
      exact List.perm_append_comm
    · show (s.record m).chain.take _ = []
      rw [h.2.2 m hf, List.take_nil]

theorem blocksConserved_fresh {s : State} (h : s.store = Store.fresh) : BlocksConserved s := by
  have hrec : ∀ m, s.record m = Record.empty := fun m => by
    rw [← reset_record m, State.record, State.record, h, reset_store]
  have hchained : s.chained = [] := by
    simp only [State.chained, hrec]
    exact List.flatMap_eq_nil_iff.2 fun _ _ => rfl
  refine ⟨?_, ?_, fun m _ => by rw [hrec m]; rfl⟩
  · rw [hchained, h, fresh_pool, List.append_nil]
    exact .refl _
  · rw [h, fresh_pool]
    exact List.pairwise_lt_range

theorem BlocksConserved.built {s t : State} (b : Built s t) : BlocksConserved s → BlocksConserved t := by
  induction b with
  | trans _ _ ih₁ ih₂ => exact fun h => ih₂ (ih₁ h)
  | tables hst _ _ => exact fun h => h.store hst
  | fields s m r hc hs => exact fun h => h.setRecord m r hc (by rw [hs]; exact id)
  | free s m => exact fun h => h.freeRecord m
  | complete s m => exact fun h => h.complete m
  | grantRecord g => exact fun h => h.grantRecord g
  | grantBlock g => exact fun h => h.grantBlock g
  | rollback s m n => exact fun h => h.rollback m n
  | fresh hst _ _ => exact fun _ => blocksConserved_fresh hst

/-- Settles O4: each operation of the store moves blocks between the pool and one chain, and nothing else does. -/
theorem blocksConservedInvariant : Obligations.BlocksConservedInvariant :=
  fun _ _ h hstep => BlocksConserved.built (built_step hstep) h

end Sys2Proof.Machine

/-! PROOF. The three invariants of the frame engine, the scratch and the commands waiting, in one walk over the commands:
what any command keeps of them (`CommandStep`, `commandStep_exec`). The frames of the highway's own operations
(`Traffic`) stand first. -/

namespace Sys2Proof.Machine

/-! ## What the work on a frame's content leaves -/

/-- What reading receipts and applying a frame leave: all but the store, the queues, the peers, the map, the MUSTER pending
set, the streak, the levels, the lost-report count, the rests, the free values drawn and the scratch. -/
structure Traffic (s t : State) : Prop where
  phase : t.phase = s.phase
  restart : t.restart = s.restart
  station : t.station = s.station
  cfg : t.cfg = s.cfg
  lines : t.lines = s.lines
  mas : t.mas = s.mas
  admin : t.admin = s.admin
  engine : t.engine = s.engine
  offered : t.offered = s.offered
  flight : t.flight = s.flight
  timers : t.timers = s.timers
  parting : t.parting = s.parting
  minute : t.minute = s.minute
  pending : t.pending = s.pending
  ctx : ∀ l, { t.ctxOf l with queue := (s.ctxOf l).queue } = s.ctxOf l

theorem Traffic.trans {s t u : State} (a : Traffic s t) (b : Traffic t u) : Traffic s u where
  phase := b.phase.trans a.phase
  restart := b.restart.trans a.restart
  station := b.station.trans a.station
  cfg := b.cfg.trans a.cfg
  lines := b.lines.trans a.lines
  mas := b.mas.trans a.mas
  admin := b.admin.trans a.admin
  engine := b.engine.trans a.engine
  offered := b.offered.trans a.offered
  flight := b.flight.trans a.flight
  timers := b.timers.trans a.timers
  parting := b.parting.trans a.parting
  minute := b.minute.trans a.minute
  pending := b.pending.trans a.pending
  ctx l := by rw [← a.ctx l, ← b.ctx l]

theorem Resolved.traffic {s t : State} (h : Resolved s t) : Traffic s t where
  phase := h.phase
  restart := h.restart
  station := h.station
  cfg := h.cfg
  lines := h.lines
  mas := h.mas
  admin := h.admin
  engine := h.engine
  offered := h.offered
  flight := h.flight
  timers := h.timers
  parting := h.parting
  minute := h.minute
  pending := h.pending
  ctx := h.ctx

theorem Filed.traffic {s t : State} (h : Filed s t) : Traffic s t := h.resolved.traffic

theorem Traffic.refl (s : State) : Traffic s s := (Resolved.refl s).traffic

theorem Traffic.ite {s t u : State} {p : Prop} [Decidable p] (ht : Traffic s t) (hu : Traffic s u) :
    Traffic s (if p then t else u) := by split <;> assumption

theorem Traffic.foldl {α : Type} {f : State → α → State} (h : ∀ s a, Traffic s (f s a)) (l : List α) (s : State) :
    Traffic s (l.foldl f s) :=
  foldl_keeps Traffic Traffic.refl Traffic.trans f h l s

theorem traffic_of_parts (s : State) (mp : Vector MapEntry 128) (p : Vector Peer 16) (mu : List Nat) (n d : Nat) :
    Traffic s { s with map := mp, peers := p, musterPending := mu, streak := n, draws := d } := by
  constructor <;> intros <;> rfl

theorem traffic_setPeer (s : State) (k : Nat) (p : Peer) : Traffic s (s.setPeer k p) := traffic_of_parts s _ _ _ _ _

theorem traffic_setMap (s : State) (c : Nat) (e : MapEntry) : Traffic s (s.setMap c e) := traffic_of_parts s _ _ _ _ _

theorem traffic_drawn (s : State) : Traffic s s.drawn := traffic_of_parts s _ _ _ _ _

theorem traffic_request (s : State) (r : Report) : Traffic s (s.request r) := (resolved_request s r).traffic

theorem traffic_hear (s : State) (k : Nat) : Traffic s (s.hear k) := by
  unfold State.hear
  split
  · exact .refl s
  · dsimp only
    split
    · exact traffic_setPeer s k _
    · exact traffic_setPeer s k _
    · exact (traffic_setPeer s k _).trans (traffic_request _ _)

theorem traffic_reexamineIf (s : State) (c : Bool) : Traffic s (s.reexamineIf c) :=
  .ite (resolved_reexamine s).traffic (.refl s)

theorem traffic_reResolve (s : State) (q : List (Nat × Nat)) : Traffic s (s.reResolve q) := (resolved_reResolve s q).traffic

theorem traffic_becomeSilent (s : State) (k : Nat) : Traffic s (s.becomeSilent k) :=
  (((traffic_of_parts s _ _ _ _ _ : Traffic s { s.setPeer k { s.peer k with presence := .silent, owed := [] } with
    musterPending := s.musterPending.filter fun j => decide (j ≠ k) }).trans (traffic_request _ _)).trans
      (traffic_reResolve _ _))

theorem traffic_commitCarry (s : State) (rx : List Byte) (m : Nat) : Traffic s (s.commitCarry rx m) := by
  have heard : Traffic s ((s.hear (rxSender rx)).flagSet (rxSender rx)) :=
    (traffic_hear s _).trans (traffic_setPeer _ _ _)
  have completed : ∀ (t : State) (r : Record), Traffic t ((t.setRecord m r).complete m) := fun t r =>
    (filed_setRecord t m r).traffic.trans (filed_complete _ m).traffic
  exact ((heard.trans (completed _ _)).trans (traffic_reexamineIf _ _)).trans (resolved_handOff _ _ _).traffic

theorem traffic_writeEntries (es : List (Nat × MapEntry)) (acc : State × Bool) :
    Traffic acc.1 (es.foldl State.writeEntry acc).1 := by
  induction es generalizing acc with
  | nil => exact .refl _
  | cons e es ih => exact (traffic_setMap acc.1 e.1 e.2).trans (ih (State.writeEntry acc e))

theorem traffic_dropUnavailable (s : State) (b : Bool) : Traffic s (s.dropUnavailable b) := traffic_reResolve s _

theorem traffic_applyCondition (s : State) (rx : List Byte) : Traffic s (s.applyCondition rx) := by
  have written : ∀ (t : State) (b : Bool) (es : List (Nat × MapEntry)), Traffic t (es.foldl State.writeEntry (t, b)).1 :=
    fun t b es => traffic_writeEntries es (t, b)
  exact ((((traffic_hear s _).trans (traffic_setPeer _ _ _)).trans (written _ _ _)).trans
    (traffic_dropUnavailable _ _)).trans (traffic_reexamineIf _ _)

theorem traffic_editionReport (s : State) (rx : List Byte) : Traffic s (s.editionReport rx) := by
  unfold State.editionReport
  split
  · exact .refl s
  · exact .ite (traffic_request _ _) (.refl s)

theorem traffic_applyMuster (s : State) (rx : List Byte) : Traffic s (s.applyMuster rx) := by
  have unpended : ∀ (t : State) (k : Nat), Traffic t (if rxConfigured rx then t
      else { t with musterPending := t.musterPending.filter fun j => decide (j ≠ k) }) := fun t k =>
    .ite (.refl t) (traffic_of_parts t _ _ _ _ _)
  have written : ∀ (t : State) (b : Bool) (es : List (Nat × MapEntry)), Traffic t (es.foldl State.writeEntry (t, b)).1 :=
    fun t b es => traffic_writeEntries es (t, b)
  exact (((((traffic_hear s _).trans (traffic_setPeer _ _ _)).trans (written _ _ _)).trans
    ((unpended _ _).trans (traffic_editionReport _ _))).trans (traffic_dropUnavailable _ _)).trans
      (traffic_reexamineIf _ _)

theorem traffic_takenBy (s : State) (k : Nat) (f : Frame) : Traffic s (s.takenBy k f) := by
  have one : ∀ (m : Nat) (t : State) (x : Nat × Target),
      Traffic t (if x.2.owner = k ∧ t.carriesTo m x.1 k then t.finishSlot m x.1 else t) := fun m t x =>
    Traffic.ite (filed_finishSlot t m x.1).traffic (Traffic.refl t)
  unfold State.takenBy
  split
  · exact Traffic.foldl (one _) _ s
  · exact traffic_setPeer s k _
  · exact traffic_of_parts s s.map s.peers _ s.streak s.draws

theorem traffic_readReceipt (f : Frame) (stamp : Option Nat) (heard take : List Nat) (s : State) (k : Nat) :
    Traffic s (State.readReceipt f stamp heard take s k) := by
  unfold State.readReceipt
  dsimp only
  exact .ite ((traffic_setPeer s k _).trans (traffic_takenBy _ _ _)) (.ite (traffic_setPeer s k _)
    (.ite ((traffic_setPeer s k _).trans (traffic_becomeSilent _ _)) (traffic_setPeer s k _)))

theorem traffic_hearAll (s : State) (ks : List Nat) : Traffic s (s.hearAll ks) :=
  (Traffic.foldl traffic_hear ks s).trans (traffic_reexamineIf _ _)

/-- Reading the receipts of an own frame keeps what its end leaves. -/
theorem traffic_readReceipts (s : State) (f : Frame) (heard take : List Nat) :
    Traffic (s.ownFrameOver false ⟨true, false⟩ false) (s.readReceipts f heard take) :=
  ((((traffic_of_parts _ _ _ _ 0 _ : Traffic _ { s.ownFrameOver false ⟨true, false⟩ false with streak := 0 }).trans
    (.foldl (traffic_readReceipt _ _ _ _) _ _)).trans (traffic_hearAll _ _)).trans (traffic_drawn _))

theorem traffic_noteSender (s : State) (f : Flight) : Traffic s (s.noteSender f) :=
  .ite ((traffic_hear s _).trans (traffic_reexamineIf _ _)) (.refl s)

/-! ## The engine left resting, or in a frame -/

theorem engineAgrees_atRest {s : State} (h : s.atRest) : EngineAgrees s := by
  obtain ⟨hf, he⟩ := h
  unfold EngineAgrees
  rw [hf, he]
  cases s.offered <;> simp [Engine.inFrame]

theorem engineAgrees_stuck {s : State} (hf : s.flight = none) (he : s.engine = .stuck) : EngineAgrees s := by
  unfold EngineAgrees
  rw [hf, he]
  simp [Engine.inFrame]

theorem engineAgrees_inFrame {s : State} (hf : s.flight.isSome = true) (he : s.engine.inFrame = true) :
    EngineAgrees s := by
  refine ⟨hf.trans he.symm, fun h => ?_, fun h => ?_⟩ <;> rw [h] at he <;> exact nomatch he

theorem EngineAgrees.inFrame {s : State} {f : Flight} (h : EngineAgrees s) (hf : s.flight = some f) :
    s.engine.inFrame = true := by
  rw [← h.1, hf]
  rfl

theorem filed_freeReserved (s : State) (f : Flight) : Filed s (s.freeReserved f) := by
  unfold State.freeReserved
  split
  · exact .ite (.refl s) (filed_freeRecord s _)
  · exact .refl s

end Sys2Proof.Machine

/-! PROOF. The start-up loader (chapter 11): supply, restart pin, hold and load. -/

namespace Sys2Proof.Machine

/-! ## The offer at the end of an event -/

/-- The builder makes its offer from its choice, and the hold-off of a renewed offer is kept (R140, R141). -/
theorem build_offered {s : State} (hr : s.running = true) (hn : s.renews = true) :
    s.build.offered = s.build.choice.map fun f => ⟨f, s.offered.elim s.holdoffDue (·.afterVeto), s.stampOf f⟩ := by
  unfold State.build
  rw [if_pos ⟨hr, hn⟩]
  dsimp only
  split <;> rfl

theorem renews_congr {s t : State} (he : t.engine = s.engine)
    (hf : t.flight.map (·.own) = s.flight.map (·.own)) : t.renews = s.renews := by
  unfold State.renews
  rw [he]
  cases h : s.engine with
  | receipt =>
    have own : ∀ f : Option Flight, f.elim true (fun f => f.own.isNone) = (f.map (·.own)).elim true Option.isNone :=
      fun f => by cases f <;> rfl
    show t.flight.elim true (fun f => f.own.isNone) = s.flight.elim true fun f => f.own.isNone
    rw [own, own, hf]
  | _ => rfl

/-- The builder's choice does not look at the scratch and the OALM output. -/
theorem choice_setScratch (s : State) (v : Event) (a : Bool) : ({ s with ev := v, oalm := a } : State).choice = s.choice := rfl

theorem finish_choice (s : State) : s.finish.choice = s.settle.markCut.build.choice :=
  choice_setScratch s.settle.markCut.build _ _

/-- The offer that the end of an event leaves: the builder's choice there, with the hold-off it had (R141). -/
theorem finish_offered {s : State} (hr : s.running = true) (hn : s.renews = true) :
    s.finish.offered = s.finish.choice.map fun f =>
      ⟨f, s.offered.elim s.holdoffDue (·.afterVeto), s.settle.markCut.stampOf f⟩ := by
  have hs := sent_settle s
  obtain ⟨f, hcut⟩ := markCut_of_flight s.settle
  have hengine : s.settle.markCut.engine = s.engine := (markCut_engine _).trans hs.engine
  have hflight : s.settle.markCut.flight.map (·.own) = s.flight.map (·.own) := by
    rw [markCut_flight, hs.flight, Option.map_map]
    rfl
  have hoffered : s.settle.markCut.offered = s.offered := by rw [hcut]; exact hs.offered
  have hdue : s.settle.markCut.holdoffDue = s.holdoffDue := by rw [hcut]; exact hs.holdoffDue
  have hrun : s.settle.markCut.running = true := by
    rw [markCut_running, State.running, hs.phase]
    exact hr
  have h := build_offered hrun ((renews_congr hengine hflight).trans hn)
  rw [hoffered, hdue] at h
  rw [finish_choice]
  exact h

/-! ## Commands whose event comes about -/

theorem whenever_of {g : Bool} (h : g = true) (s t : State) : whenever g s t = .next t := by rw [h]; rfl

theorem whenever_not {g : Bool} (h : g = false) (s t : State) : whenever g s t = .next s := by rw [h]; rfl

/-! ## The obligations -/

/-- Settles O10. -/
theorem invariantsHoldAtReset : Obligations.InvariantsHoldAtReset := by
  refine ⟨?_, blocksConserved_fresh reset_store, ?_, ?_, ?_, ?_, rfl⟩
  · exact oalmFollows_of_not_running rfl rfl
  · intro l; rw [reset_ctxOf]; exact List.Pairwise.nil
  · intro l; rw [reset_ctxOf, reset_masOf]; exact ⟨Nat.zero_le _, Nat.zero_le _⟩
  · intro l; rw [reset_ctxOf]; exact ⟨fun _ => rfl, fun _ => rfl⟩
  · exact engineAgrees_atRest ⟨rfl, rfl⟩

/-- Settles O11: both commands lose every block's state, whatever the phase and the restart record become. -/
theorem supplyOnAndOff : Obligations.SupplyOnAndOff := by
  refine ⟨fun s => ⟨fun hp => ?_, fun hp => ?_⟩, fun s hp => ?_⟩
  · refine ⟨s.beginHold .powerOn, ?_, rfl, rfl, nothingHeld_blockLoss s _ _ _ _ _, rfl, rxd_blockLoss s⟩
    exact whenever_of (decide_eq_true hp) _ _
  · exact whenever_not (decide_eq_false hp) _ _
  · refine ⟨{ s.blockLoss with phase := .unpowered, restart := .afterPowerOn }, ?_, rfl,
      nothingHeld_blockLoss s _ _ _ _ _, rfl⟩
    exact whenever_of (decide_eq_true hp) _ _

theorem hardwareCause_begins {s : State} (hp : s.phase = .running ∨ s.phase = .loading) (k : RestartKind) :
    s.hardwareCause k = s.beginHold k := by
  unfold State.hardwareCause
  rcases hp with h | h <;> rw [h]

theorem hardwareCause_extends {s : State} (hp : s.phase = .hold .supplyDip ∨ s.phase = .hold .restartPin)
    (k : RestartKind) : s.hardwareCause k = { s with restart := s.restart.flagged k } := by
  unfold State.hardwareCause
  rcases hp with h | h <;> rw [h]

theorem hardwareCause_of_powerOn {s : State} (hp : s.phase = .hold .powerOn) (k : RestartKind) :
    s.hardwareCause k = s := by
  unfold State.hardwareCause
  rw [hp]

/-- Settles O12: a hardware cause begins a hold, or sets its flag in the present one, by the phase. -/
theorem dipAndPinBeginOrExtendAHold : Obligations.DipAndPinBeginOrExtendAHold := by
  have begins : ∀ (s : State) (k : RestartKind), s.phase = .running ∨ s.phase = .loading →
      ∃ t, Host.Outcome.next (s.hardwareCause k) = (.next t : Host.Outcome State Fault Refusal) ∧ t.phase = .hold k ∧
        t.restart = s.restart.begun k ∧ NothingHeld t ∧ t.pending = s.pending ∧
        ∀ l, l < 8 → (t.line l).rxd = (s.line l).rxd := fun s k hp =>
    ⟨s.beginHold k, by rw [hardwareCause_begins hp], rfl, rfl, nothingHeld_blockLoss s _ _ _ _ _, rfl, rxd_blockLoss s⟩
  refine ⟨fun s hp => ⟨begins s .supplyDip hp, begins s .restartPin hp⟩, fun s => ⟨fun hp => ?_, fun hp => ?_⟩⟩
  · exact ⟨congrArg _ (hardwareCause_extends hp .supplyDip), congrArg _ (hardwareCause_extends hp .restartPin)⟩
  · exact ⟨congrArg _ (hardwareCause_of_powerOn hp _), congrArg _ (hardwareCause_of_powerOn hp _)⟩

/-- Settles O13. -/
theorem restartHoldEndBeginsTheLoad : Obligations.RestartHoldEndBeginsTheLoad := by
  intro s k straps hp
  have hold : s.inHold = true := by rw [State.inHold, hp]
  refine ⟨s.beginLoad straps, ?_, rfl, rfl, rfl, rfl, rfl, nothingHeld_blockLoss s _ _ _ _ _, rfl⟩
  exact whenever_of hold _ _

/-! ## What the image and the station number fix -/

section
variable {s t : State} (hc : t.cfg = s.cfg) (hs : t.station = s.station)
include hc hs

theorem lineCfg_congr (l : Nat) : t.lineCfg l = s.lineCfg l := by unfold State.lineCfg; rw [hc, hs]

theorem kind_congr (l : Nat) : t.kind l = s.kind l := by unfold State.kind; rw [lineCfg_congr hc hs]

theorem watches_congr (l : Nat) : t.watches l = s.watches l := by
  unfold State.watches; rw [kind_congr hc hs, lineCfg_congr hc hs]

theorem hasCtx_congr (l : Nat) : t.hasCtx l = s.hasCtx l := by unfold State.hasCtx; rw [kind_congr hc hs]

end

/-! ## The end of a load, before its START report -/

/-- The station with the image read, all else lost (R193). -/
def State.imaged (s : State) (image : List Byte) : State :=
  { s.blockLoss with phase := .running, station := s.station, cfg := readImage s.station image }

/-- The station as the load leaves it when the START report is asked for (R193, step 4). -/
def State.loaded (s : State) (image : List Byte) (hc hd : Bool) : State :=
  (((s.imaged image).restartLines.restartMap).restartHighway hc hd).makeMusterPending

theorem endLoad_eq (s : State) (image : List Byte) (hc hd : Bool) :
    s.endLoad image hc hd = (s.loaded image hc hd).request .start := rfl

theorem exec_load {s : State} (hp : s.phase = .loading) (image : List Byte) (hc hd : Bool) :
    exec (.configurationLoadEnd image hc hd) s = .next ((s.loaded image hc hd).request .start).finish :=
  whenever_of (decide_eq_true hp) _ _

section
variable (s : State) (image : List Byte) (hc hd : Bool)

theorem loaded_line (l : Nat) (h : l < 8) : (s.loaded image hc hd).line l =
    Line.restarted (s.line l).rxd ((s.loaded image hc hd).kind l).receives ((s.loaded image hc hd).watches l) := by
  have e := line_restartLines (s.imaged image) l h
  rw [show (s.imaged image).line l = s.blockLoss.line l from rfl, rxd_blockLoss s l h] at e
  rw [kind_congr (s := s.imaged image) (t := s.loaded image hc hd) rfl rfl,
    watches_congr (s := s.imaged image) (t := s.loaded image hc hd) rfl rfl]
  have hlines : (s.loaded image hc hd).lines = (s.imaged image).restartLines.lines := rfl
  rw [State.line, hlines]
  exact e

theorem loaded_peer (k : Nat) (h : k < 16) : (s.loaded image hc hd).peer k =
    if k = s.station then
      Peer.self (if (readImage s.station image).isSome then .set else .clear) ((readImage s.station image).map (·.edition))
    else Peer.fresh :=
  peersFresh_at s.station k _ _ h

theorem loaded_mapOf (c : Nat) (h : c < 128) : (s.loaded image hc hd).mapOf c =
    if c / 8 = s.station then
      ⟨deriveCondition ((s.loaded image hc hd).kind (lineOf c)) .inn .marking, (s.loaded image hc hd).kind (lineOf c), none⟩
    else .unlearned := by
  have admin : entryAt (Vector.replicate 8 Admin.inn) .inn (lineOf c) = .inn :=
    entryAt_replicate _ _ _ (Nat.mod_lt _ (by decide))
  have div : (entryAt (mapUnconfigured 0) MapEntry.unlearned c).diversion = none := by
    rw [mapUnconfigured_at 0 c h]
    split <;> rfl
  have e := mapOf_restartMap (s.imaged image).restartLines c h
  rw [show (s.loaded image hc hd).mapOf c = (s.imaged image).restartLines.restartMap.mapOf c from rfl, e,
    kind_congr (t := s.loaded image hc hd) (s := (s.imaged image).restartLines) rfl rfl,
    show (s.imaged image).restartLines.adminOf (lineOf c) = .inn from admin,
    show ((s.imaged image).restartLines.mapOf c).diversion = none from div]
  by_cases ho : c / 8 = s.station
  · rw [if_pos ((isOwn_iff (s.imaged image).restartLines c).2 ⟨h, ho⟩), if_pos ho]
  · rw [if_neg fun k => ho ((isOwn_iff (s.imaged image).restartLines c).1 k).2, if_neg ho]

theorem loaded_ctxOf (l : Nat) : (s.loaded image hc hd).ctxOf l = Ctx.fresh := reset_ctxOf l

theorem loaded_masOf (l : Nat) : (s.loaded image hc hd).masOf l = Mas.fresh none := reset_masOf l

theorem loaded_adminOf (l : Nat) (h : l < 8) : (s.loaded image hc hd).adminOf l = .inn := entryAt_replicate _ _ _ h

end

/-! ## An invalid image -/

theorem kind_of_unconfigured {s : State} (h : s.cfg = none) (l : Nat) : s.kind l = .unfitted := by
  rw [State.kind, State.lineCfg, h]
  rfl

theorem hasCtx_of_unconfigured {s : State} (h : s.cfg = none) (l : Nat) : s.hasCtx l = false := by
  rw [State.hasCtx, kind_of_unconfigured h]
  rfl

theorem watches_of_unconfigured {s : State} (h : s.cfg = none) (l : Nat) : s.watches l = false := by
  rw [State.watches, kind_of_unconfigured h]
  rfl

theorem request_of_unconfigured {s : State} (h : s.cfg = none) (r : Report) : s.request r = s := by
  unfold State.request
  rw [h]

theorem ownCircuits_eq (s : State) : s.ownCircuits = (List.range 8).map fun l => 8 * s.station + l := rfl

theorem circuit_lt {s : State} (h : s.station < 16) {l : Nat} (hl : l < 8) : s.circuit l < 128 := by
  unfold State.circuit
  omega

theorem circuit_div (s : State) {l : Nat} (hl : l < 8) : s.circuit l / 8 = s.station := by
  unfold State.circuit
  omega

theorem lineOf_circuit (s : State) {l : Nat} (hl : l < 8) : lineOf (s.circuit l) = l := by
  unfold lineOf State.circuit
  omega

/-- Source 1 of the builder where every other station is pending and none is to be waited for (R153). -/
theorem musterChoice_all {s : State} {addr : List Nat} (hp : s.musterPending = addr)
    (hr : ∀ k ∈ addr, k < 16 ∧ s.ready k = true) (hsorted : (List.range 16).filter (fun k => decide (k ∈ addr)) = addr)
    (hne : addr ≠ []) : s.choice =
      some (.muster addr (s.cfg.elim 0 (·.edition)) s.cfg.isSome s.restart.last (s.ownCircuits.map s.tripleOf)) := by
  have haddr : (List.range 16).filter (fun k => decide (k ∈ s.musterPending) && s.ready k) = addr := by
    rw [hp]
    refine Eq.trans (List.filter_congr fun k _ => ?_) hsorted
    by_cases hk : k ∈ addr
    · rw [(hr k hk).2, Bool.and_true]
    · rw [decide_eq_false hk, Bool.false_and]
  have hm : s.musterChoice = some (.muster addr (s.cfg.elim 0 (·.edition)) s.cfg.isSome s.restart.last
      (s.ownCircuits.map s.tripleOf)) := by
    unfold State.musterChoice
    dsimp only
    rw [haddr, if_neg (by simpa using hne)]
  unfold State.choice
  rw [hm]

/-- A part of the sixteen stations, in station order, is what it filters out of them. -/
theorem range_filter_mem (p : Nat → Bool) (n : Nat) :
    (List.range n).filter (fun k => decide (k ∈ (List.range n).filter p)) = (List.range n).filter p := by
  refine List.filter_congr fun k hk => ?_
  by_cases h : p k = true
  · rw [h]; exact decide_eq_true (List.mem_filter.2 ⟨hk, h⟩)
  · rw [Bool.eq_false_of_not_eq_true h]
    exact decide_eq_false fun m => h (List.mem_filter.1 m).2

/-- Settles O14. -/
theorem loadOfAnInvalidImage : Obligations.LoadOfAnInvalidImage := by
  intro s image hc hd hp hst hok
  have hread : readImage s.station image = none := by rw [readImage, hok]; rfl
  let u := s.loaded image hc hd
  have hcfg : u.cfg = none := hread
  have hquiet : u.ev = Event.none := rfl
  have hrun : u.running = true := rfl
  have hexec : exec (.configurationLoadEnd image hc hd) s = .next u.finish := by
    rw [exec_load hp, request_of_unconfigured hcfg]
  have kept := kept_finish u
  obtain ⟨e, o, f, a, hfin⟩ := finish_of_quiet hquiet
  have hpending : u.musterPending = (List.range 16).filter fun k => decide (k ≠ s.station) := by
    show (if (readImage s.station image).isSome then _ else _) = _
    rw [hread]
    rfl
  have hpeer : ∀ k, k < 16 → u.finish.peer k = if k = s.station then Peer.self .clear none else Peer.fresh := by
    intro k hk
    rw [hfin]
    refine (loaded_peer s image hc hd k hk).trans ?_
    rw [hread]
    rfl
  have hne : (List.range 16).filter (fun k => decide (k ≠ s.station)) ≠ [] := by
    have : (if s.station = 0 then 1 else 0) ∈ (List.range 16).filter fun k => decide (k ≠ s.station) := by
      rw [List.mem_filter]
      split <;> simp <;> omega
    exact List.ne_nil_of_mem this
  have hmap : ∀ l, l < 8 → u.finish.mapOf (u.finish.circuit l) = .unfitted := by
    intro l hl
    rw [hfin]
    refine (loaded_mapOf s image hc hd (u.circuit l) (circuit_lt hst hl)).trans ?_
    rw [if_pos (show u.circuit l / 8 = s.station from circuit_div u hl), kind_of_unconfigured hcfg]
    rfl
  have hchoice : u.finish.choice = some (.muster ((List.range 16).filter fun k => decide (k ≠ s.station)) 0 false
      s.restart.last ((List.range 8).map fun l => ⟨8 * s.station + l, .unfitted, .unfitted, none⟩)) := by
    have h := musterChoice_all (s := u.finish) (kept.musterPending.trans hpending)
      (fun k hk => ?_) (range_filter_mem _ 16) hne
    · rw [h, kept.cfg, hcfg, ownCircuits_eq, List.map_map, kept.restart, kept.station]
      refine congrArg some (congrArg _ (List.map_congr_left fun l hl => ?_))
      have hcircuit : u.finish.circuit l = 8 * s.station + l := by rw [State.circuit, kept.station]; rfl
      show u.finish.tripleOf (8 * s.station + l) = _
      rw [← hcircuit, State.tripleOf, hmap l (List.mem_range.1 hl)]
      rfl
    · rw [List.mem_filter, List.mem_range] at hk
      refine ⟨hk.1, ?_⟩
      rw [State.ready, hpeer k hk.1]
      split <;> rfl
  have hoffered := finish_offered hrun (rfl : u.renews = true)
  rw [hchoice] at hoffered
  refine ⟨u.finish, hexec, kept.phase, kept.cfg.trans hcfg, kept.cfgCs, ?_, ?_, kept.station, kept.restart,
    finish_timers u, kept.pending, kept.minute, ?_, fun l hl => ⟨?_, hmap l hl, ?_, ?_, ?_, ?_⟩, hpeer, ?_, ?_⟩
  · rw [finish_oalm, State.oalmInput, State.running, kept.phase, kept.cfg.trans hcfg]
    rfl
  · rw [hfin]; rfl
  · rw [hfin]; rfl
  · exact kind_of_unconfigured (kept.cfg.trans hcfg) l
  · rw [hfin]; exact loaded_adminOf s image hc hd l hl
  · rw [hfin]
    refine (loaded_line s image hc hd l hl).trans ?_
    rw [kind_of_unconfigured hcfg, watches_of_unconfigured hcfg]
    rfl
  · rw [hfin]; exact loaded_masOf s image hc hd l
  · rw [hfin]; exact loaded_ctxOf s image hc hd l
  · rw [finish_engine_of_resting hrun (.inl rfl), hoffered]
    rfl
  · rw [hoffered]
    rfl

end Sys2Proof.Machine

/-! PROOF. The dispatch contexts (chapters 5 and 6): what a pick makes of a context, and what the end of an event can make
of the contexts, which is queue changes and picks on IDLE circuits. -/

namespace Sys2Proof.Machine

/-! ## Framings -/

theorem ctxOf_congr {s t : State} (h : t.ctx = s.ctx) (l : Nat) : t.ctxOf l = s.ctxOf l := by rw [State.ctxOf, h]; rfl

theorem offer_ctx (s : State) (l : Nat) (it : Item) : (s.offer l it).ctx = s.ctx := by
  unfold State.offer
  split
  · split <;> rfl
  · rfl

theorem offer_eq {s : State} {img : Image} {l : Nat} (hc : s.cfg = some img) (hl : s.hasCtx l = true) (it : Item) :
    s.offer l it = s.setLine l ((s.line l).offer img it) := by
  unfold State.offer
  rw [hc]
  exact if_pos hl

theorem beginFraming_ctx (s : State) (l : Nat) (x : Ctx) (d : SendState) (items : List Item) :
    (s.beginFraming l x d items).ctx =
      (s.setCtx l { x with send := d, framing := items, pos := 0, guarding := false }).ctx := by
  unfold State.beginFraming
  dsimp only
  split
  · exact offer_ctx _ l _
  · rfl

theorem beginFraming_ctxOf (s : State) (l : Nat) (x : Ctx) (d : SendState) (items : List Item) (hl : l < 8) :
    (s.beginFraming l x d items).ctxOf l = { x with send := d, framing := items, pos := 0, guarding := false } := by
  rw [ctxOf_congr (beginFraming_ctx s l x d items), ctxOf_setCtx_self s l _ hl]

theorem beginFraming_ctxOf_ne (s : State) (l : Nat) (x : Ctx) (d : SendState) (items : List Item) {k : Nat} (hk : k ≠ l) :
    (s.beginFraming l x d items).ctxOf k = s.ctxOf k := by
  rw [ctxOf_congr (beginFraming_ctx s l x d items), ctxOf_setCtx_ne s l k _ (Ne.symm hk)]

/-! ## What a pick makes of a context -/

/-- The context of a circuit on which `e` has been started, `rest` being left in the queue (R93, R94). -/
def Ctx.started (x : Ctx) (e : Entry) (rest : List Entry) (items : List Item) : Ctx :=
  { x with
    queue := rest, current := some { e with assigned := some x.next }, next := nextSerial x.next, cut := false
    origin := 0, lineStart := false, send := .header, framing := items, pos := 0, guarding := false }

/-- The context of a circuit on which the stack top `e` has been resumed (R111). -/
def Ctx.resumed (x : Ctx) (e : Entry) (rest : List Entry) (items : List Item) : Ctx :=
  { x with
    stack := rest, current := some { e with resume := none }, origin := e.resume.getD 0, lineStart := false
    send := .resuming, framing := items, pos := 0, guarding := false }

/-- What a pick may make of a context: IDLE, the queue head started, or the stack top resumed (R101). -/
inductive Picked (x : Ctx) : Ctx → Prop where
  | idle : Picked x x.toIdle
  | started (e : Entry) (rest : List Entry) (items : List Item) : x.queue = e :: rest → Picked x (x.started e rest items)
  | resumed (e : Entry) (rest : List Entry) (items : List Item) : x.stack = e :: rest → Picked x (x.resumed e rest items)

theorem startHead_ctxOf (s : State) (img : Image) (l : Nat) (e : Entry) (rest : List Entry) (hl : l < 8) :
    (s.startHead img l e rest).ctxOf l = (s.ctxOf l).started e rest
      (headerItems img s.serviceCode (s.ctxOf l).cut (s.record e.record) e (s.ctxOf l).next) :=
  beginFraming_ctxOf s l _ _ _ hl

theorem resumeTop_ctxOf (s : State) (img : Image) (l : Nat) (e : Entry) (rest : List Entry) (hl : l < 8) :
    (s.resumeTop img l e rest).ctxOf l = (s.ctxOf l).resumed e rest (resumeItems img (e.assigned.getD 0)) :=
  beginFraming_ctxOf s l _ _ _ hl

section
variable {s : State} {img : Image} {l : Nat} (hc : s.cfg = some img)
include hc

theorem pick_idle_of_empty (hs : (s.ctxOf l).stack = []) (hq : (s.ctxOf l).queue = []) :
    s.pick l = s.setCtx l (s.ctxOf l).toIdle := by
  unfold State.pick
  simp only [hc, hs, hq]

/-- The queue head starts where it is of a greater class than the stack top, or nothing is stacked (R101). -/
theorem pick_starts {e : Entry} {rest : List Entry} (hq : (s.ctxOf l).queue = e :: rest)
    (hs : (s.ctxOf l).stack = [] ∨ ∃ top below, (s.ctxOf l).stack = top :: below ∧ top.cls.num < e.cls.num)
    (hi : s.ownCondition l = .inService) : s.pick l = s.startHead img l e rest := by
  unfold State.pick
  rcases hs with hs | ⟨top, below, hs, hlt⟩
  · simp only [hc, hs, hq, hi, if_true]
  · simp only [hc, hs, hq, hi, hlt, and_self, if_true]

theorem pick_idle_of_condition (hs : (s.ctxOf l).stack = []) (hi : s.ownCondition l ≠ .inService) :
    s.pick l = s.setCtx l (s.ctxOf l).toIdle := by
  unfold State.pick
  cases hq : (s.ctxOf l).queue with
  | nil => simp only [hc, hs, hq]
  | cons e rest => simp only [hc, hs, hq, hi, if_false]

/-- The stack top is resumed on a circuit that still sends, unless the queue head goes before it (R101). -/
theorem pick_resumes {top : Entry} {below : List Entry} (hs : (s.ctxOf l).stack = top :: below)
    (hi : s.ownCondition l = .withdrawing ∨
      (s.ownCondition l = .inService ∧ ∀ e rest, (s.ctxOf l).queue = e :: rest → ¬ top.cls.num < e.cls.num)) :
    s.pick l = s.resumeTop img l top below := by
  have sends : s.ownCondition l = .inService ∨ s.ownCondition l = .withdrawing := by
    rcases hi with h | ⟨h, -⟩
    · exact .inr h
    · exact .inl h
  unfold State.pick
  cases hq : (s.ctxOf l).queue with
  | nil => simp only [hc, hs, hq, sends, if_true]
  | cons e rest =>
    have hn : ¬ (s.ownCondition l = .inService ∧ top.cls.num < e.cls.num) := by
      rintro ⟨h₁, h₂⟩
      rcases hi with h | ⟨-, h⟩
      · exact nomatch h₁.symm.trans h
      · exact h e rest hq h₂
    simp only [hc, hs, hq, hn, sends, if_true, if_false]

end

theorem pick_unconfigured {s : State} (hc : s.cfg = none) (l : Nat) : s.pick l = s := by
  unfold State.pick
  rw [hc]

theorem pick_ctxOf {s : State} {img : Image} {l : Nat} (hc : s.cfg = some img) (hl : l < 8) :
    Picked (s.ctxOf l) ((s.pick l).ctxOf l) := by
  have rests : Picked (s.ctxOf l) ((s.setCtx l (s.ctxOf l).toIdle).ctxOf l) := by
    rw [ctxOf_setCtx_self s l _ hl]
    exact .idle
  unfold State.pick
  split
  case h_1 hn => exact nomatch hn.symm.trans hc
  case h_2 img _ =>
    dsimp only
    split
    case h_1 => exact rests
    case h_2 e rest _ hq =>
      split
      · rw [startHead_ctxOf s img l e rest hl]; exact .started e rest _ hq
      · exact rests
    case h_3 top below hs _ =>
      split
      · rw [resumeTop_ctxOf s img l top below hl]; exact .resumed top below _ hs
      · exact rests
    case h_4 top below e rest hs hq =>
      split
      · rw [startHead_ctxOf s img l e rest hl]; exact .started e rest _ hq
      · split
        · rw [resumeTop_ctxOf s img l top below hl]; exact .resumed top below _ hs
        · exact rests

theorem pick_ctxOf_ne (s : State) {l k : Nat} (hk : k ≠ l) : (s.pick l).ctxOf k = s.ctxOf k := by
  have idle : (s.setCtx l (s.ctxOf l).toIdle).ctxOf k = s.ctxOf k := ctxOf_setCtx_ne s l k _ (Ne.symm hk)
  have starts : ∀ img e rest, (s.startHead img l e rest).ctxOf k = s.ctxOf k := fun _ _ _ =>
    beginFraming_ctxOf_ne s l _ _ _ hk
  have resumes : ∀ img e rest, (s.resumeTop img l e rest).ctxOf k = s.ctxOf k := fun _ _ _ =>
    beginFraming_ctxOf_ne s l _ _ _ hk
  unfold State.pick
  split
  case h_1 => rfl
  case h_2 =>
    dsimp only
    split
    case h_1 => exact idle
    case h_2 =>
      split
      · exact starts _ _ _
      · exact idle
    case h_3 =>
      split
      · exact resumes _ _ _
      · exact idle
    case h_4 =>
      split
      · exact starts _ _ _
      · split
        · exact resumes _ _ _
        · exact idle

/-- Settles O28: one case of the rule after the other. -/
theorem pickRule : Obligations.PickRule := by
  intro s l img hl hc
  have idle : ((s.setCtx l (s.ctxOf l).toIdle).ctxOf l) = (s.ctxOf l).toIdle := ctxOf_setCtx_self s l _ hl
  refine ⟨fun hs hq => ?_, fun e rest hq hs hi => ?_, fun hs hi => ?_, fun top below hs hi => ?_⟩
  · rw [pick_idle_of_empty hc hs hq, idle]
    rfl
  · rw [pick_starts hc hq hs hi, startHead_ctxOf s img l e rest hl]
    exact ⟨rfl, rfl, rfl, rfl, rfl⟩
  · rw [pick_idle_of_condition hc hs hi, idle]
    exact ⟨rfl, rfl⟩
  · rw [pick_resumes hc hs hi, resumeTop_ctxOf s img l top below hl]
    exact ⟨rfl, rfl, rfl, rfl, rfl⟩

/-! ## A property of every context, kept to the end of an event -/

/-- A property of contexts that a change of the queue keeps, and a pick on an IDLE circuit. -/
structure CtxProp (P : Ctx → Prop) : Prop where
  queue : ∀ (x : Ctx) (q : List Entry), P { x with queue := q } ↔ P x
  picked : ∀ {x y : Ctx}, x.send = .idle → P x → Picked x y → P y

section
variable {P : Ctx → Prop} (hP : CtxProp P)
include hP

theorem CtxProp.of_queue {s t : State} (h : ∀ l, { t.ctxOf l with queue := (s.ctxOf l).queue } = s.ctxOf l)
    (hs : ∀ l, P (s.ctxOf l)) (l : Nat) : P (t.ctxOf l) := by
  have k := hs l
  rw [← h l] at k
  exact (hP.queue _ _).1 k

theorem CtxProp.traffic {s t : State} (h : Traffic s t) : (∀ l, P (s.ctxOf l)) → ∀ l, P (t.ctxOf l) := hP.of_queue h.ctx

theorem CtxProp.resolved {s t : State} (h : Resolved s t) : (∀ l, P (s.ctxOf l)) → ∀ l, P (t.ctxOf l) := hP.of_queue h.ctx

theorem CtxProp.pick {s : State} {l : Nat} (hl : l < 8) (hidle : (s.ctxOf l).send = .idle) (h : ∀ k, P (s.ctxOf k))
    (k : Nat) : P ((s.pick l).ctxOf k) := by
  by_cases e : k = l
  · subst e
    cases hc : s.cfg with
    | none =>
      rw [pick_unconfigured hc]
      exact h k
    | some img => exact hP.picked hidle (h k) (pick_ctxOf hc hl)
  · rw [pick_ctxOf_ne s e]
    exact h k

theorem CtxProp.takePicks {s : State} (h : ∀ k, P (s.ctxOf k)) (k : Nat) : P (s.takePicks.ctxOf k) := by
  have all : ∀ (ls : List Nat), (∀ l ∈ ls, l < 8) → ∀ t : State, (∀ k, P (t.ctxOf k)) →
      ∀ k, P ((ls.foldl (fun t l => if l ∈ s.ev.picks then t.pickIfIdle l else t) t).ctxOf k) := by
    intro ls
    induction ls with
    | nil => exact fun _ t ht => ht
    | cons l ls ih =>
      intro hls t ht
      rw [List.foldl_cons]
      refine ih (fun j hj => hls j (List.mem_cons_of_mem l hj)) _ ?_
      split
      case isFalse => exact ht
      case isTrue =>
        unfold State.pickIfIdle
        split
        case isFalse => exact ht
        case isTrue hi => exact hP.pick (hls l List.mem_cons_self) hi.1 ht
  exact all _ (fun l hl => List.mem_range.1 hl) { s with ev := { s.ev with picks := [] } } h k

theorem CtxProp.evaluateGauges {s : State} (gs : List Gauge) (h : ∀ k, P (s.ctxOf k)) :
    ∀ k, P ((s.evaluateGauges gs).ctxOf k) := by
  obtain ⟨v, hv⟩ := evaluateGauges_eq s gs
  exact hP.resolved (s := { s with levels := v }) hv.resolved h

theorem CtxProp.settleReports (n : Nat) : ∀ {s : State}, (∀ k, P (s.ctxOf k)) →
    ∀ k, P ((State.settleReports n s).ctxOf k) := by
  induction n with
  | zero => exact fun h => h
  | succ n ih =>
    intro s h
    unfold State.settleReports
    split
    · exact h
    · exact ih (hP.takePicks (hP.evaluateGauges (s := { s with ev := { s.ev with own := [], rep := [] } }) _ h))

theorem CtxProp.settle {s : State} (h : ∀ k, P (s.ctxOf k)) : ∀ k, P (s.settle.ctxOf k) :=
  hP.settleReports 64 (hP.takePicks (hP.evaluateGauges (s := { s with ev := { s.ev with own := [] } }) _ h))

omit hP in
theorem finish_ctx (s : State) : s.finish.ctx = s.settle.ctx := by
  obtain ⟨f, hcut⟩ := markCut_of_flight s.settle
  have hbuild : ∀ t : State, t.build.ctx = t.ctx := fun t => by
    unfold State.build
    split
    · dsimp only; split <;> rfl
    · rfl
  exact (hbuild _).trans (by rw [hcut])

theorem CtxProp.finish {s : State} (h : ∀ k, P (s.ctxOf k)) (k : Nat) : P (s.finish.ctxOf k) := by
  rw [ctxOf_congr (finish_ctx s)]
  exact hP.settle h k

end

/-! ## A valid image -/

/-- The dispatch of a station that has just come into service: nothing is stacked, and a circuit has begun its first report
or none (R94, R104). -/
def Ctx.FirstStart (x : Ctx) : Prop :=
  x.stack = [] ∧ ((x.current = none ∧ x.next = 1) ∨
    (x.send ≠ .idle ∧ x.next = 2 ∧ ∃ e, x.current = some e ∧ e.assigned = some 1))

theorem firstStart_prop : CtxProp Ctx.FirstStart where
  queue _ _ := Iff.rfl
  picked := by
    intro x y hidle ⟨hstack, hcur⟩ hp
    have fresh : x.current = none ∧ x.next = 1 := hcur.resolve_right fun h => h.1 hidle
    obtain ⟨hnone, hnext⟩ := fresh
    cases hp with
    | idle => exact ⟨hstack, .inl ⟨hnone, hnext⟩⟩
    | started e rest items _ =>
      refine ⟨hstack, .inr ⟨(fun h => nomatch h), ?_, _, rfl, ?_⟩⟩
      · show nextSerial x.next = 2
        rw [hnext]; rfl
      · show some x.next = some 1
        rw [hnext]
    | resumed e rest items hs => exact nomatch hstack.symm.trans hs

theorem deriveCondition_in (k : CircuitKind) :
    deriveCondition k .inn .marking = if k = .unfitted then .unfitted else .inService := by
  cases k <;> rfl

/-- Settles O15. -/
theorem loadOfAValidImage : Obligations.LoadOfAValidImage := by
  intro s image hc hd hp hst hok
  have hread : readImage s.station image = some (Image.parse image) := by rw [readImage, hok]; rfl
  let u := s.loaded image hc hd
  have hcfg : u.cfg = some (Image.parse image) := hread
  have started := placed_request u .start
  have kept : Kept u (u.request .start).finish := started.sent.toKept.trans (kept_finish _)
  have hcfg' : (u.request .start).finish.cfg = some (Image.parse image) := kept.cfg.trans hcfg
  have hkind : ∀ l, (u.request .start).finish.kind l = u.kind l := kind_congr kept.cfg kept.station
  have hwatch : ∀ l, (u.request .start).finish.watches l = u.watches l := watches_congr kept.cfg kept.station
  have hmapOf : ∀ c, (u.request .start).finish.mapOf c = u.mapOf c := fun c => by
    rw [State.mapOf, kept.map]; rfl
  have hpeer : ∀ k, k < 16 → (u.request .start).finish.peer k =
      if k = s.station then Peer.self .set (some (Image.parse image).edition) else Peer.fresh := by
    intro k hk
    rw [State.peer, kept.peers]
    refine (loaded_peer s image hc hd k hk).trans ?_
    rw [hread]
    rfl
  have hpending : u.musterPending = u.fittedPeers := by
    show (if (readImage s.station image).isSome then _ else _) = _
    rw [hread]
    rfl
  have hfitted : (u.request .start).finish.fittedPeers = u.fittedPeers := by
    unfold State.fittedPeers State.fitted
    rw [kept.cfg, kept.station]
  have hctx : ∀ l, ((u.request .start).finish.ctxOf l).FirstStart := by
    refine firstStart_prop.finish (firstStart_prop.resolved started.resolved fun l => ?_)
    rw [loaded_ctxOf]
    exact ⟨rfl, .inl ⟨rfl, rfl⟩⟩
  refine ⟨(u.request .start).finish, exec_load hp image hc hd, kept.phase, hcfg', kept.cfgCs, kept.station, kept.restart,
    kept.pending, kept.minute, kept.streak, ?_, fun l hl => ?_, fun l hl => ⟨?_, ?_, ?_, ?_⟩, fun c hlt hne => ?_, hpeer,
    ?_, fun hne => ?_⟩
  · rw [finish_timers, started.sent.timers]
    rfl
  · obtain ⟨hstack, hcur⟩ := hctx l
    refine ⟨hstack, fun hn => ?_, fun e he => ?_⟩
    · rcases hcur with ⟨-, h⟩ | ⟨-, -, e, he, -⟩
      · exact h
      · exact nomatch hn.symm.trans he
    · rcases hcur with ⟨h, -⟩ | ⟨-, hnext, e', he', ha⟩
      · exact nomatch h.symm.trans he
      · obtain rfl := Option.some.inj (he'.symm.trans he)
        exact ⟨ha, hnext⟩
  · rw [State.adminOf, kept.admin]
    exact loaded_adminOf s image hc hd l hl
  · rw [State.masOf, kept.mas]
    exact loaded_masOf s image hc hd l
  · have hcircuit : (u.request .start).finish.circuit l = u.circuit l := by rw [State.circuit, kept.station]; rfl
    rw [hcircuit, hmapOf, hkind, ← deriveCondition_in]
    refine (loaded_mapOf s image hc hd (u.circuit l) (circuit_lt hst hl)).trans ?_
    rw [if_pos (show u.circuit l / 8 = s.station from circuit_div u hl), lineOf_circuit u hl]
  · rw [kept.receive l, hkind, hwatch]
    rw [show u.line l = _ from loaded_line s image hc hd l hl]
    rfl
  · rw [hmapOf]
    refine (loaded_mapOf s image hc hd c hlt).trans ?_
    rw [if_neg hne]
    rfl
  · rw [kept.musterPending, hpending, hfitted]
  · have hrun : (u.request .start).running = true := by rw [State.running, started.sent.phase]; rfl
    have hrest : (u.request .start).engine = .idle := started.sent.engine
    have hoffered := finish_offered hrun (by rw [State.renews, hrest])
    have hchoice := musterChoice_all (s := (u.request .start).finish) (kept.musterPending.trans (hpending.trans hfitted.symm))
      (fun k hk => ?_) (range_filter_mem _ 16) hne
    · rw [hchoice] at hoffered
      refine ⟨?_, ?_⟩
      · rw [finish_engine_of_resting hrun (.inl hrest), hoffered]
        rfl
      · rw [hoffered, hcfg', kept.restart]
        rfl
    · have hlt : k < 16 := List.mem_range.1 (List.mem_filter.1 hk).1
      refine ⟨hlt, ?_⟩
      rw [State.ready, hpeer k hlt]
      split <;> rfl

end Sys2Proof.Machine

/-! PROOF. The receive side of a line, its sender, and the condition of an own circuit (chapters 1, 2 and 9). -/

namespace Sys2Proof.Machine

/-! ## Level changes and samples (R4, R16, R17) -/

theorem Line.watchEdge_eq (x : Line) (m : Bool) :
    x.watchEdge m = { x with
      openTimer := if x.wire = .marking then !m else x.openTimer
      restoreTimer := if x.wire = .opened then m else x.restoreTimer } := by
  unfold Line.watchEdge
  cases h : x.wire <;> rfl

theorem Line.receiverEdge_eq (x : Line) (m : Bool) :
    x.receiverEdge m = { x with
      rx := if x.rx = .ready ∧ m = false then .start else if x.rx = .spacingHold ∧ m = true then .ready else x.rx } := by
  obtain ⟨rxd, rx, rxCase, tx, txCase, item, held, keyed, wire, openTimer, restoreTimer⟩ := x
  cases rx <;> cases m <;> rfl

theorem Line.edge_eq (x : Line) (receives watches m : Bool) :
    x.edge receives watches m = { x with
      rxd := m
      rx := if receives = true ∧ x.rx = .ready ∧ m = false then .start
        else if receives = true ∧ x.rx = .spacingHold ∧ m = true then .ready else x.rx
      openTimer := if watches = true ∧ x.wire = .marking then !m else x.openTimer
      restoreTimer := if watches = true ∧ x.wire = .opened then m else x.restoreTimer } := by
  unfold Line.edge
  cases receives <;> cases watches <;> simp [Line.watchEdge_eq, Line.receiverEdge_eq]

/-- Settles O16. -/
theorem rxdLevelChangeMovesReceiverAndTimers : Obligations.RxdLevelChangeMovesReceiverAndTimers := by
  refine ⟨fun s l m hl hr => ⟨fun hm => ?_, fun hm => ?_⟩, fun s l m hl hr => ?_⟩
  · show onLine l (.next (s.rxdLevel l m)) = _
    rw [onLine_ok hl, State.rxdLevel]
    dsimp only
    rw [if_neg hm, if_pos hr, Line.edge_eq]
  · show onLine l (.next (s.rxdLevel l m)) = _
    rw [onLine_ok hl, State.rxdLevel]
    rw [if_pos hm]
  · show onLine l (.next (s.rxdLevel l m)) = _
    rw [onLine_ok hl, State.rxdLevel, hr]
    split
    next hm => rw [← hm]; exact congrArg _ (setLine_line s l).symm
    next => rfl

/-- Settles O17. -/
theorem startSampleAcceptsOrDrops : Obligations.StartSampleAcceptsOrDrops := by
  intro s l hl hr hx
  show onLine l (whenever _ s _) = _
  rw [onLine_ok hl, whenever_of (by simp [hr, hx])]

/-! ## The sender (R11 to R14) -/

theorem Line.offer_of_free {x : Line} (h : x.tx = .free) (img : Image) (it : Item) : x.offer img it = x.begin img it := by
  unfold Line.offer
  rw [h]

/-- An item begins with its inserted shift, or with its own code. -/
theorem Line.begin_keyed (img : Image) (x : Line) (it : Item) :
    (x.begin img it).keyed = some ((insertedShift img x.txCase it).getD (lastCode img it)) ∧
      (x.begin img it).tx = (if (insertedShift img x.txCase it).isSome then .shifting else .keying) ∧
      (x.begin img it).txCase = caseAfter img x.txCase ((insertedShift img x.txCase it).getD (lastCode img it)) := by
  unfold Line.begin
  cases insertedShift img x.txCase it <;> exact ⟨rfl, rfl, rfl⟩

theorem Line.begin_item (img : Image) (x : Line) (it : Item) :
    (x.begin img it).item = some it ∧ (x.begin img it).held = x.held := by
  unfold Line.begin
  cases insertedShift img x.txCase it <;> exact ⟨rfl, rfl⟩

theorem caseAfter_eq (img : Image) (k : Case) (c : Code) :
    caseAfter img k c = if meaningOf img k c = some .ltrs then .letters
      else if meaningOf img k c = some .figs then .figures else k := by
  unfold caseAfter
  split
  next h => rw [if_pos h]
  next h => rw [h]; rfl
  next h₁ h₂ => rw [if_neg h₁, if_neg h₂]

/-- Settles O24. -/
theorem senderKeysByCase : Obligations.SenderKeysByCase := by
  refine ⟨fun img x code hf => ?_, fun img x it hf => ?_, fun img x it h => ?_, fun img x it hd hh => ?_⟩
  · simp only [Line.offer_of_free hf, (Line.begin_keyed img x _).1, (Line.begin_keyed img x _).2.1]
    refine ⟨rfl, rfl, rfl, rfl, fun hc => ?_, fun hc => ?_⟩
    · rw [hc]
      exact ⟨rfl, rfl, rfl, rfl, rfl, rfl⟩
    · rw [hc]
      exact ⟨rfl, rfl, rfl, rfl, rfl, rfl⟩
  · rw [Line.offer_of_free hf]
    obtain ⟨hkeyed, -, hcase⟩ := Line.begin_keyed img x it
    obtain ⟨hitem, hheld⟩ := Line.begin_item img x it
    exact ⟨hitem, hheld, Line.begin_receiveSide img x it, _, hkeyed, hcase.trans (caseAfter_eq img _ _)⟩
  · unfold Line.offer
    rcases h with h | h <;> rw [h]
  · unfold Line.offer
    rw [hd]

theorem lastCode_symbol (img : Image) (σ : Symbol) :
    lastCode img (.symbol σ) = if σ.tag = .error then img.errorCode else σ.code := by
  obtain ⟨tag, code⟩ := σ
  cases tag <;> rfl

/-- Settles O25. -/
theorem shiftEndAndDrainingEnd : Obligations.ShiftEndAndDrainingEnd := by
  refine ⟨fun s l img σ hl hr hc htx hit => ?_, fun s l img hl hr hc htx => ?_⟩
  · show onLine l (whenever (s.sending l .shifting) s (s.cfg.elim s fun img => s.setLine l ((s.line l).afterShift img))) = _
    rw [onLine_ok hl, whenever_of (by simp [State.sending, hr, htx]), hc, Option.elim_some, Line.afterShift, hit]
    dsimp only
    rw [lastCode_symbol, Line.key]
  · have drains : exec (.drainingEnd l) s = .next (s.setLine l ((s.line l).afterDraining img)) := by
      show onLine l (whenever (s.sending l .draining) s
        (s.cfg.elim s fun img => s.setLine l ((s.line l).afterDraining img))) = _
      rw [onLine_ok hl, whenever_of (by simp [State.sending, hr, htx]), hc, Option.elim_some]
    rw [drains]
    refine ⟨fun hh => ?_, fun it hh => ?_⟩
    · rw [Line.afterDraining, hh]
      rfl
    · rw [Line.afterDraining, hh]
      rfl

/-! ## The arrival of a character (R4, R8, R9) -/

theorem Line.arrive_line (img : Image) (x : Line) (code : Code) :
    (x.arrive img code).1 = { x with
      rx := if x.rxd then .ready else .spacingHold
      rxCase :=
        if x.rxd = true ∧ meaningOf img x.rxCase code = some .ltrs then .letters
        else if x.rxd = true ∧ meaningOf img x.rxCase code = some .figs then .figures
        else x.rxCase } := by
  unfold Line.arrive
  cases hx : x.rxd with
  | false => simp
  | true =>
    dsimp only
    rw [if_pos rfl]
    split <;> simp_all

/-- The line interface after an arrival, as far as its receive side goes. -/
theorem Line.arrive_receiveSide (img : Image) (x : Line) (code : Code) :
    (x.arrive img code).1.receiveSide = { x.receiveSide with
      rx := (x.arrive img code).1.rx, rxCase := (x.arrive img code).1.rxCase } := by
  rw [Line.arrive_line]
  rfl

/-- A shift or a blank with good framing gives no symbol (R8). -/
theorem Line.arrive_none {img : Image} {x : Line} {code : Code} (hx : x.rxd = true)
    (h : meaningOf img x.rxCase code = some .ltrs ∨ meaningOf img x.rxCase code = some .figs ∨
      meaningOf img x.rxCase code = some .blank) : (x.arrive img code).2 = none := by
  unfold Line.arrive
  rw [if_pos hx]
  rcases h with h | h | h <;> rw [h]

theorem Line.arrive_error {img : Image} {x : Line} {code : Code} (hx : x.rxd = false) :
    (x.arrive img code).2 = some ⟨.error, code⟩ := by
  unfold Line.arrive
  rw [hx]
  rfl

theorem Line.arrive_cased {img : Image} {x : Line} {code : Code} {w : Meaning} (hx : x.rxd = true)
    (hm : meaningOf img x.rxCase code = some w)
    (hw : (∃ i, w = .letter i) ∨ (∃ d, w = .figure d) ∨ (∃ k, w = .sign k)) :
    (x.arrive img code).2 = some ⟨x.rxCase.tag, code⟩ := by
  unfold Line.arrive
  rw [if_pos hx, hm]
  rcases hw with ⟨i, rfl⟩ | ⟨d, rfl⟩ | ⟨k, rfl⟩ <;> rfl

theorem Line.arrive_neutral {img : Image} {x : Line} {code : Code} {w : Meaning} (hx : x.rxd = true)
    (hm : meaningOf img x.rxCase code = some w) (hw : w = .cr ∨ w = .lf ∨ w = .space) :
    (x.arrive img code).2 = some ⟨.neutral, code⟩ := by
  unfold Line.arrive
  rw [if_pos hx, hm]
  rcases hw with rfl | rfl | rfl <;> rfl

theorem symMeaning_cased (img : Image) (k : Case) (code : Code) : symMeaning img ⟨k.tag, code⟩ = meaningOf img k code := by
  cases k <;> rfl

theorem symMeaning_neutral {img : Image} {code : Code} {w : Meaning} (h₁ : meaningOf img .letters code = some w)
    (h₂ : meaningOf img .figures code = some w) : symMeaning img ⟨.neutral, code⟩ = some w := by
  show (if meaningOf img .letters code = meaningOf img .figures code then meaningOf img .letters code else _) = _
  rw [if_pos (h₁.trans h₂.symm), h₁]

theorem meaningOf_both {img : Image} {code : Code} {w : Option Meaning} (h₁ : meaningOf img .letters code = w)
    (h₂ : meaningOf img .figures code = w) (k : Case) : meaningOf img k code = w := by
  cases k
  · exact h₁
  · exact h₂

theorem exec_arrival {s : State} {l : Nat} {img : Image} (hl : l < 8) (hr : s.reading l = true) (hc : s.cfg = some img)
    (code : Code) : exec (.characterArrival l code) s = .next (s.arrival img l code).finish := by
  show onLine l (whenever (s.reading l) s (s.cfg.elim s fun img => (s.arrival img l code).finish)) = _
  rw [onLine_ok hl, whenever_of hr, hc, Option.elim_some]

theorem arrival_none {s : State} {img : Image} {l : Nat} {code : Code} (h : ((s.line l).arrive img code).2 = none) :
    s.arrival img l code = s.setLine l ((s.line l).arrive img code).1 := by
  rw [arrival_eq, h]
  rfl

theorem arrival_some {s : State} {img : Image} {l : Nat} {code : Code} {σ : Symbol}
    (h : ((s.line l).arrive img code).2 = some σ) :
    s.arrival img l code = (s.setLine l ((s.line l).arrive img code).1).deliver img l σ := by
  rw [arrival_eq, h]
  rfl

/-- A WITHDRAWN circuit delivers no symbol (R10). -/
theorem arrival_withdrawn {s : State} {img : Image} {l : Nat} {code : Code} (h : s.adminOf l = .withdrawn) :
    s.arrival img l code = s.setLine l ((s.line l).arrive img code).1 := by
  cases ha : ((s.line l).arrive img code).2 with
  | none => exact arrival_none ha
  | some σ =>
    rw [arrival_some ha, State.deliver, if_pos]
    rw [setLine_adminOf, h]

/-- The arrival leaves all but line `l` to the assembler. -/
theorem lined_arrival (s : State) (img : Image) (l : Nat) (code : Code) :
    Lined l (s.setLine l ((s.line l).arrive img code).1) (s.arrival img l code) := by
  cases ha : ((s.line l).arrive img code).2 with
  | none => rw [arrival_none ha]; exact .refl l _
  | some σ => rw [arrival_some ha]; exact lined_deliver _ img l σ

/-- Settles O18. -/
theorem characterArrivalMovesTheReceiver : Obligations.CharacterArrivalMovesTheReceiver := by
  intro s l code img hl hr hc
  have lined := lined_arrival s img l code
  have kept := kept_finish (s.arrival img l code)
  refine ⟨_, exec_arrival hl hr hc code, ?_, fun k hk => ⟨?_, ?_⟩, kept.phase.trans lined.phase, kept.cfg.trans lined.cfg,
    kept.station.trans lined.station, kept.restart.trans lined.restart, kept.minute.trans lined.minute,
    kept.streak.trans lined.streak, kept.musterPending.trans lined.musterPending⟩
  · rw [kept.receive, lined.receive, line_setLine_self s l _ hl, Line.arrive_receiveSide, Line.arrive_line]
  · rw [kept.receive, lined.receive, line_setLine_ne s l k _ (Ne.symm hk)]
  · rw [State.masOf, kept.mas]
    exact (lined.mas k hk).trans (setLine_masOf s l _ k)

/-- Settles O19. -/
theorem noSymbolChangesNothingElse : Obligations.NoSymbolChangesNothingElse := by
  intro s l code img hl hr hc hev h
  let t := s.setLine l ((s.line l).arrive img code).1
  have arrived : s.arrival img l code = t := by
    rcases h with h | ⟨hx, h⟩
    · exact arrival_withdrawn h
    · exact arrival_none (Line.arrive_none hx h)
  obtain ⟨e, o, f, a, hfin⟩ := finish_of_quiet (s := t) hev
  have hline : t.finish.line l = ((s.line l).arrive img code).1 := by
    rw [hfin]
    exact line_setLine_self s l _ hl
  refine ⟨t.finish, by rw [exec_arrival hl hr hc, arrived], ?_, fun h₁ h₂ => finish_engine_of_busy h₁ h₂,
    fun h₁ h₂ => finish_flight h₁ h₂, fun hn => ?_, fun f hf => ?_⟩
  · rw [hline]
    have side : { s.line l with rx := ((s.line l).arrive img code).1.rx, rxCase := ((s.line l).arrive img code).1.rxCase } =
        ((s.line l).arrive img code).1 := by rw [Line.arrive_line]
    rw [side, hfin]
  · rw [finish_flight_eq, show t.flight = none from hn]
    rfl
  · rw [finish_flight_eq, show t.flight = some f from hf]
    exact ⟨_, rfl⟩

end Sys2Proof.Machine

/-! PROOF. The assembler's answer to one symbol (R26, R33), and the restore expiry (R17, R170). -/

namespace Sys2Proof.Machine

/-! ## Symbols taken -/

/-- The withdrawal test does nothing on a circuit that is not WITHDRAWING, or whose assembler is in a message (R165). -/
theorem withdrawalTest_not {s : State} {l : Nat} (q : Bool) (c : Option FailureCounts) (h : s.withdrawalPasses l = false) :
    s.withdrawalTest l q c = s := by
  unfold State.withdrawalTest
  rw [h]
  rfl

theorem withdrawalPasses_of_admin {s : State} {l : Nat} (h : s.adminOf l ≠ .withdrawing) : s.withdrawalPasses l = false := by
  simp [State.withdrawalPasses, h]

theorem withdrawalPasses_of_text {s : State} {l : Nat} (h : (s.masOf l).mode = .text) : s.withdrawalPasses l = false := by
  simp [State.withdrawalPasses, h]

theorem deliver_eq {s : State} {l : Nat} (h : s.adminOf l ≠ .withdrawn) (img : Image) (σ : Symbol) :
    s.deliver img l σ = s.takeSymbol img l σ := if_neg h

theorem takeSymbol_hunt {s : State} {l : Nat} (h : (s.masOf l).mode = .hunt) (img : Image) (σ : Symbol) :
    s.takeSymbol img l σ = (s.huntSymbol img l σ).withdrawalTest l false none := by
  unfold State.takeSymbol
  rw [h]

theorem takeSymbol_text {s : State} {l : Nat} (h : (s.masOf l).mode = .text) (img : Image) (σ : Symbol) :
    s.takeSymbol img l σ = (s.textSymbol img l σ).withdrawalTest l false none := by
  unfold State.takeSymbol
  rw [h]

/-- The fourth H in HUNT (R26). -/
theorem huntSymbol_start {s : State} {l : Nat} {img : Image} {σ : Symbol} (ha : s.adminOf l ≠ .withdrawing)
    (hm : means img (.letter 8) σ = true) (h₃ : (s.masOf l).startSeq.length = 3) :
    s.huntSymbol img l σ = s.setMas l { (s.masOf l).toHunt with
      mode := .header, lineStart := false, header := (s.masOf l).startSeq ++ [σ] } := by
  unfold State.huntSymbol State.newHeader
  simp only [if_neg ha, hm, h₃, decide_true, Bool.and_self, if_true]

/-- Settles O20. -/
theorem startSequenceBeginsAHeader : Obligations.StartSequenceBeginsAHeader := by
  intro s l code img hl hr hc hev ha hx hm hmode h₃
  let u := s.setLine l ((s.line l).arrive img code).1
  let σ : Symbol := ⟨(s.line l).rxCase.tag, code⟩
  have inn : s.adminOf l ≠ .withdrawing := by rw [ha]; exact nofun
  have fourth : means img (.letter 8) σ = true := decide_eq_true ((symMeaning_cased img _ code).trans hm)
  have taken : s.arrival img l code = u.setMas l { (s.masOf l).toHunt with
      mode := .header, lineStart := false, header := (s.masOf l).startSeq ++ [σ] } := by
    rw [arrival_some (Line.arrive_cased hx hm (.inl ⟨8, rfl⟩)), deliver_eq (s := u) (by rw [setLine_adminOf, ha]; exact nofun),
      takeSymbol_hunt (s := u) hmode, huntSymbol_start (s := u) inn fourth h₃]
    exact withdrawalTest_not false none (withdrawalPasses_of_admin inn)
  obtain ⟨e, o, f, a, hfin⟩ := finish_of_quiet (s := s.arrival img l code) (by rw [taken]; exact hev)
  refine ⟨_, exec_arrival hl hr hc code, ?_, ?_, ?_⟩
  · rw [hfin, taken]
    exact masOf_setMas_self u l _ hl
  · rw [hfin, taken]
    rfl
  · rw [hfin, taken]
    rfl

/-! ## A symbol of text (R33) -/

/-- The symbol that a character of text gives, and whether it opens a line. -/
theorem arrive_ofText {img : Image} {x : Line} {code : Code} {σ : Symbol}
    (h : (x.rxd = true ∧
        (∃ w, meaningOf img x.rxCase code = some w ∧
          ((∃ i, w = .letter i) ∨ (∃ d, w = .figure d) ∨ (∃ k, w = .sign k))) ∧
        σ = ⟨x.rxCase.tag, code⟩) ∨
      (x.rxd = true ∧
        (∃ w, meaningOf img .letters code = some w ∧ meaningOf img .figures code = some w ∧
          (w = .cr ∨ w = .lf ∨ w = .space)) ∧
        σ = ⟨.neutral, code⟩) ∨
      (x.rxd = false ∧ σ = ⟨.error, code⟩)) :
    (x.arrive img code).2 = some σ ∧ (σ.tag = .error ↔ x.rxd = false) ∧
      means img .lf σ = (x.rxd && decide (meaningOf img x.rxCase code = some .lf)) := by
  rcases h with ⟨hx, ⟨w, hm, hw⟩, rfl⟩ | ⟨hx, ⟨w, h₁, h₂, hw⟩, rfl⟩ | ⟨hx, rfl⟩
  · refine ⟨Line.arrive_cased hx hm hw, ?_, ?_⟩
    · rw [hx]
      cases x.rxCase <;> exact ⟨nofun, nofun⟩
    · rw [means, symMeaning_cased, hx, Bool.true_and]
  · have hm := meaningOf_both h₁ h₂ x.rxCase
    refine ⟨Line.arrive_neutral hx hm hw, ?_, ?_⟩
    · rw [hx]
      exact ⟨nofun, nofun⟩
    · rw [means, symMeaning_neutral h₁ h₂, hx, hm, Bool.true_and]
  · refine ⟨Line.arrive_error hx, iff_of_true rfl hx, ?_⟩
    rw [hx]
    rfl

theorem Record.write_of {r : Record} (hs : r.state = .filling) (ht : r.text.length < 4096) (σ : Symbol) :
    r.write σ = { r with
      text := r.text ++ [σ], errors := if σ.tag = .error then min 255 (r.errors + 1) else r.errors } :=
  if_pos ⟨hs, ht⟩

/-- A symbol is stored within a block already granted (R33). -/
theorem storeSymbol_within {s : State} {img : Image} {l m : Nat} {σ : Symbol} (hc : (s.masOf l).current = some m)
    (ht : (s.record m).text.length < 4096) (hb : (s.record m).text.length < 32 * (s.record m).chain.length) :
    s.storeSymbol img l σ =
      (if means img .lf σ then (s.write m σ).setMas l { s.masOf l with lineStart := true } else s.write m σ, none) := by
  unfold State.storeSymbol
  have hl : ¬ Config.textLimit ≤ (s.record m).text.length := Nat.not_le.2 ht
  have hk : (s.record m).text.length < Config.blockSize * (s.record m).chain.length := hb
  rw [hc]
  dsimp only
  rw [if_neg hl, if_pos hk]
  rfl

/-- With the resume line-feed mark clear, TEXT takes the symbol (R33, R116). -/
theorem textSymbol_unmarked {s : State} {l m : Nat} (hc : (s.masOf l).current = some m) (hlf : (s.masOf l).resumeLf = false)
    (img : Image) (σ : Symbol) : s.textSymbol img l σ = s.textTake img l m σ := by
  have same : s.setMas l { s.masOf l with resumeLf := false } = s := by
    have noMark : { s.masOf l with resumeLf := false } = s.masOf l := by rw [← hlf]
    rw [noMark, setMas_masOf]
  unfold State.textSymbol
  dsimp only
  split
  next h => exact nomatch h.symm.trans hc
  next n h =>
    obtain rfl := Option.some.inj (h.symm.trans hc)
    rw [same, hlf, Bool.false_and, if_neg Bool.false_ne_true]

/-- Away from a line start nothing is looked ahead for (R34). -/
theorem textTake_midLine {s : State} {l : Nat} (hls : (s.masOf l).lineStart = false) (hlook : (s.masOf l).look = [])
    (img : Image) (m : Nat) (σ : Symbol) : s.textTake img l m σ = (s.storeAll img l [σ]).1 := by
  have same : s.setMas l { s.masOf l with lineStart := false, look := [] } = s := by
    have noLook : { s.masOf l with lineStart := false, look := [] } = s.masOf l := by rw [← hls, ← hlook]
    rw [noLook, setMas_masOf]
  unfold State.textTake
  dsimp only
  rw [hls, if_neg Bool.false_ne_true, hlook, List.nil_append, State.depart, same]

/-- A symbol of text away from a line start is stored (R33, R34). -/
theorem textSymbol_stored {s : State} {img : Image} {l m : Nat} {σ : Symbol} (hc : (s.masOf l).current = some m)
    (hls : (s.masOf l).lineStart = false) (hlook : (s.masOf l).look = []) (hlf : (s.masOf l).resumeLf = false)
    (ht : (s.record m).text.length < 4096) (hb : (s.record m).text.length < 32 * (s.record m).chain.length) :
    s.textSymbol img l σ = (s.write m σ).setMas l { s.masOf l with lineStart := means img .lf σ } := by
  rw [textSymbol_unmarked hc hlf, textTake_midLine hls hlook, State.storeAll, storeSymbol_within hc ht hb]
  dsimp only [State.storeAll]
  cases hf : means img .lf σ with
  | true => rfl
  | false =>
    have same : { s.masOf l with lineStart := false } = s.masOf l := by rw [← hls]
    rw [if_neg Bool.false_ne_true, same]
    exact (setMas_masOf (s.write m σ) l).symm

/-- Settles O21. -/
theorem textSymbolIsStored : Obligations.TextSymbolIsStored := by
  intro s l m code img σ hl hm hr hc hev ha h hmode hcur hls hlook hlf hfill ht hb
  obtain ⟨harr, htag, hlfσ⟩ := arrive_ofText h
  let u := s.setLine l ((s.line l).arrive img code).1
  let x : Mas := { s.masOf l with lineStart := means img .lf σ }
  have taken : s.arrival img l code = (u.write m σ).setMas l x := by
    rw [arrival_some harr, deliver_eq (s := u) ha, takeSymbol_text (s := u) hmode,
      textSymbol_stored (s := u) hcur hls hlook hlf ht hb]
    refine withdrawalTest_not false none (withdrawalPasses_of_text ?_)
    rw [masOf_setMas_self _ l _ hl]
    exact hmode
  obtain ⟨e, o, f, a, hfin⟩ := finish_of_quiet (s := s.arrival img l code) (by rw [taken]; exact hev)
  refine ⟨_, exec_arrival hl hr hc code, ?_, fun j hj => ?_, ?_, fun k hk => ?_, ?_⟩ <;> rw [hfin, taken]
  · refine (record_setRecord_self u m _ hm).trans ?_
    rw [Record.write_of (r := u.record m) hfill ht]
    cases hx : (s.line l).rxd with
    | true => rw [if_neg fun he => by rw [htag, hx] at he; cases he]; rfl
    | false => rw [if_pos (htag.2 hx)]; rfl
  · exact record_setRecord_ne u m j _ (Ne.symm hj)
  · rw [← hlfσ]
    exact masOf_setMas_self (u.write m σ) l x hl
  · exact masOf_setMas_ne (u.write m σ) l k x (Ne.symm hk)
  · rfl

/-! ## The condition of an own circuit (R150, R159) -/

theorem circuit_own {s : State} (hst : s.station < 16) {l : Nat} (hl : l < 8) : s.isOwn (s.circuit l) = true := by
  rw [isOwn_iff]
  exact ⟨circuit_lt hst hl, circuit_div s hl⟩

/-- One peer takes a circuit into its owed set, if it is owed at all (R150). -/
theorem oweTo_owed (s : State) (c k : Nat) (hk : k < 16) (hf : s.fitted k = true) (hne : k ≠ s.station)
    (hp : (s.peer k).presence ≠ .silent) (hq : (s.peer k).flag ≠ .clear) : c ∈ ((s.oweTo c k).peer k).owed := by
  unfold State.oweTo
  dsimp only
  rw [if_pos ⟨hf, hne, hp, hq⟩, peer_setPeer_self s k _ hk]
  exact (mem_insertRising c c _).2 (.inl rfl)

theorem Resolved.presence {s t : State} (r : Resolved s t) (k : Nat) : (t.peer k).presence = (s.peer k).presence := by
  have same := congrArg Peer.presence (r.peer k)
  exact same

theorem Resolved.flag {s t : State} (r : Resolved s t) (k : Nat) : (t.peer k).flag = (s.peer k).flag := by
  have same := congrArg Peer.flag (r.peer k)
  exact same

/-- The circuit joins the peers' owed sets (R150). -/
theorem owe_owedToPeers (s : State) (c : Nat) : s.owedToPeers (s.owe c) c := by
  intro k hk hf hne hp hq
  have all : ∀ (ks : List Nat) (t : State), Resolved s t → (k ∈ ks ∨ c ∈ (t.peer k).owed) →
      c ∈ ((ks.foldl (fun t k => t.oweTo c k) t).peer k).owed := by
    intro ks
    induction ks with
    | nil => exact fun t _ h => h.resolve_left (List.not_mem_nil)
    | cons j ks ih =>
      intro t r h
      rw [List.foldl_cons]
      refine ih _ (r.trans (resolved_oweTo t c j)) ?_
      rcases h with h | h
      · rcases List.mem_cons.1 h with rfl | h
        · have fit : t.fitted k = true := by
            rw [State.fitted, r.cfg]
            exact hf
          exact .inr (oweTo_owed t c k hk fit (by rw [r.station]; exact hne) (by rw [r.presence]; exact hp)
            (by rw [r.flag]; exact hq))
        · exact .inl h
      · exact .inr ((resolved_oweTo t c j).owed k c h)
  exact all (List.range 16) s (.refl s) (.inl (List.mem_range.2 hk))

theorem traffic_owe (s : State) (c : Nat) : Traffic s (s.owe c) := (resolved_owe s c).traffic

theorem traffic_updateCondition (s : State) (l : Nat) : Traffic s (s.updateCondition l) :=
  .ite (.refl s) ((traffic_setMap s _ _).trans (traffic_owe _ _))

theorem updateCondition_condition {s : State} {l : Nat} (hst : s.station < 16) (hl : l < 8) :
    ((s.updateCondition l).mapOf (s.circuit l)).condition = deriveCondition (s.kind l) (s.adminOf l) (s.line l).wire := by
  unfold State.updateCondition
  dsimp only
  split
  next h => exact h
  next h =>
    rw [(resolved_owe _ _).condition, mapOf_setMap_self s _ _ (circuit_lt hst hl)]

/-- A changed condition puts the circuit into the peers' owed sets (R150). -/
theorem updateCondition_owed {s : State} {l : Nat}
    (h : ((s.updateCondition l).mapOf (s.circuit l)).condition ≠ (s.mapOf (s.circuit l)).condition) :
    s.owedToPeers (s.updateCondition l) (s.circuit l) := by
  unfold State.updateCondition at h ⊢
  dsimp only at h ⊢
  split at h
  next => exact absurd rfl h
  next hne =>
    rw [if_neg hne]
    exact owe_owedToPeers (s.setMap (s.circuit l) _) (s.circuit l)

theorem Resolved.owedToPeers {s t u : State} {c : Nat} (h : s.owedToPeers t c) (r : Resolved t u) : s.owedToPeers u c :=
  fun k hk hf hne hp hq => r.owed k c (h k hk hf hne hp hq)

theorem Kept.owedToPeers {s t u : State} {c : Nat} (h : s.owedToPeers t c) (k : Kept t u) : s.owedToPeers u c := by
  intro j hj hf hne hp hq
  rw [State.peer, k.peers]
  exact h j hj hf hne hp hq

theorem deriveCondition_of_fitted {k : CircuitKind} (hk : k ≠ .unfitted) (a : Admin) (w : Wire) :
    deriveCondition k a w =
      match a with
      | .withdrawn => .withdrawn
      | .withdrawing => .withdrawing
      | .inn => if w = .opened then .opened else .inService := by
  cases k with
  | unfitted => exact absurd rfl hk
  | _ => cases a <;> cases w <;> rfl

/-- A watched line is fitted (R15). -/
theorem kind_of_watches {s : State} {l : Nat} (h : s.watches l = true) : s.kind l ≠ .unfitted := by
  intro hk
  rw [State.watches, hk] at h
  cases h

/-- The restored line: its condition derived, then re-examination and report if it comes into service (R170). -/
theorem lineRestored_resolved (s : State) (l : Nat) : Resolved (s.updateCondition l) (s.lineRestored l) := by
  unfold State.lineRestored
  dsimp only
  split
  · exact (((filed_owePick _ l).resolved).trans (resolved_reexamine _)).trans (resolved_request _ _)
  · exact .refl _

/-- Settles O23. -/
theorem restoreExpiryRestoresTheLine : Obligations.RestoreExpiryRestoresTheLine := by
  intro s l hl hst hd
  have hwatch : s.watches l = true := by
    rw [State.restoreDue] at hd
    simp only [Bool.and_eq_true] at hd
    exact hd.1.1.2
  let u := s.setLine l (s.line l).goMarking
  have hline : u.line l = (s.line l).goMarking := line_setLine_self s l _ hl
  have lined := lined_lineRestored u l
  have updated := traffic_updateCondition u l
  have restored := lineRestored_resolved u l
  have kept := kept_finish (u.lineRestored l)
  have hmap : ∀ c, ((u.lineRestored l).finish.mapOf c) = (u.lineRestored l).mapOf c := fun c => by
    rw [State.mapOf, kept.map]
    rfl
  have cond : ((u.lineRestored l).finish.mapOf (s.circuit l)).condition = deriveCondition (s.kind l) (s.adminOf l) .marking := by
    rw [hmap, restored.condition]
    refine (updateCondition_condition (s := u) hst hl).trans ?_
    rw [hline]
    rfl
  refine ⟨(u.lineRestored l).finish, ?_, ?_, fun k hk => ?_, ?_, ?_, ?_, fun hne => ?_, fun c hc => ?_⟩
  · show onLine l (whenever (s.restoreDue l) s (u.lineRestored l).finish) = _
    rw [onLine_ok hl, whenever_of hd]
  · rw [kept.receive, lined.receive, hline]
    rfl
  · rw [kept.receive, lined.receive, line_setLine_ne s l k _ (Ne.symm hk)]
  · exact (kept.mas.trans restored.mas).trans updated.mas
  · exact (kept.admin.trans restored.admin).trans updated.admin
  · rw [cond, deriveCondition_of_fitted (kind_of_watches hwatch)]
    cases s.adminOf l <;> rfl
  · refine Kept.owedToPeers (Resolved.owedToPeers (updateCondition_owed (s := u) ?_) restored) kept
    rw [hmap, restored.condition] at hne
    exact hne
  · rw [hmap]
    exact lined.condition c hc

end Sys2Proof.Machine

/-! PROOF. The dispatch at a character completion (chapters 5 and 6): what changes within a framing and within text, and how
a framing ends. -/

namespace Sys2Proof.Machine

/-! ## The frame of a completion that leaves the entry in transmission -/

/-- Of the station, line interface `l` and its dispatch context alone may have changed. -/
def SendsOn (l : Nat) (s t : State) : Prop :=
  (∃ ls cx, t = { s with lines := ls, ctx := cx }) ∧ ∀ k, k ≠ l → t.line k = s.line k ∧ t.ctxOf k = s.ctxOf k

theorem SendsOn.refl (l : Nat) (s : State) : SendsOn l s s := ⟨⟨_, _, rfl⟩, fun _ _ => ⟨rfl, rfl⟩⟩

theorem SendsOn.trans {l : Nat} {s t u : State} : SendsOn l s t → SendsOn l t u → SendsOn l s u := by
  rintro ⟨⟨ls, cx, rfl⟩, h⟩ ⟨⟨ls', cx', rfl⟩, k⟩
  exact ⟨⟨_, _, rfl⟩, fun j hj => ⟨(k j hj).1.trans (h j hj).1, (k j hj).2.trans (h j hj).2⟩⟩

theorem SendsOn.ite {l : Nat} {s t u : State} {p : Prop} [Decidable p] (ht : SendsOn l s t) (hu : SendsOn l s u) :
    SendsOn l s (if p then t else u) := by
  split
  · exact ht
  · exact hu

theorem sendsOn_setLine (s : State) (l : Nat) (x : Line) : SendsOn l s (s.setLine l x) :=
  ⟨⟨_, _, rfl⟩, fun k hk => ⟨line_setLine_ne s l k x (Ne.symm hk), rfl⟩⟩

theorem sendsOn_setCtx (s : State) (l : Nat) (x : Ctx) : SendsOn l s (s.setCtx l x) :=
  ⟨⟨_, _, rfl⟩, fun k hk => ⟨rfl, ctxOf_setCtx_ne s l k x (Ne.symm hk)⟩⟩

theorem sendsOn_offer (s : State) (l : Nat) (it : Item) : SendsOn l s (s.offer l it) := by
  unfold State.offer
  split
  · exact .ite (sendsOn_setLine s l _) (.refl l s)
  · exact .refl l s

theorem sendsOn_beginFraming (s : State) (l : Nat) (x : Ctx) (d : SendState) (items : List Item) :
    SendsOn l s (s.beginFraming l x d items) := by
  unfold State.beginFraming
  dsimp only
  split
  · exact (sendsOn_setCtx s l _).trans (sendsOn_offer _ l _)
  · exact sendsOn_setCtx s l _

theorem sendsOn_offerText (s : State) (img : Image) (l : Nat) (e : Entry) : SendsOn l s (s.offerText img l e) := by
  unfold State.offerText
  dsimp only
  split
  · exact (sendsOn_setCtx s l _).trans (sendsOn_offer _ l _)
  · split
    · exact (sendsOn_setCtx s l _).trans (sendsOn_offer _ l _)
    · exact .refl l s

theorem sendsOn_takeBreak (s : State) (img : Image) (l : Nat) : SendsOn l s (s.takeBreak img l) := by
  unfold State.takeBreak
  exact sendsOn_beginFraming s l _ _ _

theorem sendsOn_toTrailer (s : State) (img : Image) (l : Nat) (e : Entry) : SendsOn l s (s.toTrailer img l e) :=
  sendsOn_beginFraming s l _ _ _

theorem sendsOn_toText (s : State) (img : Image) (l : Nat) (e : Entry) : SendsOn l s (s.toText img l e) :=
  .ite (sendsOn_takeBreak s img l)
    (.ite ((sendsOn_setCtx s l _).trans (sendsOn_offerText _ img l e)) (sendsOn_toTrailer s img l e))

theorem sendsOn_textDone (s : State) (img : Image) (l : Nat) (e : Entry) : SendsOn l s (s.textDone img l e) :=
  .ite ((sendsOn_setCtx s l _).trans (sendsOn_toTrailer _ img l e))
    (.ite ((sendsOn_setCtx s l _).trans (sendsOn_takeBreak _ img l))
      ((sendsOn_setCtx s l _).trans (sendsOn_offerText _ img l e)))

theorem SendsOn.ev {l : Nat} {s t : State} : SendsOn l s t → t.ev = s.ev := by
  rintro ⟨⟨ls, cx, rfl⟩, -⟩
  rfl

theorem SendsOn.store {l : Nat} {s t : State} : SendsOn l s t → t.store = s.store := by
  rintro ⟨⟨ls, cx, rfl⟩, -⟩
  rfl

theorem SendsOn.record {l : Nat} {s t : State} (h : SendsOn l s t) (m : Nat) : t.record m = s.record m := by
  rw [State.record, h.store]
  rfl

theorem SendsOn.cfg {l : Nat} {s t : State} : SendsOn l s t → t.cfg = s.cfg := by
  rintro ⟨⟨ls, cx, rfl⟩, -⟩
  rfl

theorem SendsOn.hasCtx {l : Nat} {s t : State} : SendsOn l s t → ∀ k, t.hasCtx k = s.hasCtx k := by
  rintro ⟨⟨ls, cx, rfl⟩, -⟩ k
  rfl

theorem SendsOn.ownCondition {l : Nat} {s t : State} : SendsOn l s t → ∀ k, t.ownCondition k = s.ownCondition k := by
  rintro ⟨⟨ls, cx, rfl⟩, -⟩ k
  rfl

/-- What the end of an event leaves where nothing is under way. -/
theorem finish_tables {s : State} (h : s.ev = Event.none) :
    s.finish.lines = s.lines ∧ s.finish.ctx = s.ctx ∧ s.finish.store = s.store := by
  obtain ⟨e, o, f, a, hf⟩ := finish_of_quiet h
  rw [hf]
  exact ⟨rfl, rfl, rfl⟩

theorem finish_line_of_quiet {s : State} (h : s.ev = Event.none) (k : Nat) : s.finish.line k = s.line k := by
  rw [State.line, (finish_tables h).1]
  rfl

theorem finish_ctxOf_of_quiet {s : State} (h : s.ev = Event.none) (k : Nat) : s.finish.ctxOf k = s.ctxOf k := by
  rw [State.ctxOf, (finish_tables h).2.1]
  rfl

/-! ## The parts of a completion -/

theorem exec_completion {s : State} {l : Nat} (hl : l < 8) (hr : s.running = true) (htx : (s.line l).tx = .keying) :
    exec (.characterCompletion l) s = .next ((s.setLine l (s.line l).rest).dispatchCompletion l).finish := by
  show onLine l (whenever (s.sending l .keying) s _) = _
  rw [onLine_ok hl, whenever_of (by simp [State.sending, hr, htx])]

theorem preempts_congr {s t : State} {l : Nat} (hq : (t.ctxOf l).queue = (s.ctxOf l).queue)
    (hc : (t.ctxOf l).current = (s.ctxOf l).current) (ho : t.ownCondition l = s.ownCondition l) :
    t.preempts l = s.preempts l := by
  unfold State.preempts
  dsimp only
  rw [hq, hc, ho]

theorem setCtx_setCtx (s : State) (l : Nat) (x y : Ctx) : (s.setCtx l x).setCtx l y = s.setCtx l y := by
  unfold State.setCtx
  dsimp only
  rw [Vector.setIfInBounds_setIfInBounds]

section
variable {s : State} {img : Image} {l : Nat} {e : Entry}

/-- The sender is FREE at a completion and begins what it is offered (R11). -/
theorem offer_line {it : Item} (hl : l < 8) (hc : s.cfg = some img) (hx : s.hasCtx l = true) (hf : (s.line l).tx = .free) :
    (s.offer l it).line l = (s.line l).begin img it := by
  rw [offer_eq hc hx, line_setLine_self s l _ hl, Line.offer_of_free hf]

theorem dispatchCompletion_idle (h : (s.ctxOf l).send = .idle) : s.dispatchCompletion l = s := by
  unfold State.dispatchCompletion
  split
  · rw [h]
  · rfl

theorem dispatchCompletion_text (hc : s.cfg = some img) (hcur : (s.ctxOf l).current = some e)
    (h : (s.ctxOf l).send = .text) : s.dispatchCompletion l = s.textDone img l e := by
  unfold State.dispatchCompletion
  simp only [hc, hcur, h]

theorem dispatchCompletion_framing (hc : s.cfg = some img) (hcur : (s.ctxOf l).current = some e)
    (h₁ : (s.ctxOf l).send ≠ .idle) (h₂ : (s.ctxOf l).send ≠ .text) :
    s.dispatchCompletion l = s.framingDone img l e := by
  unfold State.dispatchCompletion
  simp only [hc, hcur]
  cases h : (s.ctxOf l).send with
  | idle => exact absurd h h₁
  | text => exact absurd h h₂
  | _ => rfl

theorem framingDone_next {it : Item} (h : (s.ctxOf l).framing[(s.ctxOf l).pos + 1]? = some it) :
    s.framingDone img l e = (s.setCtx l { s.ctxOf l with pos := (s.ctxOf l).pos + 1 }).offer l it := by
  unfold State.framingDone
  dsimp only
  rw [h]

theorem framingDone_toText (h : (s.ctxOf l).framing[(s.ctxOf l).pos + 1]? = none)
    (hd : (s.ctxOf l).send = .header ∨ (s.ctxOf l).send = .resuming) :
    s.framingDone img l e = (s.setCtx l { s.ctxOf l with pos := (s.ctxOf l).pos + 1 }).toText img l e := by
  unfold State.framingDone
  dsimp only
  rw [h]
  rcases hd with hd | hd <;> rw [hd]

theorem framingDone_trailer (h : (s.ctxOf l).framing[(s.ctxOf l).pos + 1]? = none) (hd : (s.ctxOf l).send = .trailer) :
    s.framingDone img l e = (s.setCtx l { s.ctxOf l with pos := (s.ctxOf l).pos + 1 }).entryDone l e := by
  unfold State.framingDone
  dsimp only
  rw [h, hd]

theorem framingDone_breaking (h : (s.ctxOf l).framing[(s.ctxOf l).pos + 1]? = none) (hd : (s.ctxOf l).send = .breaking) :
    s.framingDone img l e = (s.setCtx l { s.ctxOf l with pos := (s.ctxOf l).pos + 1 }).breakingEnd l e := by
  unfold State.framingDone
  dsimp only
  rw [h, hd]

theorem toText_break (h : s.preempts l = true) : s.toText img l e = s.takeBreak img l := if_pos h

theorem toText_text (h : s.preempts l = false) (ht : (s.ctxOf l).origin < (s.record e.record).text.length) :
    s.toText img l e = (s.setCtx l { s.ctxOf l with
      send := .text, framing := [], pos := (s.ctxOf l).origin, guarding := false, lineStart := true }).offerText img l e := by
  unfold State.toText
  dsimp only
  rw [h, if_neg Bool.false_ne_true, if_pos ht]

theorem toText_trailer (h : s.preempts l = false) (ht : (s.record e.record).text.length ≤ (s.ctxOf l).origin) :
    s.toText img l e = s.toTrailer img l e := by
  unfold State.toText
  dsimp only
  rw [h, if_neg Bool.false_ne_true, if_neg (Nat.not_lt.2 ht)]

theorem takeBreak_ctxOf (hl : l < 8) (hcur : (s.ctxOf l).current = some e) :
    (s.takeBreak img l).ctxOf l = { s.ctxOf l with
      send := .breaking, framing := breakItems img (e.assigned.getD 0), pos := 0, guarding := false } := by
  unfold State.takeBreak
  dsimp only
  rw [beginFraming_ctxOf s l _ _ _ hl, hcur]
  rfl

theorem toTrailer_ctxOf (hl : l < 8) :
    (s.toTrailer img l e).ctxOf l = { s.ctxOf l with
      send := .trailer, framing := trailerItems img (s.record e.record), pos := 0, guarding := false } :=
  beginFraming_ctxOf s l _ _ _ hl

/-- A guard space goes before a text symbol at a line start that calls for it (R98). -/
theorem offerText_guard (h : ((s.ctxOf l).lineStart &&
      needsGuard img e.assigned ((s.record e.record).text.drop (s.ctxOf l).pos)) = true) :
    s.offerText img l e = (s.setCtx l { s.ctxOf l with guarding := true, lineStart := false }).offer l
      (.symbol (spaceSym img)) := if_pos h

theorem offerText_symbol {σ : Symbol} (h : ((s.ctxOf l).lineStart &&
      needsGuard img e.assigned ((s.record e.record).text.drop (s.ctxOf l).pos)) = false)
    (hσ : (s.record e.record).text[(s.ctxOf l).pos]? = some σ) :
    s.offerText img l e = (s.setCtx l { s.ctxOf l with guarding := false, lineStart := means img .lf σ }).offer l
      (.symbol σ) := by
  have tail : ∃ rest, (s.record e.record).text.drop (s.ctxOf l).pos = σ :: rest := by
    obtain ⟨hlt, rfl⟩ := List.getElem?_eq_some_iff.1 hσ
    exact ⟨_, List.drop_eq_getElem_cons hlt⟩
  obtain ⟨rest, hrest⟩ := tail
  unfold State.offerText
  dsimp only
  rw [h, if_neg Bool.false_ne_true, hrest]

/-- Text offered leaves the context but for the two text marks (R97, R98). -/
theorem offerText_ctxOf (hl : l < 8) (img : Image) (e : Entry) :
    ∃ g b, (s.offerText img l e).ctxOf l = { s.ctxOf l with guarding := g, lineStart := b } := by
  have offered : ∀ (x : Ctx) (it : Item), ((s.setCtx l x).offer l it).ctxOf l = x := fun x it => by
    rw [ctxOf_congr (offer_ctx _ l it), ctxOf_setCtx_self s l x hl]
  unfold State.offerText
  dsimp only
  split
  · exact ⟨_, _, offered _ _⟩
  · split
    · exact ⟨_, _, offered _ _⟩
    · exact ⟨_, _, rfl⟩

theorem toText_ctxOf (hl : l < 8) (img : Image) (e : Entry) :
    ∃ d fr p g b, (s.toText img l e).ctxOf l =
      { s.ctxOf l with send := d, framing := fr, pos := p, guarding := g, lineStart := b } := by
  unfold State.toText
  dsimp only
  split
  · exact ⟨_, _, _, _, _, beginFraming_ctxOf s l _ _ _ hl⟩
  · split
    · obtain ⟨g, b, h⟩ := offerText_ctxOf (s := s.setCtx l { s.ctxOf l with
        send := .text, framing := [], pos := (s.ctxOf l).origin, guarding := false, lineStart := true }) hl img e
      exact ⟨_, _, _, g, b, by rw [h, ctxOf_setCtx_self s l _ hl]⟩
    · exact ⟨_, _, _, _, _, beginFraming_ctxOf s l _ _ _ hl⟩

/-- The first text symbol after a header or resume line, a guard space before it where one is called for (R97, R98). -/
theorem toText_starts {σ : Symbol} (hl : l < 8) (hc : s.cfg = some img) (hx : s.hasCtx l = true)
    (hf : (s.line l).tx = .free) (hp : s.preempts l = false)
    (hσ : (s.record e.record).text[(s.ctxOf l).origin]? = some σ) :
    ((s.toText img l e).ctxOf l).send = .text ∧ ((s.toText img l e).ctxOf l).pos = (s.ctxOf l).origin ∧
      (((s.toText img l e).ctxOf l).guarding = true ↔
        needsGuard img e.assigned ((s.record e.record).text.drop (s.ctxOf l).origin) = true) ∧
      (s.toText img l e).line l = (s.line l).begin img
        (.symbol (if ((s.toText img l e).ctxOf l).guarding then spaceSym img else σ)) := by
  let x : Ctx := { s.ctxOf l with
    send := .text, framing := [], pos := (s.ctxOf l).origin, guarding := false, lineStart := true }
  let u := s.setCtx l x
  have hux : u.ctxOf l = x := ctxOf_setCtx_self s l x hl
  have offered : ∀ (y : Ctx) (it : Item), ((u.setCtx l y).offer l it).ctxOf l = y := fun y it => by
    rw [ctxOf_congr (offer_ctx _ l it), ctxOf_setCtx_self u l y hl]
  rw [toText_text hp (List.getElem?_eq_some_iff.1 hσ).1]
  show ((u.offerText img l e).ctxOf l).send = _ ∧ ((u.offerText img l e).ctxOf l).pos = _ ∧
    (((u.offerText img l e).ctxOf l).guarding = true ↔ _) ∧ (u.offerText img l e).line l = _
  cases hg : needsGuard img e.assigned ((s.record e.record).text.drop (s.ctxOf l).origin) with
  | true =>
    rw [offerText_guard (by rw [hux]; exact hg), offered, hux]
    exact ⟨rfl, rfl, iff_of_true rfl rfl, offer_line (s := u.setCtx l _) hl hc hx hf⟩
  | false =>
    rw [offerText_symbol (σ := σ) (by rw [hux]; exact hg) (by rw [hux]; exact hσ), offered, hux]
    exact ⟨rfl, rfl, iff_of_false Bool.false_ne_true Bool.false_ne_true, offer_line (s := u.setCtx l _) hl hc hx hf⟩

/-! ## A completion in text -/

/-- The context when a text symbol has been completed: the line origin follows a completed LF (R97, R106). -/
def Ctx.pastSymbol (x : Ctx) (img : Image) (text : List Symbol) : Ctx :=
  { x with
    pos := x.pos + 1
    origin := if (text[x.pos]?).elim false (means img .lf) then x.pos + 1 else x.origin }

theorem textDone_symbol (hg : (s.ctxOf l).guarding = false) (hl : l < 8) :
    s.textDone img l e =
      if (s.record e.record).text.length ≤ (s.ctxOf l).pos + 1 then
        (s.setCtx l ((s.ctxOf l).pastSymbol img (s.record e.record).text)).toTrailer img l e
      else if s.preempts l = true then
        (s.setCtx l ((s.ctxOf l).pastSymbol img (s.record e.record).text)).takeBreak img l
      else (s.setCtx l ((s.ctxOf l).pastSymbol img (s.record e.record).text)).offerText img l e := by
  have same : ∀ x : Ctx, x.queue = (s.ctxOf l).queue → x.current = (s.ctxOf l).current →
      (s.setCtx l x).preempts l = s.preempts l := fun x hq hc =>
    preempts_congr (by rw [ctxOf_setCtx_self s l x hl, hq]) (by rw [ctxOf_setCtx_self s l x hl, hc]) rfl
  have step : (if (s.ctxOf l).guarding = true then s.ctxOf l else
      { s.ctxOf l with
        pos := (s.ctxOf l).pos + 1
        origin := if ((s.record e.record).text[(s.ctxOf l).pos]?).elim false (means img .lf) then (s.ctxOf l).pos + 1
          else (s.ctxOf l).origin }) = (s.ctxOf l).pastSymbol img (s.record e.record).text :=
    if_neg (by rw [hg]; exact Bool.false_ne_true)
  unfold State.textDone
  dsimp only
  rw [step, same ((s.ctxOf l).pastSymbol img (s.record e.record).text) rfl rfl]
  rfl

/-! ## The end of a break line -/

theorem makeRoom_free {x : Ctx} (h : x.stack.length < 3) : s.makeRoom l x = s.setCtx l x := if_pos h

/-- The bottom entry of a full stack goes back to the queue unstarted, or on a WITHDRAWING circuit is removed (R110). -/
theorem makeRoom_full {x : Ctx} {a b bottom : Entry} (h : x.stack = [a, b, bottom]) :
    s.makeRoom l x =
      if s.ownCondition l = .withdrawing then
        (((s.setCtx l { x with stack := [a, b] }).touchLine l).reResolve
          (bottom.slots.map fun i => (bottom.record, i))).reexamine
      else s.setCtx l ({ x with stack := [a, b] }.enqueue bottom.returned) := by
  unfold State.makeRoom
  rw [h]
  rfl

theorem Filed.ctxOf {s t : State} : Filed s t → ∀ k, t.ctxOf k = s.ctxOf k := by
  rintro ⟨st, ev, rfl⟩ k
  rfl

theorem Resolved.stack {s t : State} (r : Resolved s t) (k : Nat) : (t.ctxOf k).stack = (s.ctxOf k).stack := by
  have same := congrArg Ctx.stack (r.ctx k)
  exact same

theorem finishSlots_filed (s : State) (m : Nat) (is : List Nat) : Filed s (is.foldl (fun t i => t.finishSlot m i) s) :=
  Filed.foldl (fun t i => filed_finishSlot t m i) is s

/-- An entry's completion leaves its circuit IDLE, with queue, stack and serial as they were (R100). -/
theorem completeEntry_ctxOf (hl : l < 8) (e : Entry) :
    (s.completeEntry l e).ctxOf l = { (s.ctxOf l).toIdle with current := none } := by
  have filed := finishSlots_filed s e.record e.slots
  unfold State.completeEntry
  dsimp only
  rw [(filed_touchLine _ l).ctxOf, ctxOf_setCtx_self _ l _ hl, filed.ctxOf]

/-- The pushed entry and the pick, once there is room (R109). -/
theorem breakingEnd_eq (s : State) (l : Nat) (e : Entry) :
    s.breakingEnd l e =
      ((s.makeRoom l { s.ctxOf l with current := none }).setCtx l
        { (s.makeRoom l { s.ctxOf l with current := none }).ctxOf l with
          stack := { e with resume := some (s.ctxOf l).origin } ::
            ((s.makeRoom l { s.ctxOf l with current := none }).ctxOf l).stack }).pickAndTest l := rfl

end

/-! ## The obligations -/

/-- Settles O27. -/
theorem completionInText : Obligations.CompletionInText := by
  intro s l img e hl hr hev hc hx htx hcur hsend hg
  let y := s.setLine l (s.line l).rest
  let x := (s.ctxOf l).pastSymbol img (s.record e.record).text
  let u := y.setCtx l x
  have hux : u.ctxOf l = x := ctxOf_setCtx_self y l x hl
  have sends : SendsOn l s (y.textDone img l e) := (sendsOn_setLine s l _).trans (sendsOn_textDone y img l e)
  have quiet : (y.textDone img l e).ev = Event.none := sends.ev.trans hev
  have free : (u.line l).tx = .free := by
    rw [show u.line l = (s.line l).rest from line_setLine_self s l _ hl]
    rfl
  have done : exec (.characterCompletion l) s = .next (y.textDone img l e).finish := by
    rw [exec_completion hl hr htx, dispatchCompletion_text (s := y) hc hcur hsend]
  have split : y.textDone img l e =
      if (s.record e.record).text.length ≤ (s.ctxOf l).pos + 1 then u.toTrailer img l e
      else if s.preempts l = true then u.takeBreak img l else u.offerText img l e :=
    textDone_symbol (s := y) (img := img) (e := e) hg hl
  refine ⟨_, done, (finish_tables quiet).2.2.trans sends.store, fun k hk => ?_, ?_⟩
  · rw [finish_line_of_quiet quiet, finish_ctxOf_of_quiet quiet]
    exact sends.2 k hk
  · rw [finish_ctxOf_of_quiet quiet, finish_line_of_quiet quiet, split]
    by_cases hlen : (s.record e.record).text.length ≤ (s.ctxOf l).pos + 1
    · rw [if_pos hlen]
      have trailer : (u.toTrailer img l e).ctxOf l = _ := toTrailer_ctxOf hl
      rw [trailer, hux]
      exact ⟨hcur, rfl, rfl, fun _ => ⟨rfl, rfl, rfl⟩, fun h => absurd hlen (Nat.not_le.2 h)⟩
    · rw [if_neg hlen]
      cases hp : s.preempts l with
      | true =>
        rw [if_pos rfl]
        have broken : (u.takeBreak img l).ctxOf l = _ := takeBreak_ctxOf (e := e) hl (by rw [hux]; exact hcur)
        rw [broken, hux]
        exact ⟨hcur, rfl, rfl, fun h => absurd h hlen, fun _ => ⟨rfl, fun _ => ⟨rfl, rfl, rfl⟩, nofun⟩⟩
      | false =>
        rw [if_neg Bool.false_ne_true]
        show (((u.offerText img l e).ctxOf l).current = _ ∧ _)
        obtain ⟨g, b, h⟩ := offerText_ctxOf (s := u) hl img e
        rw [h, hux]
        refine ⟨hcur, rfl, rfl, fun h => absurd h hlen, fun _ => ⟨rfl, nofun, fun _ hng σ hσ => ⟨hsend, rfl, ?_⟩⟩⟩
        rw [offerText_symbol (s := u) (σ := σ) (by rw [hux]; exact hng) (by rw [hux]; exact hσ)]
        rw [offer_line (s := u.setCtx l _) hl hc hx free]
        exact congrArg (fun z : Line => z.begin img (.symbol σ)) (line_setLine_self s l _ hl)

/-- Settles O26. -/
theorem completionInIdleOrInAFraming : Obligations.CompletionInIdleOrInAFraming := by
  refine ⟨fun s l hl hr hev htx hsend => ?_, fun s l img e hl hr hev hc hx htx hcur hsend htext => ?_⟩
  · let y := s.setLine l (s.line l).rest
    obtain ⟨e, o, f, a, hfin⟩ := finish_of_quiet (s := y) hev
    refine ⟨y.finish, ?_, ?_, fun k hk => ?_, ?_⟩
    · rw [exec_completion hl hr htx, dispatchCompletion_idle (s := y) hsend]
    · rw [hfin]
      exact line_setLine_self s l _ hl
    · rw [hfin]
      exact line_setLine_ne s l k _ (Ne.symm hk)
    · rw [hfin]
      exact ⟨rfl, rfl, rfl, rfl, rfl, rfl⟩
  · let y := s.setLine l (s.line l).rest
    let u := y.setCtx l { s.ctxOf l with pos := (s.ctxOf l).pos + 1 }
    have hux : u.ctxOf l = { s.ctxOf l with pos := (s.ctxOf l).pos + 1 } := ctxOf_setCtx_self y l _ hl
    have toU : SendsOn l s u := (sendsOn_setLine s l _).trans (sendsOn_setCtx y l _)
    have hline : u.line l = (s.line l).rest := line_setLine_self s l _ hl
    have free : (u.line l).tx = .free := by
      rw [hline]
      rfl
    have done : exec (.characterCompletion l) s = .next (y.framingDone img l e).finish := by
      rw [exec_completion hl hr htx, dispatchCompletion_framing (s := y) hc hcur hsend htext]
    refine ⟨fun it hit => ?_, fun hend hd => ?_, fun hend hd => ?_, fun hend hd => ?_⟩
    · have next : y.framingDone img l e = u.offer l it := framingDone_next (s := y) hit
      have sends : SendsOn l s (u.offer l it) := toU.trans (sendsOn_offer u l it)
      have quiet : (u.offer l it).ev = Event.none := sends.ev.trans hev
      refine ⟨(u.offer l it).finish, by rw [done, next], ?_, ?_, fun k hk => ?_, (finish_tables quiet).2.2.trans sends.store⟩
      · rw [finish_line_of_quiet quiet, offer_line (s := u) hl hc hx free, hline]
        rfl
      · rw [finish_ctxOf_of_quiet quiet, ctxOf_congr (offer_ctx u l it), hux]
      · rw [finish_line_of_quiet quiet, finish_ctxOf_of_quiet quiet]
        exact sends.2 k hk
    · have texts : y.framingDone img l e = u.toText img l e := framingDone_toText (s := y) hend hd
      have sends : SendsOn l s (u.toText img l e) := toU.trans (sendsOn_toText u img l e)
      have quiet : (u.toText img l e).ev = Event.none := sends.ev.trans hev
      have hpre : u.preempts l = s.preempts l :=
        preempts_congr (by rw [hux]) (by rw [hux]) (toU.ownCondition l)
      have hcur' : (u.ctxOf l).current = some e := by
        rw [hux]
        exact hcur
      obtain ⟨d, fr, p, g, b, hctx⟩ := toText_ctxOf (s := u) hl img e
      refine ⟨(u.toText img l e).finish, by rw [done, texts], (finish_tables quiet).2.2.trans sends.store, fun k hk => ?_, ?_⟩
      · rw [finish_line_of_quiet quiet, finish_ctxOf_of_quiet quiet]
        exact sends.2 k hk
      · rw [finish_line_of_quiet quiet, finish_ctxOf_of_quiet quiet]
        refine ⟨?_, ?_, ?_, ?_, fun h => ?_, fun h ht => ?_, fun h σ hσ => ?_⟩
        · rw [hctx, hux]
          exact hcur
        · rw [hctx, hux]
        · rw [hctx, hux]
        · rw [hctx, hux]
        · rw [toText_break (hpre.trans h), takeBreak_ctxOf (s := u) hl hcur']
          exact ⟨rfl, rfl, rfl⟩
        · rw [toText_trailer (hpre.trans h) (by rw [hux]; exact ht), toTrailer_ctxOf (s := u) hl]
          exact ⟨rfl, rfl, rfl⟩
        · have starts := toText_starts (s := u) (e := e) (σ := σ) hl hc hx free (hpre.trans h) (by rw [hux]; exact hσ)
          rw [hux, hline] at starts
          exact starts
    · have breaks : y.framingDone img l e = u.breakingEnd l e := framingDone_breaking (s := y) hend hd
      have out : ({ u.ctxOf l with current := none } : Ctx) =
          { s.ctxOf l with pos := (s.ctxOf l).pos + 1, current := none } := by rw [hux]
      have horigin : (u.ctxOf l).origin = (s.ctxOf l).origin := by rw [hux]
      have hcond : u.ownCondition l = s.ownCondition l := toU.ownCondition l
      refine ⟨fun hroom => ?_, fun a b bottom hfull hw => ?_, fun a b bottom hfull hw => ?_⟩
      · rw [done, breaks, breakingEnd_eq, out, horigin, makeRoom_free (by exact hroom), ctxOf_setCtx_self u l _ hl,
          setCtx_setCtx, setCtx_setCtx]
        rfl
      · rw [done, breaks, breakingEnd_eq, out, horigin, makeRoom_full (by exact hfull), hcond, if_neg hw,
          ctxOf_setCtx_self u l _ hl, setCtx_setCtx, setCtx_setCtx]
        rfl
      · refine ⟨_, rfl, ?_⟩
        rw [done, breaks, breakingEnd_eq, out, horigin, makeRoom_full (by exact hfull), hcond, if_pos hw,
          setCtx_setCtx]
        let x : Ctx := { s.ctxOf l with pos := (s.ctxOf l).pos + 1, current := none, stack := [a, b] }
        have resolved : Resolved (y.setCtx l x) (((y.setCtx l x).touchLine l).reResolve
            (bottom.slots.map fun i => (bottom.record, i))).reexamine :=
          ((filed_touchLine _ l).resolved.trans (resolved_reResolve _ _)).trans (resolved_reexamine _)
        have stack := resolved.stack l
        rw [ctxOf_setCtx_self y l x hl] at stack
        rw [stack]
        rfl
    · refine ⟨u, rfl, by rw [done, framingDone_trailer (s := y) hend hd]; rfl, ?_⟩
      rw [completeEntry_ctxOf (s := u) hl e, hux]
      exact ⟨rfl, rfl, rfl, rfl, rfl⟩

end Sys2Proof.Machine

/-! PROOF. The store and the resolver, by operation (chapters 3, 4 and 8): completion, the serial check, the target of a slot,
and the slots that an entry or a CARRY finishes. -/

namespace Sys2Proof.Machine

/-! ## Completion and release (R56, R58) -/

theorem setPool_stamp (s : State) (p : List Nat) : (s.setPool p).store.stamp = s.store.stamp := by
  unfold State.setPool
  dsimp only
  split
  · rfl
  · rw [touch_store]

theorem freeRecord_stamp (s : State) (m : Nat) : (s.freeRecord m).store.stamp = s.store.stamp := by
  unfold State.freeRecord
  dsimp only
  split
  · rfl
  · rw [touch_store]
    exact setPool_stamp s _

theorem freeRecord_record_ne (s : State) {m j : Nat} (hj : j ≠ m) : (s.freeRecord m).record j = s.record j := by
  unfold State.freeRecord
  dsimp only
  split
  · rfl
  · rw [touch_record, record_setRecord_ne _ m j _ (Ne.symm hj), setPool_record]

theorem freeRecord_record_self {s : State} {m : Nat} (hm : m < 128) (h : (s.record m).state ≠ .free) :
    (s.freeRecord m).record m = Record.empty := by
  unfold State.freeRecord
  dsimp only
  rw [if_neg h, touch_record, record_setRecord_self _ m _ hm]

/-- Settles O33. -/
theorem completionStampsTheRecord : Obligations.CompletionStampsTheRecord := by
  intro s m hm
  let stamp := if s.store.stamp < Config.lastStamp then s.store.stamp + 1 else s.store.stamp
  let t : State := { s with store := { s.store with stamp := stamp } }
  have count : stamp = min (s.store.stamp + 1) (max 4294967295 s.store.stamp) := by
    show (if s.store.stamp < 4294967295 then s.store.stamp + 1 else s.store.stamp) = _
    split <;> omega
  have released : (s.record m).slots = [] → s.complete m = t.freeRecord m := fun h =>
    if_pos (by rw [h]; rfl)
  have stands : (s.record m).slots ≠ [] →
      s.complete m = t.setRecord m { s.record m with stamp := some s.store.stamp, state := .standing } := fun h =>
    if_neg (by rwa [List.isEmpty_iff])
  refine ⟨?_, fun h => ?_, fun h hf => ?_, fun j hj => ?_⟩
  · rw [← count]
    by_cases h : (s.record m).slots = []
    · rw [released h, freeRecord_stamp]
    · rw [stands h]
      rfl
  · rw [stands h, record_setRecord_self t m _ hm]
  · rw [released h, freeRecord_record_self (s := t) hm hf]
  · by_cases h : (s.record m).slots = []
    · rw [released h]
      exact freeRecord_record_ne t hj
    · rw [stands h]
      exact record_setRecord_ne t m j _ (Ne.symm hj)

/-! ## The serial check (R29) -/

/-- Settles O34: the distance from the expected serial, taken modulo 999, decides. -/
theorem serialCheckTable : Obligations.SerialCheckTable := by
  intro n e hn hn' he he'
  refine ⟨rfl, fun h => ?_, fun d hd h₁ h₂ => ?_, fun d hd h₁ => ?_⟩
  · have zero : (n + 999 - e) % 999 = 0 := by omega
    unfold serialCheck
    dsimp only
    rw [if_pos zero]
    rfl
  · have pos : (n + 999 - e) % 999 ≠ 0 := by omega
    have small : (n + 999 - e) % 999 ≤ 499 := by omega
    unfold serialCheck
    dsimp only
    rw [if_neg pos, if_pos small, hd]
    rfl
  · have pos : (n + 999 - e) % 999 ≠ 0 := by omega
    have large : ¬ (n + 999 - e) % 999 ≤ 499 := by omega
    unfold serialCheck
    dsimp only
    rw [if_neg pos, if_neg large]

/-! ## The target of a slot (R69, R70) -/

theorem interceptBound_iff (r : Record) (sl : Slot) :
    interceptBound r sl = true ↔ r.intercept ≠ none ∨ r.hop = 3 ∨ sl.dest = .pseudo := by
  rw [interceptBound, Bool.or_eq_true, Bool.or_eq_true, decide_eq_true_iff, decide_eq_true_iff, Option.isSome_iff_ne_none,
    or_assoc]

theorem routed_direct {s : State} {img : Image} {r : Record} {sl : Slot} {code : OfficeCode}
    (h : interceptBound r sl = false) (hd : sl.dest = .office code) :
    s.routed img r sl = (((img.lookup code).getD []).map (s.judged img)).find? s.available := by
  unfold State.routed
  rw [h, if_neg Bool.false_ne_true, hd]

/-- The first of a list whose image passes a test, with those before it that do not. -/
theorem find_map_some {α β : Type} {f : α → β} {p : β → Bool} {l : List α} {y : β} (h : (l.map f).find? p = some y) :
    p y = true ∧ ∃ before x after, l = before ++ x :: after ∧ y = f x ∧ ∀ b ∈ before, p (f b) = false := by
  obtain ⟨hp, as, bs, hsplit, hbefore⟩ := List.find?_eq_some_iff_append.1 h
  obtain ⟨before, rest, hl, has, hrest⟩ := List.map_eq_append_iff.1 hsplit
  obtain ⟨x, after, hr, hx, -⟩ := List.map_eq_cons_iff.1 hrest
  refine ⟨hp, before, x, after, by rw [hl, hr], hx.symm, fun b hb => ?_⟩
  have no := hbefore (f b) (has ▸ List.mem_map_of_mem hb)
  rwa [Bool.not_eq_true'] at no

/-- Settles O30. -/
theorem routedTargetOfASlot : Obligations.RoutedTargetOfASlot := by
  intro s img r sl
  refine ⟨interceptBound_iff r sl, fun h => if_pos h, fun code h hd => ⟨fun e he => ?_, fun hn => ?_⟩⟩
  · have candidates : (img.lookup code).getD [] = e.targets.filterMap id := by
      rw [Image.lookup, he]
      rfl
    rw [routed_direct h hd, candidates]
    refine ⟨fun t ht => ?_, fun hn c hc => ?_⟩
    · exact find_map_some ht
    · have no := List.find?_eq_none.1 hn (s.judged img c) (List.mem_map_of_mem hc)
      rwa [Bool.not_eq_true] at no
  · rw [routed_direct h hd, Image.lookup, hn]
    rfl

/-! ## Slots finished (R47, R58) -/

/-- Slot `i` of record `m` is as it was and so is the record's standing, unless the record has been released. -/
def Leaves (m i : Nat) (s t : State) : Prop :=
  (t.record m).state = .free ∨
    (t.slot m i = s.slot m i ∧ (t.record m).state = (s.record m).state ∧ (t.record m).stamp = (s.record m).stamp)

/-- The record has been released, or the slot is DONE. -/
def Gone (m i : Nat) (s : State) : Prop := (s.record m).state = .free ∨ (s.slotState m i).isDone = true

theorem Gone.finished {m i : Nat} {s : State} (h : Gone m i s) : Finished m i s := h.imp .inl id

section
variable {m i : Nat}

theorem Leaves.refl (s : State) : Leaves m i s s := .inr ⟨rfl, rfl, rfl⟩

theorem Leaves.trans {s t u : State} (h : Leaves m i s t) (k : Leaves m i t u) : Leaves m i s u := by
  rcases k with k | ⟨hslot, hstate, hstamp⟩
  · exact .inl k
  · rcases h with h | ⟨hslot', hstate', hstamp'⟩
    · exact .inl (hstate.trans h)
    · exact .inr ⟨hslot.trans hslot', hstate.trans hstate', hstamp.trans hstamp'⟩

theorem Leaves.of_record {s t : State} (h : t.record m = s.record m) : Leaves m i s t :=
  .inr ⟨by rw [State.slot, h]; rfl, by rw [h], by rw [h]⟩

theorem setSlotState_record (s : State) (j : Nat) (st : SlotState) :
    ((s.setSlotState m j st).record m).state = (s.record m).state ∧
      ((s.setSlotState m j st).record m).stamp = (s.record m).stamp := by
  have h (y : Slot) (u : State)
      (hu : u = s.setRecord m { s.record m with slots := (s.record m).slots.set j y }) :
      (u.record m).state = (s.record m).state ∧ (u.record m).stamp = (s.record m).stamp := by
    rw [hu]
    exact record_setRecord_of (P := fun r => r.state = (s.record m).state ∧ r.stamp = (s.record m).stamp) s m m _
      (fun _ => ⟨rfl, rfl⟩) ⟨rfl, rfl⟩
  unfold State.setSlotState
  split
  · unfold State.setSlot
    dsimp only
    split
    · exact h _ _ rfl
    · rw [touch_record]
      exact h _ _ rfl
  · exact ⟨rfl, rfl⟩

theorem releaseIfDone_cases (s : State) (hm : m < 128) :
    ((s.releaseIfDone m).record m).state = .free ∨ s.releaseIfDone m = s := by
  unfold State.releaseIfDone
  dsimp only
  split
  · exact .inl (record_freeRecord s m hm)
  · exact .inr rfl

theorem finishSlot_cases (s : State) (j : Nat) (hm : m < 128) :
    ((s.finishSlot m j).record m).state = .free ∨
      s.finishSlot m j = s.setSlotState m j (.done (s.slotState m j).target) := releaseIfDone_cases _ hm

theorem leaves_finishSlot (s : State) {j : Nat} (hm : m < 128) (hj : j ≠ i) : Leaves m i s (s.finishSlot m j) := by
  rcases finishSlot_cases s j hm with h | h
  · exact .inl h
  · rw [h]
    exact .inr ⟨slot_setSlotState_ne s j _ hj, setSlotState_record s j _⟩

theorem free_finishSlot {s : State} (j : Nat) (hm : m < 128) (h : (s.record m).state = .free) :
    ((s.finishSlot m j).record m).state = .free := by
  rcases finishSlot_cases s j hm with g | g
  · exact g
  · rw [g, (setSlotState_record s j _).1, h]

theorem gone_finishSlot_self {s : State} (hm : m < 128) (h : (s.slot m i).isSome = true) :
    Gone m i (s.finishSlot m i) := by
  obtain ⟨x, hx⟩ := Option.isSome_iff_exists.1 h
  rcases finishSlot_cases s i hm with g | g
  · exact .inl g
  · rw [g]
    refine .inr ?_
    rw [State.slotState, slot_setSlotState_self s m i _ x hx]
    rfl

theorem Leaves.gone {s t : State} (h : Leaves m i s t) (g : Gone m i s) : Gone m i t := by
  rcases h with h | ⟨hslot, hstate, -⟩
  · exact .inl h
  · rcases g with g | g
    · exact .inl (hstate.trans g)
    · refine .inr ?_
      rw [State.slotState, hslot]
      exact g

theorem isSome_of_isDone {s : State} (h : (s.slotState m i).isDone = true) : (s.slot m i).isSome = true := by
  cases hx : s.slot m i with
  | some x => rfl
  | none =>
    rw [State.slotState, hx] at h
    cases h

theorem gone_finishSlot {s : State} (j : Nat) (hm : m < 128) (g : Gone m i s) : Gone m i (s.finishSlot m j) := by
  by_cases hj : j = i
  · subst hj
    rcases g with g | g
    · exact .inl (free_finishSlot j hm g)
    · exact gone_finishSlot_self hm (isSome_of_isDone g)
  · exact (leaves_finishSlot s hm hj).gone g

/-- Of the slots finished in turn, each that exists is DONE at the end, or the record has been released. -/
theorem gone_finishSlots (hm : m < 128) (is : List Nat) (s : State) (h : i ∈ is) (hs : (s.slot m i).isSome = true) :
    Gone m i (is.foldl (fun t j => t.finishSlot m j) s) := by
  have keep : ∀ (js : List Nat) (t : State), Gone m i t → Gone m i (js.foldl (fun t j => t.finishSlot m j) t) :=
    fun js t g => List.foldlRecOn js _ g fun u hu j _ => gone_finishSlot j hm hu
  have first : ∀ (js : List Nat) (t : State), (t.slot m i).isSome = true → i ∈ js →
      Gone m i (js.foldl (fun t j => t.finishSlot m j) t) := by
    intro js
    induction js with
    | nil => exact fun t _ h => nomatch h
    | cons j js ih =>
      intro t ht hmem
      rw [List.foldl_cons]
      by_cases hj : j = i
      · subst hj
        exact keep js _ (gone_finishSlot_self hm ht)
      · rcases leaves_finishSlot t hm hj with g | ⟨hslot, -⟩
        · exact keep js _ (.inl g)
        · exact ih _ (by rw [hslot]; exact ht) ((List.mem_cons.1 hmem).resolve_left (Ne.symm hj))
  exact first is s hs h

/-! ## A CARRY taken (R144, R147) -/

/-- A listed slot of a CARRY answered for station `k`. -/
def State.finishTaken (k m : Nat) (t : State) (x : Nat × Target) : State :=
  if x.2.owner = k ∧ t.carriesTo m x.1 k then t.finishSlot m x.1 else t

theorem takenBy_carry (s : State) (k : Nat) (addr : List Nat) (listed : List (Nat × Target)) :
    s.takenBy k (.carry addr m listed) = listed.foldl (State.finishTaken k m) s := rfl

theorem isSome_of_carriesTo {s : State} {k : Nat} (h : s.carriesTo m i k = true) : (s.slot m i).isSome = true := by
  cases hx : s.slot m i with
  | some x => rfl
  | none =>
    rw [State.carriesTo, State.slotState, hx] at h
    cases h

theorem carriesTo_congr {s t : State} (h : t.slot m i = s.slot m i) (k : Nat) : t.carriesTo m i k = s.carriesTo m i k := by
  rw [State.carriesTo, State.slotState, h]
  rfl

theorem gone_finishTaken {s : State} (k : Nat) (x : Nat × Target) (hm : m < 128) (g : Gone m i s) :
    Gone m i (State.finishTaken k m s x) := by
  unfold State.finishTaken
  split
  · exact gone_finishSlot x.1 hm g
  · exact g

theorem leaves_finishTaken (s : State) (k : Nat) (x : Nat × Target) (hm : m < 128)
    (h : (s.record m).state ≠ .free → x.1 = i → x.2.owner = k → s.carriesTo m i k = false) :
    Leaves m i s (State.finishTaken k m s x) := by
  unfold State.finishTaken
  split
  next hx =>
    by_cases hf : (s.record m).state = .free
    · exact .inl (free_finishSlot x.1 hm hf)
    · refine leaves_finishSlot s hm fun hj => ?_
      have no := h hf hj hx.1
      rw [← hj, hx.2] at no
      cases no
  next => exact .refl s

/-- A slot that does not carry to the station, or is listed for others alone, is left (R144). -/
theorem leaves_takenBy (s : State) (k : Nat) (addr : List Nat) (listed : List (Nat × Target)) (hm : m < 128)
    (h : ∀ x, (i, x) ∈ listed → x.owner = k → s.carriesTo m i k = false) :
    Leaves m i s (s.takenBy k (.carry addr m listed)) := by
  rw [takenBy_carry]
  refine List.foldlRecOn listed _ (Leaves.refl s) fun t ht x hx => ht.trans (leaves_finishTaken t k x hm fun hf hi ho => ?_)
  rcases ht with ht | ⟨hslot, -⟩
  · exact absurd ht hf
  · rw [carriesTo_congr hslot]
    subst hi
    exact h x.2 hx ho

/-- A slot listed for the station and still CARRYING to it is DONE (R147). -/
theorem gone_takenBy (s : State) (k : Nat) (addr : List Nat) (listed : List (Nat × Target)) (hm : m < 128) {x : Target}
    (hx : (i, x) ∈ listed) (ho : x.owner = k) (hc : s.carriesTo m i k = true) :
    Gone m i (s.takenBy k (.carry addr m listed)) := by
  rw [takenBy_carry]
  have keep : ∀ (js : List (Nat × Target)) (t : State), Gone m i t → Gone m i (js.foldl (State.finishTaken k m) t) :=
    fun js t g => List.foldlRecOn js _ g fun u hu j _ => gone_finishTaken k j hm hu
  have first : ∀ (js : List (Nat × Target)) (t : State), t.carriesTo m i k = true → (i, x) ∈ js →
      Gone m i (js.foldl (State.finishTaken k m) t) := by
    intro js
    induction js with
    | nil => exact fun t _ h => nomatch h
    | cons j js ih =>
      intro t ht hmem
      rw [List.foldl_cons]
      by_cases hj : j.1 = i ∧ j.2.owner = k
      · obtain ⟨rfl, ho'⟩ := hj
        refine keep js _ ?_
        rw [State.finishTaken, if_pos ⟨ho', ht⟩]
        exact gone_finishSlot_self hm (isSome_of_carriesTo ht)
      · have rest : (i, x) ∈ js := (List.mem_cons.1 hmem).resolve_left fun h => hj (by rw [← h]; exact ⟨rfl, ho⟩)
        rcases leaves_finishTaken (i := i) t k j hm fun _ h₁ h₂ => absurd ⟨h₁, h₂⟩ hj with g | ⟨hslot, -⟩
        · exact keep js _ (.inl g)
        · exact ih _ ((carriesTo_congr hslot k).trans ht) rest
  exact first listed s hc hx

theorem Filed.peer {s t : State} : Filed s t → ∀ k, t.peer k = s.peer k := by
  rintro ⟨st, ev, rfl⟩ k
  rfl

theorem filed_finishTaken (k m : Nat) (s : State) (x : Nat × Target) : Filed s (State.finishTaken k m s x) :=
  .ite (filed_finishSlot s m x.1) (.refl s)

theorem filed_takenBy (s : State) (k : Nat) (addr : List Nat) (listed : List (Nat × Target)) :
    Filed s (s.takenBy k (.carry addr m listed)) := by
  rw [takenBy_carry]
  exact Filed.foldl (filed_finishTaken k m) listed s

/-! ## The receipts of a CARRY read (R147) -/

/-- A CARRY whose record still bears the stamp lists its slots. -/
theorem fixedContent_bears {s : State} {stamp : Option Nat} (addr : List Nat) (listed : List (Nat × Target))
    (hst : (s.record m).state = .standing) (hstamp : stamp = (s.record m).stamp) :
    s.fixedContent stamp (.carry addr m listed) = .carry addr m listed := by
  unfold State.fixedContent State.bears
  simp only [hst, hstamp, decide_true, Bool.and_self, if_true]

section
variable {addr : List Nat} {listed : List (Nat × Target)} {stamp : Option Nat} {heard take : List Nat}

/-- Reading one station that does not become SILENT leaves a slot that does not carry to it, and the other stations. -/
theorem readReceipt_leaves (s : State) (k : Nat) (hm : m < 128)
    (hno : k ∈ take ∨ k ∈ heard ∨ (s.peer k).unheard ≠ 2) (hc : s.carriesTo m i k = false) :
    Leaves m i s (State.readReceipt (.carry addr m listed) stamp heard take s k) ∧
      ∀ j, j ≠ k → (State.readReceipt (.carry addr m listed) stamp heard take s k).peer j = s.peer j := by
  have other : ∀ (p : Peer) (j : Nat), j ≠ k → (s.setPeer k p).peer j = s.peer j := fun p j hj =>
    peer_setPeer_ne s k j p (Ne.symm hj)
  unfold State.readReceipt
  dsimp only
  split
  · refine ⟨?_, fun j hj => ?_⟩
    · refine Leaves.trans (Leaves.of_record rfl) (leaves_takenBy _ k addr _ hm fun x _ _ => ?_)
      rw [← hc]
      rfl
    · exact ((filed_takenBy _ k addr _).peer j).trans (other _ j hj)
  next hnt =>
    split
    · exact ⟨Leaves.of_record rfl, other _⟩
    next hnh =>
      rw [if_neg ((hno.resolve_left hnt).resolve_left hnh)]
      exact ⟨Leaves.of_record rfl, other _⟩

theorem readReceipt_gone (s : State) (k : Nat) (hm : m < 128) (ht : k ∈ take) (hst : (s.record m).state = .standing)
    (hstamp : stamp = (s.record m).stamp) {x : Target} (hx : (i, x) ∈ listed) (ho : x.owner = k)
    (hc : s.carriesTo m i k = true) :
    Gone m i (State.readReceipt (.carry addr m listed) stamp heard take s k) := by
  have carried : ∀ p : Peer, (s.setPeer k p).carriesTo m i k = true := fun p =>
    (carriesTo_congr (show (s.setPeer k p).slot m i = s.slot m i from rfl) k).trans hc
  unfold State.readReceipt
  dsimp only
  rw [if_pos ht, fixedContent_bears (s := s) addr listed hst hstamp]
  exact gone_takenBy _ k addr listed hm hx ho (carried _)

/-- The slots listed for a station read as TAKE are finished, when no station becomes SILENT before it is read. -/
theorem readReceipts_finished {k : Nat} {x : Target} (hm : m < 128) (hx : (i, x) ∈ listed) (ho : x.owner = k)
    (ht : k ∈ take) (js : List Nat) : ∀ s : State, js.Nodup → k ∈ js →
      (∀ j, j ∈ js → j ∈ take ∨ j ∈ heard ∨ (s.peer j).unheard ≠ 2) →
      (s.record m).state = .standing → stamp = (s.record m).stamp → s.carriesTo m i k = true →
      Finished m i (js.foldl (State.readReceipt (.carry addr m listed) stamp heard take) s) := by
  have keep : ∀ (js : List Nat) (t : State), Finished m i t →
      Finished m i (js.foldl (State.readReceipt (.carry addr m listed) stamp heard take) t) := fun js t g =>
    KeepsDone.foldl (fun u j => keeps_readReceipt _ _ _ _ u j) js t g
  induction js with
  | nil => exact fun s _ h => nomatch h
  | cons j js ih =>
    intro s hnd hmem hno hst hstamp hc
    obtain ⟨hj, hnd⟩ := List.nodup_cons.1 hnd
    rw [List.foldl_cons]
    by_cases hjk : j = k
    · subst hjk
      exact keep js _ (readReceipt_gone s j hm ht hst hstamp hx ho hc).finished
    · have away : s.carriesTo m i j = false := by
        rw [State.carriesTo] at hc ⊢
        cases hs : (s.slotState m i).carryTarget with
        | none => rfl
        | some y =>
          rw [hs] at hc
          exact decide_eq_false fun h => hjk (h.symm.trans (of_decide_eq_true hc))
      obtain ⟨hleaves, hpeer⟩ := readReceipt_leaves (addr := addr) (listed := listed) (stamp := stamp) s j hm
        (hno j List.mem_cons_self) away
      rcases hleaves with g | ⟨hslot, hstate, hstamp'⟩
      · exact keep js _ (.inl (.inl g))
      · refine ih _ hnd ((List.mem_cons.1 hmem).resolve_left (Ne.symm hjk)) (fun j' hj' => ?_) (hstate.trans hst)
          (hstamp.trans hstamp'.symm) ((carriesTo_congr hslot k).trans hc)
        rw [hpeer j' fun h => hj (h ▸ hj')]
        exact hno j' (List.mem_cons_of_mem j hj')

end

theorem exec_frameCompleted {s : State} {f : Flight} {p : Frame × List Byte} (hr : s.running = true) (hf : s.flight = some f)
    (he : s.engine = .receipt) (ho : f.own = some p) (hs : f.slot = 31) (hd : Bool) :
    exec (.frameCompleted hd) s = .next (s.readReceipts p.1 (f.readSlot hd).heardSet (f.readSlot hd).takeSet).finish := by
  have guard : s.inFlight s.atLastSlot = true := by
    simp [State.inFlight, State.atLastSlot, hr, hf, he, ho, hs]
  show whenever _ s (s.flight.elim s fun f => s.senderReceipt f hd) = _
  rw [whenever_of guard, hf, Option.elim_some, State.senderReceipt, if_pos hs, ho]

/-- The last receipt slot, TAKE of station 15, joins what has been read (R128). -/
theorem readSlot_last {f : Flight} (hs : f.slot = 31) (hd : Bool) :
    (f.readSlot hd).heardSet = f.heardSet ∧ ∀ k, k ∈ (f.readSlot hd).takeSet ↔ k ∈ f.takeSet ∨ (k = 15 ∧ hd = false) := by
  unfold Flight.readSlot
  rw [hs]
  refine ⟨if_neg fun h => absurd h.2 (by decide), fun k => ?_⟩
  dsimp only
  cases hd with
  | true => simp
  | false =>
    rw [if_pos ⟨rfl, by decide⟩, mem_insertRising, or_comm]
    simp

theorem peer_out (s : State) {k : Nat} (h : ¬ k < 16) : s.peer k = Peer.fresh := by
  simp only [State.peer, entryAt, Vector.getElem?_eq_none (Nat.le_of_not_lt h), Option.getD_none]

end

/-- Settles O29. -/
theorem finishedSlotsAreDone : Obligations.FinishedSlotsAreDone := by
  refine ⟨fun s l e i hm hi hs => ?_, fun s k m i addr listed hm => ⟨fun x hx ho hc => gone_takenBy s k addr listed hm hx ho hc,
    fun h => ?_⟩, ?_⟩
  · have gone := gone_finishSlots hm e.slots s hi hs
    have hrec : (s.completeEntry l e).record e.record =
        (e.slots.foldl (fun t i => t.finishSlot e.record i) s).record e.record := by
      unfold State.completeEntry State.touchLine
      dsimp only
      rw [touch_record, touch_record]
      rfl
    rcases gone with g | g
    · exact .inl (by rw [hrec]; exact g)
    · exact .inr (by rw [State.slotState, State.slot, hrec]; exact g)
  · rcases leaves_takenBy s k addr listed hm fun x hx ho => absurd ho (h x hx) with g | ⟨hslot, -⟩
    · exact .inl g
    · exact .inr (by rw [State.slotState, hslot]; rfl)
  · intro s f cells addr m listed hd o i x hr hf he hown hslot hnd hm hst ho hstamp hno hx hoa hot hc
    obtain ⟨hheard, htake⟩ := readSlot_last hslot hd
    refine ⟨_, exec_frameCompleted hr hf he hown hslot hd, ?_⟩
    refine keeps_finish _ (keeps_drawn _ (keeps_hearAll _ _ ?_))
    have hoff : s.offeredStamp = (s.record m).stamp := by
      rw [State.offeredStamp, ho]
      exact hstamp
    refine readReceipts_finished hm hx rfl ((htake _).2 hot) addr _ hnd hoa (fun j hj => ?_) hst hoff hc
    rcases hno j hj with h | h | h | h
    · exact .inl ((htake j).2 (.inl h))
    · by_cases hj16 : j < 16
      · refine .inr (.inl (List.mem_filter.2 ⟨List.mem_range.2 hj16, ?_⟩))
        rw [hheard, decide_eq_true h, Bool.true_or]
      · refine .inr (.inr ?_)
        rw [peer_out _ hj16]
        decide
    · exact .inl ((htake j).2 (.inr h))
    · exact .inr (.inr h)

end Sys2Proof.Machine

/-! PROOF. What every operation of an assembler keeps, for any relation that its parts keep (chapters 2 and 6). -/

namespace Sys2Proof.Machine

/-- A relation that the parts of the line-open event keep: the assembler written, text and records, requests, and the
withdrawal test. -/
structure Opening (R : State → State → Prop) : Prop where
  refl : ∀ s, R s s
  trans : ∀ {s t u}, R s t → R t u → R s u
  mas : ∀ s l x, R s (s.setMas l x)
  write : ∀ s m σ, R s (s.write m σ)
  block : ∀ {s t : State} {m : Nat}, s.grantBlock m = some t → R s t
  begun : ∀ {s t : State} {cls : MsgClass} {m : Nat} (r : Record → Record), (∀ x, ∀ sl ∈ (r x).slots, sl.state = .unrouted) →
    s.grantRecord cls 1 = some (m, t) → R s (t.setRecord m (r (t.record m)))
  close : ∀ s l m w, R s (s.closeRecord l m w)
  request : ∀ s r, R s (s.request r)
  test : ∀ s l q c, R s (s.withdrawalTest l q c)

/-- A relation that the parts of an assembler's operations keep: those of the line-open event, rollbacks and the freeing of
records. -/
structure Assembles (R : State → State → Prop) : Prop extends Opening R where
  rollback : ∀ s m n, R s (s.rollback m n)
  free : ∀ s m, R s (s.freeRecord m)

section
variable {R : State → State → Prop} (A : Opening R)
include A

theorem Opening.thenMas {s t : State} (h : R s t) (l : Nat) (x : Mas) : R s (t.setMas l x) := A.trans h (A.mas t l x)

theorem Opening.closeAll (s : State) (l : Nat) (w : MutReason) (ms : List Nat) : R s (s.closeAll l w ms) :=
  List.foldlRecOn ms _ (A.refl s) fun t ht m _ => A.trans ht (A.close t l m (some w))

theorem Opening.storeSymbol (s : State) (img : Image) (l : Nat) (σ : Symbol) : R s (s.storeSymbol img l σ).1 := by
  have put : ∀ (t : State) (m : Nat), R t (if means img .lf σ then
      (t.write m σ).setMas l { (t.write m σ).masOf l with lineStart := true } else t.write m σ) := fun t m =>
    Frames.ite (A.thenMas (A.write t m σ) l _) (A.write t m σ)
  unfold State.storeSymbol
  split
  · exact A.refl s
  next m _ =>
    dsimp only
    split
    · exact A.refl s
    · split
      · exact put s m
      · split
        next t ht => exact A.trans (A.block ht) (put t m)
        next => exact A.refl s

theorem Opening.truncate (s : State) (l : Nat) (w : MutReason) (b : Bool) : R s (s.truncate l w b) := by
  unfold State.truncate
  split
  · exact A.refl s
  · exact A.thenMas (A.close s l _ _) l _

theorem Opening.storeAll (img : Image) (l : Nat) (σs : List Symbol) : ∀ s : State, R s (s.storeAll img l σs).1 := by
  induction σs with
  | nil => exact A.refl
  | cons σ rest ih =>
    intro s
    have stored := A.storeSymbol s img l σ
    unfold State.storeAll
    split
    next t he =>
      rw [he] at stored
      exact A.trans stored (ih t)
    next t w he =>
      rw [he] at stored
      exact A.trans stored (A.truncate t l w _)

theorem Opening.beginBadHead {s t : State} {cls : MsgClass} {m : Nat} (h : s.grantRecord cls 1 = some (m, t)) (l : Nat) :
    R s (t.beginBadHead l m) :=
  A.thenMas (A.begun (fun r => r.fromBadHeader (t.circuit l) (t.lineAuthority l) t.serviceCode)
    (fun _ _ h => by rw [List.mem_singleton.mp h]) h) l _

theorem Opening.closeUnderWay (s : State) (img : Image) (l : Nat) : R s (s.closeUnderWay img l) := by
  unfold State.closeUnderWay
  dsimp only
  split
  · exact A.refl s
  · exact A.refl s
  · split
    next m t ht =>
      have stored := A.trans (A.beginBadHead ht l) (A.storeAll img l (s.masOf l).header _)
      exact Frames.ite stored (A.trans stored (A.close _ l m _))
    next => exact A.request s _
  · split
    · exact A.refl s
    next m _ =>
      have stored := A.storeAll img l (s.masOf l).look s
      exact Frames.ite stored (A.trans stored (A.close _ l m _))

theorem Opening.lineOpen (s : State) (img : Image) (l : Nat) (c : Option FailureCounts) : R s (s.lineOpen img l c) :=
  A.trans (A.trans (A.thenMas (A.closeUnderWay s img l) l _) (A.test _ l false c)) (A.closeAll _ l _ _)

end

section
variable {R : State → State → Prop} (A : Assembles R)
include A

theorem Assembles.repeatMark (s : State) (l n : Nat) : R s (s.repeatMark l n) := by
  unfold State.repeatMark
  split
  · exact A.refl s
  · exact A.trans (A.mas s l _) (A.free _ _)

theorem Assembles.serialReports (s : State) (l n : Nat) (e : Option Nat) (o : SerialOutcome) :
    R s (s.serialReports l n e o) := by
  cases o with
  | good => exact A.refl s
  | gap => exact A.request s _
  | duplicate => exact A.request s _

omit A in
theorem fromHeader_unrouted {r : Record} {c a : Nat} {h : Header} {d : Bool} {sl : Slot}
    (hsl : sl ∈ (r.fromHeader c a h d).slots) : sl.state = .unrouted := by
  obtain ⟨o, -, rfl⟩ := List.mem_map.mp hsl
  rfl

theorem Assembles.goodHeader (s : State) (l : Nat) (h : Header) : R s (s.goodHeader l h) := by
  have repeated : R s (h.rpt.elim s (s.repeatMark l)) := by
    cases h.rpt with
    | none => exact A.refl s
    | some n => exact A.repeatMark s l n
  unfold State.goodHeader
  dsimp only
  split
  next m t ht =>
    exact A.trans (A.thenMas (A.trans (A.thenMas repeated l _) (A.begun (fun r => r.fromHeader _ _ h _) (fun _ _ => fromHeader_unrouted) ht)) l _)
      (A.serialReports _ l _ _ _)
  next => exact A.trans (A.trans (A.thenMas (A.thenMas repeated l _) l _) (A.serialReports _ l _ _ _)) (A.request _ _)

theorem Assembles.badHeader (s : State) (img : Image) (l : Nat) (o : Option Symbol) : R s (s.badHeader img l o) := by
  unfold State.badHeader
  dsimp only
  split
  next m t ht =>
    have stored := A.trans (A.beginBadHead ht l) (A.storeAll img l
      ((s.masOf l).header ++ o.elim [crSym img, lfSym img] fun σ => [σ]) _)
    exact Frames.ite stored (A.thenMas stored l _)
  next => exact A.trans (A.mas s l _) (A.request _ _)

theorem Assembles.headerCheck (s : State) (img : Image) (l : Nat) (o : Option Symbol) : R s (s.headerCheck img l o) := by
  unfold State.headerCheck
  split
  · exact A.goodHeader s l _
  · exact A.badHeader s img l _

theorem Assembles.resumeLine (s : State) (l n : Nat) (b : Bool) : R s (s.resumeLine l n b) := by
  unfold State.resumeLine
  split
  · exact A.refl s
  · exact A.thenMas (A.closeAll s l _ _) l _

theorem Assembles.breakLine (s : State) (img : Image) (l m : Nat) : R s (s.breakLine img l m) := by
  have rolled := A.rollback s m (breakLength img (s.record m).text)
  exact A.thenMas (Frames.ite (A.trans rolled (A.closeAll _ l _ _)) rolled) l _

theorem Assembles.newHeader (s : State) (l : Nat) (hs : List Symbol) : R s (s.newHeader l hs) :=
  Frames.ite (A.mas s l _) (A.mas s l _)

theorem Assembles.huntSymbol (s : State) (img : Image) (l : Nat) (σ : Symbol) : R s (s.huntSymbol img l σ) := by
  unfold State.huntSymbol
  refine Frames.ite (A.mas s l _) (Frames.ite (A.newHeader s l _) (Frames.ite ?_ (Frames.ite (A.mas s l _) (A.mas s l _))))
  exact A.trans (A.mas s l _) (A.resumeLine _ l _ _)

theorem Assembles.headerSymbol (s : State) (img : Image) (l : Nat) (σ : Symbol) : R s (s.headerSymbol img l σ) :=
  Frames.ite (A.refl s) (Frames.ite (A.headerCheck s img l _) (Frames.ite (A.headerCheck s img l _) (A.mas s l _)))

theorem Assembles.endSequence (s : State) (img : Image) (l m : Nat) : R s (s.endSequence img l m) := by
  unfold State.endSequence
  exact A.thenMas (A.trans (A.rollback s m _) (A.close _ l m none)) l _

theorem Assembles.depart (s : State) (img : Image) (l : Nat) (look : List Symbol) : R s (s.depart img l look) :=
  A.trans (A.mas s l _) (A.storeAll img l look _)

theorem Assembles.textTake (s : State) (img : Image) (l m : Nat) (σ : Symbol) : R s (s.textTake img l m σ) := by
  unfold State.textTake
  dsimp only
  refine Frames.ite (Frames.ite (A.endSequence s img l m) (Frames.ite ?_ (Frames.ite (A.breakLine s img l m) (Frames.ite (A.depart s img l _)
    (Frames.ite (A.mas s l _) (A.depart s img l _)))))) (A.depart s img l _)
  exact A.trans (A.close s l m _) (A.newHeader _ l _)

theorem Assembles.textSymbol (s : State) (img : Image) (l : Nat) (σ : Symbol) : R s (s.textSymbol img l σ) := by
  unfold State.textSymbol
  dsimp only
  split
  · exact A.refl s
  · exact Frames.ite (A.mas s l _) (A.trans (A.mas s l _) (A.textTake _ img l _ σ))

theorem Assembles.discardSymbol (s : State) (img : Image) (l : Nat) (σ : Symbol) : R s (s.discardSymbol img l σ) := by
  unfold State.discardSymbol
  dsimp only
  exact Frames.ite (Frames.ite (A.mas s l _) (Frames.ite (A.newHeader s l _) (Frames.ite (A.mas s l _) (A.mas s l _)))) (A.mas s l _)

theorem Assembles.takeSymbol (s : State) (img : Image) (l : Nat) (σ : Symbol) : R s (s.takeSymbol img l σ) := by
  unfold State.takeSymbol
  dsimp only
  refine A.trans ?_ (A.test _ l false none)
  split
  · exact A.huntSymbol s img l σ
  · exact A.headerSymbol s img l σ
  · exact A.textSymbol s img l σ
  · exact A.discardSymbol s img l σ

theorem Assembles.deliver (s : State) (img : Image) (l : Nat) (σ : Symbol) : R s (s.deliver img l σ) :=
  Frames.ite (A.refl s) (A.takeSymbol s img l σ)

end

/-! ## The dispatch contexts under the assemblers -/

/-- The contexts of all circuits keep all but their queues. -/
def QueuesOnly (s t : State) : Prop := ∀ k, { t.ctxOf k with queue := (s.ctxOf k).queue } = s.ctxOf k

theorem QueuesOnly.refl (s : State) : QueuesOnly s s := fun _ => rfl

theorem QueuesOnly.trans {s t u : State} (h : QueuesOnly s t) (g : QueuesOnly t u) : QueuesOnly s u := by
  intro k
  have again := congrArg (fun x : Ctx => { x with queue := (s.ctxOf k).queue }) (g k)
  exact Eq.trans again (h k)

theorem QueuesOnly.of_ctx {s t : State} (h : t.ctx = s.ctx) : QueuesOnly s t := fun k => by rw [ctxOf_congr h]

theorem Resolved.queuesOnly {s t : State} (h : Resolved s t) : QueuesOnly s t := h.ctx

theorem Traffic.queuesOnly {s t : State} (h : Traffic s t) : QueuesOnly s t := h.ctx

theorem QueuesOnly.ite {s t u : State} {p : Prop} [Decidable p] (ht : QueuesOnly s t) (hu : QueuesOnly s u) :
    QueuesOnly s (if p then t else u) := by
  split
  · exact ht
  · exact hu

theorem setMas_queues (s : State) (l : Nat) (x : Mas) : QueuesOnly s (s.setMas l x) := .of_ctx rfl

theorem withdrawalTest_queues (s : State) (l : Nat) (q : Bool) (c : Option FailureCounts) :
    QueuesOnly s (s.withdrawalTest l q c) := by
  have updated := (traffic_updateCondition (s.setAdmin l .withdrawn) l).queuesOnly
  have hunted := updated.trans (QueuesOnly.ite (p := (((s.setAdmin l .withdrawn).updateCondition l).masOf l).mode = .discard)
    (.of_ctx (t := ((s.setAdmin l .withdrawn).updateCondition l).setMas l
      (((s.setAdmin l .withdrawn).updateCondition l).masOf l).toHunt) rfl) (.refl _))
  exact .ite (.ite hunted (hunted.trans (resolved_request _ _).queuesOnly)) (.refl s)

theorem assembles_queues : Assembles QueuesOnly where
  refl := .refl
  trans := .trans
  mas _ _ _ := .of_ctx rfl
  write s m σ := (filed_write s m σ).resolved.queuesOnly
  block h := (filed_grantBlock h).resolved.queuesOnly
  begun _ _ h := ((filed_grantRecord h).trans (filed_setRecord _ _ _)).resolved.queuesOnly
  rollback s m n := (filed_rollback s m n).resolved.queuesOnly
  free s m := (filed_freeRecord s m).resolved.queuesOnly
  close s l m w := (resolved_closeRecord s l m w).queuesOnly
  request s r := (resolved_request s r).queuesOnly
  test := withdrawalTest_queues

end Sys2Proof.Machine

/-! PROOF. A circuit stays IDLE exactly while no entry is in transmission on it (R91): what keeps it so, operation by
operation. -/

namespace Sys2Proof.Machine

/-- The circuit is IDLE exactly when no entry is in transmission on it (R91). -/
def Ctx.IdleIffNone (x : Ctx) : Prop := x.send = .idle ↔ x.current = none

theorem Ctx.IdleIffNone.rests {x : Ctx} (hs : x.send = .idle) (hc : x.current = none) : x.IdleIffNone := iff_of_true hs hc

theorem Ctx.IdleIffNone.busy {x : Ctx} {e : Entry} (hs : x.send ≠ .idle) (hc : x.current = some e) : x.IdleIffNone :=
  iff_of_false hs (by rw [hc]; exact nofun)

/-- A pick with nothing in transmission leaves the circuit IDLE with none, or sending an entry. -/
theorem Picked.idleIffNone {x y : Ctx} (hc : x.current = none) (h : Picked x y) : y.IdleIffNone := by
  cases h with
  | idle => exact .rests rfl hc
  | started e rest items _ => exact .busy (e := { e with assigned := some x.next }) nofun rfl
  | resumed e rest items _ => exact .busy (e := { e with resume := none }) nofun rfl

theorem idleIffNone_prop : CtxProp Ctx.IdleIffNone where
  queue _ _ := Iff.rfl
  picked hs h hp := hp.idleIffNone (h.1 hs)

theorem QueuesOnly.idle {s t : State} (h : QueuesOnly s t) (hs : SendIdleIffNoEntry s) : SendIdleIffNoEntry t :=
  idleIffNone_prop.of_queue h hs

theorem finish_idle {s : State} (hs : SendIdleIffNoEntry s) : SendIdleIffNoEntry s.finish := idleIffNone_prop.finish hs

/-! ## A circuit whose entry has gone -/

/-- Every circuit but `l` is IDLE exactly when it has no entry in transmission, and `l` has none. -/
def IdleBut (l : Nat) (s : State) : Prop := (∀ k, k ≠ l → (s.ctxOf k).IdleIffNone) ∧ (s.ctxOf l).current = none

theorem QueuesOnly.idleBut {s t : State} {l : Nat} (h : QueuesOnly s t) : IdleBut l s → IdleBut l t := by
  rintro ⟨hs, hc⟩
  refine ⟨fun k hk => ?_, ?_⟩
  · have again := hs k hk
    rw [← h k] at again
    exact again
  · rw [← h l] at hc
    exact hc

theorem setCtx_idleBut {s : State} {l : Nat} (hl : l < 8) (hs : ∀ k, k ≠ l → (s.ctxOf k).IdleIffNone) {x : Ctx}
    (hx : x.current = none) : IdleBut l (s.setCtx l x) := by
  refine ⟨fun k hk => ?_, ?_⟩
  · rw [ctxOf_setCtx_ne s l k x (Ne.symm hk)]
    exact hs k hk
  · rw [ctxOf_setCtx_self s l x hl]
    exact hx

theorem IdleBut.rests {s : State} {l : Nat} (h : IdleBut l s) (hs : (s.ctxOf l).send = .idle) : SendIdleIffNoEntry s := by
  intro k
  by_cases hk : k = l
  · subst hk
    exact Ctx.IdleIffNone.rests hs h.2
  · exact h.1 k hk

theorem pick_idle {s : State} {img : Image} {l : Nat} (hl : l < 8) (hc : s.cfg = some img) (h : IdleBut l s) :
    SendIdleIffNoEntry (s.pick l) := by
  intro k
  by_cases hk : k = l
  · subst hk
    exact (pick_ctxOf hc hl).idleIffNone h.2
  · rw [pick_ctxOf_ne s hk]
    exact h.1 k hk

theorem pickAndTest_idle {s : State} {img : Image} {l : Nat} (hl : l < 8) (hc : s.cfg = some img) (h : IdleBut l s) :
    SendIdleIffNoEntry (s.pickAndTest l) := by
  unfold State.pickAndTest
  dsimp only
  split
  · exact (withdrawalTest_queues _ l _ _).idle (pick_idle hl hc h)
  · exact pick_idle hl hc h

/-! ## A character completion -/

/-- A context within a message: an entry in transmission and the circuit not IDLE. -/
def Ctx.Sends (x : Ctx) (e : Entry) : Prop := x.send ≠ .idle ∧ x.current = some e

theorem SendsOn.idle {s t : State} {l : Nat} {e : Entry} (h : SendsOn l s t) (ht : (t.ctxOf l).Sends e)
    (hs : SendIdleIffNoEntry s) : SendIdleIffNoEntry t := by
  intro k
  by_cases hk : k = l
  · subst hk
    exact Ctx.IdleIffNone.busy ht.1 ht.2
  · rw [(h.2 k hk).2]
    exact hs k

section
variable {s : State} {img : Image} {l : Nat} {e : Entry}

theorem offerText_sends (hl : l < 8) (h : (s.ctxOf l).Sends e) : ((s.offerText img l e).ctxOf l).Sends e := by
  obtain ⟨g, b, ht⟩ := offerText_ctxOf (s := s) hl img e
  rw [ht]
  exact h

theorem toTrailer_sends (hl : l < 8) (h : (s.ctxOf l).current = some e) : ((s.toTrailer img l e).ctxOf l).Sends e := by
  rw [toTrailer_ctxOf hl]
  exact ⟨nofun, h⟩

theorem takeBreak_sends (hl : l < 8) (h : (s.ctxOf l).current = some e) : ((s.takeBreak img l).ctxOf l).Sends e := by
  rw [takeBreak_ctxOf hl h]
  exact ⟨nofun, h⟩

theorem toText_sends (hl : l < 8) (h : (s.ctxOf l).current = some e) : ((s.toText img l e).ctxOf l).Sends e := by
  unfold State.toText
  dsimp only
  split
  · exact takeBreak_sends hl h
  · split
    · refine offerText_sends hl ?_
      rw [ctxOf_setCtx_self s l _ hl]
      exact ⟨nofun, h⟩
    · exact toTrailer_sends hl h

/-- The context when a character of text has been completed: a guard space moves nothing (R98). -/
def Ctx.completed (x : Ctx) (img : Image) (text : List Symbol) : Ctx := if x.guarding then x else x.pastSymbol img text

theorem textDone_eq (s : State) (img : Image) (l : Nat) (e : Entry) :
    s.textDone img l e =
      let t := s.setCtx l ((s.ctxOf l).completed img (s.record e.record).text)
      if (s.record e.record).text.length ≤ ((s.ctxOf l).completed img (s.record e.record).text).pos then t.toTrailer img l e
      else if t.preempts l then t.takeBreak img l else t.offerText img l e := rfl

theorem textDone_sends (hl : l < 8) (h : (s.ctxOf l).Sends e) : ((s.textDone img l e).ctxOf l).Sends e := by
  let t := s.setCtx l ((s.ctxOf l).completed img (s.record e.record).text)
  have written : (t.ctxOf l).Sends e := by
    rw [show t.ctxOf l = _ from ctxOf_setCtx_self s l _ hl]
    unfold Ctx.completed
    split
    · exact h
    · exact h
  rw [textDone_eq]
  dsimp only
  split
  · exact toTrailer_sends (s := t) hl written.2
  · split
    · exact takeBreak_sends (s := t) hl written.2
    · exact offerText_sends (s := t) hl written

/-- An entry's completion leaves its circuit IDLE with none in transmission (R100). -/
theorem completeEntry_idleBut (hl : l < 8) (hs : SendIdleIffNoEntry s) : IdleBut l (s.completeEntry l e) := by
  have done := finishSlots_filed s e.record e.slots
  have kept : SendIdleIffNoEntry (e.slots.foldl (fun t i => t.finishSlot e.record i) s) := done.resolved.queuesOnly.idle hs
  exact (filed_touchLine _ l).resolved.queuesOnly.idleBut (setCtx_idleBut hl (fun k _ => kept k) rfl)

theorem entryDone_idle (hl : l < 8) (hc : s.cfg = some img) (hs : SendIdleIffNoEntry s) :
    SendIdleIffNoEntry (s.entryDone l e) := by
  have done := completeEntry_idleBut (e := e) hl hs
  have cfg : (s.completeEntry l e).cfg = some img := (lined_completeEntry s l e).cfg.trans hc
  exact pickAndTest_idle hl ((resolved_reexamine _).cfg.trans cfg) ((resolved_reexamine _).queuesOnly.idleBut done)

theorem makeRoom_idleBut (hl : l < 8) (hs : SendIdleIffNoEntry s) {x : Ctx} (hx : x.current = none) :
    IdleBut l (s.makeRoom l x) := by
  have written : ∀ y : Ctx, y.current = none → IdleBut l (s.setCtx l y) := fun y hy =>
    setCtx_idleBut hl (fun k _ => hs k) hy
  unfold State.makeRoom
  split
  · exact written x hx
  · split
    · exact written x hx
    · dsimp only
      split
      · have answered : ∀ (u : State) (q : List (Nat × Nat)), QueuesOnly u (((u.touchLine l).reResolve q).reexamine) :=
          fun u q => (((filed_touchLine u l).resolved.trans (resolved_reResolve _ q)).trans (resolved_reexamine _)).queuesOnly
        exact (answered _ _).idleBut (written _ hx)
      · exact written _ hx

theorem breakingEnd_idle (hl : l < 8) (hc : s.cfg = some img) (hs : SendIdleIffNoEntry s) :
    SendIdleIffNoEntry (s.breakingEnd l e) := by
  rw [breakingEnd_eq]
  have room := makeRoom_idleBut (x := { s.ctxOf l with current := none }) hl hs rfl
  have cfg := (lined_makeRoom s l { s.ctxOf l with current := none }).cfg.trans hc
  exact pickAndTest_idle hl cfg (setCtx_idleBut hl room.1 room.2)

theorem framingDone_idle (hl : l < 8) (hc : s.cfg = some img) (h : (s.ctxOf l).Sends e) (hs : SendIdleIffNoEntry s) :
    SendIdleIffNoEntry (s.framingDone img l e) := by
  let u := s.setCtx l { s.ctxOf l with pos := (s.ctxOf l).pos + 1 }
  have hu : (u.ctxOf l).Sends e := by
    rw [show u.ctxOf l = { s.ctxOf l with pos := (s.ctxOf l).pos + 1 } from ctxOf_setCtx_self s l _ hl]
    exact h
  have toU : SendsOn l s u := sendsOn_setCtx s l _
  have idle := toU.idle hu hs
  unfold State.framingDone
  dsimp only
  split
  · exact (QueuesOnly.of_ctx (offer_ctx _ l _)).idle idle
  · split
    · exact (sendsOn_toText u img l e).idle (toText_sends hl hu.2) idle
    · exact (sendsOn_toText u img l e).idle (toText_sends hl hu.2) idle
    · exact entryDone_idle (s := u) hl hc idle
    · exact breakingEnd_idle (s := u) hl hc idle
    · exact idle
    · exact idle

theorem dispatchCompletion_keepsIdle (hl : l < 8) (hs : SendIdleIffNoEntry s) :
    SendIdleIffNoEntry (s.dispatchCompletion l) := by
  cases hc : s.cfg with
  | none =>
    unfold State.dispatchCompletion
    rw [hc]
    exact hs
  | some img =>
    cases hcur : (s.ctxOf l).current with
    | none =>
      rw [dispatchCompletion_idle ((hs l).2 hcur)]
      exact hs
    | some e =>
      have busy : (s.ctxOf l).send ≠ .idle := fun h => by
        rw [(hs l).1 h] at hcur
        cases hcur
      by_cases ht : (s.ctxOf l).send = .text
      · rw [dispatchCompletion_text hc hcur ht]
        exact (sendsOn_textDone s img l e).idle (textDone_sends hl ⟨busy, hcur⟩) hs
      · rw [dispatchCompletion_framing hc hcur busy ht]
        exact framingDone_idle hl hc ⟨busy, hcur⟩ hs

/-! ## A line failure -/

theorem giveUpCurrent_idle (hl : l < 8) (hs : SendIdleIffNoEntry s) : SendIdleIffNoEntry (s.giveUpCurrent l).1 := by
  have abandoned : SendIdleIffNoEntry (s.abandonItem l) := (QueuesOnly.of_ctx rfl).idle hs
  unfold State.giveUpCurrent
  dsimp only
  split
  · exact hs
  · split
    · refine (completeEntry_idleBut hl abandoned).rests ?_
      rw [completeEntry_ctxOf hl]
      rfl
    · refine (setCtx_idleBut hl (fun k _ => abandoned k) rfl).rests ?_
      rw [ctxOf_setCtx_self _ l _ hl]
      rfl

/-- The circuit after a line failure's entries have been taken off it (R167, steps 1 and 2). -/
def State.emptied (s : State) (l : Nat) : State :=
  (s.giveUpCurrent l).1.setCtx l { (s.giveUpCurrent l).1.ctxOf l with stack := [], queue := [] }

/-- The entries that a line failure takes off the circuit (R167). -/
def State.goneEntries (s : State) (l : Nat) : List Entry :=
  (s.giveUpCurrent l).2 ++ ((s.giveUpCurrent l).1.ctxOf l).stack ++ ((s.giveUpCurrent l).1.ctxOf l).queue

/-- The slots that entries serve, in the entries' order. -/
def slotsOf (es : List Entry) : List (Nat × Nat) := es.flatMap fun e => e.slots.map fun i => (e.record, i)

theorem dispatchFailure_fst (h : s.hasCtx l = true) :
    (s.dispatchFailure l).1 =
      ((if (s.goneEntries l).isEmpty then s.emptied l else (s.emptied l).touchLine l).reResolve
        (slotsOf (s.goneEntries l))).reexamine := by
  unfold State.dispatchFailure State.emptied State.goneEntries slotsOf
  dsimp only
  rw [if_pos h]

theorem dispatchFailure_idle (hl : l < 8) (hs : SendIdleIffNoEntry s) : SendIdleIffNoEntry (s.dispatchFailure l).1 := by
  by_cases h : s.hasCtx l = true
  · have given := giveUpCurrent_idle hl hs
    have emptied : SendIdleIffNoEntry (s.emptied l) := fun k =>
      ctxOf_setCtx_of (P := fun x => x.IdleIffNone) _ l k _ (fun _ => given l) (given k)
    have touched : ∀ (u : State) (b : Bool), QueuesOnly u (if b then u else u.touchLine l) := fun u b =>
      .ite (.refl u) (filed_touchLine u l).resolved.queuesOnly
    have answered : ∀ (u : State) (b : Bool) (q : List (Nat × Nat)),
        QueuesOnly u ((if b then u else u.touchLine l).reResolve q).reexamine := fun u b q =>
      (touched u b).trans ((resolved_reResolve _ q).trans (resolved_reexamine _)).queuesOnly
    rw [dispatchFailure_fst h]
    exact (answered _ _ _).idle emptied
  · unfold State.dispatchFailure
    rw [if_neg h]
    exact hs

theorem lineFails_idle (hl : l < 8) (hs : SendIdleIffNoEntry s) : SendIdleIffNoEntry (s.lineFails img l) := by
  have opened : ∀ (u : State) (c : Option FailureCounts), QueuesOnly u (u.lineOpen img l c) := fun u c =>
    assembles_queues.lineOpen u img l c
  have failed := dispatchFailure_idle hl ((traffic_updateCondition s l).queuesOnly.idle hs)
  unfold State.lineFails
  split
  · exact (opened s _).idle hs
  · exact ((opened _ _).trans (resolved_request _ _).queuesOnly).idle failed
  · exact ((withdrawalTest_queues _ l _ _).trans (opened _ _)).idle failed

end

/-! ## Queues pulled, and the WARM restart -/

theorem foldl_queues {α : Type} {f : State → α → State} (h : ∀ s a, QueuesOnly s (f s a)) (as : List α) (s : State) :
    QueuesOnly s (as.foldl f s) := foldl_keeps QueuesOnly .refl .trans f h as s

theorem resolved_pullWithdrawn (s : State) : Resolved s s.pullWithdrawn.1 := by
  have all : ∀ (ls : List Nat) (acc : State × List (Nat × Nat)), Resolved acc.1
      (ls.foldl (fun acc l => if acc.1.adminOf l = .withdrawn then
        ((acc.1.pullQueue l).1, acc.2 ++ (acc.1.pullQueue l).2) else acc) acc).1 := by
    intro ls
    induction ls with
    | nil => exact fun acc => .refl _
    | cons l ls ih =>
      intro acc
      rw [List.foldl_cons]
      refine Resolved.trans ?_ (ih _)
      split
      · exact resolved_pullQueue acc.1 l
      · exact .refl _
  exact all _ (s, [])

theorem resolved_pullQueues (s : State) (cs : List Nat) : Resolved s (s.pullQueues cs).1 := by
  have all : ∀ (cs : List Nat) (acc : State × List (Nat × Nat)), Resolved acc.1
      (cs.foldl (fun acc c => let p := acc.1.pullQueue (lineOf c); (p.1, acc.2 ++ p.2)) acc).1 := by
    intro cs
    induction cs with
    | nil => exact fun acc => .refl _
    | cons c cs ih =>
      intro acc
      rw [List.foldl_cons]
      refine Resolved.trans ?_ (ih _)
      exact resolved_pullQueue acc.1 (lineOf c)
  exact all cs (s, [])

/-- Nothing is in transmission anywhere on the circuits named. -/
theorem picks_idle : ∀ (ls : List Nat) (s : State), ls.Nodup → (∀ l ∈ ls, l < 8 ∧ (s.ctxOf l).send = .idle) →
    SendIdleIffNoEntry s → SendIdleIffNoEntry (ls.foldl (fun t l => if t.hasCtx l then t.pick l else t) s) := by
  intro ls
  induction ls with
  | nil => exact fun s _ _ hs => hs
  | cons l ls ih =>
    intro s hnd hall hs
    obtain ⟨hl, hnd⟩ := List.nodup_cons.1 hnd
    obtain ⟨hlt, hidle⟩ := hall l List.mem_cons_self
    rw [List.foldl_cons]
    refine ih _ hnd (fun k hk => ⟨(hall k (List.mem_cons_of_mem l hk)).1, ?_⟩) ?_
    · have other : k ≠ l := fun h => hl (h ▸ hk)
      have sends := (hall k (List.mem_cons_of_mem l hk)).2
      split
      · rw [pick_ctxOf_ne s other]
        exact sends
      · exact sends
    · split
      · exact idleIffNone_prop.pick hlt hidle hs
      · exact hs

theorem warmRestart_idle (s : State) (hc hd : Bool) : SendIdleIffNoEntry (s.warmRestart hc hd) := by
  let w : State := { s with restart := s.restart.begun .warm }.warmBlocks
  have rebuilt : ∀ k, (w.ctxOf k).send = .idle ∧ (w.ctxOf k).current = none := by
    intro k
    show (entryAt (s.ctx.map Ctx.rebuilt) Ctx.fresh k).send = .idle ∧ _
    by_cases hk : k < 8
    · have at_k : w.ctxOf k = (s.ctxOf k).rebuilt := entryAt_map s.ctx Ctx.rebuilt Ctx.fresh Ctx.fresh k hk
      exact ⟨congrArg Ctx.send at_k, congrArg Ctx.current at_k⟩
    · have out : w.ctxOf k = Ctx.fresh := by
        simp only [State.ctxOf, entryAt, Vector.getElem?_eq_none (Nat.le_of_not_lt hk), Option.getD_none]
      exact ⟨congrArg Ctx.send out, congrArg Ctx.current out⟩
  let u := (w.freeFilling.restartLines.restartMap).restartHighway hc hd
  have freed : QueuesOnly w w.freeFilling := foldl_queues (fun t m => (filed_freeRecord t m).resolved.queuesOnly) _ w
  have restarted : ∀ t : State, QueuesOnly t ((t.restartLines.restartMap).restartHighway hc hd) := fun _ => .of_ctx rfl
  have toU : QueuesOnly w u := freed.trans (restarted _)
  let v := (u.pullWithdrawn.1.reResolve u.pullWithdrawn.2).reexamine
  have toV : QueuesOnly w v := toU.trans
    (((resolved_pullWithdrawn u).trans (resolved_reResolve _ _)).trans (resolved_reexamine _)).queuesOnly
  have idleV : SendIdleIffNoEntry v := toV.idle fun k => Ctx.IdleIffNone.rests (rebuilt k).1 (rebuilt k).2
  have sendV : ∀ k, (v.ctxOf k).send = .idle := fun k => by
    have same := congrArg Ctx.send (toV k)
    exact Eq.trans same (rebuilt k).1
  have picked := picks_idle (List.range 8) v List.nodup_range (fun l hl => ⟨List.mem_range.1 hl, sendV l⟩) idleV
  have last : ∀ t : State, QueuesOnly t (t.makeMusterPending.request .start).touchAll := fun t =>
    QueuesOnly.trans (.of_ctx (t := t.makeMusterPending) rfl) ((resolved_request _ _).queuesOnly.trans
      (foldl_queues (fun x g => (filed_touch x g).resolved.queuesOnly) _ _))
  exact (last _).idle picked

/-- A station whose contexts are fresh. -/
theorem fresh_idle {s : State} (h : s.ctx = State.reset.ctx) : SendIdleIffNoEntry s := fun k => by
  rw [ctxOf_congr h, reset_ctxOf]
  exact Ctx.IdleIffNone.rests rfl rfl

end Sys2Proof.Machine

/-! PROOF. What every command keeps: the commands waiting, the agreement of the frame engine with its frame and its offer, the
scratch, and the circuits that are IDLE. -/

namespace Sys2Proof.Machine

/-! ## What every operation passes on -/

/-- The commands waiting are kept, the engine goes on agreeing with its frame and its offer, and the circuits go on being IDLE
exactly while nothing is in transmission on them. -/
structure Passes (s t : State) : Prop where
  pending : t.pending = s.pending
  engine : EngineAgrees s → EngineAgrees t
  idle : SendIdleIffNoEntry s → SendIdleIffNoEntry t

theorem Passes.trans {s t u : State} (a : Passes s t) (b : Passes t u) : Passes s u :=
  ⟨b.pending.trans a.pending, fun h => b.engine (a.engine h), fun h => b.idle (a.idle h)⟩

theorem Passes.refl (s : State) : Passes s s := ⟨rfl, id, id⟩

theorem Passes.of_parts {s t : State} (hp : t.pending = s.pending) (he : t.engine = s.engine) (ho : t.offered = s.offered)
    (hf : t.flight = s.flight) (hi : SendIdleIffNoEntry s → SendIdleIffNoEntry t) : Passes s t :=
  ⟨hp, fun h => by unfold EngineAgrees; rw [he, ho, hf]; exact h, hi⟩

theorem Passes.of_same {s t : State} (hp : t.pending = s.pending) (he : t.engine = s.engine)
    (ho : t.offered = s.offered) (hf : t.flight = s.flight) (hc : t.ctx = s.ctx) : Passes s t :=
  .of_parts hp he ho hf (QueuesOnly.of_ctx hc).idle

theorem Traffic.passes {s t : State} (h : Traffic s t) : Passes s t :=
  .of_parts h.pending h.engine h.offered h.flight h.queuesOnly.idle

theorem Resolved.passes {s t : State} (h : Resolved s t) : Passes s t := h.traffic.passes

theorem Lined.passes {l : Nat} {s t : State} (h : Lined l s t) (hi : SendIdleIffNoEntry s → SendIdleIffNoEntry t) :
    Passes s t := .of_parts h.pending h.engine h.offered h.flight hi

theorem Filed.passes {s t : State} (h : Filed s t) : Passes s t := h.traffic.passes

theorem Passes.ite {s t u : State} {p : Prop} [Decidable p] (ht : Passes s t) (hu : Passes s u) :
    Passes s (if p then t else u) := by split <;> assumption

theorem Passes.foldl {α : Type} {f : State → α → State} (h : ∀ s a, Passes s (f s a)) (l : List α) (s : State) :
    Passes s (l.foldl f s) :=
  foldl_keeps Passes Passes.refl Passes.trans f h l s

/-- A frame in progress stays in progress, in whatever state of it the engine is. -/
theorem Passes.inFrame {s t : State} {f : Flight} (hp : t.pending = s.pending) (hs : s.flight = some f)
    (ht : t.flight.isSome = true) (he : t.engine = s.engine ∨ t.engine.inFrame = true) (hc : t.ctx = s.ctx) :
    Passes s t := by
  refine ⟨hp, fun h => engineAgrees_inFrame ht ?_, (QueuesOnly.of_ctx hc).idle⟩
  rcases he with e | e
  · rw [e]; exact h.inFrame hs
  · exact e

theorem Passes.atRest {s t : State} (hp : t.pending = s.pending) (ht : t.atRest) (hc : t.ctx = s.ctx) : Passes s t :=
  ⟨hp, fun _ => engineAgrees_atRest ht, (QueuesOnly.of_ctx hc).idle⟩

theorem passes_ownFrameOver (s : State) (v : Bool) (p : Parting) (r : Bool) : Passes s (s.ownFrameOver v p r) :=
  .atRest rfl ⟨rfl, rfl⟩ rfl

theorem passes_leaveFrame (s : State) (r : Bool) : Passes s (s.leaveFrame r) := .atRest rfl ⟨rfl, rfl⟩ rfl

theorem passes_vetoedOutcome (s : State) (hd : Bool) : Passes s (s.vetoedOutcome hd) := by
  have ended : Passes s { s.ownFrameOver true ⟨true, hd⟩ false with streak := min Config.streakLimit (s.streak + 1) } :=
    .atRest rfl ⟨rfl, rfl⟩ rfl
  exact .ite (ended.trans (resolved_request _ _).passes) ended

theorem passes_readReceipts (s : State) (f : Frame) (heard take : List Nat) : Passes s (s.readReceipts f heard take) :=
  (passes_ownFrameOver s _ _ _).trans (traffic_readReceipts s f heard take).passes

theorem passes_endListening (s : State) (f : Flight) (r : Bool) : Passes s (s.endListening f r) := by
  have freed : Passes s (s.freeReserved f) := by
    unfold State.freeReserved
    split
    · exact .ite (.refl s) (filed_freeRecord s _).passes
    · exact .refl s
  exact (freed.trans (passes_leaveFrame _ r)).trans (traffic_noteSender _ f).passes

theorem passes_abandonFrame (s : State) (r : Bool) : Passes s (s.abandonFrame r) := by
  unfold State.abandonFrame
  split
  · exact .of_same rfl rfl rfl rfl rfl
  · exact .ite (passes_ownFrameOver s _ _ _) (passes_endListening s _ r)

theorem passes_enterStuck (s : State) : Passes s s.enterStuck := by
  have left : (s.abandonFrame false).flight = none := by
    unfold State.abandonFrame
    split
    case h_1 e => exact e
    case h_2 f _ =>
      split
      · rfl
      · exact (traffic_noteSender ((s.freeReserved f).leaveFrame false) f).flight
  have stuck : Passes (s.abandonFrame false)
      { s.abandonFrame false with engine := .stuck, timers := .outside false, parting := .released } :=
    ⟨rfl, fun _ => engineAgrees_stuck left rfl, id⟩
  exact ((passes_abandonFrame s false).trans stuck).trans (resolved_request _ _).passes

/-! ## The end of an event -/

theorem build_ctx (s : State) : s.build.ctx = s.ctx := by
  unfold State.build
  split
  · dsimp only
    split <;> rfl
  · rfl

theorem passes_build (s : State) : Passes s s.build := by
  refine ⟨(kept_build s).pending, fun h => ?_, (QueuesOnly.of_ctx (build_ctx s)).idle⟩
  obtain ⟨hflight, hidle, hwait⟩ := h
  by_cases hr : s.running = true
  case neg =>
    have e : s.build = s := if_neg fun h => hr h.1
    rw [e]
    exact ⟨hflight, hidle, hwait⟩
  case pos =>
    by_cases rests : s.engine = .idle ∨ s.engine = .waitingIdle
    · refine engineAgrees_atRest ⟨?_, build_engine_of_resting hr rests⟩
      have hn : s.flight.isSome = false := by rw [hflight]; rcases rests with e | e <;> rw [e] <;> rfl
      rw [build_flight, Option.isSome_eq_false_iff.1 hn |> Option.isNone_iff_eq_none.1]
    · obtain ⟨h₁, h₂⟩ := not_or.1 rests
      have e := build_engine_of_busy h₁ h₂
      refine ⟨by rw [build_flight, e]; exact hflight, fun h => absurd (e.symm.trans h) h₁,
        fun h => absurd (e.symm.trans h) h₂⟩

theorem passes_markCut (s : State) : Passes s s.markCut := by
  obtain ⟨f, h⟩ := markCut_of_flight s
  refine ⟨(kept_markCut s).pending, fun k => ?_, (QueuesOnly.of_ctx (by rw [h])).idle⟩
  obtain ⟨hflight, hoffer⟩ := k
  have hf := markCut_flight s
  rw [h] at hf ⊢
  exact ⟨by rw [← hflight]; show f.isSome = _; rw [show f = _ from hf, Option.isSome_map], hoffer⟩

theorem passes_settle (s : State) : Passes s s.settle :=
  ((sent_settle s).lined 0).passes fun h => idleIffNone_prop.settle h

theorem passes_finish (s : State) : Passes s s.finish := by
  have ended : ∀ t : State, Passes t ({ t with ev := Event.none }.driveOalm) := fun _ => .of_same rfl rfl rfl rfl rfl
  exact (((passes_settle s).trans (passes_markCut _)).trans (passes_build _)).trans (ended _)



/-! ## The restarts and the rest of a service message -/

theorem passes_elim {α : Type} {s : State} {f : α → State} (o : Option α) (h : ∀ a, Passes s (f a)) :
    Passes s (o.elim s f) := by
  cases o with
  | none => exact .refl s
  | some a => exact h a

theorem passes_restartHighway (s : State) (hc hd : Bool) : Passes s (s.restartHighway hc hd) := .atRest rfl ⟨rfl, rfl⟩ rfl

theorem passes_touchAll (s : State) : Passes s s.touchAll := .foldl (fun t g => (filed_touch t g).passes) _ s

/-- The end of a WARM restart, from contexts picked to the gauges marked (R198). -/
theorem passes_restartEnd {s w : State} (hp : w.pending = s.pending) (he : w.engine = .idle) (ho : w.offered = none)
    (hf : w.flight = none)
    (hi : SendIdleIffNoEntry s → SendIdleIffNoEntry (w.makeMusterPending.request .start).touchAll) :
    Passes s (w.makeMusterPending.request .start).touchAll := by
  have last : Resolved w.makeMusterPending (w.makeMusterPending.request .start).touchAll :=
    (resolved_request _ _).trans (Filed.foldl filed_touch _ _).resolved
  refine ⟨last.pending.trans hp, fun _ => engineAgrees_atRest ⟨last.flight.trans hf, ?_⟩, hi⟩
  rw [last.engine, last.offered]
  show w.engine = if w.offered.isSome then _ else _
  rw [he, ho]
  rfl

theorem passes_warmRestart (s : State) (hc hd : Bool) : Passes s (s.warmRestart hc hd) := by
  let w : State := { s with restart := s.restart.begun .warm }.warmBlocks
  let u := ((w.freeFilling.restartLines).restartMap).restartHighway hc hd
  have filled : ∀ t : State, Filed t t.freeFilling := fun t => Filed.foldl filed_freeRecord _ t
  have pendingU : u.pending = s.pending := (filled w).resolved.pending
  have pulled : ∀ t : State, Resolved t (t.pullWithdrawn.1.reResolve t.pullWithdrawn.2).reexamine := fun t =>
    ((resolved_pullWithdrawn t).trans (resolved_reResolve _ _)).trans (resolved_reexamine _)
  have picked : ∀ t : State, Lined 0 t ((List.range 8).foldl (fun t l => if t.hasCtx l then t.pick l else t) t) :=
    fun t => .foldl (fun v l => .ite ((sent_pick v l).lined 0) (.refl 0 v)) _ t
  have toPicks := ((pulled u).lined 0).trans (picked _)
  exact passes_restartEnd (toPicks.pending.trans pendingU) toPicks.engine toPicks.offered toPicks.flight
    fun _ => warmRestart_idle s hc hd

theorem passes_moveAdmin (a : Admin) (s : State) (c : Nat) : Passes s (State.moveAdmin a s c) :=
  (Passes.of_same (s := s) (t := s.setAdmin (lineOf c) a) rfl rfl rfl rfl rfl).trans (traffic_updateCondition _ _).passes

theorem passes_returnIn (s : State) (c : Nat) : Passes s (s.returnIn c) :=
  Passes.trans (.ite ((lined_setMas s _ _).passes (setMas_queues s _ _).idle) (.refl s)) (.ite (filed_owePick _ _).passes (.refl _))

theorem passes_withdrawalTest (s : State) (l : Nat) (q : Bool) (c : Option FailureCounts) :
    Passes s (s.withdrawalTest l q c) := (lined_withdrawalTest s l q c).passes (withdrawalTest_queues s l q c).idle

theorem passes_circuitRequest (s : State) (img : Image) (q : Rest) : Passes s (s.circuitRequest img q).1 := by
  have admins : ∀ (a : Admin) (cs : List Nat) (t : State), Passes t (cs.foldl (State.moveAdmin a) t) :=
    fun a cs t => .foldl (passes_moveAdmin a) cs t
  have tests : ∀ (cs : List Nat) (t : State), Passes t (cs.foldl (fun t c => t.withdrawalTest (lineOf c) true none) t) :=
    fun cs t => .foldl (fun u c => passes_withdrawalTest u (lineOf c) true none) cs t
  have returns : ∀ (cs : List Nat) (t : State), Passes t (cs.foldl State.returnIn t) :=
    fun cs t => .foldl passes_returnIn cs t
  exact ((((((admins _ _ s).trans (admins _ _ _)).trans (resolved_pullQueues _ _).passes).trans
    (resolved_reResolve _ _).passes).trans (tests _ _)).trans (returns _ _)).trans (resolved_reexamine _).passes

theorem passes_moveDiverted (s : State) (c : Nat) : Passes s (s.moveDiverted c) :=
  ((resolved_pullQueue s _).passes.trans (resolved_reResolve _ _).passes).trans (resolved_reexamine _).passes

theorem passes_restSteps (s : State) (img : Image) (q : Rest) : Passes s (s.restSteps img q) := by
  have asked : ∀ t : State, Passes t (t.requestIfAny img q).1 := fun t => by
    unfold State.requestIfAny
    split
    · exact .refl t
    · exact passes_circuitRequest t img q
  have all := (Passes.foldl passes_moveDiverted q.moves s).trans (asked _)
  exact .ite all (all.trans (resolved_request _ _).passes)

/-! ## What a command keeps -/

/-- What every command keeps: the commands waiting, the agreement of the engine with its frame and its offer, and a scratch
with nothing under way. -/
structure CommandStep (s t : State) : Prop extends Passes s t where
  scratch : ScratchEmpty s → ScratchEmpty t

theorem Passes.toStep {s t : State} (h : Passes s t) (e : t.ev = s.ev) : CommandStep s t :=
  ⟨h, fun k => e.trans k⟩

/-- A command that ends its event. -/
theorem Passes.finishes {s t : State} (h : Passes s t) : CommandStep s t.finish :=
  ⟨h.trans (passes_finish t), fun _ => finish_ev t⟩

theorem CommandStep.refl (s : State) : CommandStep s s := (Passes.refl s).toStep rfl

theorem CommandStep.trans {s t u : State} (a : CommandStep s t) (b : CommandStep t u) : CommandStep s u :=
  ⟨a.toPasses.trans b.toPasses, fun h => b.scratch (a.scratch h)⟩

theorem CommandStep.of_same {s t : State} (hp : t.pending = s.pending) (he : t.engine = s.engine)
    (ho : t.offered = s.offered) (hf : t.flight = s.flight) (hc : t.ctx = s.ctx) (hv : t.ev = s.ev) : CommandStep s t :=
  (Passes.of_same hp he ho hf hc).toStep hv

theorem CommandStep.inFrame {s t : State} {f : Flight} (hp : t.pending = s.pending) (hs : s.flight = some f)
    (ht : t.flight.isSome = true) (he : t.engine = s.engine ∨ t.engine.inFrame = true) (hc : t.ctx = s.ctx)
    (hv : t.ev = s.ev) : CommandStep s t :=
  (Passes.inFrame hp hs ht he hc).toStep hv

theorem CommandStep.ite {s t u : State} {p : Prop} [Decidable p] (ht : CommandStep s t) (hu : CommandStep s u) :
    CommandStep s (if p then t else u) := by split <;> assumption

theorem CommandStep.elim {α : Type} {s : State} {f : α → State} (o : Option α) (h : ∀ a, o = some a → CommandStep s (f a)) :
    CommandStep s (o.elim s f) := by
  cases o with
  | none => exact .refl s
  | some a => exact h a rfl

/-! ## The frame engine -/

section
variable {s : State} {f : Flight} (hf : s.flight = some f)
include hf

theorem commandStep_setFlight (g : Flight) : CommandStep s (s.setFlight g) := .inFrame rfl hf rfl (.inl rfl) rfl rfl

theorem commandStep_setTimers (x : HwTimers) (g : Flight) : CommandStep s ({ s with timers := x }.setFlight g) :=
  .inFrame rfl hf rfl (.inl rfl) rfl rfl

theorem passes_discardFrame (g : Flight) : Passes s (s.discardFrame g) := by
  have freed := filed_freeReserved s g
  obtain ⟨st, e, h⟩ := freed
  unfold State.discardFrame
  rw [h]
  exact .inFrame rfl hf rfl (.inl rfl) rfl

omit hf in
theorem passes_setParting (s : State) (p : Parting) : Passes s { s with parting := p } := .of_same rfl rfl rfl rfl rfl

theorem commandStep_handCell (g : Flight) (b : Byte) : CommandStep s (s.handCell g b) := by
  unfold State.handCell
  split
  · split
    case h_1 m _ => exact .inFrame (t := (s.write m (symbolOf b)).setFlight g) rfl hf rfl (.inl rfl) rfl rfl
    case h_2 => exact commandStep_setFlight hf g
  · exact .ite (passes_discardFrame hf _).finishes (commandStep_setFlight hf _)

theorem commandStep_nineBits (g : Flight) : CommandStep s (s.nineBits g) :=
  .ite (commandStep_handCell hf g _) (commandStep_setFlight hf _)

theorem commandStep_cellEnd (g : Flight) : CommandStep s (s.cellEnd g) := by
  unfold State.cellEnd
  exact .ite (.inFrame rfl hf rfl (.inr rfl) rfl rfl) (.ite (.inFrame rfl hf rfl (.inr rfl) rfl rfl) (commandStep_setFlight hf _))

theorem commandStep_listenerSample (hd : Bool) : CommandStep s (s.listenerSample f hd) := by
  have timed : CommandStep s { s with timers := .high } := .of_same rfl rfl rfl rfl rfl rfl
  have vetoed : CommandStep s
      { ({ s with timers := .high }.endListening f false) with parting := ⟨false, f.vetoing⟩ }.finish :=
    ((timed.toPasses.trans (passes_endListening _ f false)).trans (passes_setParting _ _)).finishes
  unfold State.listenerSample
  refine .ite (commandStep_setTimers hf _ _) (.ite (.refl s) (.ite (.ite ?_ vetoed) (.ite ?_ ?_)))
  · exact timed.trans (commandStep_cellEnd (s := { s with timers := .high }) hf f)
  · exact timed.trans (commandStep_nineBits (s := { s with timers := .high }) hf _)
  · exact commandStep_setTimers hf _ _

theorem commandStep_loseArbitration : CommandStep s (s.loseArbitration f) := by
  have turned : CommandStep s { s with engine := .listening, timers := .high } :=
    .inFrame rfl hf (by rw [show ({ s with engine := .listening, timers := .high } : State).flight = s.flight from rfl, hf]; rfl)
      (.inr rfl) rfl rfl
  unfold State.loseArbitration
  split
  · exact .refl s
  · exact .ite (turned.trans (commandStep_nineBits (s := { s with engine := .listening, timers := .high }) hf _))
      (turned.trans (commandStep_setFlight (s := { s with engine := .listening, timers := .high }) hf _))

theorem commandStep_senderSample (hd : Bool) : CommandStep s (s.senderSample f hd) := by
  have timed : CommandStep s { s with timers := .high } := .of_same rfl rfl rfl rfl rfl rfl
  have vetoed := (timed.toPasses.trans (passes_vetoedOutcome _ s.pullsHd)).finishes
  unfold State.senderSample
  refine .ite (.ite (timed.trans (commandStep_cellEnd (s := { s with timers := .high }) hf f)) vetoed)
    (.ite (commandStep_setTimers hf _ _) (.ite ?_ vetoed))
  exact (timed.trans (commandStep_loseArbitration (s := { s with timers := .high }) hf)).toPasses.finishes

theorem commandStep_senderReceipt (hd : Bool) : CommandStep s (s.senderReceipt f hd) := by
  unfold State.senderReceipt
  dsimp only
  split
  · split
    · exact (passes_readReceipts s _ _ _).finishes
    · exact .refl s
  · exact commandStep_setTimers hf _ _

theorem commandStep_applyFrame : CommandStep s (s.applyFrame f) := by
  have entered := (commandStep_setTimers hf s.timers.atTake
    { f with slot := f.slot + 1, slotBegun := false, hdRead := false, applied := true }).toPasses
  have applied : ∀ t : State, Traffic t (if rxKind f.rx = 0 then t.applyCondition f.rx
      else if rxKind f.rx = 1 then t.applyMuster f.rx else f.reserved.elim t (t.commitCarry f.rx)) := by
    refine fun t => .ite (traffic_applyCondition t _) (.ite (traffic_applyMuster t _) ?_)
    cases f.reserved with
    | none => exact .refl t
    | some m => exact traffic_commitCarry t _ m
  exact ((entered.trans (applied _).passes).trans (traffic_drawn _).passes).finishes

theorem commandStep_listenerReceipt (hd : Bool) : CommandStep s (s.listenerReceipt f hd) :=
  .ite (commandStep_setTimers hf _ _) (.ite (commandStep_setTimers hf _ _) (.ite (.refl s)
    (.ite (commandStep_applyFrame hf) (commandStep_setTimers hf _ _))))

end

theorem commandStep_clockRises (s : State) (hd : Bool) : CommandStep s (s.clockRises hd) := by
  unfold State.clockRises
  split
  case h_1 | h_2 | h_3 => exact .of_same rfl rfl rfl rfl rfl rfl
  all_goals exact .refl s

theorem commandStep_cutFrame (s : State) : CommandStep s s.cutFrame := by
  have left : Passes s { s.abandonedOutcome ⟨true, false⟩ false with timers := .low } := .atRest rfl ⟨rfl, rfl⟩ rfl
  exact left.finishes

theorem commandStep_clockFalls (s : State) : CommandStep s s.clockFalls := by
  have timed : CommandStep s { s with timers := .low } := .of_same rfl rfl rfl rfl rfl rfl
  unfold State.clockFalls
  split
  case h_1 | h_2 | h_3 => exact .of_same rfl rfl rfl rfl rfl rfl
  all_goals exact .ite (commandStep_cutFrame s) timed

theorem commandStep_stopSeen (s : State) (b : Bool) : CommandStep s (s.stopSeen b) := by
  have seen : CommandStep s { s with timers := .outside true, parting := .released } := .of_same rfl rfl rfl rfl rfl rfl
  unfold State.stopSeen
  split
  case h_1 | h_2 => exact .ite (.refl s) seen
  all_goals exact .refl s

theorem commandStep_sample (s : State) (hd : Bool) : CommandStep s (s.sample hd) := by
  unfold State.sample
  split
  case h_1 => exact .refl s
  case h_2 f hf =>
    have sender := CommandStep.ite (p := s.cutsNext f = true)
      ((commandStep_cutFrame s).trans (commandStep_clockRises _ hd)) (commandStep_senderSample hf hd)
    split
    case h_1 | h_2 => exact sender
    case h_3 => exact commandStep_listenerSample hf hd
    case h_4 => exact .ite (commandStep_senderReceipt hf hd) (commandStep_listenerReceipt hf hd)
    all_goals exact .refl s

theorem passes_reserveCarry {s : State} {f : Flight} (hf : s.flight = some f) : Passes s (s.reserveCarry f) := by
  unfold State.reserveCarry
  dsimp only
  split
  case h_1 m u h =>
    obtain ⟨st, e, rfl⟩ := filed_reserve h
    exact .inFrame rfl hf rfl (.inl rfl) rfl
  case h_2 => exact (commandStep_setTimers hf _ _).toPasses

/-! ## The commands -/

theorem commandStep_lost (s : State) (p : Phase) (r : RestartRecord) (k : Nat) (cs : Bool) (out : List Bool) :
    CommandStep s { s.blockLoss with phase := p, restart := r, station := k, cfgCs := cs, cfgOut := out } :=
  ⟨⟨rfl, fun _ => engineAgrees_atRest ⟨rfl, rfl⟩, fun _ => fresh_idle rfl⟩, fun _ => rfl⟩

theorem commandStep_hardwareCause (s : State) (k : RestartKind) : CommandStep s (s.hardwareCause k) := by
  unfold State.hardwareCause
  split
  case h_1 | h_2 => exact .refl s
  case h_3 => exact .of_same rfl rfl rfl rfl rfl rfl
  all_goals exact commandStep_lost s _ _ _ _ _

theorem passes_endLoad (s : State) (image : List Byte) (hc hd : Bool) : Passes s (s.endLoad image hc hd) := by
  unfold State.endLoad
  dsimp only
  refine Passes.trans ?_ (resolved_request _ _).passes
  exact ⟨rfl, fun _ => engineAgrees_atRest ⟨rfl, rfl⟩, fun _ => fresh_idle rfl⟩

theorem commandStep_fixedRestart (s : State) (straps : BitVec 4) (hc hd : Bool) (k : Option RestartKind) :
    CommandStep s (s.fixedRestart straps hc hd k) := by
  unfold State.fixedRestart
  split
  case h_1 => exact ((passes_settle s).trans (passes_warmRestart _ hc hd)).finishes
  case h_2 =>
    exact (CommandStep.of_same rfl rfl rfl rfl rfl rfl : CommandStep s { s with restart := s.restart.begun .cold }).trans
      (commandStep_lost _ _ _ _ _ _)
  all_goals exact (Passes.refl s).finishes

theorem commandStep_serviceRest (s : State) (straps : BitVec 4) (hc hd : Bool) :
    CommandStep s (s.serviceRest straps hc hd) := by
  unfold State.serviceRest
  split
  case h_1 img q qs _ _ =>
    have taken : Passes s { s with rests := qs } := .of_same rfl rfl rfl rfl rfl
    have rested := taken.trans (passes_restSteps _ img q)
    unfold State.fixedRestart
    split
    case h_1 => exact ((rested.trans (passes_settle _)).trans (passes_warmRestart _ hc hd)).finishes
    case h_2 =>
      have begun : ∀ t : State, Passes t { t with restart := t.restart.begun .cold } := fun _ => .of_same rfl rfl rfl rfl rfl
      exact ⟨(rested.trans (begun _)).trans (commandStep_lost _ _ _ _ _ _).toPasses, fun _ => rfl⟩
    all_goals exact rested.finishes
  case h_2 => exact .refl s

theorem commandStep_rxdLevel (s : State) (l : Nat) (marking : Bool) : CommandStep s (s.rxdLevel l marking) :=
  .ite (.refl s) (.ite (.of_same rfl rfl rfl rfl rfl rfl) (.of_same rfl rfl rfl rfl rfl rfl))

theorem commandStep_vetoTaken {s : State} {f : Flight} : CommandStep s (s.vetoTaken f) :=
  .ite (passes_endListening s f false).finishes (commandStep_sample s false)

theorem commandStep_setLine (s : State) (l : Nat) (x : Line) : CommandStep s (s.setLine l x) :=
  .of_same rfl rfl rfl rfl rfl rfl

theorem passes_deliver (s : State) (img : Image) (l : Nat) (σ : Symbol) : Passes s (s.deliver img l σ) :=
  (lined_deliver s img l σ).passes (assembles_queues.deliver s img l σ).idle

theorem passes_lineFails (s : State) (img : Image) {l : Nat} (hl : l < 8) : Passes s (s.lineFails img l) :=
  (lined_lineFails s img l).passes (lineFails_idle hl)

theorem passes_lineRestored (s : State) (l : Nat) : Passes s (s.lineRestored l) :=
  (traffic_updateCondition s l).passes.trans (lineRestored_resolved s l).passes

theorem passes_dispatchCompletion (s : State) {l : Nat} (hl : l < 8) : Passes s (s.dispatchCompletion l) :=
  (lined_dispatchCompletion s l).passes (dispatchCompletion_keepsIdle hl)

/-- What an outcome must be: a next state that keeps what every command keeps. -/
def AnswersNext (s : State) (o : Host.Outcome State Fault Refusal) : Prop := ∃ t, o = .next t ∧ CommandStep s t

theorem answersNext_whenever {g : Bool} {s t : State} (h : g = true → CommandStep s t) :
    AnswersNext s (whenever g s t) := by
  cases g with
  | true => exact ⟨t, rfl, h rfl⟩
  | false => exact ⟨s, rfl, .refl s⟩

theorem answersNext_onLine {l : Nat} {s : State} {o : Host.Outcome State Fault Refusal} (hl : lineOk l = true)
    (h : AnswersNext s o) : AnswersNext s (onLine l o) := by
  rw [onLine_ok (decide_eq_true_iff.1 hl)]
  exact h

theorem answersNext_onStation {k : Nat} {s : State} {o : Host.Outcome State Fault Refusal} (hk : stationOk k = true)
    (h : AnswersNext s o) : AnswersNext s (onStation k o) := by
  rw [onStation_ok (decide_eq_true_iff.1 hk)]
  exact h

/-- A frame is entered (R123). -/
theorem commandStep_enterFrame (s : State) {e : Engine} (he : e.inFrame = true) (f : Flight) :
    CommandStep s { s with engine := e, flight := some f, timers := .high, parting := .released } :=
  ⟨⟨rfl, fun _ => engineAgrees_inFrame rfl he, id⟩, id⟩

/-- Every well-formed command answers a next state and keeps what every command keeps. -/
theorem commandStep_exec (c : Instr) (s : State) (hw : c.wf = true) : AnswersNext s (exec c s) := by
  cases c with
  | powerOn => exact answersNext_whenever fun _ => commandStep_lost s _ _ _ _ _
  | supplyDip => exact ⟨_, rfl, commandStep_hardwareCause s _⟩
  | restartPin => exact ⟨_, rfl, commandStep_hardwareCause s _⟩
  | restartHoldEnd straps => exact answersNext_whenever fun _ => commandStep_lost s _ _ _ _ _
  | configurationLoadEnd image hc hd => exact answersNext_whenever fun _ => (passes_endLoad s image hc hd).finishes
  | supplyRemoved => exact answersNext_whenever fun _ => commandStep_lost s _ _ _ _ _
  | rxdLevelChange l marking => exact answersNext_onLine hw ⟨_, rfl, commandStep_rxdLevel s l marking⟩
  | startSample l => exact answersNext_onLine hw (answersNext_whenever fun _ => commandStep_setLine s l _)
  | characterArrival l code =>
    refine answersNext_onLine hw (answersNext_whenever fun _ => .elim _ fun img _ => ?_)
    refine Passes.finishes ?_
    have set := (commandStep_setLine s l (((s.line l).sampleUnits (unitLevels code)).1.arrive img
      (codeOfUnits ((s.line l).sampleUnits (unitLevels code)).2)).1).toPasses
    exact set.trans (passes_elim _ fun σ => passes_deliver _ img l σ)
  | openLineExpiry l =>
    refine answersNext_onLine hw (answersNext_whenever fun _ => .elim _ fun img _ => ?_)
    exact ((commandStep_setLine s l _).toPasses.trans (passes_lineFails _ img (decide_eq_true_iff.1 hw))).finishes
  | restoreExpiry l =>
    refine answersNext_onLine hw (answersNext_whenever fun _ => ?_)
    exact ((commandStep_setLine s l _).toPasses.trans (passes_lineRestored _ l)).finishes
  | characterCompletion l =>
    refine answersNext_onLine hw (answersNext_whenever fun _ => ?_)
    exact ((commandStep_setLine s l _).toPasses.trans (passes_dispatchCompletion _ (decide_eq_true_iff.1 hw))).finishes
  | insertedShiftEnd l =>
    exact answersNext_onLine hw (answersNext_whenever fun _ => .elim _ fun _ _ => commandStep_setLine s l _)
  | drainingEnd l =>
    exact answersNext_onLine hw (answersNext_whenever fun _ => .elim _ fun _ _ => commandStep_setLine s l _)
  | officeMinuteAdvance =>
    refine answersNext_whenever fun _ => Passes.finishes ?_
    exact (.of_same rfl rfl rfl rfl rfl : Passes s { s with minute := s.minute + 1 }).trans (passes_touchAll _)
  | holdLimitExpiry =>
    refine answersNext_whenever fun _ => (Passes.foldl (fun t x => ?_) _ s).finishes
    have sent := (placed_sendToIntercept t x.1 x.2).resolved.passes
    unfold State.expireSlot
    dsimp only
    split
    · exact sent.trans (filed_setSlotState _ _ _ _).passes
    all_goals exact sent
  | serviceMessageRest straps hc hd => exact answersNext_whenever fun _ => commandStep_serviceRest s straps hc hd
  | frameStart =>
    exact answersNext_whenever fun _ => .elim _ fun o _ => commandStep_enterFrame s rfl _
  | frameStartHeard => exact answersNext_whenever fun _ => commandStep_enterFrame s rfl _
  | arbitrationLost => exact answersNext_whenever fun _ => commandStep_sample s _
  | collision => exact answersNext_whenever fun _ => commandStep_sample s _
  | veto => exact answersNext_whenever fun _ => .elim _ fun _ _ => commandStep_vetoTaken
  | listenerParityVeto => exact answersNext_whenever fun _ => .elim _ fun _ _ => commandStep_sample s _
  | frameDiscard => exact answersNext_whenever fun _ => .elim _ fun _ _ => commandStep_sample s _
  | bitSample hd => exact answersNext_whenever fun _ => .ite (commandStep_sample s hd) (commandStep_clockRises s hd)
  | receiptSlotBegin =>
    exact answersNext_whenever fun _ =>
      .ite (.elim _ fun f hf => commandStep_setTimers hf _ _) (commandStep_clockFalls s)
  | startOrStopNotOwn byStart =>
    have foreign : Passes s (s.foreignCondition byStart) :=
      .ite (passes_ownFrameOver s _ _ _) (passes_vetoedOutcome s _)
    exact answersNext_whenever fun _ => .ite foreign.finishes (.ite (commandStep_stopSeen s byStart) (.refl s))
  | stallExpiry => exact answersNext_whenever fun _ => (passes_abandonFrame s _).finishes
  | stuckExpiry => exact answersNext_whenever fun _ => (passes_enterStuck s).finishes
  | releaseExpiry hd =>
    refine answersNext_whenever fun hg => Passes.finishes ?_
    simp only [Bool.and_eq_true, decide_eq_true_iff] at hg
    obtain ⟨⟨-, hstuck⟩, -⟩ := hg
    have left : Passes s ({ s with timers := .outside hd }.restEngine) := by
      refine ⟨rfl, fun h => engineAgrees_atRest ⟨?_, rfl⟩, id⟩
      have hn : s.flight.isSome = false := by rw [h.1, hstuck]; rfl
      exact Option.isNone_iff_eq_none.1 (Option.isSome_eq_false_iff.1 hn)
    exact left.trans (resolved_request _ _).passes
  | carryReservation => exact answersNext_whenever fun _ => .elim _ fun f hf => (passes_reserveCarry hf).finishes
  | frameEndedEarly byStart =>
    exact answersNext_whenever fun _ => .elim _ fun f _ => (passes_endListening s f _).finishes
  | listenerFrameEnd =>
    exact answersNext_whenever fun _ => .elim _ fun f _ => (passes_endListening s f _).finishes
  | carryCommit => exact answersNext_whenever fun _ => .elim _ fun f hf => commandStep_applyFrame hf
  | conditionApply => exact answersNext_whenever fun _ => .elim _ fun f hf => commandStep_applyFrame hf
  | musterApply => exact answersNext_whenever fun _ => .elim _ fun f hf => commandStep_applyFrame hf
  | frameCompleted hd => exact answersNext_whenever fun _ => .elim _ fun f hf => commandStep_senderReceipt hf hd
  | notBeforePasses k =>
    exact answersNext_onStation hw (answersNext_whenever fun _ => (traffic_setPeer s k _).passes.finishes)

theorem exec_illFormed (c : Instr) (s : State) (hw : c.wf = false) : exec c s = .fault .illFormed := by
  have line : ∀ (l : Nat) (o : Host.Outcome State Fault Refusal), lineOk l = false → onLine l o = .fault .illFormed :=
    fun l o h => by rw [onLine, h]; rfl
  have station : ∀ (k : Nat) (o : Host.Outcome State Fault Refusal), stationOk k = false →
      onStation k o = .fault .illFormed := fun k o h => by rw [onStation, h]; rfl
  cases c with
  | rxdLevelChange l _ => exact line l _ hw
  | characterArrival l _ => exact line l _ hw
  | openLineExpiry l => exact line l _ hw
  | restoreExpiry l => exact line l _ hw
  | characterCompletion l => exact line l _ hw
  | drainingEnd l => exact line l _ hw
  | startSample l => exact line l _ hw
  | insertedShiftEnd l => exact line l _ hw
  | notBeforePasses k => exact station k _ hw
  | _ => exact nomatch hw

/-! ## The obligations -/

/-- Settles O2: every arm of `exec` answers a next state, and an ill-formed term is refused before its arm is looked at. -/
theorem wellFormedCommandsAnswerNext : Obligations.WellFormedCommandsAnswerNext := by
  refine fun c s => ⟨fun hw => ?_, exec_illFormed c s⟩
  obtain ⟨t, h, k⟩ := commandStep_exec c s hw
  exact ⟨t, h, k.pending⟩

/-- A step keeps what the command that it runs keeps; with no command waiting it changes nothing. -/
theorem step_cases {s t : State} (h : step s = .next t) :
    t = s ∨ ∃ cs, CommandStep { s with pending := cs } t := by
  unfold step at h
  split at h
  case h_1 => cases h; exact .inl rfl
  case h_2 c cs _ =>
    right
    cases hw : c.wf with
    | true =>
      obtain ⟨u, e, k⟩ := commandStep_exec c { s with pending := cs } hw
      cases h.symm.trans e
      exact ⟨cs, k⟩
    | false => cases h.symm.trans (exec_illFormed c _ hw)

/-- Settles O8. -/
theorem engineAgreesInvariant : Obligations.EngineAgreesInvariant := by
  intro s t h hstep
  rcases step_cases hstep with rfl | ⟨cs, k⟩
  · exact h
  · exact k.engine h

/-- Settles O7. -/
theorem sendIdleInvariant : Obligations.SendIdleInvariant := by
  intro s t h hstep
  rcases step_cases hstep with rfl | ⟨cs, k⟩
  · exact h
  · exact k.idle h

/-- Settles O9. -/
theorem scratchEmptyInvariant : Obligations.ScratchEmptyInvariant := by
  intro s t h hstep
  rcases step_cases hstep with rfl | ⟨cs, k⟩
  · exact h
  · exact k.scratch h

/-- Settles O1: `step` is `exec` on the command at the front. -/
theorem stepRunsTheFrontCommand : Obligations.StepRunsTheFrontCommand := fun _ _ _ => rfl

end Sys2Proof.Machine

/-! PROOF. The office minute and the alarm levels (R175 to R177, R179), and the rest of a service message with a fixed
restart (R183, R192, R198). -/

namespace Sys2Proof.Machine

/-! ## The office minute -/

theorem filed_touchAll (s : State) : Filed s s.touchAll := .foldl filed_touch _ s

/-- Settles O37: the marks of the gauges and the end of the event leave the minute. -/
theorem minuteAdvances : Obligations.MinuteAdvances := by
  intro s hr
  have k : Kept { s with minute := s.minute + 1 } ({ s with minute := s.minute + 1 }.touchAll).finish :=
    (filed_touchAll _).placed.sent.toKept.trans (kept_finish _)
  have hm := k.minute
  refine ⟨_, whenever_of hr _ _, ?_, ?_⟩
  · rw [hm]
    exact BitVec.toNat_add _ _
  · rw [hm]
    exact k

/-! ## The levels -/

theorem max?_eq_some {l : List Nat} {a : Nat} (h : l.max? = some a) : a ∈ l ∧ ∀ b ∈ l, b ≤ a :=
  List.max?_eq_some_iff.mp h

theorem oldestAge_none (s : State) (l : Nat) : s.oldestAge l = none ↔ (s.ctxOf l).entries = [] := by
  rw [State.oldestAge, List.max?_eq_none_iff, List.map_eq_nil_iff]

theorem oldestAge_some {s : State} {l a : Nat} (h : s.oldestAge l = some a) :
    (∃ e ∈ (s.ctxOf l).entries, a = capAge (ageOf s.minute e.queuedAt)) ∧
      ∀ e ∈ (s.ctxOf l).entries, capAge (ageOf s.minute e.queuedAt) ≤ a := by
  obtain ⟨ha, hle⟩ := max?_eq_some h
  obtain ⟨e, he, h⟩ := List.mem_map.mp ha
  exact ⟨⟨e, he, h.symm⟩, fun e' he' => hle _ (List.mem_map_of_mem he')⟩

theorem evaluateOne_off {s : State} {img : Image} {g : Gauge} (cs : List Change)
    (h : img.enabled g = false ∨ s.hasGauge g = false) : State.evaluateOne img (s, cs) g = (s, cs) := by
  refine if_neg ?_
  rcases h with h | h <;> simp [h]

theorem evaluateOne_on {s : State} {img : Image} {g : Gauge} (cs : List Change) (he : img.enabled g = true)
    (hg : s.hasGauge g = true) :
    State.evaluateOne img (s, cs) g =
      let w := (s.levels.get g).warning.move img.warningsLatched (causePresent g (s.measure g) (img.threshold g).warning)
      let a := (s.levels.get g).alarm.move img.alarmsLatched (causePresent g (s.measure g) (img.threshold g).alarm)
      ({ s with levels := s.levels.put g ⟨w.1, a.1⟩ },
        cs ++ (w.2.map fun raised => ⟨g, false, raised, s.measure g⟩).toList ++
          (a.2.map fun raised => ⟨g, true, raised, s.measure g⟩).toList) :=
  if_pos (by rw [hg, he]; rfl)

theorem evaluate_none {s : State} (hc : s.cfg = none) (gs : List Gauge) : s.evaluate gs = (s, []) := by
  rw [State.evaluate, hc]

theorem evaluate_some {s : State} {img : Image} (hc : s.cfg = some img) (gs : List Gauge) :
    s.evaluate gs = (allGauges.filter fun g => decide (g ∈ gs)).foldl (State.evaluateOne img) (s, []) := by
  rw [State.evaluate, hc]

/-- Settles O35: the table of `LevelState.move`, the measures, and one evaluation and one evaluation event. -/
theorem levelMoves : Obligations.LevelMoves := by
  refine ⟨fun _ => rfl, fun _ => rfl, fun _ => rfl, rfl, rfl, fun _ => rfl, fun _ => rfl, fun _ _ => rfl, ?causes, ?measures,
    fun s img cs g h => evaluateOne_off cs h, ?one, fun s gs => ⟨?unconfigured, ?event⟩⟩
  case causes =>
    exact fun v th => ⟨decide_eq_true_iff, decide_eq_true_iff, decide_eq_true_iff, fun l =>
      ⟨decide_eq_true_iff, decide_eq_true_iff⟩⟩
  case measures =>
    exact fun s => ⟨rfl, rfl, rfl, fun l => ⟨rfl, oldestAge_none s l, fun a h => oldestAge_some h⟩⟩
  case one =>
    intro s img cs g w a dw da he hg hw ha
    rw [evaluateOne_on cs he hg, hw, ha]
  case unconfigured =>
    intro hc
    rw [State.evaluateGauges, evaluate_none hc]
    rfl
  case event =>
    intro img t changes hc h
    rw [State.evaluateGauges, evaluate_some hc, h]
    simp

end Sys2Proof.Machine

/-! PROOF. The rest of a service message (R183) with a fixed restart: COLD (R191, R193) and WARM (R198). -/

namespace Sys2Proof.Machine

/-! ## The command -/

theorem exec_rest {s : State} {img : Image} {q : Rest} {qs : List Rest} (straps : BitVec 4) (hc hd : Bool)
    (hr : s.running = true) (hcfg : s.cfg = some img) (hq : s.rests = q :: qs) :
    exec (.serviceMessageRest straps hc hd) s =
      .next (({ s with rests := qs }.restSteps img q).fixedRestart straps hc hd q.restart) := by
  have rest : s.serviceRest straps hc hd = ({ s with rests := qs }.restSteps img q).fixedRestart straps hc hd q.restart := by
    unfold State.serviceRest
    rw [hcfg, hq]
  refine (whenever_of ?_ _ _).trans (congrArg _ rest)
  rw [State.configured, hr, hcfg, hq]
  rfl

/-! ## What the steps of the rest leave -/

theorem masOf_congr {s t : State} (h : t.mas = s.mas) (l : Nat) : t.masOf l = s.masOf l := by rw [State.masOf, h]; rfl

theorem adminOf_congr {s t : State} (h : t.admin = s.admin) (l : Nat) : t.adminOf l = s.adminOf l := by
  rw [State.adminOf, h]; rfl

theorem line_congr {s t : State} (h : t.lines = s.lines) (l : Nat) : t.line l = s.line l := by rw [State.line, h]; rfl

/-- What the moves of diverted circuits and a circuit request leave. -/
structure Serves (s t : State) : Prop where
  phase : t.phase = s.phase
  restart : t.restart = s.restart
  station : t.station = s.station
  cfg : t.cfg = s.cfg
  minute : t.minute = s.minute
  streak : t.streak = s.streak
  pending : t.pending = s.pending
  expected : ∀ l, (t.masOf l).expected = (s.masOf l).expected
  rstack : ∀ l, (t.masOf l).rstack = (s.masOf l).rstack

theorem Serves.trans {s t u : State} (a : Serves s t) (b : Serves t u) : Serves s u where
  phase := b.phase.trans a.phase
  restart := b.restart.trans a.restart
  station := b.station.trans a.station
  cfg := b.cfg.trans a.cfg
  minute := b.minute.trans a.minute
  streak := b.streak.trans a.streak
  pending := b.pending.trans a.pending
  expected l := (b.expected l).trans (a.expected l)
  rstack l := (b.rstack l).trans (a.rstack l)

theorem Lined.serves {s t : State} {l : Nat} (h : Lined l s t)
    (hm : (t.masOf l).expected = (s.masOf l).expected ∧ (t.masOf l).rstack = (s.masOf l).rstack) : Serves s t where
  phase := h.phase
  restart := h.restart
  station := h.station
  cfg := h.cfg
  minute := h.minute
  streak := h.streak
  pending := h.pending
  expected k := by
    by_cases hk : k = l
    · rw [hk]; exact hm.1
    · rw [h.mas k hk]
  rstack k := by
    by_cases hk : k = l
    · rw [hk]; exact hm.2
    · rw [h.mas k hk]

theorem Resolved.serves {s t : State} (h : Resolved s t) : Serves s t :=
  (h.lined 0).serves ⟨congrArg Mas.expected (masOf_congr h.mas 0), congrArg Mas.rstack (masOf_congr h.mas 0)⟩

theorem Sent.serves {s t : State} (h : Sent s t) : Serves s t :=
  (h.lined 0).serves ⟨congrArg Mas.expected (masOf_congr h.mas 0), congrArg Mas.rstack (masOf_congr h.mas 0)⟩

theorem Serves.refl (s : State) : Serves s s := (Resolved.refl s).serves

theorem Serves.ite {s t u : State} {p : Prop} [Decidable p] (ht : Serves s t) (hu : Serves s u) :
    Serves s (if p then t else u) := by split <;> assumption

theorem Serves.foldl {α : Type} {f : State → α → State} (h : ∀ s a, Serves s (f s a)) (l : List α) (s : State) :
    Serves s (l.foldl f s) :=
  foldl_keeps Serves .refl .trans f h l s

theorem serves_toHunt (s : State) (l : Nat) : Serves s (s.setMas l (s.masOf l).toHunt) :=
  (lined_setMas s l _).serves
    (masOf_setMas_of (P := fun x => x.expected = (s.masOf l).expected ∧ x.rstack = (s.masOf l).rstack) s l l _
      (fun _ => ⟨rfl, rfl⟩) ⟨rfl, rfl⟩)

theorem serves_updateCondition (s : State) (l : Nat) : Serves s (s.updateCondition l) := by
  have h := masOf_congr (traffic_updateCondition s l).mas l
  exact (lined_updateCondition s l).serves ⟨congrArg Mas.expected h, congrArg Mas.rstack h⟩

theorem serves_setAdmin (s : State) (l : Nat) (a : Admin) : Serves s (s.setAdmin l a) := by constructor <;> intros <;> rfl

theorem serves_moveAdmin (a : Admin) (s : State) (c : Nat) : Serves s (State.moveAdmin a s c) :=
  (serves_setAdmin s _ a).trans (serves_updateCondition _ _)

theorem serves_withdrawalTest (s : State) (l : Nat) (q : Bool) (c : Option FailureCounts) :
    Serves s (s.withdrawalTest l q c) := by
  unfold State.withdrawalTest
  dsimp only
  have moved := (serves_setAdmin s l .withdrawn).trans (serves_updateCondition _ l)
  have hunts := moved.trans (Serves.ite (p := (((s.setAdmin l .withdrawn).updateCondition l).masOf l).mode = .discard)
    (serves_toHunt _ l) (.refl _))
  exact .ite (.ite hunts (hunts.trans (resolved_request _ _).serves)) (.refl s)

theorem serves_returnIn (s : State) (c : Nat) : Serves s (s.returnIn c) :=
  (Serves.ite (serves_toHunt s _) (.refl s)).trans (.ite (filed_owePick _ _).resolved.serves (.refl _))

theorem serves_circuitRequest (s : State) (img : Image) (q : Rest) : Serves s (s.circuitRequest img q).1 := by
  have admins : ∀ (a : Admin) (cs : List Nat) (t : State), Serves t (cs.foldl (State.moveAdmin a) t) :=
    fun a cs t => .foldl (serves_moveAdmin a) cs t
  have tests : ∀ (cs : List Nat) (t : State), Serves t (cs.foldl (fun t c => t.withdrawalTest (lineOf c) true none) t) :=
    fun cs t => .foldl (fun u c => serves_withdrawalTest u (lineOf c) true none) cs t
  have returns : ∀ (cs : List Nat) (t : State), Serves t (cs.foldl State.returnIn t) :=
    fun cs t => .foldl serves_returnIn cs t
  exact ((((((admins _ _ s).trans (admins _ _ _)).trans (resolved_pullQueues _ _).serves).trans
    (resolved_reResolve _ _).serves).trans (tests _ _)).trans (returns _ _)).trans (resolved_reexamine _).serves

theorem resolved_moveDiverted (s : State) (c : Nat) : Resolved s (s.moveDiverted c) :=
  ((resolved_pullQueue s _).trans (resolved_reResolve _ _)).trans (resolved_reexamine _)

theorem resolved_moves (s : State) (cs : List Nat) : Resolved s (cs.foldl State.moveDiverted s) :=
  frames_resolved.foldl resolved_moveDiverted cs s

theorem serves_restSteps (s : State) (img : Image) (q : Rest) : Serves s (s.restSteps img q) := by
  have asked : ∀ t : State, Serves t (t.requestIfAny img q).1 := fun t => by
    unfold State.requestIfAny
    split
    · exact .refl t
    · exact serves_circuitRequest t img q
  have all := (resolved_moves s q.moves).serves.trans (asked _)
  exact .ite all (all.trans (resolved_request _ _).serves)

theorem requestIfAny_none {s : State} {img : Image} {q : Rest} (ho : q.outs = []) (hi : q.ins = []) :
    s.requestIfAny img q = (s, [], []) := by
  unfold State.requestIfAny
  rw [ho, hi]
  rfl

theorem requestIfAny_some {s : State} {img : Image} {q : Rest} (h : q.outs ≠ [] ∨ q.ins ≠ []) :
    s.requestIfAny img q = s.circuitRequest img q := by
  unfold State.requestIfAny
  rcases h with h | h <;> simp [h]

theorem restSteps_quiet {s : State} {img : Image} {q : Rest} (ho : q.outs = []) (hi : q.ins = []) (hc : q.restart ≠ some .cold) :
    s.restSteps img q = (q.moves.foldl State.moveDiverted s).request (.command q [] []) := by
  unfold State.restSteps
  rw [requestIfAny_none ho hi]
  exact if_neg hc

/-! ## COLD -/

/-- Settles O40. -/
theorem serviceRestCold : Obligations.ServiceRestCold := by
  intro s img q qs straps hc hd hr hcfg hq hres
  have h := serves_restSteps { s with rests := qs } img q
  generalize hu : { s with rests := qs }.restSteps img q = u at h
  refine ⟨({ u with restart := u.restart.begun .cold } : State).beginLoad straps, ?_, rfl, rfl, ?_, rfl,
    nothingHeld_blockLoss { u with restart := u.restart.begun .cold } _ _ _ _ _, h.pending⟩
  · rw [exec_rest straps hc hd hr hcfg hq, hres, hu]
    rfl
  · exact congrArg (fun r : RestartRecord => r.begun .cold) h.restart

/-! ## WARM -/

/-- The restart values of lines, map and highway. -/
def State.restarted (s : State) (hc hd : Bool) : State := ((s.restartLines).restartMap).restartHighway hc hd

theorem restarted_line (s : State) (hc hd : Bool) {l : Nat} (hl : l < 8) :
    (s.restarted hc hd).line l = Line.restarted (s.line l).rxd (s.kind l).receives (s.watches l) := by
  have lines : (s.restarted hc hd).lines = s.restartLines.lines := rfl
  exact (line_congr lines l).trans (line_restartLines s l hl)

theorem restarted_peer (s : State) (hc hd : Bool) {k : Nat} (hk : k < 16) (hne : k ≠ s.station) :
    (s.restarted hc hd).peer k = Peer.fresh :=
  (peersFresh_at s.station k _ _ hk).trans (if_neg hne)

/-- The station once its FILLING records are freed and its assemblers, admin states and contexts have their WARM values. -/
def State.warmFreed (s : State) : State := { s with restart := s.restart.begun .warm }.warmBlocks.freeFilling

theorem filed_warmFreed (s : State) : Filed { s with restart := s.restart.begun .warm }.warmBlocks s.warmFreed :=
  .foldl filed_freeRecord _ _

/-- The station as its slots are resolved again and its circuits picked (R198, steps 3 to 6). -/
def State.warmPicked (s : State) : State :=
  (List.range 8).foldl (fun t l => if t.hasCtx l then t.pick l else t)
    ((s.pullWithdrawn.1.reResolve s.pullWithdrawn.2).reexamine)

theorem warmRestart_eq (s : State) (hc hd : Bool) :
    s.warmRestart hc hd = (((s.warmFreed.restarted hc hd).warmPicked).makeMusterPending.request .start).touchAll := rfl

/-- Line 8 is none, so no line's assembler, admin state or condition changes. -/
theorem lined_warmPicked (s : State) : Lined 8 s s.warmPicked :=
  ((((resolved_pullWithdrawn s).trans (resolved_reResolve _ _)).trans (resolved_reexamine _)).lined 8).trans
    (.foldl (fun v l => .ite ((sent_pick v l).lined 8) (.refl 8 v)) _ _)

theorem lined_musterRequested (s : State) :
    Lined 8 { s with musterPending := s.makeMusterPending.musterPending } (s.makeMusterPending.request .start).touchAll :=
  ((resolved_request s.makeMusterPending .start).trans (filed_touchAll _).resolved).lined 8

/-- What a WARM restart leaves (R198). -/
structure Warmed (s t : State) : Prop where
  phase : t.phase = s.phase
  cfg : t.cfg = s.cfg
  station : t.station = s.station
  minute : t.minute = s.minute
  pending : t.pending = s.pending
  streak : t.streak = 0
  restart : t.restart = s.restart.begun .warm
  mas : ∀ l, l < 8 → t.masOf l = Mas.fresh (s.masOf l).expected
  admin : ∀ l, l < 8 → t.adminOf l = if s.adminOf l = .inn then .inn else .withdrawn
  receive : ∀ l, l < 8 → (t.line l).receiveSide = Line.restarted (s.line l).rxd (s.kind l).receives (s.watches l)
  peer : ∀ k, k < 16 → k ≠ s.station → { t.peer k with owed := [] } = Peer.fresh

theorem fittedPeers_congr {s t : State} (hc : t.cfg = s.cfg) (hs : t.station = s.station) : t.fittedPeers = s.fittedPeers := by
  unfold State.fittedPeers State.fitted
  rw [hc, hs]

theorem warmBlocks_masOf (s : State) {l : Nat} (hl : l < 8) :
    s.warmBlocks.masOf l = Mas.fresh (s.masOf l).expected :=
  entryAt_map s.mas (fun x => Mas.fresh x.expected) (Mas.fresh none) (Mas.fresh none) l hl

theorem warmBlocks_adminOf (s : State) {l : Nat} (hl : l < 8) :
    s.warmBlocks.adminOf l = if s.adminOf l = .inn then .inn else .withdrawn := by
  refine (entryAt_map s.admin Admin.afterWarm .inn .inn l hl).trans ?_
  show (s.adminOf l).afterWarm = _
  cases s.adminOf l <;> rfl

/-- The blocks and the highway restarted, before any slot moves; `t` is the station with its FILLING records freed. -/
theorem warmed_restarted {s t : State} (h : Filed { s with restart := s.restart.begun .warm }.warmBlocks t) (hc hd : Bool) :
    Warmed s (t.restarted hc hd) := by
  have r := h.resolved
  have hcfg : t.cfg = s.cfg := r.cfg
  have hst : t.station = s.station := r.station
  have hlines : t.lines = s.lines := r.lines
  exact
    { phase := r.phase
      cfg := r.cfg
      station := r.station
      minute := r.minute
      pending := r.pending
      streak := rfl
      restart := r.restart
      mas := fun l hl => by
        rw [masOf_congr (s := t) (t := t.restarted hc hd) rfl, masOf_congr r.mas, warmBlocks_masOf _ hl]
        rfl
      admin := fun l hl => by
        rw [adminOf_congr (s := t) (t := t.restarted hc hd) rfl, adminOf_congr r.admin, warmBlocks_adminOf _ hl]
        rfl
      receive := fun l hl => by
        rw [restarted_line t hc hd hl, line_congr hlines, kind_congr hcfg hst, watches_congr hcfg hst]
        rfl
      peer := fun k hk hne => by
        rw [restarted_peer t hc hd hk fun h => hne (h.trans hst)]
        rfl }

theorem Warmed.lined {s t u : State} (w : Warmed s t) (h : Lined 8 t u) : Warmed s u where
  phase := h.phase.trans w.phase
  cfg := h.cfg.trans w.cfg
  station := h.station.trans w.station
  minute := h.minute.trans w.minute
  pending := h.pending.trans w.pending
  streak := h.streak.trans w.streak
  restart := h.restart.trans w.restart
  mas l hl := (h.mas l (Nat.ne_of_lt hl)).trans (w.mas l hl)
  admin l hl := (h.admin l (Nat.ne_of_lt hl)).trans (w.admin l hl)
  receive l hl := (h.receive l).trans (w.receive l hl)
  peer k hk hne := by
    rw [← w.peer k hk hne, ← h.peer k]

theorem Warmed.muster {s t : State} (w : Warmed s t) (x : List Nat) : Warmed s { t with musterPending := x } where
  phase := w.phase
  cfg := w.cfg
  station := w.station
  minute := w.minute
  pending := w.pending
  streak := w.streak
  restart := w.restart
  mas := w.mas
  admin := w.admin
  receive := w.receive
  peer := w.peer

theorem warmRestart_warmed (s : State) (hc hd : Bool) :
    Warmed s (s.warmRestart hc hd) ∧ (s.cfg.isSome = true → (s.warmRestart hc hd).musterPending = s.fittedPeers) := by
  rw [warmRestart_eq]
  have w := (warmed_restarted (filed_warmFreed s) hc hd).lined (lined_warmPicked _)
  generalize (s.warmFreed.restarted hc hd).warmPicked = p at w
  have last := (resolved_request p.makeMusterPending .start).trans (filed_touchAll _).resolved
  refine ⟨(w.muster _).lined (last.lined 8), fun hsome => last.musterPending.trans ?_⟩
  refine Eq.trans (if_pos ?_) (fittedPeers_congr w.cfg w.station)
  rw [w.cfg, hsome]

/-- What the end of an event keeps, a station after a WARM restart keeps. -/
theorem Warmed.kept {s t u : State} (w : Warmed s t) (h : Kept t u) : Warmed s u where
  phase := h.phase.trans w.phase
  cfg := h.cfg.trans w.cfg
  station := h.station.trans w.station
  minute := h.minute.trans w.minute
  pending := h.pending.trans w.pending
  streak := h.streak.trans w.streak
  restart := h.restart.trans w.restart
  mas l hl := (masOf_congr h.mas l).trans (w.mas l hl)
  admin l hl := (adminOf_congr h.admin l).trans (w.admin l hl)
  receive l hl := (h.receive l).trans (w.receive l hl)
  peer k hk hne := by rw [State.peer, h.peers]; exact w.peer k hk hne

/-- Settles O41. -/
theorem serviceRestWarm : Obligations.ServiceRestWarm := by
  intro s img q qs straps hc hd hr hcfg hq hres ho hi
  generalize hv : (({ s with rests := qs } : State).restSteps img q).settle = v
  have rests : Lined 8 s { s with rests := qs } := by constructor <;> intros <;> rfl
  have l : Lined 8 s v := by
    rw [← hv, restSteps_quiet ho hi (by rw [hres]; decide)]
    exact rests.trans ((((resolved_moves _ _).trans (resolved_request _ _)).lined 8).trans ((sent_settle _).lined 8))
  obtain ⟨warmed, muster⟩ := warmRestart_warmed v hc hd
  have k := kept_finish (v.warmRestart hc hd)
  have w := warmed.kept k
  have rxd : ∀ k, (v.line k).rxd = (s.line k).rxd := fun k => by
    have h := congrArg Line.rxd (l.receive k)
    exact h
  have hcv : v.cfg = some img := l.cfg.trans hcfg
  refine ⟨_, ?_, w.phase.trans (l.phase.trans (of_decide_eq_true hr)), w.cfg.trans hcv, w.station.trans l.station,
    w.minute.trans l.minute, w.streak, w.pending.trans l.pending, ?_, ?_, fun k hk => ⟨?_, ?_, ?_⟩, fun k hk hne => ?_⟩
  · rw [exec_rest straps hc hd hr hcfg hq, hres, ← hv]
    rfl
  · rw [w.restart, l.restart]
    rfl
  · rw [k.musterPending, muster (by rw [hcv]; rfl), fittedPeers_congr l.cfg l.station]
  · rw [w.mas k hk, l.mas k (Nat.ne_of_lt hk)]
  · rw [w.admin k hk, l.admin k (Nat.ne_of_lt hk)]
  · rw [w.receive k hk, rxd, kind_congr l.cfg l.station, watches_congr l.cfg l.station]
    rfl
  · have p := w.peer k hk fun h => hne (h.trans l.station)
    exact ⟨congrArg Peer.presence p, congrArg Peer.flag p, congrArg Peer.edition p⟩

end Sys2Proof.Machine

/-! PROOF. What the resolution of slots does, said once (R68, R72 to R78, R180, R184): `Moves s t` says that `t` comes from
`s` by the resolver's own operations on slots, records and queues, each with what is known when it is used. A fact about
slots, records or queues that every resolution keeps needs only the few cases of `Moves`. -/

namespace Sys2Proof.Machine

/-! ## The relation -/

/-- How slots, their records and the queues change when slots are resolved and reports made. -/
inductive Moves : State → State → Prop where
  | trans {s t u : State} : Moves s t → Moves t u → Moves s u
  | other {s t : State} : Resolved s t → t.store = s.store → t.ctx = s.ctx → s.rests <+: t.rests → Moves s t
  | place (s : State) (m i c : Nat) : s.isOwn c = true → s.circuitAvailable c = true → Moves s (s.placeOwn m i (lineOf c))
  | carry (s : State) (m i : Nat) (x : Target) : Moves s (s.setSlotState m i (.carrying x))
  | hold (s : State) (m i : Nat) (w : HoldReason) : Moves s (s.holdSlot m i w)
  | bound (s : State) (m : Nat) (w : IntReason) : Moves s (s.setRecord m ((s.record m).toIntercept w))
  | release (s : State) (m : Nat) : Moves s (s.releaseIfDone m)
  | serve (s : State) (m : Nat) : ¬ s.noOwnService → Moves s (s.setRecord m { s.record m with served := true })
  | finish (s : State) (m i : Nat) (x : Option Target) : ¬ s.noOwnService → Moves s (s.setSlotState m i (.done x))
  | pseudo (s : State) (m i : Nat) (sl : Slot) : ¬ s.noOwnService → s.slot m i = some sl →
      Moves s (s.setSlot m i { sl with dest := .pseudo })
  | report {s t : State} {m : Nat} {c : OfficeCode} : Placed s t → t.ctx = s.ctx → m < 128 → (s.record m).state = .free →
      (∀ j, j ≠ m → t.record j = s.record j) → (t.record m).state = .standing →
      (t.record m).slots = [⟨.office c, .unrouted⟩] → Moves s t

theorem Moves.refl (s : State) : Moves s s := .other (.refl s) rfl rfl (List.prefix_refl _)

theorem Moves.ite {s t u : State} {p : Prop} [Decidable p] (ht : Moves s t) (hu : Moves s u) :
    Moves s (if p then t else u) := by split <;> assumption

theorem Moves.foldl {α : Type} {f : State → α → State} (h : ∀ s a, Moves s (f s a)) (l : List α) (s : State) :
    Moves s (l.foldl f s) :=
  foldl_keeps Moves .refl .trans f h l s

/-- A move changes no more than full resolution does. -/
theorem Moves.resolved {s t : State} (h : Moves s t) : Resolved s t := by
  induction h with
  | trans _ _ ih₁ ih₂ => exact ih₁.trans ih₂
  | other r _ _ _ => exact r
  | place s m i c _ _ => exact (placed_placeOwn s m i _).resolved
  | carry s m i x => exact (filed_setSlotState s m i _).resolved
  | hold s m i w => exact (filed_holdSlot s m i w).resolved
  | bound s m w => exact (filed_setRecord s m _).resolved
  | release s m => exact (filed_releaseIfDone s m).resolved
  | serve s m _ => exact (filed_setRecord s m _).resolved
  | finish s m i x _ => exact (filed_setSlotState s m i _).resolved
  | pseudo s m i sl _ _ => exact (filed_setSlot s m i _).resolved
  | report p _ _ _ _ _ _ => exact p.resolved

/-- What the commands of a message leave for its rest is added behind the rests already kept. -/
theorem Moves.rests {s t : State} (h : Moves s t) : s.rests <+: t.rests := by
  have filed : ∀ {s t : State}, Filed s t → s.rests <+: t.rests := by
    rintro s t ⟨st, e, rfl⟩
    exact List.prefix_refl _
  have placed : ∀ {s t : State}, Placed s t → s.rests <+: t.rests := by
    rintro s t ⟨st, e, n, cx, rfl, -⟩
    exact List.prefix_refl _
  induction h with
  | trans _ _ ih₁ ih₂ => exact ih₁.trans ih₂
  | other _ _ _ r => exact r
  | place s m i c _ _ => exact placed (placed_placeOwn s m i _)
  | carry s m i x => exact filed (filed_setSlotState s m i _)
  | hold s m i w => exact filed (filed_holdSlot s m i w)
  | bound s m w => exact filed (filed_setRecord s m _)
  | release s m => exact filed (filed_releaseIfDone s m)
  | serve s m _ => exact filed (filed_setRecord s m _)
  | finish s m i x _ => exact filed (filed_setSlotState s m i _)
  | pseudo s m i sl _ _ => exact filed (filed_setSlot s m i _)
  | report p _ _ _ _ _ _ => exact placed p

theorem noOwnService_congr {s t : State} (hc : t.cfg = s.cfg) (hs : t.station = s.station) :
    t.noOwnService ↔ s.noOwnService := by
  unfold State.noOwnService
  rw [hc, hs]

theorem Moves.noOwnService {s t : State} (h : Moves s t) : t.noOwnService ↔ s.noOwnService :=
  noOwnService_congr h.resolved.cfg h.resolved.station

/-! ## Where a slot goes -/

/-- A circuit that R69 and R70 give is available. -/
theorem routed_circuit {s : State} {img : Image} {r : Record} {sl : Slot} {c : Nat}
    (h : s.routed img r sl = some (.circuit c)) : s.circuitAvailable c = true := by
  unfold State.routed at h
  split at h
  · split at h
    case isTrue ha => cases h; exact ha
    case isFalse => cases h
  · split at h
    · cases h
    · exact List.find?_some (p := s.available) h

/-- A service that R70 gives stands in a route. -/
theorem routed_service {s : State} {img : Image} {r : Record} {sl : Slot} {k : Nat}
    (h : s.routed img r sl = some (.service k)) : ∃ e ∈ img.routes, some (.service k) ∈ e.targets := by
  unfold State.routed at h
  split at h
  · split at h <;> cases h
  · split at h
    · cases h
    · obtain ⟨x, hx, hj⟩ := List.mem_map.mp (List.mem_of_find?_eq_some h)
      have same : x = .service k := by
        cases x with
        | service j => exact hj
        | circuit c => rw [State.judged] at hj; split at hj <;> cases hj
      subst same
      unfold Image.lookup at hx
      cases hf : img.routes.find? _ with
      | none => rw [hf] at hx; cases hx
      | some e =>
        rw [hf] at hx
        refine ⟨e, List.mem_of_find?_eq_some hf, ?_⟩
        obtain ⟨y, hy, e⟩ := List.mem_filterMap.mp hx
        rw [← show y = _ from e]
        exact hy

theorem targetOf_circuit {s : State} {m i c : Nat} (h : s.targetOf m i none = some (.circuit c)) :
    s.circuitAvailable c = true := by
  unfold State.targetOf at h
  split at h
  · exact routed_circuit h
  · cases h

theorem targetOf_ownService {s : State} {m i : Nat} (h : s.targetOf m i none = some (.service s.station)) :
    ¬ s.noOwnService := by
  unfold State.targetOf at h
  split at h
  · obtain ⟨e, he, hk⟩ := routed_service h
    exact fun hn => hn _ (by assumption) e he hk
  · cases h

/-! ## The operations of the resolver are moves -/

theorem moves_handOffChecks (s : State) (m : Nat) : Moves s (s.handOffChecks m) := by
  unfold State.handOffChecks
  have loop : Moves s (if (s.record m).hop = 3 then s.setRecord m ((s.record m).toIntercept .loop) else s) :=
    .ite (.bound s m .loop) (.refl s)
  exact .ite (loop.trans (.bound _ m .unknown)) loop

section
variable {svc : ServiceTaker} (hsvc : ∀ s m i, ¬ s.noOwnService → Moves s (svc s m i))
include hsvc

theorem moves_resolveWith (s : State) (m i : Nat) : Moves s (s.resolveWith svc m i none) := by
  unfold State.resolveWith
  cases h : s.targetOf m i none with
  | none => exact .hold s m i .noRoute
  | some x =>
    cases x with
    | circuit c =>
      show Moves s (if s.isOwn c then _ else _)
      split
      case isTrue ho => exact .place s m i c ho (targetOf_circuit h)
      case isFalse => exact .carry s m i _
    | service k =>
      show Moves s (if k = s.station then _ else _)
      split
      case isTrue hk => subst hk; exact hsvc s m i (targetOf_ownService h)
      case isFalse => exact .carry s m i _

theorem moves_handOffWith (s : State) (m : Nat) : Moves s (s.handOffWith svc m []) := by
  unfold State.handOffWith
  refine .ite (((moves_handOffChecks s m).trans (.foldl (fun t i => ?_) _ _)).trans (.release _ m)) (.refl s)
  exact .ite (moves_resolveWith hsvc t m i) (.refl t)

end

theorem moves_sendToIntercept {s : State} (hn : ¬ s.noOwnService) (m i : Nat) : Moves s (s.sendToIntercept m i) := by
  unfold State.sendToIntercept
  split
  case h_1 sl hsl => exact (Moves.pseudo s m i sl hn hsl).trans (moves_resolveWith (fun t _ _ _ => .refl t) _ m i)
  case h_2 => exact .refl s

theorem moves_reportService {s : State} (hn : ¬ s.noOwnService) (m i : Nat) : Moves s (reportService s m i) :=
  (Moves.serve s m hn).trans (moves_sendToIntercept (fun h => hn (((Moves.serve s m hn).noOwnService).mp h)) m i)

/-! ## Reports -/

/-- A granted report up to its hand-off. -/
def State.composed (s : State) (img : Image) (m : Nat) (text : List Symbol) : State :=
  ((s.setRecord m ((s.record m).asReport s.serviceCode img.supervisor)).writeAll m text).complete m

theorem composed_placed (s : State) (img : Image) (m : Nat) (text : List Symbol) : Filed s (s.composed img m text) :=
  ((filed_setRecord s m _).trans (filed_writeAll _ m text)).trans (filed_complete _ m)

theorem composed_slots (s : State) (img : Image) {m : Nat} (text : List Symbol) (hm : m < 128) :
    ((s.composed img m text).record m).slots = [⟨.office img.supervisor, .unrouted⟩] ∧
      ((s.composed img m text).record m).state = .standing ∧
      ∀ j, j ≠ m → (s.composed img m text).record j = s.record j := by
  obtain ⟨-, slots, others⟩ := writeAll_source m text (s.setRecord m ((s.record m).asReport s.serviceCode img.supervisor))
  rw [record_setRecord_self _ _ _ hm] at slots
  obtain ⟨done, left⟩ := complete_record _ m (by rw [slots]; exact List.cons_ne_nil _ _) hm
  refine ⟨(congrArg Record.slots done).trans slots, congrArg Record.state done, fun j hj => ?_⟩
  exact (left j hj).trans ((others j hj).trans (record_setRecord_ne _ _ _ _ (Ne.symm hj)))

theorem grantRecord_of_reserve {s t : State} {cls : MsgClass} {n m : Nat} (h : s.reserve cls n = some (m, t)) :
    s.grantRecord cls (blocksFor n) = some (m, t) := by
  unfold State.reserve at h
  split at h
  · exact h
  · cases h

/-- A report request (R184): nothing but the count of the lost, or a record composed and handed off. -/
theorem moves_request (s : State) (r : Report) : Moves s (s.request r) := by
  unfold State.request
  split
  case h_1 => exact .refl s
  case h_2 img hc =>
    split
    case isFalse => exact .refl s
    case isTrue =>
      dsimp only
      split
      case h_1 => exact .other (placed_setLost s _).resolved rfl rfl (List.prefix_refl _)
      case h_2 m t hg =>
        obtain ⟨hm, hfree, -, others⟩ := grantRecord_record (grantRecord_of_reserve hg)
        obtain ⟨slots, standing, left⟩ := composed_slots { t with lost := 0 } img
          (textOf img (cutLines (s.reportLines r))) hm
        have granted : Placed s { t with lost := 0 } :=
          ((placed_setEv s { s.ev with inReport := true }).trans (filed_reserve hg).placed).trans (placed_setLost _ 0)
        have ctx : ({ t with lost := 0 } : State).ctx = s.ctx := by obtain ⟨st, e, rfl⟩ := filed_reserve hg; rfl
        have composed := composed_placed { t with lost := 0 } img m (textOf img (cutLines (s.reportLines r)))
        have made : Moves s ({ t with lost := 0 }.composed img m (textOf img (cutLines (s.reportLines r)))) :=
          .report (granted.trans composed.placed) (by obtain ⟨st, e, he⟩ := composed; rw [he]; exact ctx) hm hfree
            (fun j hj => (left j hj).trans (others j hj)) standing slots
        exact (made.trans (moves_handOffWith (fun _ m i hn => moves_reportService hn m i) _ m)).trans
          (.other (resolved_setEv _ _) rfl rfl (List.prefix_refl _))

/-! ## The service unit -/

/-- An own circuit that joins owed sets changes nothing but the station table. -/
theorem owe_eq (s : State) (c : Nat) : ∃ p, s.owe c = { s with peers := p } := by
  have one : ∀ (t : State) (k : Nat), ∃ p, t.oweTo c k = { t with peers := p } := fun t k => by
    unfold State.oweTo
    dsimp only
    split
    · exact ⟨_, rfl⟩
    · exact ⟨t.peers, rfl⟩
  refine foldl_keeps (fun a b : State => ∃ p, b = { a with peers := p }) (fun a => ⟨a.peers, rfl⟩) ?_ _ one _ s
  rintro a b d ⟨p, rfl⟩ ⟨q, rfl⟩
  exact ⟨q, rfl⟩

theorem moves_setDiversion {s : State} {c : Nat} (d : Option Nat) (ho : s.isOwn c = true) : Moves s (s.setDiversion c d) := by
  obtain ⟨p, hp⟩ := owe_eq (s.setMap c { s.mapOf c with diversion := d }) c
  have r := resolved_setDiversion s c d ho
  unfold State.setDiversion at r ⊢
  rw [hp] at r ⊢
  exact .other r rfl rfl (List.prefix_refl _)

theorem moves_doDivert (s : State) (img : Image) (q : Rest) (n c : Nat) (d : Option Nat) :
    Moves s (s.doDivert img q n c d).1 := by
  unfold State.doDivert
  dsimp only
  split
  case h_1 h => exact moves_setDiversion d (divertResult_own (.inl h))
  case h_2 h => exact moves_setDiversion d (divertResult_own (.inr h))
  case h_3 => exact .refl s

theorem moves_doClear (s : State) (q : Rest) (n : Nat) : Moves s (s.doClear q n).1 := by
  have clear : Moves s s.clearLevels.1 := by
    obtain ⟨v, h⟩ := clearLevels_levels s
    rw [h]
    exact .other (resolved_setLevels s v) rfl rfl (List.prefix_refl _)
  unfold State.doClear
  dsimp only
  split
  · exact clear
  · exact clear.trans (moves_request _ _)

theorem moves_doCommand (s : State) (img : Image) (q : Rest) (n : Nat) (cmd : Command) :
    Moves s (s.doCommand img q n cmd).1 := by
  unfold State.doCommand
  split
  · exact .refl s
  · cases cmd with
    | state => exact moves_request _ _
    | clear => exact moves_doClear _ _ _
    | out cs => exact .refl s
    | inn cs => exact .refl s
    | divertTo c d => exact moves_doDivert _ _ _ _ _ _
    | divertOff c => exact moves_doDivert _ _ _ _ _ _
    | restart k => dsimp only; split <;> exact .refl s

theorem moves_doLine (img : Image) (acc : (State × Rest) × Nat) (l : List (Option Meaning)) :
    Moves acc.1.1 (State.doLine img acc l).1.1 := by
  unfold State.doLine
  dsimp only
  split
  · exact .refl _
  · split
    · exact moves_doCommand _ _ _ _ _
    · exact .refl _

theorem moves_carryOut (s : State) (img : Image) (m : Nat) : Moves s (s.carryOut img m) := by
  have lines := foldl_keeps (fun (a b : (State × Rest) × Nat) => Moves a.1.1 b.1.1) (fun b => .refl _)
    (fun a b => a.trans b) (State.doLine img) (moves_doLine img)
    (linesFrom [] (meanings img (s.record m).text)) ((s, Rest.of (s.record m)), 1)
  exact lines.trans (.other (resolved_of_parts _ _ _) rfl rfl (List.prefix_append _ _))

theorem moves_finishAs {s : State} (hn : ¬ s.noOwnService) (m i : Nat) (x : Option Target) : Moves s (s.finishAs m i x) :=
  (Moves.finish s m i x hn).trans (.release _ m)

theorem moves_refuse {s : State} (hn : ¬ s.noOwnService) (m i : Nat) (b : Bool) : Moves s (s.refuse m i b) := by
  have sent := moves_sendToIntercept hn m i
  exact .ite sent (sent.trans (moves_request _ _))

theorem moves_serviceTake (old : Option Target) {s : State} (hn : ¬ s.noOwnService) (m i : Nat) :
    Moves s (State.serviceTake old s m i) := by
  unfold State.serviceTake
  split
  case h_1 => exact .refl s
  case h_2 img _ =>
    have served := Moves.serve s m hn
    have still : ¬ (s.setRecord m { s.record m with served := true }).noOwnService := fun h => hn (served.noOwnService.mp h)
    have carried := moves_carryOut (s.setRecord m { s.record m with served := true }) img m
    exact .ite (moves_finishAs hn m i old) (.ite (served.trans (moves_refuse still m i false))
      (.ite (served.trans (moves_refuse still m i true))
        ((served.trans carried).trans (moves_finishAs (fun h => still (carried.noOwnService.mp h)) m i old))))

/-! ## Full resolution -/

theorem moves_resolve (old : Option Target) (s : State) (m i : Nat) :
    Moves s (s.resolveWith (State.serviceTake old) m i none) :=
  moves_resolveWith (fun _ m i hn => moves_serviceTake old hn m i) s m i

theorem moves_handOff (s : State) (m : Nat) : Moves s (s.handOff m []) :=
  moves_handOffWith (fun _ m i hn => moves_serviceTake none hn m i) s m

theorem moves_reexamine (s : State) : Moves s s.reexamine :=
  .foldl (fun t (x : Nat × Nat) => .ite (moves_resolve none t x.1 x.2) (.refl t)) _ s

/-- The slots given back that are not DONE, in the order of R76. -/
def State.live (s : State) (slots : List (Nat × Nat)) : List (Nat × Nat) :=
  sortBy s.slotBefore (slots.filter fun x => !(s.slotState x.1 x.2).isDone)

/-- Those slots detached. -/
def State.detached (s : State) (slots : List (Nat × Nat)) : State :=
  (s.live slots).foldl (fun t x => t.setSlotState x.1 x.2 .unrouted) s

/-- One of the slots given back resolved, unless an earlier one's resolution placed it. -/
def State.resolveAgain (s t : State) (x : Nat × Nat) : State :=
  if t.slotState x.1 x.2 = .unrouted then t.resolveWith (State.serviceTake (s.slotState x.1 x.2).target) x.1 x.2 none else t

theorem reResolve_eq (s : State) (slots : List (Nat × Nat)) :
    s.reResolve slots = (s.live slots).foldl s.resolveAgain (s.detached slots) := rfl

theorem filed_detached (s : State) (slots : List (Nat × Nat)) : Filed s (s.detached slots) :=
  .foldl (fun t (x : Nat × Nat) => filed_setSlotState t x.1 x.2 .unrouted) _ s

theorem moves_resolveAgain (s t : State) (x : Nat × Nat) : Moves t (s.resolveAgain t x) :=
  .ite (moves_resolve _ t x.1 x.2) (.refl t)

theorem moves_reResolve (s : State) (slots : List (Nat × Nat)) : Moves (s.detached slots) (s.reResolve slots) :=
  .foldl (moves_resolveAgain s) _ _

end Sys2Proof.Machine

/-! PROOF. The rest of a service message with no fixed restart: its moves and DIVERT lines (R150, R171, R183). -/

namespace Sys2Proof.Machine

/-! ## What the steps of the rest leave waiting -/

theorem rests_pullQueue (s : State) (l : Nat) : (s.pullQueue l).1.rests = s.rests := by
  obtain ⟨st, e, n, cx, h, -⟩ := placed_pullQueue s l
  rw [h]

theorem rests_detached (s : State) (slots : List (Nat × Nat)) : (s.detached slots).rests = s.rests := by
  obtain ⟨st, e, h⟩ := filed_detached s slots
  rw [h]

theorem rests_reResolve (s : State) (slots : List (Nat × Nat)) : s.rests <+: (s.reResolve slots).rests := by
  rw [← rests_detached s slots]
  exact (moves_reResolve s slots).rests

theorem rests_updateCondition (s : State) (l : Nat) : (s.updateCondition l).rests = s.rests := by
  unfold State.updateCondition
  dsimp only
  split
  · rfl
  · obtain ⟨p, h⟩ := owe_eq (s.setMap (s.circuit l)
      { s.mapOf (s.circuit l) with condition := deriveCondition (s.kind l) (s.adminOf l) (s.line l).wire }) (s.circuit l)
    rw [h]
    rfl

theorem rests_withdrawalTest (s : State) (l : Nat) (q : Bool) (c : Option FailureCounts) :
    s.rests <+: (s.withdrawalTest l q c).rests := by
  unfold State.withdrawalTest
  dsimp only
  have moved : ((s.setAdmin l .withdrawn).updateCondition l).rests = s.rests := rests_updateCondition _ l
  split
  · rw [← moved]
    generalize (s.setAdmin l .withdrawn).updateCondition l = t
    have hunts : t.rests <+: (if (t.masOf l).mode = .discard then t.setMas l (t.masOf l).toHunt else t).rests := by
      split <;> exact List.prefix_refl _
    split
    · exact hunts
    · exact hunts.trans (moves_request _ _).rests
  · exact List.prefix_refl _

/-- Two states with rests only added behind. -/
def RestsGrow (s t : State) : Prop := s.rests <+: t.rests

theorem RestsGrow.foldl {α : Type} {f : State → α → State} (h : ∀ s a, RestsGrow s (f s a)) (l : List α) (s : State) :
    RestsGrow s (l.foldl f s) :=
  foldl_keeps RestsGrow (fun _ => List.prefix_refl _) List.IsPrefix.trans f h l s

theorem restsGrow_pullQueues (s : State) (cs : List Nat) : RestsGrow s (s.pullQueues cs).1 :=
  foldl_keeps (fun a b : State × List (Nat × Nat) => RestsGrow a.1 b.1) (fun _ => List.prefix_refl _)
    List.IsPrefix.trans _ (fun a c => (List.prefix_refl _).trans (by rw [rests_pullQueue])) cs (s, [])

theorem restsGrow_circuitRequest (s : State) (img : Image) (q : Rest) : RestsGrow s (s.circuitRequest img q).1 := by
  have admins : ∀ (a : Admin) (cs : List Nat) (t : State), RestsGrow t (cs.foldl (State.moveAdmin a) t) :=
    fun a cs t => .foldl (fun u c => by
      unfold RestsGrow State.moveAdmin
      rw [rests_updateCondition]
      exact List.prefix_refl _) cs t
  have tests : ∀ (cs : List Nat) (t : State), RestsGrow t (cs.foldl (fun t c => t.withdrawalTest (lineOf c) true none) t) :=
    fun cs t => .foldl (fun u c => rests_withdrawalTest u (lineOf c) true none) cs t
  have returns : ∀ (cs : List Nat) (t : State), RestsGrow t (cs.foldl State.returnIn t) :=
    fun cs t => .foldl (fun u c => by
      unfold RestsGrow State.returnIn
      dsimp only
      split <;> split <;> exact List.prefix_refl _) cs t
  exact ((((((admins _ _ s).trans (admins _ _ _)).trans (restsGrow_pullQueues _ _)).trans (rests_reResolve _ _)).trans
    (tests _ _)).trans (returns _ _)).trans (moves_reexamine _).rests

theorem restsGrow_moveDiverted (s : State) (c : Nat) : RestsGrow s (s.moveDiverted c) := by
  refine List.IsPrefix.trans ?_ (moves_reexamine _).rests
  rw [← rests_pullQueue s (lineOf c)]
  exact rests_reResolve _ _

theorem restsGrow_restSteps (s : State) (img : Image) (q : Rest) : RestsGrow s (s.restSteps img q) := by
  have asked : ∀ t : State, RestsGrow t (t.requestIfAny img q).1 := fun t => by
    unfold State.requestIfAny
    split
    · exact List.prefix_refl _
    · exact restsGrow_circuitRequest t img q
  have all := (RestsGrow.foldl restsGrow_moveDiverted q.moves s).trans (asked _)
  unfold State.restSteps
  dsimp only
  split
  · exact all
  · exact all.trans (moves_request _ _).rests

/-! ## The move of a diverted circuit -/

/-- An entry that has not been on a circuit before, queued at minute `now`. -/
def Entry.New (now : Minute) (e : Entry) : Prop :=
  e.queuedAt = now ∧ e.repeatSerial = none ∧ e.resume = none ∧ e.assigned = none

/-- Every entry queued on line `l` is new. -/
def NewQueue (l : Nat) (s : State) : Prop := ∀ e ∈ (s.ctxOf l).queue, e.New s.minute

/-- What placing a slot makes of a circuit's entries: a slot joins one, or a new one joins them (R88). -/
theorem placeOwn_queue {s : State} {m i l k : Nat} {e : Entry} (h : e ∈ ((s.placeOwn m i l).ctxOf k).queue) :
    (∃ x ∈ (s.ctxOf k).queue, e = x ∨ e = { x with slots := insertRising i x.slots }) ∨ e = s.newEntry m i := by
  unfold State.placeOwn at h
  dsimp only at h
  split at h
  · rw [(filed_setSlotState _ m i _).ctxOf] at h
    revert h
    refine ctxOf_setCtx_of (P := fun y => e ∈ y.queue → _) s l k _ ?_ fun h => .inl ⟨e, h, .inl rfl⟩
    rintro rfl h
    obtain ⟨x, hx, rfl⟩ := List.mem_map.mp h
    refine .inl ⟨x, hx, ?_⟩
    split
    · exact .inr rfl
    · exact .inl rfl
  · split at h
    · rw [(filed_holdSlot s m i _).ctxOf] at h
      exact .inl ⟨e, h, .inl rfl⟩
    · have queued : e ∈ ((s.setCtx l ((s.ctxOf l).enqueue (s.newEntry m i))).ctxOf k).queue := by
        split at h
        · rw [owePick_ctxOf, (filed_touchLine _ l).ctxOf, (filed_setSlotState _ m i _).ctxOf] at h
          exact h
        · rw [(filed_touchLine _ l).ctxOf, (filed_setSlotState _ m i _).ctxOf] at h
          exact h
      revert queued
      refine ctxOf_setCtx_of (P := fun y => e ∈ y.queue → _) s l k _ ?_ fun h => .inl ⟨e, h, .inl rfl⟩
      rintro rfl queued
      rcases (mem_insertBy _ _ _ _).mp queued with rfl | old
      · exact .inr rfl
      · exact .inl ⟨e, old, .inl rfl⟩

theorem NewQueue.filed {l : Nat} {s t : State} (h : Filed s t) : NewQueue l s → NewQueue l t := by
  intro hs e he
  rw [h.ctxOf] at he
  rw [h.resolved.minute]
  exact hs e he

theorem NewQueue.moves {l : Nat} {s t : State} (h : Moves s t) : NewQueue l s → NewQueue l t := by
  induction h with
  | trans _ _ ih₁ ih₂ => exact fun hs => ih₂ (ih₁ hs)
  | other r _ hc _ =>
    intro hs e he
    rw [ctxOf_congr hc] at he
    rw [r.minute]
    exact hs e he
  | place s m i c _ _ =>
    intro hs e he
    rw [(placed_placeOwn s m i _).resolved.minute]
    rcases placeOwn_queue he with ⟨x, hx, rfl | rfl⟩ | rfl
    · exact hs _ hx
    · exact hs x hx
    · exact ⟨rfl, rfl, rfl, rfl⟩
  | carry s m i x => exact NewQueue.filed (filed_setSlotState s m i _)
  | hold s m i w => exact NewQueue.filed (filed_holdSlot s m i w)
  | bound s m w => exact NewQueue.filed (filed_setRecord s m _)
  | release s m => exact NewQueue.filed (filed_releaseIfDone s m)
  | serve s m _ => exact NewQueue.filed (filed_setRecord s m _)
  | finish s m i x _ => exact NewQueue.filed (filed_setSlotState s m i _)
  | pseudo s m i sl _ _ => exact NewQueue.filed (filed_setSlot s m i _)
  | report p hc _ _ _ _ _ =>
    intro hs e he
    rw [ctxOf_congr hc] at he
    rw [p.resolved.minute]
    exact hs e he

theorem pullQueue_empties (s : State) {l : Nat} (hl : l < 8) : ((s.pullQueue l).1.ctxOf l).queue = [] := by
  unfold State.pullQueue
  dsimp only
  split
  next h => exact List.isEmpty_iff.mp h
  next h => rw [(filed_touchLine _ l).ctxOf, ctxOf_setCtx_self s l _ hl]

theorem pullQueue_eq (s : State) (l : Nat) :
    s.pullQueue l = (if (s.ctxOf l).queue = [] then s else (s.setCtx l { s.ctxOf l with queue := [] }).touchLine l,
      (s.ctxOf l).queue.flatMap fun e => e.slots.map fun i => (e.record, i)) := by
  unfold State.pullQueue
  by_cases h : (s.ctxOf l).queue = []
  · simp [h]
  · simp only [List.isEmpty_iff, if_neg h]

theorem moveDiverted_newQueue (s : State) {l : Nat} (hl : l < 8) : NewQueue l (s.moveDiverted (s.circuit l)) := by
  unfold State.moveDiverted
  rw [lineOf_circuit s hl]
  have empty : NewQueue l (s.pullQueue l).1 := fun e he => by
    rw [pullQueue_empties s hl] at he
    exact absurd he List.not_mem_nil
  exact ((empty.filed (filed_detached _ _)).moves (moves_reResolve _ _)).moves (moves_reexamine _)

/-! ## DIVERT lines -/

/-- The outcome of a DIVERT line, its checks in order (R171). -/
theorem divertResult_eq (s : State) (img : Image) (c : Nat) (d : Option Nat) :
    s.divertResult img c d =
      if s.isOwn c = false then .notOwn
      else if s.kind (lineOf c) = .unfitted then .unfitted
      else if c = img.intercept then .intercept
      else if 128 ≤ d.getD 0 then .range
      else if d = some c then .same
      else if (s.mapOf c).diversion = d then .noChange
      else if d = none then .divertCleared
      else .diverted := by
  unfold State.divertResult
  cases d with
  | none => simp
  | some d => simp

theorem oweTo_peer_self (s : State) (c : Nat) {k : Nat} (hk : k < 16) :
    (s.oweTo c k).peer k =
      if s.fitted k = true ∧ k ≠ s.station ∧ (s.peer k).presence ≠ .silent ∧ (s.peer k).flag ≠ .clear then
        { s.peer k with owed := insertRising c (s.peer k).owed }
      else s.peer k := by
  unfold State.oweTo
  dsimp only
  split
  · exact peer_setPeer_self s k _ hk
  · rfl

theorem oweTo_peer_ne (s : State) (c : Nat) {j k : Nat} (h : k ≠ j) : (s.oweTo c j).peer k = s.peer k := by
  unfold State.oweTo
  dsimp only
  split
  · exact peer_setPeer_ne s j k _ (Ne.symm h)
  · rfl

theorem fitted_congr {s t : State} (h : t.cfg = s.cfg) (k : Nat) : t.fitted k = s.fitted k := by
  unfold State.fitted
  rw [h]

/-- Each peer is asked once (R150). -/
theorem owe_peer (s : State) (c : Nat) {k : Nat} (hk : k < 16) : (s.owe c).peer k = (s.oweTo c k).peer k := by
  have all : ∀ (ks : List Nat) (t : State), ks.Nodup →
      (ks.foldl (fun t k => t.oweTo c k) t).peer k = if k ∈ ks then (t.oweTo c k).peer k else t.peer k := by
    intro ks
    induction ks with
    | nil => exact fun t _ => rfl
    | cons j ks ih =>
      intro t hnd
      obtain ⟨hj, hnd⟩ := List.nodup_cons.1 hnd
      rw [List.foldl_cons, ih _ hnd]
      by_cases e : k = j
      · subst e
        rw [if_neg hj, if_pos List.mem_cons_self]
      · have r := resolved_oweTo t c j
        rw [oweTo_peer_self _ c hk, oweTo_peer_self _ c hk, oweTo_peer_ne t c e, fitted_congr r.cfg, r.station]
        simp only [List.mem_cons, e, false_or]
  exact (all (List.range 16) s List.nodup_range).trans (if_pos (List.mem_range.2 hk))

theorem setDiversion_eq (s : State) {c : Nat} (d : Option Nat) (hc : c < 128) :
    s.setDiversion c d = { s with map := (s.setDiversion c d).map, peers := (s.setDiversion c d).peers } ∧
      (∀ b, (s.setDiversion c d).mapOf b = if b = c then { s.mapOf c with diversion := d } else s.mapOf b) ∧
      ∀ k, k < 16 → (s.setDiversion c d).peer k =
        if s.fitted k = true ∧ k ≠ s.station ∧ (s.peer k).presence ≠ .silent ∧ (s.peer k).flag ≠ .clear then
          { s.peer k with owed := insertRising c (s.peer k).owed }
        else s.peer k := by
  refine ⟨?_, fun b => ?_, fun k hk => ?_⟩
  · obtain ⟨p, h⟩ := owe_eq (s.setMap c { s.mapOf c with diversion := d }) c
    unfold State.setDiversion
    rw [h]
    rfl
  · obtain ⟨p, h⟩ := owe_eq (s.setMap c { s.mapOf c with diversion := d }) c
    have same : (s.setDiversion c d).mapOf b = (s.setMap c { s.mapOf c with diversion := d }).mapOf b := by
      unfold State.setDiversion
      rw [h]
      rfl
    rw [same]
    split
    next e => rw [e]; exact mapOf_setMap_self s c _ hc
    next e => exact mapOf_setMap_ne s c b _ (Ne.symm e)
  · exact (owe_peer _ c hk).trans (oweTo_peer_self (s.setMap c { s.mapOf c with diversion := d }) c hk)

theorem doDivert_set {s : State} {img : Image} {c : Nat} {d : Option Nat} (q : Rest) (n : Nat)
    (h : s.divertResult img c d = .diverted ∨ s.divertResult img c d = .divertCleared) :
    s.doDivert img q n c d = (s.setDiversion c d,
      { q with answers := q.answers ++ [.known n .divert (s.divertResult img c d)], moves := q.moves ++ [c] }) := by
  unfold State.doDivert
  rcases h with h | h <;> rw [h] <;> rfl

theorem doDivert_not {s : State} {img : Image} {c : Nat} {d : Option Nat} (q : Rest) (n : Nat)
    (h₁ : s.divertResult img c d ≠ .diverted) (h₂ : s.divertResult img c d ≠ .divertCleared) :
    s.doDivert img q n c d = (s, { q with answers := q.answers ++ [.known n .divert (s.divertResult img c d)] }) := by
  unfold State.doDivert
  dsimp only
  split
  · exact absurd ‹_› h₁
  · exact absurd ‹_› h₂
  · rfl

/-- Settles O39: the rest of a message is taken from the front, its diverted circuits are moved and its request carried out;
the second and third parts read off the move and the DIVERT line. -/
theorem serviceRestWithoutRestart : Obligations.ServiceRestWithoutRestart := by
  refine ⟨?rest, ?move, ?divert⟩
  case rest =>
    intro s img q qs straps hc hd hr hcfg hq hres
    have served : Serves { s with rests := qs } ({ s with rests := qs }.restSteps img q) := serves_restSteps _ _ _
    obtain ⟨more, grown⟩ := restsGrow_restSteps { s with rests := qs } img q
    have quiet := fun ho hi => restSteps_quiet (s := { s with rests := qs }) (img := img) (q := q) ho hi (by rw [hres]; decide)
    generalize hu : ({ s with rests := qs } : State).restSteps img q = u at served grown quiet
    have k := kept_finish u
    refine ⟨u.finish, ?_, ⟨more, k.rests.trans grown.symm⟩, k.phase.trans served.phase, k.cfg.trans served.cfg,
      k.station.trans served.station, k.restart.trans served.restart, k.minute.trans served.minute,
      k.streak.trans served.streak, k.pending.trans served.pending, fun l _ => ?_, fun ho hi => ?_⟩
    · rw [exec_rest straps hc hd hr hcfg hq, hres, hu]
      rfl
    · rw [masOf_congr k.mas]
      exact ⟨served.expected l, served.rstack l⟩
    · rw [quiet ho hi]
  case move =>
    intro s l hl
    have kept : QueuesOnly s (s.moveDiverted (s.circuit l)) := (resolved_moveDiverted s _).queuesOnly
    refine ⟨?_, ?_, ?_, ?_, ?_, fun e he => ?_⟩
    · unfold State.moveDiverted
      rw [lineOf_circuit s hl, pullQueue_eq]
    · have h := congrArg Ctx.current (kept l); exact h
    · have h := congrArg Ctx.stack (kept l); exact h
    · have h := congrArg Ctx.send (kept l); exact h
    · have h := congrArg Ctx.next (kept l); exact h
    · have new := moveDiverted_newQueue s hl e he
      rw [(resolved_moveDiverted s _).minute] at new
      exact new
  case divert =>
    intro s img q n c d hc
    refine ⟨divertResult_eq s img c d, ?_, fun h₁ h₂ => by rw [doDivert_not q n h₁ h₂], fun h => ?_⟩
    · split
      next h => rw [doDivert_set q n h]
      next h => rw [doDivert_not q n (fun e => h (.inl e)) fun e => h (.inr e)]
    · rw [doDivert_set q n h]
      exact ⟨_, rfl, setDiversion_eq s d hc⟩

end Sys2Proof.Machine

/-! PROOF. Where one slot lands when it is placed (R72 to R75, R80), what a granted report's record holds (R184), said for
reports and for slots sent to the intercept circuit. -/

namespace Sys2Proof.Machine

/-! ## One slot written -/

/-- From `s` to `t` slot `i` of record `m` is written with `x`, and no other part of a record. -/
structure Wrote (m i : Nat) (x : Slot) (s t : State) : Prop where
  record : t.record m = { s.record m with slots := (s.record m).slots.set i x }
  others : ∀ j, j ≠ m → t.record j = s.record j
  lost : t.lost = s.lost

theorem Wrote.andThen {m i : Nat} {x : Slot} {s t u : State} (h : Wrote m i x s t) (hr : ∀ j, u.record j = t.record j)
    (hl : u.lost = t.lost) : Wrote m i x s u :=
  ⟨(hr m).trans h.record, fun j hj => (hr j).trans (h.others j hj), hl.trans h.lost⟩

theorem Wrote.after {m i : Nat} {x : Slot} {s t u : State} (h : Wrote m i x t u) (hr : ∀ j, t.record j = s.record j)
    (hl : t.lost = s.lost) : Wrote m i x s u :=
  ⟨by rw [h.record, hr], fun j hj => (h.others j hj).trans (hr j), h.lost.trans hl⟩

/-- A slot written twice holds what was written last. -/
theorem Wrote.again {m i : Nat} {x y : Slot} {s t u : State} (h : Wrote m i x s t) (k : Wrote m i y t u) : Wrote m i y s u :=
  ⟨by rw [k.record, h.record, List.set_set], fun j hj => (k.others j hj).trans (h.others j hj), k.lost.trans h.lost⟩

theorem Wrote.slot_self {m i : Nat} {x sl : Slot} {s t : State} (h : Wrote m i x s t) (hsl : s.slot m i = some sl) :
    t.slot m i = some x := by
  rw [State.slot, h.record]
  have hi : i < (s.record m).slots.length := (List.getElem?_eq_some_iff.1 hsl).1
  exact List.getElem?_set_self hi

theorem Wrote.slot_ne {m i : Nat} {x : Slot} {s t : State} (h : Wrote m i x s t) {n j : Nat} (hne : (n, j) ≠ (m, i)) :
    t.slot n j = s.slot n j := by
  by_cases hn : n = m
  · subst hn
    rw [State.slot, h.record]
    exact List.getElem?_set_ne fun e => hne (by rw [e])
  · rw [State.slot, h.others n hn]
    rfl

theorem wrote_setSlot (s : State) {m : Nat} (hm : m < 128) (i : Nat) (x : Slot) : Wrote m i x s (s.setSlot m i x) := by
  have w : Wrote m i x s (s.setRecord m { s.record m with slots := (s.record m).slots.set i x }) :=
    ⟨record_setRecord_self s m _ hm, fun j hj => record_setRecord_ne s m j _ (Ne.symm hj), rfl⟩
  unfold State.setSlot
  dsimp only
  split
  · exact w
  · exact w.andThen (fun j => touch_record _ _ j) (touch_lost _ _)

theorem wrote_setSlotState {s : State} {m i : Nat} {sl : Slot} (hm : m < 128) (h : s.slot m i = some sl) (st : SlotState) :
    Wrote m i { sl with state := st } s (s.setSlotState m i st) := by
  unfold State.setSlotState
  rw [h]
  exact wrote_setSlot s hm i _

/-! ## One slot placed -/

/-- A slot HELD at minute `now`; one that was HELD keeps its held-since minute and overdue mark (R48). -/
def SlotState.heldAgain (now : Minute) (w : HoldReason) : SlotState → SlotState
  | .held since overdue _ => .held since overdue w
  | .unrouted | .queued _ | .carrying _ | .done _ => .held now false w

theorem holdSlot_eq (s : State) (m i : Nat) (w : HoldReason) :
    s.holdSlot m i w = s.setSlotState m i ((s.slotState m i).heldAgain s.minute w) := by
  unfold State.holdSlot
  cases s.slotState m i <;> rfl

/-- The state that a slot, being `old`, takes when it is placed on a target that is not this station's service. -/
def Lands (now : Minute) (old new : SlotState) : Option Target → Prop
  | none => new = old.heldAgain now .noRoute
  | some (.circuit c) => new = .queued c ∨ new = .carrying (.circuit c) ∨ new = old.heldAgain now (.busy c)
  | some (.service k) => new = .carrying (.service k)

theorem circuit_of_own {s : State} {c : Nat} (h : s.isOwn c = true) : s.circuit (lineOf c) = c := by
  obtain ⟨-, hk⟩ := (isOwn_iff s c).mp h
  unfold State.circuit lineOf
  omega

theorem slotState_of_slot {s : State} {m i : Nat} {sl : Slot} (hsl : s.slot m i = some sl) : s.slotState m i = sl.state := by
  rw [State.slotState, hsl]
  rfl

/-- A slot that bears the pseudo-code goes to the intercept circuit or nowhere (R69). -/
theorem targetOf_pseudo {s : State} {m i : Nat} {sl : Slot} {img : Image} (hsl : s.slot m i = some sl) (hc : s.cfg = some img)
    (hd : sl.dest = .pseudo) :
    s.targetOf m i none = if s.circuitAvailable img.intercept then some (.circuit img.intercept) else none := by
  unfold State.targetOf
  rw [hc, hsl]
  exact if_pos (by rw [interceptBound, hd]; simp)

section
variable {s : State} {m i : Nat} {sl : Slot} (hm : m < 128) (hsl : s.slot m i = some sl)
include hm hsl

theorem holdSlot_wrote (w : HoldReason) :
    Wrote m i { sl with state := sl.state.heldAgain s.minute w } s (s.holdSlot m i w) := by
  rw [holdSlot_eq, slotState_of_slot hsl]
  exact wrote_setSlotState hm hsl _

theorem placeOwn_wrote (l : Nat) : ∃ st, Wrote m i { sl with state := st } s (s.placeOwn m i l) ∧
    (st = .queued (s.circuit l) ∨ st = sl.state.heldAgain s.minute (.busy (s.circuit l))) := by
  have queued : ∀ x, Wrote m i { sl with state := .queued (s.circuit l) } s
      ((s.setCtx l x).setSlotState m i (.queued (s.circuit l))) := fun x =>
    (wrote_setSlotState (s := s.setCtx l x) hm hsl _).after (fun _ => rfl) rfl
  unfold State.placeOwn
  dsimp only
  split
  · exact ⟨_, queued ((s.ctxOf l).merge m i), .inl rfl⟩
  · split
    · exact ⟨_, holdSlot_wrote hm hsl _, .inr rfl⟩
    · refine ⟨_, ?_, .inl rfl⟩
      have touched := (queued ((s.ctxOf l).enqueue (s.newEntry m i))).andThen
        (u := ((s.setCtx l ((s.ctxOf l).enqueue (s.newEntry m i))).setSlotState m i (.queued (s.circuit l))).touchLine l)
        (fun j => (touch_record _ _ j).trans (touch_record _ _ j)) ((touch_lost _ _).trans (touch_lost _ _))
      split
      · exact touched.andThen (fun j => owePick_record _ _ j) (owePick_lost _ _)
      · exact touched

theorem place_wrote (svc : ServiceTaker) {x : Option Target} (hx : x ≠ some (.service s.station)) :
    ∃ st, Wrote m i { sl with state := st } s (s.place svc m i x) ∧ Lands s.minute sl.state st x := by
  cases x with
  | none => exact ⟨_, holdSlot_wrote hm hsl _, rfl⟩
  | some x =>
    cases x with
    | circuit c =>
      show ∃ st, Wrote m i _ s (if s.isOwn c then _ else _) ∧ _
      split
      case isTrue ho =>
        obtain ⟨st, w, h⟩ := placeOwn_wrote hm hsl (lineOf c)
        rw [circuit_of_own ho] at h
        exact ⟨st, w, h.elim .inl fun h => .inr (.inr h)⟩
      case isFalse => exact ⟨_, wrote_setSlotState hm hsl _, .inr (.inl rfl)⟩
    | service k =>
      show ∃ st, Wrote m i _ s (if k = s.station then _ else _) ∧ _
      rw [if_neg fun h => hx (by rw [h])]
      exact ⟨_, wrote_setSlotState hm hsl _, rfl⟩

/-- A slot sent to the intercept circuit (R80). -/
theorem sendToIntercept_wrote {img : Image} (hc : s.cfg = some img) :
    ∃ st, Wrote m i ⟨.pseudo, st⟩ s (s.sendToIntercept m i) ∧
      (st = sl.state.heldAgain s.minute .noRoute ∨ st = .queued img.intercept ∨ st = .carrying (.circuit img.intercept) ∨
        st = sl.state.heldAgain s.minute (.busy img.intercept)) := by
  have w := wrote_setSlot s hm i { sl with dest := .pseudo }
  have slot := w.slot_self hsl
  have r := (filed_setSlot s m i { sl with dest := .pseudo }).resolved
  have target := targetOf_pseudo slot (r.cfg.trans hc) rfl
  unfold State.sendToIntercept
  rw [hsl]
  show ∃ st, Wrote m i _ s (State.place _ _ m i (State.targetOf _ m i none)) ∧ _
  rw [target]
  split
  · obtain ⟨st, w', h⟩ := place_wrote hm slot (fun t _ _ => t) (x := some (.circuit img.intercept)) (fun h => nomatch h)
    rw [r.minute] at h
    exact ⟨st, w.again w', .inr h⟩
  · obtain ⟨st, w', h⟩ := place_wrote hm slot (fun t _ _ => t) (x := none) (fun h => nomatch h)
    rw [r.minute] at h
    exact ⟨st, w.again w', .inl h⟩

end

/-! ## The text of a report -/

theorem charSym_tag (img : Image) (ch : Char) : (charSym img ch).tag ≠ .error := by
  unfold charSym
  split
  · exact fun h => nomatch h
  · split <;> exact fun h => nomatch h

theorem mem_of_mem_intersperse {α : Type} {sep y : α} : ∀ {l : List α}, y ∈ l.intersperse sep → y ∈ l ∨ y = sep
  | [], h => .inl h
  | [_], h => .inl h
  | a :: b :: l, h => by
    rw [List.intersperse_cons_cons] at h
    rcases List.mem_cons.mp h with rfl | h
    · exact .inl List.mem_cons_self
    · rcases List.mem_cons.mp h with rfl | h
      · exact .inr rfl
      · exact (mem_of_mem_intersperse h).imp (List.mem_cons_of_mem a) id

theorem textOf_tags (img : Image) (ls : List (List Char)) : ∀ σ ∈ textOf img ls, σ.tag ≠ .error := by
  intro σ hσ
  obtain ⟨x, hx, hσ⟩ := List.mem_flatten.mp hσ
  rcases mem_of_mem_intersperse hx with h | rfl
  · obtain ⟨l, -, rfl⟩ := List.mem_map.mp h
    obtain ⟨ch, -, rfl⟩ := List.mem_map.mp hσ
    exact charSym_tag img ch
  · rcases List.mem_cons.mp hσ with rfl | hσ
    · exact fun h => nomatch h
    · rw [List.mem_singleton.mp hσ]
      exact fun h => nomatch h

/-- A whole text written into a FILLING record that has room for it (R53). -/
theorem foldl_write {l : List Symbol} : ∀ {r : Record}, r.state = .filling → r.text.length + l.length ≤ 4096 →
    (∀ σ ∈ l, σ.tag ≠ .error) → l.foldl Record.write r = { r with text := r.text ++ l } := by
  induction l with
  | nil => exact fun _ _ _ => by rw [List.foldl_nil, List.append_nil]
  | cons σ l ih =>
    intro r hs hlen htag
    rw [List.length_cons] at hlen
    have one : r.write σ = { r with text := r.text ++ [σ] } := by
      rw [Record.write, if_pos ⟨hs, show r.text.length < 4096 by omega⟩, if_neg (htag σ List.mem_cons_self)]
    rw [List.foldl_cons, one, ih (r := { r with text := r.text ++ [σ] }) hs]
    · show ({ r with text := (r.text ++ [σ]) ++ l } : Record) = _
      rw [List.append_assoc]
      rfl
    · show (r.text ++ [σ]).length + l.length ≤ 4096
      rw [List.length_append, List.length_singleton]
      omega
    · exact fun τ h => htag τ (List.mem_cons_of_mem σ h)

theorem writeAll_record {m : Nat} (hm : m < 128) (l : List Symbol) : ∀ s : State,
    (s.writeAll m l).record m = l.foldl Record.write (s.record m) := by
  induction l with
  | nil => exact fun s => rfl
  | cons σ l ih =>
    intro s
    refine (ih (s.write m σ)).trans ?_
    rw [State.write, record_setRecord_self s m _ hm]
    rfl

theorem writeAll_stamp (m : Nat) (l : List Symbol) (s : State) : (s.writeAll m l).store.stamp = s.store.stamp :=
  foldl_keeps (fun a b : State => b.store.stamp = a.store.stamp) (fun _ => rfl) (fun h k => k.trans h)
    (fun t σ => t.write m σ) (fun _ _ => rfl) l s

/-- The record of a granted report when it is handed off (R184). -/
theorem composed_record {s : State} {img : Image} {m : Nat} {chain : List Nat} {text : List Symbol} (hm : m < 128)
    (h : s.record m = Record.granted .business chain) (hlen : text.length ≤ 4096) (htag : ∀ σ ∈ text, σ.tag ≠ .error) :
    (s.composed img m text).record m =
      { Record.empty with
        state := .standing
        source := some .service
        cls := .business
        origin := s.serviceCode
        chain := chain
        text := text
        stamp := some s.store.stamp
        slots := [⟨.office img.supervisor, .unrouted⟩] } := by
  have asked : (s.setRecord m ((s.record m).asReport s.serviceCode img.supervisor)).record m =
      (Record.granted .business chain).asReport s.serviceCode img.supervisor := by
    rw [record_setRecord_self s m _ hm, h]
  have written := writeAll_record hm text (s.setRecord m ((s.record m).asReport s.serviceCode img.supervisor))
  rw [asked, foldl_write (r := (Record.granted .business chain).asReport s.serviceCode img.supervisor) rfl
    (by rw [show ((Record.granted .business chain).asReport s.serviceCode img.supervisor).text = [] from rfl]; simpa using hlen)
    htag] at written
  have done := (complete_record _ m (by rw [written]; exact List.cons_ne_nil _ _) hm).1
  unfold State.composed
  rw [done, written, writeAll_stamp]
  rfl

/-- The state of a slot first placed: QUEUED, CARRYING or HELD since now. -/
def SlotState.Placed (now : Minute) (st : SlotState) : Prop :=
  (∃ c, st = .queued c) ∨ (∃ x, st = .carrying x) ∨ ∃ w, st = .held now false w

theorem Lands.placed {now : Minute} {st : SlotState} {x : Option Target} (h : Lands now .unrouted st x) : st.Placed now := by
  cases x with
  | none => exact .inr (.inr ⟨_, h⟩)
  | some x =>
    cases x with
    | circuit c =>
      rcases h with h | h | h
      · exact .inl ⟨c, h⟩
      · exact .inr (.inl ⟨_, h⟩)
      · exact .inr (.inr ⟨_, h⟩)
    | service k => exact .inr (.inl ⟨_, h⟩)

theorem SlotState.Placed.not_done {now : Minute} {st : SlotState} (h : st.Placed now) : st.isDone = false := by
  rcases h with ⟨_, rfl⟩ | ⟨_, rfl⟩ | ⟨_, rfl⟩ <;> rfl

/-- The slot of a report resolved (R180, R184). -/
theorem resolve_report {u : State} {img : Image} {m : Nat} {sl : Slot} (hm : m < 128) (hc : u.cfg = some img)
    (hsl : u.slot m 0 = some sl) (hst : sl.state = .unrouted) (hone : (u.record m).slots = [sl]) :
    ∃ x seen, (u.resolveWith reportService m 0 none).record m = { u.record m with slots := [x], served := seen } ∧
      (∀ j, j ≠ m → (u.resolveWith reportService m 0 none).record j = u.record j) ∧
      (u.resolveWith reportService m 0 none).lost = u.lost ∧
      (x.dest = sl.dest ∨ x.dest = .pseudo) ∧ x.state.Placed u.minute := by
  by_cases own : u.targetOf m 0 none = some (.service u.station)
  · have taken : u.resolveWith reportService m 0 none =
        (u.setRecord m { u.record m with served := true }).sendToIntercept m 0 := by
      unfold State.resolveWith
      rw [own]
      exact if_pos rfl
    have record := record_setRecord_self u m { u.record m with served := true } hm
    have slot : (u.setRecord m { u.record m with served := true }).slot m 0 = some sl := by
      rw [State.slot, record]
      exact hsl
    obtain ⟨st, w, h⟩ := sendToIntercept_wrote hm slot (img := img) hc
    rw [hst] at h
    refine ⟨⟨.pseudo, st⟩, true, ?_, fun j hj => ?_, ?_, .inr rfl, ?_⟩
    · rw [taken, w.record, record]
      show ({ u.record m with served := true, slots := (u.record m).slots.set 0 _ } : Record) = _
      rw [hone]
      rfl
    · rw [taken, w.others j hj, record_setRecord_ne u m j _ (Ne.symm hj)]
    · rw [taken, w.lost]
      rfl
    · rcases h with h | h | h | h
      · exact .inr (.inr ⟨_, h⟩)
      · exact .inl ⟨_, h⟩
      · exact .inr (.inl ⟨_, h⟩)
      · exact .inr (.inr ⟨_, h⟩)
  · obtain ⟨st, w, h⟩ := place_wrote hm hsl reportService own
    rw [hst] at h
    refine ⟨{ sl with state := st }, (u.record m).served, ?_, w.others, w.lost, .inl rfl, h.placed⟩
    refine w.record.trans ?_
    rw [hone]
    rfl

theorem noRoute_one {u : State} {img : Image} {m : Nat} {code : OfficeCode} {st : SlotState} (hc : u.cfg = some img)
    (hone : (u.record m).slots = [⟨.office code, st⟩]) :
    u.noRoute m = (img.routes.find? fun e => decide (e.code = code)).isNone := by
  unfold State.noRoute Image.lookup
  rw [hc, hone]
  simp

/-- The hand-off of a report (R68, R184). -/
theorem handOff_report {u : State} {img : Image} {m : Nat} {code : OfficeCode} (hm : m < 128) (hc : u.cfg = some img)
    (hstate : (u.record m).state = .standing) (hhop : (u.record m).hop = 0) (hint : (u.record m).intercept = none)
    (hone : (u.record m).slots = [⟨.office code, .unrouted⟩]) :
    ∃ x seen, (u.handOffWith reportService m []).record m =
        { u.record m with
          intercept := if (img.routes.find? fun e => decide (e.code = code)).isNone then some .unknown else none
          slots := [x]
          served := seen } ∧
      (∀ j, j ≠ m → (u.handOffWith reportService m []).record j = u.record j) ∧
      (u.handOffWith reportService m []).lost = u.lost ∧
      (x.dest = .office code ∨ x.dest = .pseudo) ∧ x.state.Placed u.minute := by
  let v := u.handOffChecks m
  have checked : v.record m = { u.record m with
        intercept := if (img.routes.find? fun e => decide (e.code = code)).isNone then some .unknown else none } ∧
      (∀ j, j ≠ m → v.record j = u.record j) ∧ v.lost = u.lost := by
    show (u.handOffChecks m).record m = _ ∧ (∀ j, j ≠ m → (u.handOffChecks m).record j = u.record j) ∧
      (u.handOffChecks m).lost = u.lost
    unfold State.handOffChecks
    dsimp only
    rw [if_neg (show ¬ (u.record m).hop = 3 by rw [hhop]; exact fun h => nomatch h), noRoute_one hc hone]
    split
    · refine ⟨?_, fun j hj => record_setRecord_ne u m j _ (Ne.symm hj), rfl⟩
      rw [record_setRecord_self u m _ hm, Record.toIntercept, hint]
      rfl
    · refine ⟨?_, fun _ _ => rfl, rfl⟩
      rw [← hint]
  obtain ⟨vrecord, vothers, vlost⟩ := checked
  have r : Resolved u v := (filed_handOffChecks u m).resolved
  have vone : (v.record m).slots = [⟨.office code, .unrouted⟩] := by rw [vrecord]; exact hone
  have vslot : v.slot m 0 = some ⟨.office code, .unrouted⟩ := by rw [State.slot, vone]; rfl
  obtain ⟨x, seen, trecord, tothers, tlost, hd, hst⟩ := resolve_report hm (r.cfg.trans hc) vslot rfl vone
  rw [r.minute] at hst
  have resolved : u.handOffWith reportService m [] = (v.resolveWith reportService m 0 none).releaseIfDone m := by
    unfold State.handOffWith
    rw [if_pos hstate]
    show ((List.range (v.record m).slots.length).foldl _ v).releaseIfDone m = _
    rw [vone]
    show (if v.slotState m 0 = .unrouted then _ else _ : State).releaseIfDone m = _
    rw [if_pos (slotState_of_slot vslot)]
    rfl
  have stays : (v.resolveWith reportService m 0 none).releaseIfDone m = v.resolveWith reportService m 0 none := by
    refine if_neg ?_
    rw [trecord]
    simp [hst.not_done]
  rw [resolved, stays]
  refine ⟨x, seen, ?_, fun j hj => (tothers j hj).trans (vothers j hj), tlost.trans vlost, hd, hst⟩
  rw [trecord, vrecord]

/-! ## The request of a report -/

theorem request_unconfigured {s : State} (hc : s.cfg = none) (r : Report) : s.request r = s := by
  unfold State.request
  rw [hc]

/-- The lowest FREE record is granted (R43). -/
theorem grantRecord_lowest {s t : State} {cls : MsgClass} {k m : Nat} (h : s.grantRecord cls k = some (m, t)) :
    ∀ j, j < m → (s.record j).state ≠ .free := by
  unfold State.grantRecord at h
  split at h
  case isTrue =>
    obtain ⟨n, hn, e⟩ := Option.map_eq_some_iff.1 h
    cases e
    unfold State.recordsIn at hn
    rw [List.head?_filter] at hn
    intro j hj
    obtain ⟨-, -, lower⟩ := List.find?_range_eq_some.mp hn
    simpa using lower j hj
  case isFalse => cases h

theorem grantRecord_stamp {s t : State} {cls : MsgClass} {k m : Nat} (h : s.grantRecord cls k = some (m, t)) :
    t.store.stamp = s.store.stamp := by
  unfold State.grantRecord at h
  split at h
  case isTrue =>
    obtain ⟨n, hn, e⟩ := Option.map_eq_some_iff.1 h
    cases e
    rw [touch_store]
    exact setPool_stamp s _
  case isFalse => cases h

section
variable {s : State} {img : Image} (hc : s.cfg = some img) (hr : s.running = true) (r : Report)
include hc hr

theorem request_refused (h : ({ s with ev := { s.ev with inReport := true } } : State).reserve .business
      (textOf img (cutLines (s.reportLines r))).length = none) : s.request r = { s with lost := min 255 (s.lost + 1) } := by
  unfold State.request
  split
  next h' => cases hc.symm.trans h'
  next h' =>
    cases hc.symm.trans h'
    dsimp only
    rw [if_pos hr]
    split
    next => rfl
    next h' => cases h.symm.trans h'

theorem request_granted {m : Nat} {t : State} (h : ({ s with ev := { s.ev with inReport := true } } : State).reserve .business
      (textOf img (cutLines (s.reportLines r))).length = some (m, t)) :
    ∃ e, s.request r = { ({ t with lost := 0 } : State).makeReport img m (textOf img (cutLines (s.reportLines r))) with ev := e } := by
  unfold State.request
  split
  next h' => cases hc.symm.trans h'
  next h' =>
    cases hc.symm.trans h'
    dsimp only
    rw [if_pos hr]
    split
    next h' => cases h.symm.trans h'
    next h' =>
      cases h.symm.trans h'
      exact ⟨_, rfl⟩

end

theorem configured_of {s : State} {img : Image} (hr : s.running = true) (hc : s.cfg = some img) : s.configured = true := by
  rw [State.configured, hr, hc]
  rfl

theorem business_grants {s : State} (hcfg : s.configured = true) (k : Nat) :
    s.grants .business k 1 = true ↔ k + 96 ≤ s.freeBlocks ∧ 9 ≤ s.freeRecords := by
  rw [grants_record_iff hcfg, if_neg (by decide), Nat.add_comm]

/-- A granted report from the grant to its hand-off (R184). -/
theorem makeReport_made {t : State} {img : Image} {m : Nat} {chain : List Nat} {text : List Symbol} (hm : m < 128)
    (hc : t.cfg = some img) (h : t.record m = Record.granted .business chain) (hlen : text.length ≤ 4096)
    (htag : ∀ σ ∈ text, σ.tag ≠ .error) :
    (t.makeReport img m text).lost = t.lost ∧ (∀ j, j ≠ m → (t.makeReport img m text).record j = t.record j) ∧
      ∃ sl seen, (t.makeReport img m text).record m =
          { Record.empty with
            state := .standing
            source := some .service
            cls := .business
            origin := t.serviceCode
            intercept := if (img.routes.find? fun e => decide (e.code = img.supervisor)).isNone then some .unknown else none
            chain := chain
            text := text
            stamp := some t.store.stamp
            slots := [sl]
            served := seen } ∧
        (sl.dest = .office img.supervisor ∨ sl.dest = .pseudo) ∧ sl.state.Placed t.minute := by
  have record := composed_record (img := img) hm h hlen htag
  obtain ⟨-, -, others⟩ := composed_slots t img text hm
  have f := composed_placed t img m text
  have lost : (t.composed img m text).lost = t.lost := by obtain ⟨st, e, h⟩ := f; rw [h]
  obtain ⟨sl, seen, made, left, kept, hd, hst⟩ := handOff_report (img := img) (code := img.supervisor) hm
    (f.resolved.cfg.trans hc) (by rw [record]) (by rw [record]; rfl) (by rw [record]; rfl) (by rw [record])
  rw [f.resolved.minute] at hst
  rw [record] at made
  exact ⟨kept.trans lost, fun j hj => (left j hj).trans (others j hj), sl, seen, made, hd, hst⟩

/-- Settles O36: the store refuses a report, or grants it and it is made (`makeReport_made`). -/
theorem reportsCountedOrMade : Obligations.ReportsCountedOrMade := by
  refine fun s r => ⟨fun hc => request_unconfigured hc r, fun img hc hr => ⟨fun short => ?_, fun hlen hblocks hrecords => ?_⟩⟩
  case _ =>
    refine request_refused hc hr r ?_
    have not_granted : ¬ ({ s with ev := { s.ev with inReport := true } } : State).grants .business
        (blocksFor (textOf img (cutLines (s.reportLines r))).length) 1 = true := by
      intro granted
      obtain ⟨hblocks, hrecords⟩ := (business_grants (configured_of hr hc) _).mp granted
      exact short.elim (Nat.not_lt.mpr hblocks) (Nat.not_lt.mpr hrecords)
    unfold State.reserve State.grantRecord
    rw [if_neg not_granted, ite_self]
  case _ =>
    have granted : ({ s with ev := { s.ev with inReport := true } } : State).grants .business
        (blocksFor (textOf img (cutLines (s.reportLines r))).length) 1 = true :=
      (business_grants (configured_of hr hc) _).mpr ⟨hblocks, hrecords⟩
    obtain ⟨⟨m, t⟩, hg⟩ := Option.isSome_iff_exists.mp ((grantRecord_isSome _ _ _).trans granted)
    have hreserve : ({ s with ev := { s.ev with inReport := true } } : State).reserve .business
        (textOf img (cutLines (s.reportLines r))).length = some (m, t) := by
      rw [State.reserve, if_pos (show _ ≤ Config.textLimit from hlen), hg]
    obtain ⟨e, made⟩ := request_granted hc hr r hreserve
    obtain ⟨hm, hfree, hrec, hothers⟩ := grantRecord_record hg
    have f : Resolved s t := (resolved_setEv s _).trans (filed_grantRecord hg).resolved
    obtain ⟨lost, left, sl, seen, record, hd, hst⟩ := makeReport_made (t := { t with lost := 0 }) (img := img) hm
      (f.cfg.trans hc) hrec hlen (textOf_tags img _)
    have code : ({ t with lost := 0 } : State).serviceCode = s.serviceCode := by
      unfold State.serviceCode
      rw [show State.cfg _ = s.cfg from f.cfg, show State.station _ = s.station from f.station]
    rw [code] at record
    rw [made]
    refine ⟨lost, m, sl, seen, hm, hfree, fun j hj => grantRecord_lowest hg j hj, ?_, hd, ?_, fun j hj => (left j hj).trans (hothers j hj)⟩
    · refine Eq.trans record ?_
      rw [show State.store _ = t.store from rfl, grantRecord_stamp hg]
    · rw [show State.minute _ = s.minute from f.minute] at hst
      exact hst

end Sys2Proof.Machine

/-! PROOF. The held list (R77) and the hold limit (R79, R80). -/

namespace Sys2Proof.Machine

/-! ## The held list -/

theorem insertBy_perm {α : Type} (before : α → α → Bool) (x : α) (l : List α) : (insertBy before x l).Perm (x :: l) := by
  induction l with
  | nil => exact .refl _
  | cons y l ih =>
    unfold insertBy
    split
    · exact .refl _
    · exact (ih.cons y).trans (.swap x y l)

theorem sortBy_perm {α : Type} (before : α → α → Bool) (l : List α) : (sortBy before l).Perm l := by
  have all : ∀ (l acc : List α), (l.foldl (fun acc x => insertBy before x acc) acc).Perm (l ++ acc) := by
    intro l
    induction l with
    | nil => exact fun acc => .refl acc
    | cons x l ih =>
      intro acc
      refine (ih _).trans ((insertBy_perm before x acc).append_left l |>.trans ?_)
      exact List.perm_middle
  exact (all l []).trans (by rw [List.append_nil])

theorem mem_standing {s : State} {m : Nat} (h : m ∈ s.standing) : m < 128 ∧ (s.record m).state = .standing := by
  rw [State.standing, mem_sortBy] at h
  obtain ⟨hr, hs⟩ := List.mem_filter.mp h
  exact ⟨List.mem_range.mp hr, of_decide_eq_true hs⟩

theorem standing_nodup (s : State) : s.standing.Nodup :=
  (sortBy_perm _ _).nodup_iff.mpr (List.nodup_range.filter _)

/-- A slot of the held list stands in a STANDING record. -/
theorem mem_heldList {s : State} {x : Nat × Nat} (h : x ∈ s.heldList) :
    x.1 < 128 ∧ (s.record x.1).state = .standing ∧ ∃ sl, s.slot x.1 x.2 = some sl := by
  obtain ⟨m, hm, hx⟩ := List.mem_flatMap.mp h
  obtain ⟨i, hi, rfl⟩ := List.mem_map.mp hx
  obtain ⟨hlt, hst⟩ := mem_standing hm
  have bound : i < (s.record m).slots.length := List.mem_range.mp (List.mem_filter.mp hi).1
  exact ⟨hlt, hst, _, List.getElem?_eq_getElem bound⟩

theorem heldList_nodup (s : State) : s.heldList.Nodup := by
  refine List.nodup_flatMap.mpr ⟨fun m _ => ?_, (standing_nodup s).imp fun {a b} hne => ?_⟩
  · exact (List.nodup_range.filter _).map fun i j h => congrArg Prod.snd h
  · intro x ha hb
    obtain ⟨i, -, rfl⟩ := List.mem_map.mp ha
    obtain ⟨j, -, h⟩ := List.mem_map.mp hb
    exact hne (congrArg Prod.fst h).symm

/-! ## The hold limit -/

/-- What the hold limit makes of a slot HELD since `since` (R79). -/
def Expires (intercept : Nat) (since : Minute) (sl : Slot) : Prop :=
  sl.dest = .pseudo ∧
    (sl.state = .queued intercept ∨ sl.state = .carrying (.circuit intercept) ∨ sl.state = .held since true .noRoute ∨
      ∃ o, sl.state = .held since o (.busy intercept))

/-- One expired slot (R79, R80). -/
theorem expireSlot_wrote {s : State} {img : Image} {x : Nat × Nat} {sl : Slot} (hm : x.1 < 128)
    (hsl : s.slot x.1 x.2 = some sl) (hc : s.cfg = some img) :
    ∃ y, Wrote x.1 x.2 y s (s.expireSlot x) ∧
      ∀ since o w, sl.state = .held since o w → Expires img.intercept since y := by
  obtain ⟨st, w, h⟩ := sendToIntercept_wrote hm hsl hc
  have slot := w.slot_self hsl
  have state : (s.sendToIntercept x.1 x.2).slotState x.1 x.2 = st := slotState_of_slot slot
  by_cases marked : ∃ since o, st = .held since o .noRoute
  · obtain ⟨since, o, rfl⟩ := marked
    have exp : s.expireSlot x =
        (s.sendToIntercept x.1 x.2).setSlotState x.1 x.2 (.held since true .noRoute) := by
      unfold State.expireSlot
      dsimp only
      rw [state]
    rw [exp]
    refine ⟨_, w.again (wrote_setSlotState hm slot _), fun since' o' w' held => ⟨rfl, ?_⟩⟩
    rw [held] at h
    rcases h with h | h | h | h
    · cases h
      exact .inr (.inr (.inl rfl))
    · cases h
    · cases h
    · cases h
  · have exp : s.expireSlot x = s.sendToIntercept x.1 x.2 := by
      unfold State.expireSlot
      dsimp only
      rw [state]
      split
      · exact absurd ⟨_, _, rfl⟩ marked
      all_goals rfl
    rw [exp]
    refine ⟨_, w, fun since o w held => ⟨rfl, ?_⟩⟩
    rw [held] at h
    rcases h with h | h | h | h
    · exact absurd ⟨_, _, h⟩ marked
    · exact .inl h
    · exact .inr (.inl h)
    · exact .inr (.inr (.inr ⟨_, h⟩))

theorem placed_expireSlot (s : State) (x : Nat × Nat) : Placed s (s.expireSlot x) := by
  unfold State.expireSlot
  dsimp only
  split
  · exact (placed_sendToIntercept s _ _).trans (filed_setSlotState _ _ _ _).placed
  all_goals exact placed_sendToIntercept s _ _

/-- A list of slots, each taken once: each is expired from the state that it had, and no other slot is written. -/
theorem expireSlots {img : Image} : ∀ (xs : List (Nat × Nat)) (s : State), s.cfg = some img → xs.Nodup →
    (∀ x ∈ xs, x.1 < 128 ∧ ∃ sl, s.slot x.1 x.2 = some sl) →
    (∀ m, ((xs.foldl State.expireSlot s).record m).state = (s.record m).state) ∧
      (∀ x, x ∉ xs → (xs.foldl State.expireSlot s).slot x.1 x.2 = s.slot x.1 x.2) ∧
      ∀ x ∈ xs, ∀ since o w, s.slotState x.1 x.2 = .held since o w →
        ∃ y, (xs.foldl State.expireSlot s).slot x.1 x.2 = some y ∧ Expires img.intercept since y := by
  intro xs
  induction xs with
  | nil => exact fun s _ _ _ => ⟨fun _ => rfl, fun _ _ => rfl, fun x hx => absurd hx List.not_mem_nil⟩
  | cons x xs ih =>
    intro s hc hnd hall
    obtain ⟨hx, hnd⟩ := List.nodup_cons.1 hnd
    obtain ⟨hm, sl, hsl⟩ := hall x List.mem_cons_self
    obtain ⟨y, w, hy⟩ := expireSlot_wrote hm hsl hc
    have apart : ∀ z, z ≠ x → (s.expireSlot x).slot z.1 z.2 = s.slot z.1 z.2 := fun z hne => w.slot_ne hne
    obtain ⟨states, left, done⟩ := ih (s.expireSlot x) ((placed_expireSlot s x).resolved.cfg.trans hc) hnd fun z hz => by
      obtain ⟨hlt, sl, hsl⟩ := hall z (List.mem_cons_of_mem x hz)
      exact ⟨hlt, sl, (apart z fun e => hx (e ▸ hz)).trans hsl⟩
    rw [List.foldl_cons]
    refine ⟨fun m => (states m).trans ?_, fun z hz => ?_, fun z hz since o v held => ?_⟩
    · by_cases e : m = x.1
      · rw [e, w.record]
      · rw [w.others m e]
    · obtain ⟨hne, hz⟩ := not_or.mp (mt List.mem_cons.mpr hz)
      exact (left z hz).trans (apart z hne)
    · rcases List.mem_cons.mp hz with rfl | hz
      · exact ⟨y, (left z hx).trans (w.slot_self hsl), hy since o v ((slotState_of_slot hsl).symm.trans held)⟩
      · refine done z hz since o v ?_
        rw [State.slotState, apart z fun e => hx (e ▸ hz)]
        exact held

/-- Settles O38: the expired slots are taken once each (`expireSlots`), and the end of the event leaves their records. -/
theorem expiredSlotsGoToTheIntercept : Obligations.ExpiredSlotsGoToTheIntercept := by
  intro s img hr hc hne
  have listed : ∀ x ∈ s.expired, x ∈ s.heldList := fun x hx => by
    rw [State.expired, hc] at hx
    exact (List.mem_filter.mp hx).1
  have nodup : s.expired.Nodup := by
    rw [State.expired, hc]
    exact (heldList_nodup s).filter _
  obtain ⟨states, -, done⟩ := expireSlots s.expired s hc nodup fun x hx =>
    ⟨(mem_heldList (listed x hx)).1, (mem_heldList (listed x hx)).2.2⟩
  have f : Placed s (s.expired.foldl State.expireSlot s) := frames_placed.foldl placed_expireSlot _ s
  refine ⟨_, whenever_of ?_ _ _, f.sent.toKept.trans (kept_finish _), fun m i since o w hx held => ?_⟩
  · rw [hr, Bool.true_and, Bool.not_eq_true', List.isEmpty_eq_false_iff]
    exact hne
  · obtain ⟨y, hy, expires⟩ := done (m, i) hx since o w held
    refine ⟨y, ?_, expires⟩
    have standing := (mem_heldList (listed _ hx)).2.1
    rw [State.slot, finish_record _ m (by rw [states, standing]; decide)]
    exact hy

end Sys2Proof.Machine

/-! PROOF. A circuit request (R161 to R166): what it makes of each line's admin state and condition, and of the peers' owed
sets (R150). -/

namespace Sys2Proof.Machine

/-! ## The circuits of a request -/

theorem mem_rising {c : Nat} {cs : List Nat} : c ∈ rising cs ↔ c ∈ cs := by
  have all : ∀ (cs acc : List Nat), c ∈ cs.foldl (fun acc c => insertRising c acc) acc ↔ c ∈ cs ∨ c ∈ acc := by
    intro cs
    induction cs with
    | nil => exact fun acc => ⟨.inr, fun h => h.resolve_left List.not_mem_nil⟩
    | cons d cs ih =>
      intro acc
      rw [List.foldl_cons, ih, mem_insertRising, List.mem_cons]
      tauto
  exact (all cs []).trans ⟨fun h => h.resolve_right List.not_mem_nil, .inl⟩

theorem rising_nodup (cs : List Nat) : (rising cs).Nodup := by
  have all : ∀ (cs acc : List Nat), acc.Pairwise (· < ·) → (cs.foldl (fun acc c => insertRising c acc) acc).Pairwise (· < ·) := by
    intro cs
    induction cs with
    | nil => exact fun acc h => h
    | cons d cs ih => exact fun acc h => ih _ (insertRising_sorted h)
  exact (all cs [] .nil).imp Nat.ne_of_lt

theorem mem_remaining {s : State} {c : Nat} {cs : List Nat} :
    c ∈ s.remaining cs ↔ c ∈ cs ∧ s.isOwn c = true ∧ s.kind (lineOf c) ≠ .unfitted := by
  rw [State.remaining, List.mem_filter, mem_rising]
  refine and_congr_right fun _ => ?_
  unfold State.refusal
  by_cases ho : s.isOwn c = false
  · simp [ho]
  · by_cases hk : s.kind (lineOf c) = .unfitted
    · rw [if_neg ho, if_pos hk]
      simp [hk]
    · rw [if_neg ho, if_neg hk]
      simpa [hk] using ho

/-! ## What an operation leaves of one line -/

/-- Of line `l` all stays that a circuit request reads, but the admin state and the condition. -/
structure Beside (l : Nat) (s t : State) : Prop where
  station : t.station = s.station
  cfg : t.cfg = s.cfg
  wire : (t.line l).wire = (s.line l).wire
  mas : t.masOf l = s.masOf l
  send : (t.ctxOf l).send = (s.ctxOf l).send
  stack : (t.ctxOf l).stack = (s.ctxOf l).stack

/-- Of line `l` the admin state and the condition stay too. -/
structure Aside (l : Nat) (s t : State) : Prop extends Beside l s t where
  admin : t.adminOf l = s.adminOf l
  condition : t.ownCondition l = s.ownCondition l

theorem Beside.trans {l : Nat} {s t u : State} (a : Beside l s t) (b : Beside l t u) : Beside l s u where
  station := b.station.trans a.station
  cfg := b.cfg.trans a.cfg
  wire := b.wire.trans a.wire
  mas := b.mas.trans a.mas
  send := b.send.trans a.send
  stack := b.stack.trans a.stack

theorem Aside.trans {l : Nat} {s t u : State} (a : Aside l s t) (b : Aside l t u) : Aside l s u :=
  { a.toBeside.trans b.toBeside with
    admin := b.admin.trans a.admin
    condition := b.condition.trans a.condition }

theorem circuit_congr {s t : State} (h : t.station = s.station) (l : Nat) : t.circuit l = s.circuit l := by
  rw [State.circuit, h]
  rfl

theorem Lined.aside {k l : Nat} {s t : State} (h : Lined k s t) (q : QueuesOnly s t) (hl : l ≠ k) : Aside l s t where
  station := h.station
  cfg := h.cfg
  wire := by have w := congrArg Line.wire (h.receive l); exact w
  mas := h.mas l hl
  send := by have x := congrArg Ctx.send (q l); exact x
  stack := by have x := congrArg Ctx.stack (q l); exact x
  admin := h.admin l hl
  condition := by
    rw [State.ownCondition, circuit_congr h.station]
    refine h.condition _ fun e => hl ?_
    unfold State.circuit at e
    omega

theorem Resolved.aside {s t : State} (h : Resolved s t) (l : Nat) : Aside l s t :=
  (h.lined (l + 1)).aside h.queuesOnly (Nat.ne_of_lt (Nat.lt_succ_self l))

theorem Aside.refl (l : Nat) (s : State) : Aside l s s := (Resolved.refl s).aside l

theorem Kept.aside {s t : State} (h : Kept s t) (q : QueuesOnly s t) (l : Nat) : Aside l s t where
  station := h.station
  cfg := h.cfg
  wire := by have w := congrArg Line.wire (h.receive l); exact w
  mas := masOf_congr h.mas l
  send := by have x := congrArg Ctx.send (q l); exact x
  stack := by have x := congrArg Ctx.stack (q l); exact x
  admin := adminOf_congr h.admin l
  condition := by rw [State.ownCondition, State.ownCondition, circuit_congr h.station, State.mapOf, h.map]; rfl

/-- A fold over circuits taken once each, seen from one of them: what the others' turns leave, its own turn, and what the
others leave again. -/
theorem foldl_once {R : State → State → Prop} (refl : ∀ s, R s s) (trans : ∀ {s t u}, R s t → R t u → R s u)
    {f : State → Nat → State} {c : Nat} (cs : List Nat) (other : ∀ t d, d ∈ cs → d ≠ c → R t (f t d)) (hnd : cs.Nodup)
    (hc : c ∈ cs) (s : State) : ∃ u, R s u ∧ R (f u c) (cs.foldl f s) := by
  have away : ∀ (ds : List Nat) (t : State), (∀ d ∈ ds, d ∈ cs ∧ d ≠ c) → R t (ds.foldl f t) := by
    intro ds
    induction ds with
    | nil => exact fun t _ => refl t
    | cons d ds ih =>
      intro t h
      obtain ⟨hd, hne⟩ := h d List.mem_cons_self
      exact trans (other t d hd hne) (ih _ fun e he => h e (List.mem_cons_of_mem d he))
  obtain ⟨a, b, rfl⟩ := List.append_of_mem hc
  have apart := List.nodup_middle.mp hnd
  obtain ⟨hout, -⟩ := List.nodup_cons.1 apart
  refine ⟨a.foldl f s, away a s fun d hd => ⟨List.mem_append_left _ hd, fun e => hout (List.mem_append_left _ (e ▸ hd))⟩, ?_⟩
  rw [List.foldl_append, List.foldl_cons]
  exact away b _ fun d hd => ⟨List.mem_append_right _ (List.mem_cons_of_mem c hd), fun e => hout (List.mem_append_right _ (e ▸ hd))⟩

theorem foldl_aside {l : Nat} {f : State → Nat → State} (cs : List Nat) (other : ∀ t, ∀ d ∈ cs, Aside l t (f t d)) :
    ∀ s : State, Aside l s (cs.foldl f s) := by
  induction cs with
  | nil => exact fun s => .refl l s
  | cons d cs ih =>
    intro s
    exact (other s d List.mem_cons_self).trans (ih (fun t e he => other t e (List.mem_cons_of_mem d he)) _)

/-! ## The operations of a request, seen from one line -/

theorem updateCondition_queues (s : State) (l : Nat) : QueuesOnly s (s.updateCondition l) := (traffic_updateCondition s l).queuesOnly

theorem moveAdmin_queues (a : Admin) (s : State) (c : Nat) : QueuesOnly s (State.moveAdmin a s c) :=
  QueuesOnly.trans (.of_ctx (t := s.setAdmin (lineOf c) a) rfl) (updateCondition_queues _ _)

theorem lined_moveAdmin (a : Admin) (s : State) (c : Nat) : Lined (lineOf c) s (State.moveAdmin a s c) :=
  (lined_setAdmin s _ a).trans (lined_updateCondition _ _)

theorem moveAdmin_aside (a : Admin) (s : State) {c l : Nat} (h : lineOf c ≠ l) : Aside l s (State.moveAdmin a s c) :=
  (lined_moveAdmin a s c).aside (moveAdmin_queues a s c) (Ne.symm h)

theorem withdrawalTest_aside (s : State) {k l : Nat} (h : k ≠ l) (q : Bool) (c : Option FailureCounts) :
    Aside l s (s.withdrawalTest k q c) := (lined_withdrawalTest s k q c).aside (withdrawalTest_queues s k q c) (Ne.symm h)

/-- The admin state moved and the condition derived (R159). -/
theorem moveAdmin_self (a : Admin) {s : State} {c l : Nat} (hc : lineOf c = l) (hl : l < 8) (hst : s.station < 16) :
    Beside l s (State.moveAdmin a s c) ∧ (State.moveAdmin a s c).adminOf l = a ∧
      (State.moveAdmin a s c).ownCondition l = deriveCondition (s.kind l) a (s.line l).wire := by
  subst hc
  have t := traffic_updateCondition (s.setAdmin (lineOf c) a) (lineOf c)
  have q := moveAdmin_queues a s c
  refine ⟨⟨t.station, t.cfg, ?_, masOf_congr t.mas _, ?_, ?_⟩, ?_, ?_⟩
  · exact congrArg Line.wire (line_congr t.lines (lineOf c))
  · have x := congrArg Ctx.send (q (lineOf c)); exact x
  · have x := congrArg Ctx.stack (q (lineOf c)); exact x
  · exact (adminOf_congr t.admin _).trans (adminOf_setAdmin_self s _ a hl)
  · have derived := updateCondition_condition (s := s.setAdmin (lineOf c) a) hst hl
    rw [adminOf_setAdmin_self s _ a hl] at derived
    have same : (State.moveAdmin a s c).circuit (lineOf c) = (s.setAdmin (lineOf c) a).circuit (lineOf c) :=
      circuit_congr t.station _
    rw [State.ownCondition, same]
    exact derived

/-- What the withdrawal test asks of a line that is WITHDRAWING (R165). -/
def State.Quiet (s : State) (l : Nat) : Prop :=
  (s.hasCtx l = true → (s.ctxOf l).send = .idle ∧ (s.ctxOf l).stack = []) ∧
    ((s.masOf l).mode = .hunt ∨ (s.masOf l).mode = .discard)

theorem withdrawalPasses_iff {s : State} {l : Nat} (h : s.adminOf l = .withdrawing) :
    s.withdrawalPasses l = true ↔ s.Quiet l := by
  unfold State.withdrawalPasses State.Quiet
  rw [h]
  cases s.hasCtx l <;> simp

theorem Beside.quiet {l : Nat} {s t : State} (h : Beside l s t) : t.Quiet l ↔ s.Quiet l := by
  unfold State.Quiet
  rw [hasCtx_congr h.cfg h.station, h.send, h.stack, h.mas]

/-- The withdrawal test of a line that is WITHDRAWING, made within the OUT (R165). -/
theorem withdrawalTest_withdrawing {s : State} {l : Nat} (hl : l < 8) (hst : s.station < 16) (hk : s.kind l ≠ .unfitted)
    (h : s.adminOf l = .withdrawing) :
    (s.Quiet l → (s.withdrawalTest l true none).adminOf l = .withdrawn ∧
        (s.withdrawalTest l true none).ownCondition l = .withdrawn) ∧
      (¬ s.Quiet l → s.withdrawalTest l true none = s) := by
  refine ⟨fun quiet => ?_, fun busy => withdrawalTest_not _ _ (Bool.eq_false_of_not_eq_true (mt (withdrawalPasses_iff h).mp busy))⟩
  have passes := (withdrawalPasses_iff h).mpr quiet
  have r := traffic_updateCondition (s.setAdmin l .withdrawn) l
  have derived := updateCondition_condition (s := s.setAdmin l .withdrawn) hst hl
  rw [adminOf_setAdmin_self s l _ hl, deriveCondition_of_fitted (k := (s.setAdmin l .withdrawn).kind l) hk] at derived
  have admin : ((s.setAdmin l .withdrawn).updateCondition l).adminOf l = .withdrawn :=
    (adminOf_congr r.admin l).trans (adminOf_setAdmin_self s l _ hl)
  have condition : ((s.setAdmin l .withdrawn).updateCondition l).ownCondition l = .withdrawn := by
    rw [State.ownCondition, circuit_congr r.station]
    exact derived
  unfold State.withdrawalTest
  rw [if_pos passes]
  dsimp only
  rw [if_pos rfl]
  split <;> exact ⟨admin, condition⟩

/-- What a return to IN leaves of every line's admin state and condition (R166). -/
theorem returnIn_states (s : State) (c l : Nat) :
    (s.returnIn c).station = s.station ∧ (s.returnIn c).adminOf l = s.adminOf l ∧
      (s.returnIn c).ownCondition l = s.ownCondition l := by
  unfold State.returnIn
  dsimp only
  split <;> split <;> exact ⟨rfl, rfl, rfl⟩

/-! ## The owed sets -/

/-- The peers are as they were but for growing owed sets, and where the condition of circuit `c` has changed, `c` has joined
them (R150). -/
structure OwesChange (c : Nat) (s t : State) : Prop where
  station : t.station = s.station
  cfg : t.cfg = s.cfg
  presence : ∀ k, (t.peer k).presence = (s.peer k).presence
  flag : ∀ k, (t.peer k).flag = (s.peer k).flag
  owed : ∀ k d, d ∈ (s.peer k).owed → d ∈ (t.peer k).owed
  changed : (t.mapOf c).condition ≠ (s.mapOf c).condition → s.owedToPeers t c

theorem OwesChange.trans {c : Nat} {s t u : State} (a : OwesChange c s t) (b : OwesChange c t u) : OwesChange c s u where
  station := b.station.trans a.station
  cfg := b.cfg.trans a.cfg
  presence k := (b.presence k).trans (a.presence k)
  flag k := (b.flag k).trans (a.flag k)
  owed k d h := b.owed k d (a.owed k d h)
  changed h := by
    intro k hk hf hne hp hq
    by_cases e : (t.mapOf c).condition = (s.mapOf c).condition
    · exact b.changed (by rw [e]; exact h) k hk (by rw [fitted_congr a.cfg]; exact hf) (by rw [a.station]; exact hne)
        (by rw [a.presence]; exact hp) (by rw [a.flag]; exact hq)
    · exact b.owed k c (a.changed e k hk hf hne hp hq)

theorem Resolved.owesChange {s t : State} (r : Resolved s t) (c : Nat) : OwesChange c s t :=
  ⟨r.station, r.cfg, r.presence, r.flag, r.owed, fun h => absurd (r.condition c) h⟩

theorem OwesChange.refl (c : Nat) (s : State) : OwesChange c s s := (Resolved.refl s).owesChange c

theorem OwesChange.of_tables {s t : State} (c : Nat) (hs : t.station = s.station) (hc : t.cfg = s.cfg) (hm : t.map = s.map)
    (hp : t.peers = s.peers) : OwesChange c s t where
  station := hs
  cfg := hc
  presence k := by rw [State.peer, hp]; rfl
  flag k := by rw [State.peer, hp]; rfl
  owed k d h := by rw [State.peer, hp]; exact h
  changed h := by rw [State.mapOf, hm] at h; exact absurd rfl h

theorem OwesChange.foldl {c : Nat} {α : Type} {f : State → α → State} (h : ∀ s a, OwesChange c s (f s a)) (l : List α)
    (s : State) : OwesChange c s (l.foldl f s) := foldl_keeps (OwesChange c) (.refl c) .trans f h l s

theorem owesChange_updateCondition (s : State) (l c : Nat) : OwesChange c s (s.updateCondition l) := by
  have others : ((s.updateCondition l).mapOf c).condition ≠ (s.mapOf c).condition → s.owedToPeers (s.updateCondition l) c := by
    intro h
    by_cases e : c = s.circuit l
    · subst e
      exact updateCondition_owed h
    · exact absurd ((lined_updateCondition s l).condition c e) h
  have owed : ∀ k d, d ∈ (s.peer k).owed → d ∈ ((s.updateCondition l).peer k).owed := by
    unfold State.updateCondition
    dsimp only
    split
    · exact fun k d h => h
    · exact fun k d h => (resolved_owe _ _).owed k d h
  have lined := lined_updateCondition s l
  refine ⟨lined.station, lined.cfg, fun k => ?_, fun k => ?_, owed, others⟩
  · have p := congrArg Peer.presence (lined.peer k); exact p
  · have p := congrArg Peer.flag (lined.peer k); exact p

theorem owesChange_moveAdmin (a : Admin) (s : State) (d c : Nat) : OwesChange c s (State.moveAdmin a s d) :=
  (OwesChange.of_tables (s := s) (t := s.setAdmin (lineOf d) a) c rfl rfl rfl rfl).trans (owesChange_updateCondition _ _ c)

theorem owesChange_withdrawalTest (s : State) (l c : Nat) (q : Bool) (n : Option FailureCounts) :
    OwesChange c s (s.withdrawalTest l q n) := by
  unfold State.withdrawalTest
  dsimp only
  have moved : OwesChange c s ((s.setAdmin l .withdrawn).updateCondition l) :=
    (OwesChange.of_tables (s := s) (t := s.setAdmin l .withdrawn) c rfl rfl rfl rfl).trans (owesChange_updateCondition _ _ c)
  generalize (s.setAdmin l .withdrawn).updateCondition l = t at moved
  have hunts : OwesChange c s (if (t.masOf l).mode = .discard then t.setMas l (t.masOf l).toHunt else t) := by
    split
    · exact moved.trans (.of_tables c rfl rfl rfl rfl)
    · exact moved
  split
  · split
    · exact hunts
    · exact hunts.trans ((resolved_request _ _).owesChange c)
  · exact .refl c s

theorem owesChange_returnIn (s : State) (d c : Nat) : OwesChange c s (s.returnIn d) := by
  unfold State.returnIn
  dsimp only
  split <;> split <;> exact .of_tables c rfl rfl rfl rfl

theorem owesChange_circuitRequest (s : State) (img : Image) (q : Rest) (c : Nat) :
    OwesChange c s (s.circuitRequest img q).1 := by
  have admins : ∀ (a : Admin) (cs : List Nat) (t : State), OwesChange c t (cs.foldl (State.moveAdmin a) t) :=
    fun a cs t => .foldl (fun u d => owesChange_moveAdmin a u d c) cs t
  have tests : ∀ (cs : List Nat) (t : State),
      OwesChange c t (cs.foldl (fun t c => t.withdrawalTest (lineOf c) true none) t) :=
    fun cs t => .foldl (fun u d => owesChange_withdrawalTest u (lineOf d) c true none) cs t
  have returns : ∀ (cs : List Nat) (t : State), OwesChange c t (cs.foldl State.returnIn t) :=
    fun cs t => .foldl (fun u d => owesChange_returnIn u d c) cs t
  exact ((((((admins _ _ s).trans (admins _ _ _)).trans ((resolved_pullQueues _ _).owesChange c)).trans
    ((resolved_reResolve _ _).owesChange c)).trans (tests _ _)).trans (returns _ _)).trans ((resolved_reexamine _).owesChange c)

/-! ## The request -/

/-- The OUT circuits that a request moves (R161, R162). -/
def State.outNow (s : State) (img : Image) (q : Rest) : List Nat :=
  if (invalidReasons img q.source (s.remaining q.outs) (s.remaining q.ins)).isEmpty then
    (s.remaining q.outs).filter fun c => decide (s.adminOf (lineOf c) = .inn)
  else []

/-- The IN circuits that a request moves (R161, R166). -/
def State.inNow (s : State) (q : Rest) : List Nat :=
  (s.remaining q.ins).filter fun c => decide (s.adminOf (lineOf c) ≠ .inn)

/-- The admin states moved and the unstarted entries of the OUT circuits answered. -/
def State.moved (s : State) (img : Image) (q : Rest) : State :=
  let p := ((s.inNow q).foldl (State.moveAdmin .inn) ((s.outNow img q).foldl (State.moveAdmin .withdrawing) s)).pullQueues
    (s.outNow img q)
  p.1.reResolve p.2

theorem circuitRequest_fst (s : State) (img : Image) (q : Rest) :
    (s.circuitRequest img q).1 = ((s.inNow q).foldl State.returnIn
      ((s.outNow img q).foldl (fun t c => t.withdrawalTest (lineOf c) true none) (s.moved img q))).reexamine := rfl

theorem mem_outNow {s : State} {img : Image} {q : Rest} {c : Nat} (h : c ∈ s.outNow img q) :
    c ∈ q.outs ∧ s.isOwn c = true ∧ s.kind (lineOf c) ≠ .unfitted ∧ s.adminOf (lineOf c) = .inn := by
  unfold State.outNow at h
  split at h
  · obtain ⟨hrem, hadmin⟩ := List.mem_filter.mp h
    obtain ⟨hq, ho, hk⟩ := mem_remaining.mp hrem
    exact ⟨hq, ho, hk, of_decide_eq_true hadmin⟩
  · exact absurd h List.not_mem_nil

theorem mem_inNow {s : State} {q : Rest} {c : Nat} :
    c ∈ s.inNow q ↔ c ∈ q.ins ∧ s.isOwn c = true ∧ s.kind (lineOf c) ≠ .unfitted ∧ s.adminOf (lineOf c) ≠ .inn := by
  rw [State.inNow, List.mem_filter, mem_remaining, decide_eq_true_iff, and_assoc, and_assoc]

theorem line_inNow {s : State} {q : Rest} {l : Nat} (hl : l < 8) :
    s.circuit l ∈ s.inNow q ↔
      s.circuit l ∈ q.ins ∧ s.isOwn (s.circuit l) = true ∧ s.kind l ≠ .unfitted ∧ s.adminOf l ≠ .inn := by
  rw [mem_inNow, lineOf_circuit s hl]

theorem line_outNow {s : State} {img : Image} {q : Rest} {l : Nat} (hl : l < 8) (h : s.circuit l ∈ s.outNow img q) :
    s.circuit l ∈ q.outs ∧ s.isOwn (s.circuit l) = true ∧ s.kind l ≠ .unfitted ∧ s.adminOf l = .inn := by
  have out := mem_outNow h
  rw [lineOf_circuit s hl] at out
  exact out

theorem inNow_nodup (s : State) (q : Rest) : (s.inNow q).Nodup := ((rising_nodup _).filter _).filter _

theorem outNow_nodup (s : State) (img : Image) (q : Rest) : (s.outNow img q).Nodup := by
  unfold State.outNow
  split
  · exact ((rising_nodup _).filter _).filter _
  · exact List.nodup_nil

/-- The turn of another own circuit is another line's. -/
theorem lineOf_ne {s : State} {d l : Nat} (ho : s.isOwn d = true) (h : d ≠ s.circuit l) : lineOf d ≠ l := by
  rintro rfl
  exact h (circuit_of_own ho).symm

theorem station_of_own {s : State} {c : Nat} (h : s.isOwn c = true) : s.station < 16 := by
  obtain ⟨hc, hk⟩ := (isOwn_iff s c).mp h
  omega

section
variable (s : State) (img : Image) (q : Rest) {l : Nat}

/-- The end of a rest whose message asks for circuits alone. -/
theorem rest_circuits {qs : List Rest} {straps : BitVec 4} {hc hd : Bool} (hr : s.running = true) (hcfg : s.cfg = some img)
    (hq : s.rests = q :: qs) (hres : q.restart = none) (hm : q.moves = []) (hsome : q.outs ≠ [] ∨ q.ins ≠ []) :
    ∃ t, exec (.serviceMessageRest straps hc hd) s = .next t ∧
      (∀ l, t.adminOf l = (({ s with rests := qs } : State).circuitRequest img q).1.adminOf l ∧
        (t.mapOf (s.circuit l)).condition = (({ s with rests := qs } : State).circuitRequest img q).1.ownCondition l) ∧
      ∀ c, (t.mapOf c).condition ≠ (s.mapOf c).condition → s.owedToPeers t c := by
  have owes := fun c => owesChange_circuitRequest { s with rests := qs } img q c
  have steps : ∃ r, ({ s with rests := qs } : State).restSteps img q =
      (({ s with rests := qs } : State).circuitRequest img q).1.request r := by
    unfold State.restSteps
    dsimp only
    rw [hm, List.foldl_nil, requestIfAny_some hsome, if_neg (by rw [hres]; decide)]
    exact ⟨_, rfl⟩
  obtain ⟨r, steps⟩ := steps
  have run := exec_rest straps hc hd hr hcfg hq
  rw [hres, steps] at run
  generalize (({ s with rests := qs } : State).circuitRequest img q).1 = u at owes run
  have k := kept_finish (u.request r)
  have req := resolved_request u r
  refine ⟨(u.request r).finish, run, fun l => ⟨?_, ?_⟩, fun c h => ?_⟩
  · rw [adminOf_congr k.admin, adminOf_congr req.admin]
  · rw [State.ownCondition, circuit_congr (owes 0).station, State.mapOf, k.map]
    exact req.condition _
  · have owed := (owes c).trans (req.owesChange c)
    have cond : ((u.request r).mapOf c).condition ≠ (s.mapOf c).condition := by
      rw [State.mapOf, k.map] at h
      exact h
    exact Kept.owedToPeers (owed.changed cond) k

end

/-! ## One line of a request -/

section
variable (s : State) (img : Image) (q : Rest) {l : Nat}

theorem returns_states (cs : List Nat) (l : Nat) : ∀ s : State,
    (cs.foldl State.returnIn s).station = s.station ∧ (cs.foldl State.returnIn s).adminOf l = s.adminOf l ∧
      (cs.foldl State.returnIn s).ownCondition l = s.ownCondition l := by
  induction cs with
  | nil => exact fun s => ⟨rfl, rfl, rfl⟩
  | cons c cs ih =>
    intro s
    obtain ⟨hs, ha, hc⟩ := ih (s.returnIn c)
    obtain ⟨hs', ha', hc'⟩ := returnIn_states s c l
    exact ⟨hs.trans hs', ha.trans ha', hc.trans hc'⟩

/-- The withdrawal tests made, nothing of line `l`'s states changes any more. -/
theorem request_end (l : Nat) :
    (s.circuitRequest img q).1.adminOf l =
        ((s.outNow img q).foldl (fun t c => t.withdrawalTest (lineOf c) true none) (s.moved img q)).adminOf l ∧
      (s.circuitRequest img q).1.ownCondition l =
        ((s.outNow img q).foldl (fun t c => t.withdrawalTest (lineOf c) true none) (s.moved img q)).ownCondition l := by
  rw [circuitRequest_fst]
  obtain ⟨-, ha, hc⟩ := returns_states (s.inNow q) l
    ((s.outNow img q).foldl (fun t c => t.withdrawalTest (lineOf c) true none) (s.moved img q))
  have last := (resolved_reexamine ((s.inNow q).foldl State.returnIn
    ((s.outNow img q).foldl (fun t c => t.withdrawalTest (lineOf c) true none) (s.moved img q)))).aside l
  exact ⟨last.admin.trans ha, last.condition.trans hc⟩

/-- Slots answered, after the admin states have moved. -/
theorem moved_aside (l : Nat) : Aside l
    ((s.inNow q).foldl (State.moveAdmin .inn) ((s.outNow img q).foldl (State.moveAdmin .withdrawing) s)) (s.moved img q) :=
  ((resolved_pullQueues _ _).trans (resolved_reResolve _ _)).aside l

theorem outNow_ne {d : Nat} (h : d ∈ s.outNow img q) (hne : d ≠ s.circuit l) : lineOf d ≠ l :=
  lineOf_ne (mem_outNow h).2.1 hne

theorem inNow_ne {d : Nat} (h : d ∈ s.inNow q) (hne : d ≠ s.circuit l) : lineOf d ≠ l :=
  lineOf_ne (mem_inNow.mp h).2.1 hne

theorem ins_aside (h : s.circuit l ∉ s.inNow q) (t : State) : Aside l t ((s.inNow q).foldl (State.moveAdmin .inn) t) :=
  foldl_aside _ (fun u _ hd => moveAdmin_aside .inn u (inNow_ne s q hd fun e => h (e ▸ hd))) t

theorem outs_aside (h : s.circuit l ∉ s.outNow img q) (t : State) :
    Aside l t ((s.outNow img q).foldl (State.moveAdmin .withdrawing) t) :=
  foldl_aside _ (fun u _ hd => moveAdmin_aside .withdrawing u (outNow_ne s img q hd fun e => h (e ▸ hd))) t

theorem tests_aside (h : s.circuit l ∉ s.outNow img q) (t : State) :
    Aside l t ((s.outNow img q).foldl (fun t c => t.withdrawalTest (lineOf c) true none) t) :=
  foldl_aside _ (fun u _ hd => withdrawalTest_aside u (outNow_ne s img q hd fun e => h (e ▸ hd)) true none) t

/-- A line whose circuit the request does not move. -/
theorem request_others (ho : s.circuit l ∉ s.outNow img q) (hi : s.circuit l ∉ s.inNow q) :
    (s.circuitRequest img q).1.adminOf l = s.adminOf l :=
  (request_end s img q l).1.trans ((((outs_aside s img q ho s).trans (ins_aside s q hi _)).trans
    (moved_aside s img q l)).trans (tests_aside s img q ho _)).admin

/-- A line whose circuit returns to IN (R166). -/
theorem request_in (hl : l < 8) (hi : s.circuit l ∈ s.inNow q) :
    (s.circuitRequest img q).1.adminOf l = .inn ∧
      (s.circuitRequest img q).1.ownCondition l = if (s.line l).wire = .opened then .opened else .inService := by
  obtain ⟨-, own, fitted, admin⟩ := (line_inNow hl).mp hi
  have ho : s.circuit l ∉ s.outNow img q := fun h => admin (line_outNow hl h).2.2.2
  have first := outs_aside s img q ho s
  obtain ⟨u, before, after⟩ := foldl_once (R := Aside l) (.refl l) .trans (f := State.moveAdmin .inn) (s.inNow q)
    (fun t d hd hne => moveAdmin_aside .inn t (inNow_ne s q hd hne)) (inNow_nodup s q) hi
    ((s.outNow img q).foldl (State.moveAdmin .withdrawing) s)
  have toU := first.trans before
  obtain ⟨-, inn, condition⟩ := moveAdmin_self .inn (s := u) (c := s.circuit l) (lineOf_circuit s hl) hl
    (by rw [toU.station]; exact station_of_own own)
  have rest := (after.trans (moved_aside s img q l)).trans (tests_aside s img q ho _)
  obtain ⟨endAdmin, endCondition⟩ := request_end s img q l
  refine ⟨endAdmin.trans (rest.admin.trans inn), endCondition.trans (rest.condition.trans (condition.trans ?_))⟩
  rw [kind_congr toU.cfg toU.station, toU.wire]
  exact deriveCondition_of_fitted fitted .inn _

/-- A line whose circuit goes OUT (R162, R165). -/
theorem request_out (hl : l < 8) (ho : s.circuit l ∈ s.outNow img q) :
    (s.Quiet l → (s.circuitRequest img q).1.adminOf l = .withdrawn ∧
        (s.circuitRequest img q).1.ownCondition l = .withdrawn) ∧
      (¬ s.Quiet l → (s.circuitRequest img q).1.adminOf l = .withdrawing ∧
        (s.circuitRequest img q).1.ownCondition l = .withdrawing) := by
  obtain ⟨-, own, fitted, admin⟩ := line_outNow hl ho
  have hst := station_of_own own
  have hi : s.circuit l ∉ s.inNow q := fun h => ((line_inNow hl).mp h).2.2.2 admin
  obtain ⟨u, before, after⟩ := foldl_once (R := Aside l) (.refl l) .trans (f := State.moveAdmin .withdrawing) (s.outNow img q)
    (fun t d hd hne => moveAdmin_aside .withdrawing t (outNow_ne s img q hd hne)) (outNow_nodup s img q) ho s
  obtain ⟨beside, withdrawing, condition⟩ := moveAdmin_self .withdrawing (s := u) (c := s.circuit l) (lineOf_circuit s hl) hl
    (by rw [before.station]; exact hst)
  rw [kind_congr before.cfg before.station, deriveCondition_of_fitted fitted] at condition
  have toMoved := (after.trans (ins_aside s q hi _)).trans (moved_aside s img q l)
  obtain ⟨v, beforeTest, afterTest⟩ := foldl_once (R := Aside l) (.refl l) .trans
    (f := fun t c => t.withdrawalTest (lineOf c) true none) (s.outNow img q)
    (fun t d hd hne => withdrawalTest_aside t (outNow_ne s img q hd hne) true none) (outNow_nodup s img q) ho (s.moved img q)
  have toTest := toMoved.trans beforeTest
  have all : Beside l s v := (before.toBeside.trans beside).trans toTest.toBeside
  obtain ⟨passes, fails⟩ := withdrawalTest_withdrawing (s := v) hl (by rw [all.station]; exact hst)
    (by rw [kind_congr all.cfg all.station]; exact fitted) (toTest.admin.trans withdrawing)
  rw [all.quiet] at passes fails
  rw [lineOf_circuit s hl] at afterTest
  obtain ⟨endAdmin, endCondition⟩ := request_end s img q l
  rw [endAdmin, endCondition, afterTest.admin, afterTest.condition]
  refine ⟨passes, fun busy => ?_⟩
  rw [fails busy]
  exact ⟨toTest.admin.trans withdrawing, toTest.condition.trans condition⟩

theorem line_outNow_of_valid (hl : l < 8) (hi : q.ins = []) (hv : ∀ c ∈ q.outs, c ≠ img.intercept ∧ q.source ≠ some (.circuit c))
    (hc : s.circuit l ∈ q.outs) (ho : s.isOwn (s.circuit l) = true) (hk : s.kind l ≠ .unfitted) (ha : s.adminOf l = .inn) :
    s.circuit l ∈ s.outNow img q := by
  have valid : invalidReasons img q.source (s.remaining q.outs) (s.remaining q.ins) = [] := by
    have none : s.remaining q.ins = [] := by rw [hi]; rfl
    have intercept : img.intercept ∉ s.remaining q.outs := fun h => (hv _ (mem_remaining.mp h).1).1 rfl
    have own : (s.remaining q.outs).any (fun c => decide (q.source = some (.circuit c))) = false := by
      rw [List.any_eq_false]
      intro c h
      rw [decide_eq_true_iff]
      exact (hv c (mem_remaining.mp h).1).2
    unfold invalidReasons
    rw [none, if_neg intercept, own]
    simp
  unfold State.outNow
  rw [valid]
  refine List.mem_filter.mpr ⟨mem_remaining.mpr ⟨hc, ho, ?_⟩, decide_eq_true ?_⟩
  · rw [lineOf_circuit s hl]
    exact hk
  · rw [lineOf_circuit s hl]
    exact ha

theorem outNow_of_outs_nil (h : q.outs = []) : s.outNow img q = [] := by
  unfold State.outNow
  have none : s.remaining q.outs = [] := by rw [h]; rfl
  rw [none]
  exact ite_self _

/-- A request with a reason to be invalid moves no OUT circuit (R161). -/
theorem outNow_of_invalid {c : Nat} (hc : c ∈ q.outs) (ho : s.isOwn c = true) (hk : s.kind (lineOf c) ≠ .unfitted)
    (h : c = img.intercept ∨ q.source = some (.circuit c) ∨ ∃ d ∈ q.ins, s.isOwn d = true ∧ s.kind (lineOf d) ≠ .unfitted) :
    s.outNow img q = [] := by
  have out : c ∈ s.remaining q.outs := mem_remaining.mpr ⟨hc, ho, hk⟩
  refine if_neg fun valid => ?_
  rw [List.isEmpty_iff, invalidReasons, List.append_eq_nil_iff, List.append_eq_nil_iff] at valid
  obtain ⟨⟨mixed, intercept⟩, ownLine⟩ := valid
  rcases h with rfl | h | ⟨d, hd, hod, hkd⟩
  · rw [if_pos out] at intercept
    cases intercept
  · rw [if_pos (List.any_eq_true.mpr ⟨c, out, decide_eq_true h⟩)] at ownLine
    cases ownLine
  · have inn : d ∈ s.remaining q.ins := mem_remaining.mpr ⟨hd, hod, hkd⟩
    rw [if_pos] at mixed
    · cases mixed
    · rw [Bool.and_eq_true, Bool.not_eq_true', Bool.not_eq_true', List.isEmpty_eq_false_iff, List.isEmpty_eq_false_iff]
      exact ⟨List.ne_nil_of_mem out, List.ne_nil_of_mem inn⟩

end

/-- Settles O42: the request moves its OUT circuits when it is valid (`request_out`), its IN circuits in any case
(`request_in`), and no other (`request_others`). -/
theorem circuitRequestMovesAdminStates : Obligations.CircuitRequestMovesAdminStates := by
  refine ⟨fun s img q qs straps hc hd hr hcfg hq hres hm hi hne hv => ?_, fun s img q qs straps hc hd hr hcfg hq hres hm h => ?_⟩
  · obtain ⟨t, run, states, owes⟩ := rest_circuits s img q (straps := straps) (hc := hc) (hd := hd) hr hcfg hq hres hm (.inl hne)
    refine ⟨t, run, fun l hl => ⟨fun admin own fitted hout => ?_, fun h => ?_, owes _⟩⟩
    · rw [(states l).1, (states l).2]
      exact request_out { s with rests := qs } img q hl
        (line_outNow_of_valid { s with rests := qs } img q hl hi hv hout own fitted admin)
    · rw [(states l).1]
      refine request_others { s with rests := qs } img q (fun hout => ?_) fun hin => ?_
      · obtain ⟨asked, -, fitted, admin⟩ := line_outNow (s := { s with rests := qs }) hl hout
        rcases h with h | h | h
        · exact h admin
        · exact fitted h
        · exact h asked
      · have asked := (mem_inNow.mp hin).1
        rw [hi] at asked
        exact absurd asked List.not_mem_nil
  · have none : ({ s with rests := qs } : State).outNow img q = [] := by
      rcases h with ⟨h, -⟩ | ⟨c, hcm, ho, hk, why⟩
      · exact outNow_of_outs_nil _ img q h
      · exact outNow_of_invalid { s with rests := qs } img q hcm ho hk why
    have asks : q.outs ≠ [] ∨ q.ins ≠ [] := by
      rcases h with ⟨-, h⟩ | ⟨c, hcm, -⟩
      · exact .inr h
      · exact .inl (List.ne_nil_of_mem hcm)
    obtain ⟨t, run, states, owes⟩ := rest_circuits s img q (straps := straps) (hc := hc) (hd := hd) hr hcfg hq hres hm asks
    have others : ∀ l, s.circuit l ∉ ({ s with rests := qs } : State).inNow q → t.adminOf l = s.adminOf l := fun l hin =>
      (states l).1.trans (request_others { s with rests := qs } img q (by rw [none]; exact List.not_mem_nil) hin)
    refine ⟨t, run, fun l hl => ⟨fun own fitted hin => ?_, fun h => others l fun hin => ?_, owes _⟩⟩
    · by_cases admin : s.adminOf l = .inn
      · refine ⟨(others l fun h => ?_).trans admin, fun h => absurd admin h⟩
        exact ((line_inNow (s := { s with rests := qs }) hl).mp h).2.2.2 admin
      · have back := request_in { s with rests := qs } img q hl
          ((line_inNow (s := { s with rests := qs }) hl).mpr ⟨hin, own, fitted, admin⟩)
        exact ⟨(states l).1.trans back.1, fun _ => (states l).2.trans back.2⟩
    · obtain ⟨asked, -, fitted, -⟩ := (line_inNow (s := { s with rests := qs }) hl).mp hin
      exact h.elim fitted fun h => h asked

end Sys2Proof.Machine

/-! PROOF. The sender of a frame (chapter 7): how a frame starts, what its samples do, and how the two wires are driven
meanwhile (R119 to R128, R143). -/

namespace Sys2Proof.Machine

/-! ## The drivers, by what the engine does -/

/-- The drivers of a station outside a frame, or of a listener outside the slots it pulls. -/
theorem drive_released {s : State} (hc : s.clocking = false) (hs : ∀ p, s.stretches p = false) (hh : s.heldHd = false)
    (hf : s.stopFollows = false) (hp : s.pullsHd = false) (p : BitPart) : s.drive p = ⟨false, false⟩ := by
  have hd : s.driveHd p = false := by cases p <;> simp [State.driveHd, hc, hh, hf, hp]
  unfold State.drive
  rw [hc, hs, hd]
  rfl

section
variable {s : State} {f : Flight} (hf : s.flight = some f) (he : s.engine = .contending ∨ s.engine = .sending)
include hf he

/-- A station that sends its own frame, by the part of the bit. -/
theorem drive_sending (ho : f.own.isSome = true) :
    s.drive .high = ⟨false, s.heldHd⟩ ∧ s.drive .fall = ⟨true, s.heldHd⟩ ∧
      s.drive .low = ⟨true, s.cutsNext f || s.pullsHd⟩ ∧ s.drive .rise = ⟨false, s.cutsNext f || s.pullsHd⟩ ∧
      s.drive .over = ⟨false, !s.cutsNext f && s.pullsHd⟩ := by
  have clocks : s.clocking = true := by
    rw [State.clocking, hf]
    rcases he with e | e <;> simp [State.clocks, e, ho]
  have still : ∀ p, s.stretches p = false := fun p => by
    rw [State.stretches, hf]
    rcases he with e | e <;> simp [e]
  have stop : s.stopFollows = s.cutsNext f := by rw [State.stopFollows, hf]; rfl
  refine ⟨?_, ?_, ?_, ?_, ?_⟩ <;>
    simp [State.drive, State.driveHd, BitPart.clocked, clocks, still, stop]

theorem pullsHd_sending : s.pullsHd = decide (s.drivenBit f = some false) := by
  rw [State.pullsHd, hf]
  rcases he with e | e <;> simp [e]

end

/-! ## The start of a frame -/

theorem exec_frameStart {s : State} {o : Offer} (hr : s.running = true) (he : s.engine = .waitingIdle)
    (ho : s.offered = some o) (hi : s.timers.idleRun = true ∨ (s.parting.stop = true ∧ s.timers.stuck = false)) :
    exec .frameStart s = .next (s.startFrame o.frame) := by
  have runs : s.idleRuns = true := by rcases hi with h | ⟨h₁, h₂⟩ <;> simp [State.idleRuns, *]
  refine (whenever_of ?_ _ _).trans ?_
  · rw [hr, he, ho, runs]
    rfl
  · rw [ho]
    rfl

/-- The start condition (R121): HD first, then HC, then the first bit. -/
theorem drive_startFrame (s : State) {fr : Frame} {b : Byte} (hb : (s.frameCells fr)[0]? = some b) :
    (s.startFrame fr).drive .high = ⟨false, true⟩ ∧ (s.startFrame fr).drive .fall = ⟨true, true⟩ ∧
      (s.startFrame fr).drive .low = ⟨true, !b.getLsbD 7⟩ ∧ (s.startFrame fr).drive .rise = ⟨false, !b.getLsbD 7⟩ := by
  obtain ⟨high, fall, low, rise, -⟩ := drive_sending (s := s.startFrame fr) rfl (.inl rfl) rfl
  have held : (s.startFrame fr).heldHd = true := rfl
  have bit : (s.startFrame fr).drivenBit (Flight.fresh (some (fr, s.frameCells fr))
      (some ((s.frameCells fr).length + (s.frameText fr).length))) = some (b.getLsbD 7) := by
    have first : ((s.frameCells fr)[0]?).getD 0 = b := by rw [hb]; rfl
    show some (bitOfCell (((s.frameCells fr)[0]?).getD 0) 1) = _
    rw [first]
    rfl
  have pulls : (s.startFrame fr).pullsHd = !b.getLsbD 7 := by
    rw [pullsHd_sending (s := s.startFrame fr) rfl (.inl rfl), bit]
    cases b.getLsbD 7 <;> rfl
  rw [high, fall, low, rise, held, pulls]
  exact ⟨rfl, rfl, rfl, rfl⟩

section
variable {s : State} (he : s.engine = .idle ∨ s.engine = .waitingIdle)
include he

theorem clockRises_resting (hd : Bool) : s.clockRises hd =
    { s with timers := .outside (hd || s.parting.stop), parting := ⟨false, s.parting.stop && !hd⟩ } := by
  unfold State.clockRises
  split
  case h_1 | h_2 => rfl
  all_goals next h => rcases he with e | e <;> cases e.symm.trans h

theorem clockFalls_resting : s.clockFalls = { s with timers := .low, parting := ⟨s.parting.stop, false⟩ } := by
  unfold State.clockFalls
  split
  case h_1 | h_2 => rfl
  all_goals next h => rcases he with e | e <;> cases e.symm.trans h

theorem stopSeen_resting (byStart : Bool) : s.stopSeen byStart =
    if byStart then s else { s with timers := .outside true, parting := .released } := by
  unfold State.stopSeen
  split
  case h_1 | h_2 => rfl
  all_goals next h => rcases he with e | e <;> cases e.symm.trans h

end

/-- Settles O43. -/
theorem frameStarts : Obligations.FrameStarts := by
  refine ⟨fun s o hr he ho hi => exec_frameStart hr he ho hi, fun s o b hr he ho hi hb => ⟨_, exec_frameStart hr he ho hi,
    drive_startFrame s hb⟩, fun s hr he => ?heard, fun s hi hp => ?quiet, fun s hr hf he => ⟨fun hd => ?rises, ?falls, ?stops, ?starts⟩⟩
  case heard =>
    refine whenever_of ?_ _ _
    rcases he with e | e <;> simp [hr, e]
  case quiet =>
    refine whenever_not ?_ _ _
    have still : s.idleRuns = false := by rcases hp with h | h <;> simp [State.idleRuns, hi, h]
    rw [still, Bool.and_false]
  case rises =>
    refine (whenever_of hr _ _).trans (congrArg _ (Eq.trans ?_ (clockRises_resting he hd)))
    rw [hf]
    rfl
  case falls =>
    refine (whenever_of hr _ _).trans (congrArg _ ?_)
    have outside : s.inFlight s.slotDue = false := by rw [State.inFlight, hf]; simp
    rw [outside]
    exact clockFalls_resting he
  case stops =>
    refine (whenever_of hr _ _).trans (congrArg _ (Eq.trans ?_ (stopSeen_resting he false)))
    rw [hf]
    rfl
  case starts =>
    refine (whenever_of hr _ _).trans (congrArg _ (Eq.trans ?_ (stopSeen_resting he true)))
    rw [hf]
    rfl

/-! ## The samples of a sender -/

theorem exec_bitSample {s : State} {f : Flight} (hr : s.running = true) (hf : s.flight = some f) (hd : Bool) :
    exec (.bitSample hd) s = .next (s.sample hd) := by
  refine (whenever_of hr _ _).trans (congrArg _ ?_)
  rw [hf]
  rfl

section
variable {s : State} {f : Flight} (hf : s.flight = some f)
include hf

theorem sample_sending (he : s.engine = .contending ∨ s.engine = .sending) (hc : f.cutting = false ∨ s.timers.stuck = true)
    (hd : Bool) : s.sample hd = s.senderSample f hd := by
  have goes : s.cutsNext f = false := by
    rcases hc with h | h <;> simp [State.cutsNext, State.cuts, h]
  rcases he with e | e <;> simp [State.sample, hf, e, goes]

theorem sample_listening (he : s.engine = .listening) (hd : Bool) : s.sample hd = s.listenerSample f hd := by
  simp [State.sample, hf, he]

theorem sample_ownReceipt (he : s.engine = .receipt) (ho : f.own.isSome = true) (hd : Bool) :
    s.sample hd = s.senderReceipt f hd := by
  simp [State.sample, hf, he, ho]

theorem sample_heardReceipt (he : s.engine = .receipt) (ho : f.own = none) (hd : Bool) :
    s.sample hd = s.listenerReceipt f hd := by
  simp [State.sample, hf, he, ho]

end

/-- A released veto slot (R123): the next cell, in the state of R123 for it. -/
theorem cellEnd_spec (s : State) (f : Flight) :
    ∃ b, s.cellEnd f =
        { s with
          engine :=
            if f.length = some (f.cell + 1) then .receipt
            else if s.engine = .contending ∧ f.cell + 1 = 2 then .sending else s.engine
          flight := some { f with symbol := b, cell := f.cell + 1, bit := 1, bits := [], vetoing := false, hdRead := true } } ∧
      (∀ addr m listed cells σ, f.own = some (.carry addr m listed, cells) → f.cutting = false →
        cells.length ≤ f.cell + 1 → (s.record m).text[f.cell + 1 - cells.length]? = some σ → b = σ.cell) ∧
      (f.cutting = true → b = f.symbol) := by
  obtain ⟨b, reads, cut, text⟩ := readsSymbol_spec s f.nextCell
  refine ⟨b, ?_, text, cut⟩
  unfold State.cellEnd
  rw [reads]
  show (if f.length = some (f.cell + 1) then _ else if s.engine = .contending ∧ f.cell + 1 = 2 then _ else _ : State) = _
  split
  · rfl
  · split <;> rfl

theorem mem_readSlot (f : Flight) (hd : Bool) (j : Nat) :
    (j ∈ (f.readSlot hd).heardSet ↔ j ∈ f.heardSet ∨ (hd = false ∧ f.slot < 16 ∧ j = f.slot)) ∧
      (j ∈ (f.readSlot hd).takeSet ↔ j ∈ f.takeSet ∨ (hd = false ∧ 16 ≤ f.slot ∧ j + 16 = f.slot)) := by
  unfold Flight.readSlot
  dsimp only
  constructor
  · split
    next h => rw [mem_insertRising]; tauto
    next h => tauto
  · split
    next h =>
      rw [mem_insertRising]
      have shift : j = f.slot - 16 ↔ j + 16 = f.slot := by omega
      tauto
    next h => tauto

/-- Settles O44. -/
theorem senderSamplesItsBits : Obligations.SenderSamplesItsBits := by
  refine ⟨fun s f hd hr hf he hc => ⟨fun hb hdriven => ?bit, fun hb => ?veto⟩, fun s f hd hr hf he ho hs => ?slot,
    fun s f hf ho he => ⟨?hc, ?driven, ?cut, ?receipt⟩⟩
  case bit =>
    rw [exec_bitSample hr hf, sample_sending hf he hc, State.senderSample, if_neg (show f.bit ≠ 10 by omega), if_pos hdriven]
    rfl
  case veto =>
    obtain ⟨b, ended, text, cut⟩ := cellEnd_spec { s with timers := .high } f
    refine ⟨b, ?_, text, cut⟩
    rw [exec_bitSample hr hf, sample_sending hf he hc, State.senderSample, if_pos hb]
    exact congrArg _ ended
  case slot =>
    refine ⟨(f.readSlot hd).heardSet, (f.readSlot hd).takeSet, ?_, fun j => (mem_readSlot f hd j).1, fun j => (mem_readSlot f hd j).2⟩
    rw [exec_bitSample hr hf, sample_ownReceipt hf he ho, State.senderReceipt, if_neg (Nat.ne_of_lt hs)]
    rfl
  case hc =>
    have clocks : s.clocking = true := by
      rw [State.clocking, hf]
      rcases he with e | e | e <;> simp [State.clocks, e, ho]
    have still : ∀ p, s.stretches p = false := fun p => by
      rw [State.stretches, hf]
      rcases he with e | e | e
      · simp [e]
      · simp [e]
      · simp [e, Option.isNone_eq_false_iff.mpr ho]
    simp [State.drive, BitPart.clocked, clocks, still]
  case driven =>
    intro hne hc
    have sends := he.imp_right (Or.resolve_right · hne)
    obtain ⟨-, -, low, rise, -⟩ := drive_sending hf sends ho
    have goes : s.cutsNext f = false := by rcases hc with h | h <;> simp [State.cutsNext, State.cuts, h]
    rw [low, rise, goes, pullsHd_sending hf sends]
    simp
  case cut =>
    intro hne hc hs
    have sends := he.imp_right (Or.resolve_right · hne)
    obtain ⟨-, -, low, rise, after⟩ := drive_sending hf sends ho
    have cuts : s.cutsNext f = true := by rcases sends with e | e <;> simp [State.cutsNext, State.cuts, hc, hs, e]
    rw [low, rise, after, cuts]
    exact ⟨rfl, rfl, rfl⟩
  case receipt =>
    intro e p
    have own : f.own.isNone = false := Option.isNone_eq_false_iff.mpr ho
    cases p <;>
      simp [State.drive, State.driveHd, State.heldHd, State.stopFollows, State.cutsNext, State.cuts, State.pullsHd, hf, e, own]

end Sys2Proof.Machine

/-! PROOF. How an own frame ends: VETOED, ABANDONED, cut, or with the arbitration lost (R123, R125 to R127, R129, R144). -/

namespace Sys2Proof.Machine

/-! ## The engine at rest after an event -/

theorem finish_atRest {s : State} (hr : s.running = true) (hf : s.flight = none) (he : s.engine = .idle ∨ s.engine = .waitingIdle) :
    s.finish.atRest := by
  refine ⟨?_, finish_engine_of_resting hr he⟩
  rw [finish_flight (by rcases he with e | e <;> rw [e] <;> decide) (by rcases he with e | e <;> rw [e] <;> decide), hf]

/-- An offer that the end of an event makes or renews has the hold-off of the offer before it, or the one that is due (R141). -/
theorem finish_holdoff {s : State} {o : Offer} (hr : s.running = true) (hn : s.renews = true) (ho : s.finish.offered = some o) :
    o.afterVeto = s.offered.elim s.holdoffDue (·.afterVeto) := by
  rw [finish_offered hr hn] at ho
  obtain ⟨f, -, rfl⟩ := Option.map_eq_some_iff.mp ho
  rfl

/-- A state with the engine's own parts as an own frame leaves them, and its end of an event. -/
theorem ownFrameEnded_of {s t : State} {vetoed hd : Bool} (hr : t.running = true) (hf : t.flight = none) (he : t.engine = .idle)
    (ho : t.offered = none) (hh : t.holdoffDue = vetoed)
    (hp : t.parting = if vetoed then ⟨true, hd⟩ else ⟨false, false⟩)
    (ht : vetoed = true → t.timers = ⟨false, false, false, false⟩)
    (hk : Kept { s with streak := if vetoed then min Config.streakLimit (s.streak + 1) else s.streak } t) :
    OwnFrameEnded s t.finish vetoed hd where
  rest := finish_atRest hr hf (.inl he)
  holdoff o h := by
    rw [finish_holdoff hr (by rw [State.renews, he]) h, ho]
    exact hh
  parting := (finish_parting t).trans hp
  idleRun h := (finish_timers t).trans (ht h)
  kept := hk.trans (kept_finish t)

theorem vetoed_ended {s : State} (hr : s.running = true) (hd : Bool) : OwnFrameEnded s (s.vetoedOutcome hd).finish true hd := by
  let u : State := { s.ownFrameOver true ⟨true, hd⟩ false with streak := min Config.streakLimit (s.streak + 1) }
  have sent : Sent u (s.vetoedOutcome hd) := by
    show Sent u (if s.streak + 1 = Config.streakLimit then u.request (.highway .vetoStreak) else u)
    exact Frames.ite (placed_request u _).sent (.refl u)
  have kept : Kept { s with streak := min Config.streakLimit (s.streak + 1) } u := by constructor <;> intros <;> rfl
  refine ownFrameEnded_of ?_ sent.flight sent.engine sent.offered sent.holdoffDue sent.parting (fun _ => sent.timers)
    (kept.trans sent.toKept)
  rw [State.running, sent.phase]
  exact hr

theorem abandoned_ended {s : State} (hr : s.running = true) (released : Bool) :
    OwnFrameEnded s (s.abandonedOutcome .released released).finish false false :=
  ownFrameEnded_of hr rfl rfl rfl rfl rfl (fun h => nomatch h) (kept_abandonedOutcome s _ _)

/-! ## Collisions and vetoes -/

section
variable {s : State} {f : Flight} (hr : s.running = true) (hf : s.flight = some f)
include hr hf

theorem exec_collision (hb : f.bit ≤ 9) (hd : (s.engine = .sending ∧ (s.drivenBit f).isSome = true) ∨
    (s.engine = .contending ∧ s.drivenBit f = some false)) : exec .collision s = .next (s.sample s.otherBit) := by
  refine whenever_of ?_ _ _
  rcases hd with ⟨e, h⟩ | ⟨e, h⟩ <;> simp [State.inFlight, State.mayCollide, hr, hf, hb, e, h]

theorem exec_veto (hb : f.bit = 10) (he : s.engine = .contending ∨ s.engine = .sending) :
    exec .veto s = .next (s.sample false) := by
  refine (whenever_of ?_ _ _).trans (congrArg _ ?_)
  · rcases he with e | e <;> simp [State.inFlight, State.inVetoSlot, hr, hf, hb, e]
  · rw [hf]
    refine if_neg fun h => ?_
    rcases he with e | e <;> cases e.symm.trans h.1

theorem exec_arbitrationLost (hb : f.bit ≤ 9) (he : s.engine = .contending) (hd : s.drivenBit f = some true) :
    exec .arbitrationLost s = .next (s.sample false) :=
  whenever_of (by simp [State.inFlight, State.mayLose, hr, hf, hb, he, hd]) _ _

end

theorem drivenBit_none {s : State} {f : Flight} (h : f.own = none) : s.drivenBit f = none := by
  unfold State.drivenBit
  rw [h]
  cases s.engine <;> rfl

/-- A collision in the cells (R126). -/
theorem senderSample_collision {s : State} {f : Flight} (hf : s.flight = some f) (hb : f.bit ≤ 9)
    (hd : (s.engine = .sending ∧ (s.drivenBit f).isSome = true) ∨ (s.engine = .contending ∧ s.drivenBit f = some false)) :
    s.senderSample f s.otherBit = (s.vetoedOutcome s.pullsHd).finish := by
  have driven : ∃ b, s.drivenBit f = some b ∧ s.otherBit = !b ∧ (s.engine = .contending → b = false) := by
    rcases hd with ⟨e, h⟩ | ⟨e, h⟩
    · obtain ⟨b, h⟩ := Option.isSome_iff_exists.mp h
      refine ⟨b, h, ?_, fun e' => by cases e.symm.trans e'⟩
      rw [State.otherBit, hf]
      show (s.drivenBit f).elim true (fun b => !b) = _
      rw [h]
      rfl
    · refine ⟨false, h, ?_, fun _ => rfl⟩
      rw [State.otherBit, hf]
      show (s.drivenBit f).elim true (fun b => !b) = _
      rw [h]
      rfl
  obtain ⟨b, driven, other, contends⟩ := driven
  unfold State.senderSample
  dsimp only
  rw [if_neg (show f.bit ≠ 10 by omega), other, if_neg (by rw [driven]; cases b <;> decide), if_neg]
  · rfl
  · rintro ⟨e, h⟩
    rw [contends e] at h
    cases h

/-- A veto of an own frame (R127). -/
theorem senderSample_veto {s : State} {f : Flight} (hb : f.bit = 10) :
    s.senderSample f false = (s.vetoedOutcome s.pullsHd).finish := by
  unfold State.senderSample
  rw [if_pos hb]
  rfl

/-! ## The mark of a CARRY to be cut -/

theorem beforeLastCell_iff (s : State) (f : Flight) (n : Nat) : s.beforeLastCell f n = true ↔
    f.cell + 1 < n ∨ (f.cell + 1 = n ∧ f.bit = 1 ∧ s.timers.stuck = false) := by
  simp [State.beforeLastCell, and_assoc]

theorem carriesTo_iff (s : State) (m i k : Nat) :
    s.carriesTo m i k = true ↔ ∃ y, s.slotState m i = .carrying y ∧ y.owner = k := by
  unfold State.carriesTo
  cases s.slotState m i <;> simp [SlotState.carryTarget]

theorem cutDue_iff {s : State} {f : Flight} (hf : s.flight = some f) :
    s.cutDue = true ↔ (s.engine = .contending ∨ s.engine = .sending) ∧ ∃ addr m listed cells n,
      f.own = some (.carry addr m listed, cells) ∧ f.length = some n ∧
      (f.cell + 1 < n ∨ (f.cell + 1 = n ∧ f.bit = 1 ∧ s.timers.stuck = false)) ∧
      ∀ i x, (i, x) ∈ listed → (s.record m).state = .standing → s.offeredStamp = (s.record m).stamp →
        ∀ y, s.slotState m i = .carrying y → y.owner ≠ x.owner := by
  have left : ∀ m i (x : Target), (!(s.bears s.offeredStamp m && s.carriesTo m i x.owner)) = true ↔
      ((s.record m).state = .standing → s.offeredStamp = (s.record m).stamp →
        ∀ y, s.slotState m i = .carrying y → y.owner ≠ x.owner) := by
    intro m i x
    rw [Bool.not_eq_true', ← Bool.not_eq_true, Bool.and_eq_true, carriesTo_iff, State.bears, Bool.and_eq_true,
      decide_eq_true_iff, decide_eq_true_iff]
    constructor
    · exact fun h hs ht y hy ho => h ⟨⟨hs, ht⟩, y, hy, ho⟩
    · rintro h ⟨⟨hs, ht⟩, y, hy, ho⟩
      exact h hs ht y hy ho
  unfold State.cutDue
  rw [hf, Bool.and_eq_true, Bool.or_eq_true, decide_eq_true_iff, decide_eq_true_iff]
  refine and_congr_right fun _ => ?_
  dsimp only
  split
  next addr m listed cells ho =>
    cases hl : f.length with
    | none => simp
    | some n =>
      rw [Bool.and_eq_true, Option.elim_some, beforeLastCell_iff, List.all_eq_true]
      constructor
      · rintro ⟨before, all⟩
        exact ⟨addr, m, listed, cells, n, ho, rfl, before, fun i x hx => (left m i x).mp (all (i, x) hx)⟩
      · rintro ⟨addr', m', listed', cells', n', ho', hl', before, all⟩
        cases ho.symm.trans ho'
        cases hl'
        exact ⟨before, fun ⟨i, x⟩ hx => (left m i x).mpr (all i x hx)⟩
  next hno =>
    constructor
    · exact fun h => nomatch h
    · rintro ⟨addr, m, listed, cells, n, ho, -⟩
      exact absurd ho (hno addr m listed cells)

/-! ## The cut -/

theorem frameCut_cutFrame {s : State} (hr : s.running = true) : FrameCut s s.cutFrame where
  rest := ⟨cutFrame_flight s, cutFrame_engine hr⟩
  holdoff _ h := finish_holdoff (s := { s.abandonedOutcome ⟨true, false⟩ false with timers := .low }) hr rfl h
  kept := kept_cutFrame s

/-- The sample that presupposes the falling edge at which the frame is cut (R144). -/
theorem frameCut_sample {s : State} {f : Flight} (hr : s.running = true) (hf : s.flight = some f) (hc : f.cutting = true)
    (he : s.engine = .contending ∨ s.engine = .sending) (hs : s.timers.stuck = false) (hd : Bool) :
    FrameCut s (s.sample hd) ∧ (s.sample hd).timers = ⟨true, false, false, false⟩ ∧ (s.sample hd).parting = ⟨false, !hd⟩ := by
  have cuts : s.cutsNext f = true := by rcases he with e | e <;> simp [State.cutsNext, State.cuts, hc, hs, e]
  rw [sample_of_cutsNext hf cuts, cutFrame_clockRises hr]
  have cut := frameCut_cutFrame hr
  refine ⟨⟨cut.rest, cut.holdoff, cut.kept.trans ?_⟩, rfl, rfl⟩
  exact kept_of_engine s.cutFrame _ _ _ _ _ _ _ _

/-- Settles O47. -/
theorem ownFrameOutcomes : Obligations.OwnFrameOutcomes := by
  refine ⟨fun s f hr hf hc => ⟨fun hb hd => ⟨_, exec_collision hr hf hb hd, ?collision⟩, fun hb he =>
      ⟨_, exec_veto hr hf hb he, ?veto⟩⟩,
    fun s f byStart hr hf ho => ⟨fun he => ⟨_, ?vetoed, vetoed_ended hr _⟩, fun he => ⟨_, ?abandoned, abandoned_ended hr _, finish_timers _⟩⟩,
    fun s f hev hf => ⟨f.cutting || s.cutDue, ?marked, ?due⟩, fun s f hr hf hc he => ⟨⟨_, ?falls, frameCut_cutFrame hr,
      cutFrame_timers s, cutFrame_parting s⟩, fun hs => ⟨fun hd => ⟨_, exec_bitSample hr hf hd, ?cut⟩, fun hb =>
        ⟨_, exec_veto hr hf hb he, ?cutVeto⟩, fun hb hd => ⟨_, exec_collision hr hf hb hd, ?cutCollision⟩, fun hb hcon hd =>
        ⟨_, exec_arbitrationLost hr hf hb hcon hd, ?cutLost⟩⟩⟩⟩
  case collision =>
    rw [sample_sending hf (hd.elim (fun h => .inr h.1) fun h => .inl h.1) hc, senderSample_collision hf hb hd]
    exact vetoed_ended hr _
  case veto =>
    rw [sample_sending hf he hc, senderSample_veto hb]
    exact vetoed_ended hr _
  case vetoed =>
    refine (whenever_of hr _ _).trans (congrArg _ ?_)
    rw [hf]
    rcases he with e | e <;> simp [ownFlight, ho, e, Engine.inFrame, State.foreignCondition]
  case abandoned =>
    refine (whenever_of hr _ _).trans (congrArg _ ?_)
    rw [hf]
    simp [ownFlight, ho, he, Engine.inFrame, State.foreignCondition]
  case marked => rw [finish_flight_eq, settle_of_quiet hev, hf]; rfl
  case due => rw [Bool.or_eq_true, cutDue_iff hf]
  case falls =>
    refine (whenever_of hr _ _).trans (congrArg _ ?_)
    have no_slot : s.inFlight s.slotDue = false := by
      rcases he with e | e <;> simp [State.inFlight, hf, State.slotDue, e]
    have due : s.cutIsDue = true := by rcases he with e | e <;> simp [State.cutIsDue, State.cuts, hf, hc, e]
    rw [no_slot]
    show s.clockFalls = _
    unfold State.clockFalls
    rcases he with e | e <;> rw [e] <;> exact if_pos due
  case cut => exact frameCut_sample hr hf hc he hs hd
  case cutVeto =>
    obtain ⟨cut, timers, -⟩ := frameCut_sample hr hf hc he hs false
    exact ⟨cut, timers⟩
  case cutCollision =>
    obtain ⟨cut, timers, -⟩ := frameCut_sample hr hf hc he hs s.otherBit
    exact ⟨cut, timers⟩
  case cutLost =>
    obtain ⟨cut, timers, -⟩ := frameCut_sample hr hf hc he hs false
    exact ⟨cut, timers⟩

end Sys2Proof.Machine

/-! PROOF. The ends of a listened frame (chapters 7 and 8), a frame abandoned at a stall or at STUCK, and what a listener
drives meanwhile (R121 to R123, R128, R131, R132, R137, R139). -/

namespace Sys2Proof.Machine

/-! ## The sender of a frame heard (R139) -/

/-- The entry of a peer just heard. -/
def Peer.heardNow (p : Peer) (own : List Nat) : Peer :=
  { p with presence := .present, unheard := 0, owed := if p.presence = .silent then own else p.owed }

/-- Hearing a peer writes its entry, and a peer that was SILENT is reported. -/
theorem placed_hear {s : State} {k : Nat} (h : k ≠ s.station) :
    Placed (s.setPeer k ((s.peer k).heardNow s.ownCircuits)) (s.hear k) := by
  have entry : ∀ {p : Peer} {x}, p.presence = x → p.heardNow s.ownCircuits =
      { p with presence := .present, unheard := 0, owed := if x = .silent then s.ownCircuits else p.owed } := by
    rintro p _ rfl
    rfl
  unfold State.hear
  rw [if_neg h]
  dsimp only
  split
  case h_1 e =>
    rw [entry e, if_neg (by decide), ← e]
    exact .refl _
  case h_2 e =>
    rw [entry e]
    exact .refl _
  case h_3 e =>
    rw [entry e]
    exact placed_request _ _

theorem rxSender_lt (rx : List Byte) : rxSender rx < 16 := by
  have small : rxCell rx 1 < 256 := ((rx[1]?).getD 0).isLt
  show rxCell rx 1 / 16 < 16
  omega

theorem resolved_reexamineIf (s : State) (c : Bool) : Resolved s (s.reexamineIf c) :=
  Frames.ite (resolved_reexamine s) (.refl s)

/-- Hearing the sender changes its entry, and what a re-examination changes. -/
theorem resolved_noteSender (s : State) (f : Flight) : ∃ p, Resolved { s with peers := p } (s.noteSender f) := by
  unfold State.noteSender
  split
  case isFalse => exact ⟨s.peers, .refl s⟩
  case isTrue =>
    by_cases h : rxSender f.rx = s.station
    · refine ⟨s.peers, Resolved.trans ?_ (resolved_reexamineIf _ _)⟩
      rw [State.hear, if_pos h]
      exact .refl s
    · exact ⟨_, (placed_hear h).resolved.trans (resolved_reexamineIf _ _)⟩

theorem noteSender_unheard {s : State} {f : Flight} (h : f.heard = false ∨ f.discarded = true) : s.noteSender f = s :=
  if_neg fun h' => by rcases h with h | h <;> simp [h] at h'

theorem noteSender_peer {s : State} {f : Flight} (hh : f.heard = true) (hd : f.discarded = false)
    (hk : rxSender f.rx ≠ s.station) : ((s.noteSender f).peer (rxSender f.rx)).presence = .present ∧
      ((s.noteSender f).peer (rxSender f.rx)).unheard = 0 := by
  have heard := (placed_hear hk).resolved.trans (resolved_reexamineIf (s.hear (rxSender f.rx)) (s.hearMoves (rxSender f.rx)))
  have entry := heard.peer (rxSender f.rx)
  rw [peer_setPeer_self _ _ _ (rxSender_lt _)] at entry
  have note : s.noteSender f = (s.hear (rxSender f.rx)).reexamineIf (s.hearMoves (rxSender f.rx)) := if_pos ⟨hh, hd⟩
  rw [note]
  have presence := congrArg Peer.presence entry
  have unheard := congrArg Peer.unheard entry
  exact ⟨presence, unheard⟩

/-! ## A listened frame left (R59, R123) -/

/-- What a listened frame leaves: the record it had reserved may be freed, and its sender is heard. -/
theorem resolved_endListening (s : State) (f : Flight) (released : Bool) :
    ∃ p, Resolved { s.leaveFrame released with peers := p } (s.endListening f released) := by
  obtain ⟨st, ev, freed⟩ := filed_freeReserved s f
  obtain ⟨p, noted⟩ := resolved_noteSender ((s.freeReserved f).leaveFrame released) f
  refine ⟨p, Resolved.trans (Filed.resolved ⟨st, ev, ?_⟩) noted⟩
  rw [freed]
  rfl

theorem endListening_unheard {s : State} {f : Flight} (h : f.heard = false ∨ f.discarded = true) (released : Bool) :
    Kept s (s.endListening f released) := by
  have left : s.endListening f released = (s.freeReserved f).leaveFrame released := noteSender_unheard h
  rw [left]
  exact (filed_freeReserved s f).placed.sent.toKept.trans (kept_of_engine (s.freeReserved f) _ _ _ _ _ _ _ _)

/-- The state after a listened frame has ended. -/
structure ListeningEnded (s t : State) (f : Flight) (released : Bool) : Prop where
  rest : t.atRest
  timers : t.timers = ⟨released, false, false, false⟩
  mas : t.mas = s.mas
  admin : t.admin = s.admin
  condition : ∀ c, (t.mapOf c).condition = (s.mapOf c).condition
  kept : f.heard = false ∨ f.discarded = true → Kept s t
  given : ∀ m, f.reserved = some m → m < 128 → f.applied = false → (t.record m).givenBack
  heard : f.heard = true → f.discarded = false → rxSender f.rx ≠ s.station →
    (t.peer (rxSender f.rx)).presence = .present ∧ (t.peer (rxSender f.rx)).unheard = 0

theorem mapOf_congr {s t : State} (h : t.map = s.map) (c : Nat) : t.mapOf c = s.mapOf c := by
  rw [State.mapOf, State.mapOf, h]

theorem peer_congr {s t : State} (h : t.peers = s.peers) (k : Nat) : t.peer k = s.peer k := by
  rw [State.peer, State.peer, h]

theorem listeningEnded_finish {s : State} {f : Flight} (hr : s.running = true) (released : Bool) (p : Parting) :
    ListeningEnded s { s.endListening f released with parting := p }.finish f released := by
  obtain ⟨_, left⟩ := resolved_endListening s f released
  let t : State := { s.endListening f released with parting := p }
  have kept := kept_finish t
  exact {
    rest := finish_atRest (s := t) ((congrArg (decide <| · = Phase.running) left.phase).trans hr) left.flight (by
      have rests : t.engine = if s.offered.isSome then .waitingIdle else .idle := left.engine
      rw [rests]
      split
      · exact .inr rfl
      · exact .inl rfl)
    timers := (finish_timers t).trans left.timers
    mas := kept.mas.trans left.mas
    admin := kept.admin.trans left.admin
    condition := fun c => (congrArg MapEntry.condition (mapOf_congr kept.map c)).trans (left.condition c)
    kept := fun h => ((endListening_unheard h released).trans (kept_of_engine _ _ _ _ _ _ _ _ _)).trans kept
    given := fun m h hm ha => (handles_finish t m).givenBack (endListening_record s f released m hm h ha)
    heard := fun hh hd hk => by
      rw [peer_congr kept.peers]
      have station : ((s.freeReserved f).leaveFrame released).station = s.station := (filed_freeReserved s f).traffic.station
      exact noteSender_peer (s := (s.freeReserved f).leaveFrame released) hh hd (by rw [station]; exact hk) }

/-- Settles O59. -/
theorem listenedFrameEnds : Obligations.ListenedFrameEnds := by
  intro s f byStart hr hf ho
  have ended : ∀ released, ListeningEnded s (s.endListening f released).finish f released := fun released =>
    listeningEnded_finish hr released (s.endListening f released).parting
  constructor
  · intro he
    have early : exec (.frameEndedEarly byStart) s = .next (s.endListening f (!byStart)).finish := by
      refine (whenever_of ?_ _ _).trans (congrArg _ ?_)
      · rcases he with e | ⟨e, h⟩ <;> simp [State.inFlight, State.listensOn, *]
      · rw [hf]
        rfl
    have e := ended (!byStart)
    exact ⟨_, early, e.rest, e.timers, e.mas, e.admin, e.condition, e.kept, e.given, e.heard⟩
  · intro he
    have followed : exec .listenerFrameEnd s = .next (s.endListening f true).finish := by
      refine (whenever_of ?_ _ _).trans (congrArg _ ?_)
      · rcases he with ⟨e, h⟩ | ⟨e, h⟩ <;> simp [State.inFlight, State.atListenedEnd, Engine.inFrame, *]
      · rw [hf]
        rfl
    have e := ended true
    exact ⟨_, followed, e.rest, e.timers, e.mas, e.admin, e.condition, e.kept, e.given, e.heard⟩

/-- Settles O53. -/
theorem vetoEndsAListenedFrame : Obligations.VetoEndsAListenedFrame := by
  intro s f hr hf he hh hv
  have slot : s.inFlight s.inVetoSlot = true := by
    rcases hv with h | ⟨h, h'⟩ <;> simp [State.inFlight, State.inVetoSlot, *]
  cases hd : f.discarded with
  | true =>
    have e := listeningEnded_finish (f := f) hr false (s.endListening f false).parting
    refine ⟨_, (whenever_of slot _ _).trans (congrArg _ ?_), e.rest, e.timers, e.kept (.inl hh), (fun h => nomatch h), e.given⟩
    rw [hf]
    exact if_pos ⟨he, hd⟩
  | false =>
    obtain ⟨hb, hdue⟩ := hv.resolve_left (by simp [hd])
    have e := listeningEnded_finish (s := { s with timers := .high }) (f := f) hr false ⟨false, f.vetoing⟩
    have takes : s.flight.elim s s.vetoTaken = s.sample false := by
      rw [hf]
      exact if_neg (by simp [hd])
    refine ⟨_, (whenever_of slot _ _).trans (congrArg _ (takes.trans ((sample_listening hf he false).trans ?_))), e.rest, e.timers,
      (kept_of_engine s _ _ _ _ _ _ _ _).trans (e.kept (.inl hh)), fun _ => finish_parting _, e.given⟩
    rw [State.listenerSample, hd, hdue, if_neg Bool.false_ne_true, if_neg Bool.false_ne_true]
    dsimp only
    rw [if_pos hb, Bool.false_and, if_neg Bool.false_ne_true]

/-! ## Stall and stuck (R131, R132) -/

/-- An abandoned frame leaves no frame, and changes nothing but the frame engine, the store and a sender heard. -/
theorem resolved_abandonFrame (s : State) (released : Bool) : ∃ p e o h t pt,
    Resolved { s with peers := p, engine := e, offered := o, holdoffDue := h, flight := none, timers := t, parting := pt }
      (s.abandonFrame released) := by
  unfold State.abandonFrame
  split
  case h_1 hf =>
    refine ⟨s.peers, s.engine, s.offered, s.holdoffDue, .outside released, s.parting, ?_⟩
    rw [← hf]
    exact .refl _
  case h_2 f hf =>
    split
    case isTrue => exact ⟨s.peers, .idle, none, false, .outside released, .released, .refl _⟩
    case isFalse =>
      obtain ⟨p, ended⟩ := resolved_endListening s f released
      exact ⟨p, _, _, _, _, _, ended⟩

theorem enterStuck_spec (s : State) : Sent { s.abandonFrame false with engine := .stuck, timers := .outside false, parting := .released }
    s.enterStuck := (placed_request _ _).sent

/-- Outside a frame nothing is driven, but for a stop condition being made and HD held after a frame. -/
theorem drive_outside {s : State} (hf : s.flight = none) (hp : s.parting = .released) (p : BitPart) :
    s.drive p = ⟨false, false⟩ := by
  refine drive_released ?_ (fun q => ?_) ?_ ?_ ?_ p
  · rw [State.clocking, hf, hp]; rfl
  · rw [State.stretches, hf]; rfl
  · rw [State.heldHd, hf, hp]; rfl
  · rw [State.stopFollows, hf, hp]; rfl
  · rw [State.pullsHd, hf]; rfl

theorem running_congr {s t : State} (h : t.phase = s.phase) (hr : s.running = true) : t.running = true :=
  (congrArg (decide <| · = Phase.running) h).trans hr

/-- Settles O51. -/
theorem stuckAndRelease : Obligations.StuckAndRelease := by
  refine ⟨fun s hr he ht => ?enters, fun s h => ?stops, fun s hd hr he hf => ⟨?rises, ?falls, fun h => ?stays⟩,
    fun s hd hr he hf ht => ?leaves⟩
  case enters =>
    obtain ⟨_, _, _, _, _, _, left⟩ := resolved_abandonFrame s false
    have entered := enterStuck_spec s
    have kept := kept_finish s.enterStuck
    have stuck : s.enterStuck.engine = .stuck := entered.engine
    have engine : s.enterStuck.finish.engine = .stuck :=
      (finish_engine_of_busy (by rw [stuck]; decide) (by rw [stuck]; decide)).trans stuck
    have flight : s.enterStuck.finish.flight = none :=
      (finish_flight (by rw [stuck]; decide) (by rw [stuck]; decide)).trans (entered.flight.trans left.flight)
    have runs : s.enterStuck.finish.running = true :=
      running_congr (kept.phase.trans (entered.phase.trans left.phase)) hr
    refine ⟨_, whenever_of (by simp [hr, he, ht]) _ _, engine, flight,
      (oalmFollows_finish s.enterStuck).2 ⟨runs, .inr (.inl engine)⟩, ?_, (finish_timers _).trans entered.timers,
      kept.streak.trans (entered.streak.trans left.streak), kept.mas.trans (entered.mas.trans left.mas),
      kept.admin.trans (entered.admin.trans left.admin), kept.minute.trans (entered.minute.trans left.minute),
      kept.cfg.trans (entered.cfg.trans left.cfg)⟩
    exact drive_outside flight ((finish_parting _).trans entered.parting)
  case stops => exact whenever_not (by simp [h]) _ _
  case rises =>
    refine (whenever_of hr _ _).trans (congrArg _ ((if_neg (by rw [hf]; decide)).trans ?_))
    unfold State.clockRises
    split
    case h_3 => rfl
    all_goals next e => cases he.symm.trans e
  case falls =>
    refine (whenever_of hr _ _).trans (congrArg _ ?_)
    have no_slot : s.inFlight s.slotDue = false := by rw [State.inFlight, hf]; simp
    rw [no_slot]
    show s.clockFalls = _
    unfold State.clockFalls
    split
    case h_3 => rfl
    all_goals next e => cases he.symm.trans e
  case stays => exact whenever_not (by simp [h]) _ _
  case leaves =>
    have left : Sent { s with timers := HwTimers.outside hd }.restEngine (s.leaveStuck hd) := (placed_request _ _).sent
    have rests : (s.leaveStuck hd).engine = .idle ∨ (s.leaveStuck hd).engine = .waitingIdle := by
      have engine : (s.leaveStuck hd).engine = if s.offered.isSome then .waitingIdle else .idle := left.engine
      rw [engine]
      split
      · exact .inr rfl
      · exact .inl rfl
    exact ⟨_, whenever_of (by simp [hr, he, ht]) _ _,
      finish_atRest (running_congr left.phase hr) (left.flight.trans hf) rests, (finish_timers _).trans left.timers,
      ((kept_of_engine s _ _ _ _ _ _ _ _).trans left.toKept).trans (kept_finish _)⟩

/-- Settles O50. -/
theorem stallAbandonsTheFrame : Obligations.StallAbandonsTheFrame := by
  refine ⟨fun s f hr hf he ht => ?abandons, fun s f hr hf he ho hc => ?falls, fun s ht => whenever_not (by simp [ht]) _ _⟩
  case abandons =>
    have expires : exec .stallExpiry s = .next (s.abandonFrame f.hdRead).finish := by
      refine (whenever_of (by simp [hr, he, ht]) _ _).trans (congrArg _ ?_)
      rw [State.hdRead, hf]
      rfl
    cases ho : f.own with
    | some x =>
      have own : s.abandonFrame f.hdRead = s.abandonedOutcome .released f.hdRead := by
        rw [State.abandonFrame, hf]
        exact if_pos (by rw [ho]; rfl)
      have ended := abandoned_ended hr f.hdRead
      rw [own] at expires
      exact ⟨_, expires, ended.rest, finish_timers _, fun _ => ended, (fun h => nomatch h),
        (fun _ h => nomatch h)⟩
    | none =>
      have heard : s.abandonFrame f.hdRead = s.endListening f f.hdRead := by
        rw [State.abandonFrame, hf]
        exact if_neg (by rw [ho]; exact Bool.false_ne_true)
      have e := listeningEnded_finish (f := f) hr f.hdRead (s.endListening f f.hdRead).parting
      rw [heard] at expires
      exact ⟨_, expires, e.rest, e.timers, fun h => (nomatch h), fun _ h => e.kept (.inl h), fun m _ h hm ha => e.given m h hm ha⟩
  case falls =>
    refine (whenever_of hr _ _).trans (congrArg _ ?_)
    have no_slot : s.inFlight s.slotDue = false := by
      rcases ho with h | h
      · simp [State.inFlight, hf, State.slotDue, h]
      · simp [State.inFlight, hf, State.slotDue, Option.isNone_eq_false_iff.mpr h]
    have no_cut : s.cutIsDue = false := by
      rcases hc with h | h | h <;> simp [State.cutIsDue, hf, State.cuts, h]
    rw [no_slot]
    show s.clockFalls = _
    unfold State.clockFalls
    split
    case h_1 e | h_2 e | h_3 e => rw [e] at he; cases he
    all_goals exact if_neg (by rw [no_cut]; exact Bool.false_ne_true)

end Sys2Proof.Machine

/-! PROOF. A listener in a frame (chapters 7 and 8): arbitration lost to it, a frame discarded, the reservation for a CARRY, and the
receipt slots (R122, R125, R128, R130, R137, R145). -/

namespace Sys2Proof.Machine

/-! ## The drivers of a listener -/

/-- A listener holds HC low for a reservation alone, and pulls HD in the veto slot alone. -/
theorem drive_listening {s : State} {f : Flight} (hf : s.flight = some f) (he : s.engine = .listening) :
    (s.drive .rise).hc = f.reserveDue ∧ (f.reserveDue = false → ∀ p, (s.drive p).hc = false) ∧
      (f.reserveDue = false → (f.bit = 10 → f.vetoing = false) → ∀ p, s.drive p = ⟨false, false⟩) := by
  have clocking : s.clocking = false := by simp [State.clocking, hf, State.clocks, he]
  have stretches : ∀ p, s.stretches p = (f.reserveDue && (decide (p = .low) || decide (p = .rise) || decide (p = .over))) :=
    fun p => by simp [State.stretches, hf, he]
  refine ⟨?_, fun h p => ?_, fun h hv p => drive_released clocking (fun q => ?_) ?_ ?_ ?_ p⟩
  · simp [State.drive, clocking, stretches]
  · simp [State.drive, clocking, stretches, h]
  · rw [stretches, h, Bool.false_and]
  · simp [State.heldHd, hf, he]
  · simp [State.stopFollows, hf, State.cutsNext, State.cuts, he]
  · simp only [State.pullsHd, hf, Option.elim_some, he, Bool.and_eq_false_imp, decide_eq_true_iff]
    exact hv

/-! ## A frame followed on (R122, R137) -/

/-- The station listens, with a frame that is not its own, and is otherwise as the end of an event leaves it. -/
structure ListensOn (s t : State) : Prop where
  engine : t.engine = .listening
  flight : ∃ g, t.flight = some g ∧ g.own = none
  kept : Kept s t

theorem ListensOn.finish {s t : State} (h : ListensOn s t) : ListensOn s t.finish where
  engine := (finish_engine_of_busy (by rw [h.engine]; decide) (by rw [h.engine]; decide)).trans h.engine
  flight := by
    rw [finish_flight (by rw [h.engine]; decide) (by rw [h.engine]; decide)]
    exact h.flight
  kept := h.kept.trans (kept_finish t)

section
variable {s : State} (he : s.engine = .listening) {g : Flight} (hg : g.own = none)
include he hg

theorem listensOn_setFlight {t : State} (h : Filed s t) : ListensOn s (t.setFlight g) where
  engine := h.traffic.engine.trans he
  flight := ⟨g, rfl, hg⟩
  kept := h.placed.sent.toKept.trans (kept_of_engine t _ _ _ _ _ _ _ _)

theorem listensOn_discardFrame : ListensOn s (s.discardFrame g) :=
  listensOn_setFlight (g := { g with discarded := true, reserved := none, reserveDue := false, vetoing := false, heard := false })
    he hg (filed_freeReserved s g)

theorem listensOn_handCell (b : Byte) : ListensOn s (s.handCell g b) := by
  unfold State.handCell
  split
  case isTrue =>
    split
    · exact listensOn_setFlight he hg (filed_write s _ _)
    · exact listensOn_setFlight he hg (.refl s)
  case isFalse =>
    dsimp only
    split
    · exact (listensOn_discardFrame (g := g.withCell b s.reserves) he hg).finish
    · exact listensOn_setFlight (g := g.withCell b s.reserves) he hg (.refl s)

theorem listensOn_nineBits : ListensOn s (s.nineBits g) := by
  unfold State.nineBits
  split
  · exact listensOn_handCell he hg _
  · exact listensOn_setFlight (g := { g with vetoing := true }) he hg (.refl s)

end

/-! ## Arbitration lost (R125) -/

/-- The frame of the winner, as its listener has it from the lost bit on. -/
def State.winnersFrame (s : State) (f : Flight) : Flight :=
  { if f.cell = 0 then Flight.fresh none none else ((Flight.fresh none none).withCell (f.ownCell 0) s.reserves).nextCell with
    bit := f.bit + 1, bits := f.bits ++ [false], hdRead := false }

theorem loseArbitration_eq {s : State} {f : Flight} (ho : f.own.isSome = true) : s.loseArbitration f =
    if f.bit = 9 then ({ s with engine := .listening, timers := .high } : State).nineBits (s.winnersFrame f)
    else ({ s with engine := .listening, timers := .high } : State).setFlight (s.winnersFrame f) := by
  unfold State.loseArbitration
  split
  case h_1 h => rw [h] at ho; cases ho
  case h_2 => rfl

/-- The loser has read no cell for which it would veto, reserve or discard. -/
theorem winnersFrame_spec (s : State) (f : Flight) : (s.winnersFrame f).own = none ∧ (s.winnersFrame f).discarded = false ∧
    (s.winnersFrame f).vetoing = false ∧ (s.winnersFrame f).reserveDue = false := by
  unfold State.winnersFrame
  split <;> exact ⟨rfl, rfl, rfl, rfl⟩

/-- Settles O46. -/
theorem arbitrationLostTurnsListener : Obligations.ArbitrationLostTurnsListener := by
  intro s f hr hf he hb hd hc
  have own : f.own.isSome = true := by
    rw [State.drivenBit, he] at hd
    obtain ⟨p, hp, -⟩ := Option.map_eq_some_iff.mp hd
    rw [hp]
    rfl
  let u : State := { s with engine := .listening, timers := .high }
  have lost : exec .arbitrationLost s = .next (({ s with timers := .high } : State).loseArbitration f).finish := by
    refine (exec_arbitrationLost hr hf hb he hd).trans (congrArg _ ((sample_sending hf (.inl he) hc false).trans ?_))
    unfold State.senderSample
    dsimp only
    rw [if_neg (show f.bit ≠ 10 by omega), if_neg (by rw [hd]; decide), if_pos ⟨he, rfl⟩]
  obtain ⟨hown, hdisc, hveto, hdue⟩ := winnersFrame_spec { s with timers := .high } f
  have turns : Kept s u := kept_of_engine s _ _ _ _ _ _ _ _
  rw [loseArbitration_eq (by exact own)] at lost
  by_cases h9 : f.bit = 9
  · rw [if_pos h9] at lost
    obtain ⟨engine, ⟨g, flight, hg⟩, kept⟩ := (listensOn_nineBits (s := u) rfl hown).finish
    exact ⟨_, g, lost, engine, flight, hg, turns.trans kept, fun h => by omega⟩
  · rw [if_neg h9] at lost
    obtain ⟨engine, -, kept⟩ := (listensOn_setFlight (s := u) rfl hown (.refl u)).finish
    let t : State := u.setFlight (({ s with timers := .high } : State).winnersFrame f)
    have flight : t.finish.flight = some (({ s with timers := .high } : State).winnersFrame f) :=
      finish_flight (s := t) (show Engine.listening ≠ _ by decide) (show Engine.listening ≠ _ by decide)
    refine ⟨_, _, lost, engine, flight, hown, turns.trans kept, fun h => ⟨rfl, rfl, hdisc, ?_, fun o o' ho ho' => ?_⟩⟩
    · exact (drive_listening flight engine).2.2 hdue fun _ => hveto
    · have kept_holdoff := finish_holdoff (s := t) hr rfl ho'
      rw [kept_holdoff, show t.offered = some o from ho]
      rfl

/-! ## A frame discarded (R137) -/

theorem parityOk_snoc (bits : List Bool) : parityOk (bits ++ [!parityOk bits]) = true := by
  unfold parityOk
  rw [decide_eq_true_iff, List.countP_append]
  by_cases h : bits.countP id % 2 = 0
  · simp [h]
  · simp [h]
    omega

theorem byteOfBits_snoc {bits : List Bool} (h : bits.length = 8) (b : Bool) : byteOfBits (bits ++ [b]) = byteOfBits bits := by
  unfold byteOfBits
  rw [List.take_append_of_le_length (by omega)]

/-- Settles O52. -/
theorem frameDiscardDrivesNothing : Obligations.FrameDiscardDrivesNothing := by
  intro s f hr hf hfault hdue hlen
  have shows := hfault
  unfold State.showsFault State.atParity at hfault
  simp only [Bool.and_eq_true, Bool.not_eq_true', decide_eq_true_iff] at hfault
  obtain ⟨⟨⟨⟨he, hdisc⟩, hb⟩, htext⟩, hbad⟩ := hfault
  let u : State := { s with timers := .high }
  let g : Flight := (f.sampled (!oddBit f)).withCell (byteOfBits f.bits) s.reserves
  have discards : exec .frameDiscard s = .next (u.discardFrame g).finish := by
    have due : s.inFlight s.showsFault = true := by rw [State.inFlight, hr, hf]; exact shows
    have sampled : (s.flight.elim s fun f => s.sample (!oddBit f)) = s.sample (!oddBit f) := by rw [hf]; rfl
    refine (whenever_of due _ _).trans (congrArg _ (sampled.trans ((sample_listening hf he _).trans ?_)))
    have nine : u.nineBits (f.sampled (!oddBit f)) = u.handCell (f.sampled (!oddBit f)) (byteOfBits f.bits) := by
      have parity : parityOk (f.sampled (!oddBit f)).bits = true := parityOk_snoc f.bits
      have byte : byteOfBits (f.sampled (!oddBit f)).bits = byteOfBits f.bits := byteOfBits_snoc hlen _
      rw [State.nineBits, if_pos parity, byte]
    have handed : u.handCell (f.sampled (!oddBit f)) (byteOfBits f.bits) = (u.discardFrame g).finish := by
      unfold State.handCell
      rw [if_neg (show ¬ (f.sampled (!oddBit f)).inText = true from fun h => Bool.false_ne_true (htext.symm.trans h))]
      exact if_pos hbad
    unfold State.listenerSample
    rw [hdisc, hdue, if_neg Bool.false_ne_true, if_neg Bool.false_ne_true]
    dsimp only
    rw [if_neg (show f.bit ≠ 10 by omega), if_pos hb]
    exact nine.trans handed
  have engine : (u.discardFrame g).engine = .listening := (filed_freeReserved u g).traffic.engine.trans he
  have engine' : (u.discardFrame g).finish.engine = .listening :=
    (finish_engine_of_busy (by rw [engine]; decide) (by rw [engine]; decide)).trans engine
  have flight := finish_flight (s := u.discardFrame g) (by rw [engine]; decide) (by rw [engine]; decide)
  have kept : Kept s (u.discardFrame g) := ((kept_of_engine s _ _ _ _ _ _ _ _).trans
    (filed_freeReserved u g).placed.sent.toKept).trans (kept_of_engine (u.freeReserved g) _ _ _ _ _ _ _ _)
  refine ⟨_, _, discards, engine', flight, rfl, rfl, rfl, rfl, rfl,
    (drive_listening flight engine').2.2 rfl fun _ => rfl, kept.trans (kept_finish _), fun m h hm ha => ?_⟩
  refine (handles_finish (u.discardFrame g) m).givenBack (.inl ?_)
  have freed : u.freeReserved g = u.freeRecord m := by
    have reserved : g.reserved = some m := h
    unfold State.freeReserved
    rw [reserved]
    exact if_neg fun h' => Bool.false_ne_true (ha.symm.trans h')
  show ((u.freeReserved g).record m).state = .free
  rw [freed]
  exact record_freeRecord u m hm

/-! ## The reservation (R145) -/

/-- Settles O54. -/
theorem carryReservationAsksTheStore : Obligations.CarryReservationAsksTheStore := by
  intro s f cls hr hf he hdue hres hcls hlen
  let u : State := { s with timers := .high }
  have asked : exec .carryReservation s = .next (s.reserveCarry f).finish := by
    refine (whenever_of ?_ _ _).trans (congrArg _ ?_)
    · simp [State.inFlight, State.reservationDue, hr, hf, he, hdue]
    · rw [hf]
      rfl
  have request : u.reserve ((classOf (rxCell f.rx 4 / 32)).getD .ordinary) (rxTextLength f.rx) =
      u.grantRecord cls (blocksFor (rxTextLength f.rx)) := by
    rw [hcls]
    exact if_pos hlen
  have grants : (u.grantRecord cls (blocksFor (rxTextLength f.rx))).isSome =
      s.grants cls (blocksFor (rxTextLength f.rx)) 1 := grantRecord_isSome u cls _
  have low : (s.drive .rise).hc = true := (drive_listening hf he).1.trans hdue
  have answered : ∀ t g, Filed u t → g.reserveDue = false →
      (t.setFlight g).finish.engine = .listening ∧ (t.setFlight g).finish.timers = ⟨false, true, false, false⟩ ∧
        Kept s (t.setFlight g).finish ∧ (∀ p, ((t.setFlight g).finish.drive p).hc = false) ∧
        (t.setFlight g).finish.flight = some g := by
    intro t g filed hg
    have engine : (t.setFlight g).engine = .listening := filed.traffic.engine.trans he
    have engine' : (t.setFlight g).finish.engine = .listening :=
      (finish_engine_of_busy (by rw [engine]; decide) (by rw [engine]; decide)).trans engine
    have flight : (t.setFlight g).finish.flight = some g :=
      finish_flight (by rw [engine]; decide) (by rw [engine]; decide)
    have kept : Kept s (t.setFlight g) := ((kept_of_engine s _ _ _ _ _ _ _ _).trans
      filed.placed.sent.toKept).trans (kept_of_engine t _ _ _ _ _ _ _ _)
    exact ⟨engine', (finish_timers _).trans filed.traffic.timers, kept.trans (kept_finish _),
      (drive_listening flight engine').2.1 hg, flight⟩
  cases hg : u.grantRecord cls (blocksFor (rxTextLength f.rx)) with
  | none =>
    have refused : s.reserveCarry f = u.setFlight { f with reserveDue := false } := by
      unfold State.reserveCarry
      dsimp only
      rw [request, hg]
    obtain ⟨engine, timers, kept, released, flight⟩ := answered u { f with reserveDue := false } (.refl u) rfl
    rw [hg] at grants
    rw [refused] at asked
    exact ⟨_, asked, engine, timers, kept, low, released, fun h => (nomatch grants.trans h), fun _ => flight⟩
  | some x =>
    obtain ⟨m, t⟩ := x
    have granted : s.reserveCarry f = t.setFlight { f with reserveDue := false, reserved := some m } := by
      unfold State.reserveCarry
      dsimp only
      rw [request, hg]
    obtain ⟨engine, timers, kept, released, flight⟩ := answered t { f with reserveDue := false, reserved := some m } (filed_grantRecord hg) rfl
    obtain ⟨-, free, record, -⟩ := grantRecord_record hg
    rw [hg] at grants
    rw [granted] at asked
    refine ⟨_, asked, engine, timers, kept, low, released, fun _ => ⟨m, flight, free, ?_⟩,
      fun h => (nomatch grants.trans h)⟩
    exact (finish_record (t.setFlight _) m (by
      show (t.record m).state ≠ _
      rw [record]
      exact fun h => nomatch h)).trans record

/-! ## The receipt slots (R128) -/

/-- Settles O55. -/
theorem receiptSlotsArePulled : Obligations.ReceiptSlotsArePulled := by
  intro s f hr hst hf he ho hd hb
  have falls : exec .receiptSlotBegin s = .next (if s.slotDue f then s.slotBegins f else s.clockFalls) := by
    refine (whenever_of hr _ _).trans (congrArg _ ?_)
    rw [State.inFlight, hr, hf]
    rfl
  have due : f.slot = s.station ∨ f.slot = 16 + s.station → s.slotDue f = true := fun h => by
    have early : f.slot < 32 := by omega
    rcases h with h | h <;> simp [State.slotDue, State.atOwnSlot, he, ho, hd, hb, h] <;> omega
  refine ⟨fun h => ?heard, fun h => ⟨s.takes f, ?take, ?takes⟩, fun h₁ h₂ => ?other, fun h hd' => ⟨_, ?sample, rfl, ?drives⟩⟩
  case heard =>
    rw [falls, if_pos (due (.inl h)), State.slotBegins, if_pos (show f.slot < 16 by omega)]
    rfl
  case take =>
    rw [falls, if_pos (due (.inr h)), State.slotBegins, if_neg (show ¬ f.slot < 16 by omega)]
    rfl
  case takes =>
    unfold State.takes rxIsCarry
    by_cases hk : rxKind f.rx = 2 <;> simp [hk, and_assoc]
  case other =>
    have not_due : s.slotDue f = false := by simp [State.slotDue, State.atOwnSlot, h₁, h₂]
    have no_cut : s.cutIsDue = false := by simp [State.cutIsDue, hf, State.cuts, he]
    rw [falls, if_neg (by rw [not_due]; exact Bool.false_ne_true)]
    unfold State.clockFalls
    split
    case h_7 => exact congrArg _ (if_neg (by rw [no_cut]; exact Bool.false_ne_true))
    all_goals next e => cases he.symm.trans e
  case sample =>
    refine (exec_bitSample hr hf hd').trans (congrArg _ ((sample_heardReceipt hf he ho hd').trans ?_))
    unfold State.listenerReceipt
    rw [hd, if_neg Bool.false_ne_true, if_pos h]
    rfl
  case drives =>
    refine drive_released ?_ (fun p => ?_) ?_ ?_ ?_ <;>
      simp [State.clocking, State.clocks, State.stretches, State.heldHd, State.stopFollows, State.cutsNext, State.cuts,
        State.pullsHd, he, ho, hb] <;> omega

end Sys2Proof.Machine

/-! PROOF. The frame builder (R140, R141): its three sources in order, and the offer renewed when a not-before passes. -/

namespace Sys2Proof.Machine

/-! ## What each source offers -/

theorem ready_iff (s : State) (k : Nat) : s.ready k = true ↔ (s.peer k).notBefore = .passed := decide_eq_true_iff

/-- A frame addressed to those of the sixteen stations that pass a test: there is one exactly when one passes. -/
theorem isEmpty_stations {p : Nat → Bool} : ((List.range 16).filter p).isEmpty = false ↔ ∃ k, k < 16 ∧ p k = true := by
  rw [← Bool.not_eq_true, List.isEmpty_iff, List.filter_eq_nil_iff]
  simp only [List.mem_range, not_forall, Bool.not_eq_true, Bool.not_eq_false, exists_prop]

theorem mem_stations {p : Nat → Bool} {k : Nat} : k ∈ (List.range 16).filter p ↔ k < 16 ∧ p k = true := by
  rw [List.mem_filter, List.mem_range]

/-- The stations of source 1. -/
def State.musterReady (s : State) (k : Nat) : Bool := decide (k ∈ s.musterPending) && s.ready k

theorem musterReady_iff (s : State) (k : Nat) : s.musterReady k = true ↔ k ∈ s.musterPending ∧ (s.peer k).notBefore = .passed := by
  rw [State.musterReady, Bool.and_eq_true, decide_eq_true_iff, ready_iff]

theorem musterChoice_some {s : State} (h : ∃ k, k < 16 ∧ s.musterReady k = true) : s.musterChoice =
    some (.muster ((List.range 16).filter s.musterReady) (s.cfg.elim 0 (·.edition)) s.cfg.isSome s.restart.last
      (s.ownCircuits.map s.tripleOf)) :=
  if_neg (ne_true_of_eq_false (isEmpty_stations.mpr h))

theorem musterChoice_none {s : State} (h : ¬ ∃ k, k < 16 ∧ s.musterReady k = true) : s.musterChoice = none :=
  if_pos (by
    by_contra h'
    exact h (isEmpty_stations.mp (eq_false_of_ne_true h')))

/-- The triples of source 2, for the stations it addresses. -/
def State.owedTriples (s : State) (addr : List Nat) : List Triple :=
  (s.ownCircuits.filter fun c => addr.any fun k => decide (c ∈ (s.peer k).owed)).map s.tripleOf

theorem mem_owedTriples (s : State) (addr : List Nat) (x : Triple) : x ∈ s.owedTriples addr ↔
    ∃ l, l < 8 ∧ x = s.tripleOf (s.circuit l) ∧ ∃ k ∈ addr, s.circuit l ∈ (s.peer k).owed := by
  simp only [State.owedTriples, State.ownCircuits, List.mem_map, List.mem_filter, List.mem_range, List.any_eq_true,
    decide_eq_true_iff]
  constructor
  · rintro ⟨_, ⟨⟨l, hl, rfl⟩, owed⟩, rfl⟩
    exact ⟨l, hl, rfl, owed⟩
  · rintro ⟨l, hl, rfl, owed⟩
    exact ⟨_, ⟨⟨l, hl, rfl⟩, owed⟩, rfl⟩

theorem conditionChoice_some {s : State} (h : ∃ k, k < 16 ∧ s.owesNow k = true) : s.conditionChoice =
    some (.condition ((List.range 16).filter s.owesNow) (s.owedTriples ((List.range 16).filter s.owesNow))) :=
  if_neg (ne_true_of_eq_false (isEmpty_stations.mpr h))

theorem conditionChoice_none {s : State} (h : ¬ ∃ k, k < 16 ∧ s.owesNow k = true) : s.conditionChoice = none :=
  if_pos (by
    by_contra h'
    exact h (isEmpty_stations.mp (eq_false_of_ne_true h')))

theorem owesNow_iff (s : State) (k : Nat) : s.owesNow k = true ↔ k ≠ s.station ∧ (s.peer k).presence ≠ .silent ∧
    (s.peer k).flag ≠ .clear ∧ (s.peer k).owed ≠ [] ∧ (s.peer k).notBefore = .passed := by
  simp only [State.owesNow, Bool.and_eq_true, decide_eq_true_iff, Bool.not_eq_true', ready_iff, and_assoc,
    List.isEmpty_eq_false_iff]

theorem carryTarget_eq_some {x : SlotState} {t : Target} : x.carryTarget = some t ↔ x = .carrying t := by
  cases x <;> simp [SlotState.carryTarget]

theorem mem_carrySlots (s : State) (m i : Nat) (x : Target) : (i, x) ∈ s.carrySlots m ↔ s.slotState m i = .carrying x := by
  unfold State.carrySlots
  rw [List.mem_filterMap]
  constructor
  · rintro ⟨j, -, hj⟩
    obtain ⟨t, ht, e⟩ := Option.map_eq_some_iff.mp hj
    cases e
    exact carryTarget_eq_some.mp ht
  · intro h
    refine ⟨i, ?_, by rw [h]; rfl⟩
    by_contra hi
    rw [List.mem_range, not_lt] at hi
    rw [State.slotState, State.slot, List.getElem?_eq_none hi] at h
    cases h

theorem mem_carryAddr (s : State) (m k : Nat) : k ∈ s.carryAddr m ↔ k < 16 ∧
    (∃ i x, s.slotState m i = .carrying x ∧ x.owner = k) ∧ (s.peer k).presence = .present ∧ (s.peer k).notBefore = .passed := by
  simp only [State.carryAddr, State.pendingStations, List.mem_filter, List.mem_range, List.any_eq_true, Prod.exists,
    mem_carrySlots, decide_eq_true_iff, Bool.and_eq_true, ready_iff, and_assoc]

theorem carryChoice_some {s : State} {before rest : List Nat} {m : Nat} (h : s.carryList = before ++ m :: rest)
    (none_before : ∀ j ∈ before, s.carryAddr j = []) (hm : s.carryAddr m ≠ []) :
    s.carryChoice = some (.carry (s.carryAddr m) m ((s.carrySlots m).filter fun x => decide (x.2.owner ∈ s.carryAddr m))) := by
  have found : (s.carryList.find? fun m => !(s.carryAddr m).isEmpty) = some m := by
    refine List.find?_eq_some_iff_append.mpr ⟨?_, before, rest, h, fun j hj => ?_⟩
    · rw [Bool.not_eq_true', List.isEmpty_eq_false_iff]
      exact hm
    · rw [none_before j hj]
      rfl
  unfold State.carryChoice
  rw [found]
  rfl

theorem carryChoice_none {s : State} (h : ∀ m ∈ s.carryList, s.carryAddr m = []) : s.carryChoice = none := by
  have found : (s.carryList.find? fun m => !(s.carryAddr m).isEmpty) = none := by
    refine List.find?_eq_none.mpr fun j hj => ?_
    rw [h j hj]
    decide
  unfold State.carryChoice
  rw [found]
  rfl

/-! ## The sources in order -/

theorem choice_of_muster {s : State} {f : Frame} (h : s.musterChoice = some f) : s.choice = some f := by
  rw [State.choice, h]

theorem choice_unconfigured {s : State} (h : s.musterChoice = none) (hc : s.cfg = none) : s.choice = none := by
  rw [State.choice, h, hc]
  rfl

theorem choice_of_condition {s : State} {f : Frame} (h : s.musterChoice = none) (hc : s.cfg.isSome = true)
    (hf : s.conditionChoice = some f) : s.choice = some f := by
  rw [State.choice, h]
  dsimp only
  rw [if_pos hc, hf]

theorem choice_of_carry {s : State} (h : s.musterChoice = none) (hc : s.cfg.isSome = true)
    (hf : s.conditionChoice = none) : s.choice = s.carryChoice := by
  rw [State.choice, h]
  dsimp only
  rw [if_pos hc, hf]

/-- The offer renewed (R141). -/
theorem renews_iff (s : State) : s.renews = true ↔ s.engine ≠ .contending ∧ s.engine ≠ .sending ∧
    (s.engine = .receipt → ∀ f, s.flight = some f → f.own = none) := by
  unfold State.renews
  cases s.engine <;> simp
  cases s.flight <;> simp

/-- Settles O49. -/
theorem notBeforePassesAndTheBuilderChooses : Obligations.NotBeforePassesAndTheBuilderChooses := by
  refine ⟨fun s k hk hr hn => ?passes, fun s => ⟨fun h => ?muster, fun h => ⟨fun hc => ?none, fun hc => ⟨fun ho => ?condition,
    fun ho => ⟨fun before m rest hl hb hm => ?carry, fun hl => ?nothing⟩⟩⟩, owesNow_iff s, mem_carryAddr s⟩⟩
  case passes =>
    let t := s.setPeer k { s.peer k with notBefore := .passed }
    have kept := kept_finish t
    have run : exec (.notBeforePasses k) s = .next t.finish := by
      have waits : s.waits k = true := by rw [State.waits, hr, decide_eq_true hn]; rfl
      show (if stationOk k = true then _ else _) = _
      exact (if_pos (decide_eq_true hk)).trans (whenever_of waits s t.finish)
    refine ⟨_, run, (peer_congr kept.peers k).trans (peer_setPeer_self s k _ hk), kept, fun h₁ h₂ h₃ => ?_⟩
    have renews : t.renews = true := (renews_iff t).mpr ⟨h₁, h₂, h₃⟩
    refine ⟨?_, fun o ho => finish_holdoff (s := t) hr renews ho, ?_⟩
    · rw [finish_offered (s := t) hr renews, Option.map_map]
      exact Option.map_id'
    · split
      case isTrue h => exact finish_engine_of_resting (s := t) hr h
      case isFalse h =>
        obtain ⟨idle, waiting⟩ := not_or.mp h
        exact finish_engine_of_busy (s := t) idle waiting
  all_goals
    simp only [← musterReady_iff] at h
  case muster =>
    exact ⟨_, (choice_of_muster (musterChoice_some h)).trans (by rw [State.ownCircuits, List.map_map]; rfl),
      fun k => by rw [mem_stations, musterReady_iff]⟩
  case none => exact choice_unconfigured (musterChoice_none h) hc
  case condition =>
    exact ⟨_, _, choice_of_condition (musterChoice_none h) hc (conditionChoice_some ho), fun k => mem_stations,
      mem_owedTriples s _⟩
  case carry =>
    refine ⟨_, (choice_of_carry (musterChoice_none h) hc (conditionChoice_none ho)).trans (carryChoice_some hl hb hm), fun i x => ?_⟩
    rw [List.mem_filter, mem_carrySlots, decide_eq_true_iff]
  case nothing =>
    exact (choice_of_carry (musterChoice_none h) hc (conditionChoice_none ho)).trans (carryChoice_none hl)

end Sys2Proof.Machine

/-! PROOF. An own frame COMPLETED (R139, R147, R149): what its receipts make of each addressed peer, and what the reading of
them leaves of the rest. -/

namespace Sys2Proof.Machine

/-! ## What the reading leaves -/

/-- What reading a receipt leaves: all that `Traffic` names, the streak, the hold-off due, and, where free values are drawn at
all, their counter. -/
structure Reads (s t : State) : Prop extends Traffic s t where
  streak : t.streak = s.streak
  holdoffDue : t.holdoffDue = s.holdoffDue
  draws : s.cfg = none → t.draws = s.draws

theorem Reads.trans {s t u : State} (a : Reads s t) (b : Reads t u) : Reads s u :=
  { a.toTraffic.trans b.toTraffic with
    streak := b.streak.trans a.streak
    holdoffDue := b.holdoffDue.trans a.holdoffDue
    draws := fun h => (b.draws (a.cfg.trans h)).trans (a.draws h) }

theorem Resolved.reads {s t : State} (h : Resolved s t) (hd : s.cfg = none → t.draws = s.draws) : Reads s t :=
  { h.traffic with streak := h.streak, holdoffDue := h.holdoffDue, draws := hd }

theorem Placed.reads {s t : State} (h : Placed s t) : Reads s t :=
  h.resolved.reads fun _ => by obtain ⟨_, _, _, _, rfl, -⟩ := h; rfl

theorem Reads.refl (s : State) : Reads s s := (Placed.refl s).reads

theorem frames_reads : Frames Reads := ⟨Reads.trans, Placed.reads⟩

/-- Only the station table and the MUSTER pending set change. -/
theorem reads_of_parts (s : State) (p : Vector Peer 16) (mu : List Nat) : Reads s { s with peers := p, musterPending := mu } :=
  { traffic_of_parts s s.map p mu s.streak s.draws with streak := rfl, holdoffDue := rfl, draws := fun _ => rfl }

theorem reads_setPeer (s : State) (k : Nat) (p : Peer) : Reads s (s.setPeer k p) := reads_of_parts s _ _

/-- With no image the service unit takes nothing. -/
theorem reads_serviceTake (old : Option Target) (s : State) (m i : Nat) : Reads s (State.serviceTake old s m i) := by
  refine (resolved_serviceTake old s m i).reads fun h => ?_
  unfold State.serviceTake
  rw [h]

theorem reads_reResolve (s : State) (slots : List (Nat × Nat)) : Reads s (s.reResolve slots) := by
  unfold State.reResolve
  dsimp only
  refine Reads.trans (frames_reads.foldl (fun _ _ => frames_reads.filed (filed_setSlotState _ _ _ _)) _ s)
    (frames_reads.foldl ?_ _ _)
  exact fun _ _ => Frames.ite (frames_reads.resolveWith (reads_serviceTake _) _ _ _ _) (.refl _)

/-- A peer marked SILENT: nothing is owed to it and no MUSTER is pending for it. -/
def State.silenced (s : State) (k : Nat) : State :=
  { s.setPeer k { s.peer k with presence := .silent, owed := [] } with
    musterPending := s.musterPending.filter fun j => decide (j ≠ k) }

/-- A peer that becomes SILENT is marked so, and then reported and resolved away from. -/
theorem silenced_becomeSilent (s : State) (k : Nat) : Reads (s.silenced k) (s.becomeSilent k) ∧
    Resolved (s.silenced k) (s.becomeSilent k) := by
  let v := (s.silenced k).request (.highway (.silent k))
  have sent : Placed (s.silenced k) v := placed_request _ _
  exact ⟨sent.reads.trans (reads_reResolve v _), sent.resolved.trans (resolved_reResolve v _)⟩

theorem reads_becomeSilent (s : State) (k : Nat) : Reads s (s.becomeSilent k) :=
  Reads.trans (t := s.silenced k) (reads_of_parts s _ _) (silenced_becomeSilent s k).1

theorem reads_takenBy (s : State) (k : Nat) (f : Frame) : Reads s (s.takenBy k f) := by
  cases f with
  | carry addr m listed => exact (filed_takenBy s k addr listed).placed.reads
  | condition addr ts => exact reads_setPeer _ _ _
  | muster => exact reads_of_parts s _ _

theorem reads_readReceipt (f : Frame) (stamp : Option Nat) (heard take : List Nat) (s : State) (k : Nat) :
    Reads s (State.readReceipt f stamp heard take s k) := by
  unfold State.readReceipt
  dsimp only
  refine Frames.ite ((reads_setPeer _ _ _).trans (reads_takenBy _ _ _)) (Frames.ite (reads_setPeer _ _ _) (Frames.ite ?_ (reads_setPeer _ _ _)))
  exact (reads_setPeer _ _ _).trans (reads_becomeSilent _ _)

/-! ## A peer's entry, but for what it is owed -/

/-- A peer's entry with its owed set left out. -/
def Peer.core (p : Peer) : Peer := { p with owed := [] }

theorem core_fields {p q : Peer} (h : p.core = q.core) : p.presence = q.presence ∧ p.unheard = q.unheard ∧
    p.refusals = q.refusals ∧ p.notBefore = q.notBefore := by
  cases p
  cases q
  simp only [Peer.core, Peer.mk.injEq] at h
  tauto

/-- An entry of the station table, its owed set left out, is as it was. -/
def SamePeer (k : Nat) (s t : State) : Prop := (t.peer k).core = (s.peer k).core

theorem SamePeer.trans {k : Nat} {s t u : State} (a : SamePeer k s t) (b : SamePeer k t u) : SamePeer k s u :=
  Eq.trans b a

theorem Resolved.samePeer {s t : State} (h : Resolved s t) (k : Nat) : SamePeer k s t := by
  have same := congrArg Peer.core (h.peer k)
  exact same

theorem samePeer_setPeer_ne (s : State) {j k : Nat} (h : j ≠ k) (p : Peer) : SamePeer k s (s.setPeer j p) :=
  congrArg Peer.core (peer_setPeer_ne s j k p h)

theorem core_setPeer (s : State) {k : Nat} (h : k < 16) (p : Peer) : ((s.setPeer k p).peer k).core = p.core :=
  congrArg Peer.core (peer_setPeer_self s k p h)

theorem samePeer_takenBy (s : State) (j k : Nat) (f : Frame) : SamePeer k s (s.takenBy j f) := by
  cases f with
  | carry addr m listed => exact (filed_takenBy s j addr listed).resolved.samePeer k
  | condition addr ts =>
    exact peer_setPeer_of (P := fun p => p.core = (s.peer k).core) s j k _ (fun h => by subst h; rfl) rfl
  | muster => exact rfl

/-- What a receipt read makes of a peer's entry (R147). -/
def Peer.receipt (p : Peer) (gap : Nat) (heard take : Bool) : Peer :=
  if take then { p with refusals := 0, unheard := 0 }
  else if heard then { p with notBefore := .waiting gap, refusals := min 255 (p.refusals + 1), unheard := 0 }
  else if p.unheard = 2 then { p with unheard := 3, presence := .silent }
  else { p with unheard := min 3 (p.unheard + 1) }

section
variable {f : Frame} {stamp : Option Nat} {heard take : List Nat}

theorem readReceipt_other (s : State) {j k : Nat} (h : j ≠ k) : SamePeer k s (State.readReceipt f stamp heard take s j) := by
  unfold State.readReceipt
  dsimp only
  split
  · exact (samePeer_setPeer_ne s h _).trans (samePeer_takenBy _ j k _)
  · split
    · exact samePeer_setPeer_ne s h _
    · split
      · have silent : ∀ t : State, SamePeer k t (t.becomeSilent j) := fun t =>
          SamePeer.trans (t := t.silenced j) (samePeer_setPeer_ne t h _) ((silenced_becomeSilent t j).2.samePeer k)
        exact (samePeer_setPeer_ne s h _).trans (silent _)
      · exact samePeer_setPeer_ne s h _

theorem readReceipt_self (s : State) {k : Nat} (hk : k < 16) : ((State.readReceipt f stamp heard take s k).peer k).core =
    ((s.peer k).receipt (s.retryGap k (s.peer k).refusals) (decide (k ∈ heard)) (decide (k ∈ take))).core := by
  unfold State.readReceipt Peer.receipt
  dsimp only
  simp only [decide_eq_true_iff]
  split
  · exact Eq.trans (samePeer_takenBy _ k k _) (core_setPeer s hk _)
  · split
    · exact core_setPeer s hk _
    · split
      · have silent : ∀ t : State, ((t.becomeSilent k).peer k).core = { t.peer k with presence := .silent, owed := [] } :=
          fun t => Eq.trans ((silenced_becomeSilent t k).2.samePeer k) (core_setPeer t hk _)
        rw [silent, peer_setPeer_self s k _ hk]
        rfl
      · exact core_setPeer s hk _

theorem retryGap_congr {s t : State} (h : Reads s t) (k n : Nat) : t.retryGap k n = s.retryGap k n := by
  unfold State.retryGap
  rw [h.cfg]
  cases hc : s.cfg with
  | none => rw [h.draws hc]
  | some img => rfl

/-- The receipts of all addressed stations read: each entry as its own receipt makes it. -/
theorem readReceipts_fold (s : State) {k : Nat} (hk : k < 16) {addr : List Nat} (hn : addr.Nodup) (ha : k ∈ addr) :
    ((addr.foldl (State.readReceipt f stamp heard take) s).peer k).core =
      ((s.peer k).receipt (s.retryGap k (s.peer k).refusals) (decide (k ∈ heard)) (decide (k ∈ take))).core := by
  have others : ∀ (js : List Nat) (t : State), k ∉ js → SamePeer k t (js.foldl (State.readReceipt f stamp heard take) t) := by
    intro js
    induction js with
    | nil => exact fun t _ => rfl
    | cons j js ih =>
      intro t h
      rw [List.mem_cons, not_or] at h
      exact (readReceipt_other t (Ne.symm h.1)).trans (ih _ h.2)
  obtain ⟨before, after, rfl⟩ := List.append_of_mem ha
  obtain ⟨hb, hafter⟩ : k ∉ before ∧ k ∉ after := by
    obtain ⟨-, h₂, h₃⟩ := List.nodup_append.mp hn
    exact ⟨fun h => h₃ k h k (List.mem_cons_self ..) rfl, (List.nodup_cons.mp h₂).1⟩
  let t := before.foldl (State.readReceipt f stamp heard take) s
  have reads : Reads s t := frames_reads.foldl (fun _ _ => reads_readReceipt _ _ _ _ _ _) _ s
  have same : SamePeer k s t := others before s hb
  have gap : t.retryGap k (t.peer k).refusals = s.retryGap k (s.peer k).refusals := by
    have refusals := congrArg Peer.refusals same
    rw [retryGap_congr reads]
    exact congrArg _ refusals
  have receipt_core : ∀ (p : Peer) n a b, (p.receipt n a b).core = p.core.receipt n a b := by
    intro p n a b
    unfold Peer.receipt
    split
    · rfl
    · split
      · rfl
      · show Peer.core (if p.unheard = 2 then _ else _) = if p.unheard = 2 then _ else _
        split <;> rfl
  rw [List.foldl_append, List.foldl_cons]
  refine Eq.trans (others after _ hafter) ((readReceipt_self t hk).trans ?_)
  rw [gap, receipt_core, receipt_core]
  exact congrArg (Peer.receipt · _ _ _) same

end

/-! ## The stations heard (R139) -/

/-- A peer heard is PRESENT, its count of unheard frames 0. -/
def Peer.present (p : Peer) : Peer := { p with presence := .present, unheard := 0 }

theorem hear_core (s : State) {k : Nat} (hk : k < 16) (hs : k ≠ s.station) (j : Nat) :
    ((s.hear j).peer k).core = if k = j then (s.peer k).core.present else (s.peer k).core := by
  by_cases hj : j = s.station
  · have still : s.hear j = s := if_pos hj
    rw [still, if_neg (by omega)]
  · refine Eq.trans ((placed_hear hj).resolved.samePeer k) ?_
    split
    case isTrue h =>
      subst h
      exact (core_setPeer s hk _).trans rfl
    case isFalse h => exact samePeer_setPeer_ne s (Ne.symm h) _

theorem hear_fold (s : State) {k : Nat} (hk : k < 16) (hs : k ≠ s.station) (ks : List Nat) :
    ((ks.foldl State.hear s).peer k).core = if k ∈ ks then (s.peer k).core.present else (s.peer k).core := by
  induction ks generalizing s with
  | nil => rfl
  | cons j ks ih =>
    have station : (s.hear j).station = s.station := (traffic_hear s j).station
    rw [List.foldl_cons, ih (s.hear j) (by rw [station]; exact hs), hear_core s hk hs]
    by_cases h₁ : k = j <;> by_cases h₂ : k ∈ ks <;> simp [h₁, h₂, Peer.present]

theorem hearAll_core (s : State) {k : Nat} (hk : k < 16) (hs : k ≠ s.station) (ks : List Nat) :
    ((s.hearAll ks).peer k).core = if k ∈ ks then (s.peer k).core.present else (s.peer k).core :=
  Eq.trans ((resolved_reexamineIf _ _).samePeer k) (hear_fold s hk hs ks)

/-- What hearing leaves of the streak and the hold-off due. -/
theorem hearAll_counts (s : State) (ks : List Nat) :
    (s.hearAll ks).streak = s.streak ∧ (s.hearAll ks).holdoffDue = s.holdoffDue := by
  have heard : ∀ (t : State) (k : Nat), Reads t (t.hear k) := by
    intro t k
    by_cases h : k = t.station
    · have still : t.hear k = t := if_pos h
      rw [still]
      exact .refl t
    · exact (reads_setPeer t k _).trans (placed_hear h).reads
  have all : Reads s (ks.foldl State.hear s) := frames_reads.foldl heard ks s
  have examined := resolved_reexamineIf (ks.foldl State.hear s) (ks.any s.hearMoves)
  exact ⟨examined.streak.trans all.streak, examined.holdoffDue.trans all.holdoffDue⟩

/-! ## The frame COMPLETED -/

/-- The state in which the receipts of a COMPLETED frame are read. -/
def State.completedOutcome (s : State) : State := { s.ownFrameOver false ⟨true, false⟩ false with streak := 0 }

/-- The stations that gave a receipt. -/
def receiptStations (heardSet takeSet : List Nat) : List Nat :=
  (List.range 16).filter fun k => decide (k ∈ heardSet) || decide (k ∈ takeSet)

theorem mem_receiptStations {heardSet takeSet : List Nat} {k : Nat} (hk : k < 16) :
    k ∈ receiptStations heardSet takeSet ↔ k ∈ heardSet ∨ k ∈ takeSet := by
  rw [receiptStations, mem_stations, Bool.or_eq_true, decide_eq_true_iff, decide_eq_true_iff]
  exact and_iff_right hk

theorem readReceipts_counts (s : State) (f : Frame) (heardSet takeSet : List Nat) :
    (s.readReceipts f heardSet takeSet).streak = 0 ∧ (s.readReceipts f heardSet takeSet).holdoffDue = false := by
  have reads : Reads s.completedOutcome (f.addr.foldl (State.readReceipt f s.offeredStamp (receiptStations heardSet takeSet) takeSet)
      s.completedOutcome) := frames_reads.foldl (fun _ _ => reads_readReceipt _ _ _ _ _ _) _ _
  obtain ⟨streak, due⟩ := hearAll_counts (f.addr.foldl (State.readReceipt f s.offeredStamp (receiptStations heardSet takeSet) takeSet)
      s.completedOutcome) (receiptStations heardSet takeSet)
  exact ⟨streak.trans reads.streak, due.trans reads.holdoffDue⟩

theorem readReceipts_core (s : State) {f : Frame} {heardSet takeSet : List Nat} {k : Nat} (hk : k < 16) (hs : k ≠ s.station)
    (hn : f.addr.Nodup) (ha : k ∈ f.addr) : ((s.readReceipts f heardSet takeSet).peer k).core =
      let p := ((s.peer k).receipt (s.retryGap k (s.peer k).refusals) (decide (k ∈ heardSet ∨ k ∈ takeSet)) (decide (k ∈ takeSet))).core
      if k ∈ heardSet ∨ k ∈ takeSet then p.present else p := by
  have station : (f.addr.foldl (State.readReceipt f s.offeredStamp (receiptStations heardSet takeSet) takeSet)
      s.completedOutcome).station = s.station :=
    (frames_reads.foldl (fun _ _ => reads_readReceipt _ _ _ _ _ _) _ s.completedOutcome).station
  have heard := hearAll_core (f.addr.foldl (State.readReceipt f s.offeredStamp (receiptStations heardSet takeSet) takeSet)
    s.completedOutcome) hk (by rw [station]; exact hs) (receiptStations heardSet takeSet)
  rw [readReceipts_fold _ hk hn ha] at heard
  simp only [mem_receiptStations hk] at heard
  exact heard

/-- Settles O48. -/
theorem frameCompletedReadsTheReceipts : Obligations.FrameCompletedReadsTheReceipts := by
  intro s f p hd hr hf he ho hs hn
  obtain ⟨hheard, htake⟩ := readSlot_last hs hd
  let u := s.readReceipts p.1 (f.readSlot hd).heardSet (f.readSlot hd).takeSet
  have traffic : Traffic (s.ownFrameOver false ⟨true, false⟩ false) u := traffic_readReceipts s p.1 _ _
  obtain ⟨streak, due⟩ := readReceipts_counts s p.1 (f.readSlot hd).heardSet (f.readSlot hd).takeSet
  have kept := kept_finish u
  have running : u.running = true := running_congr traffic.phase hr
  have idle : u.engine = .idle := traffic.engine
  have offered : u.offered = none := traffic.offered
  refine ⟨_, exec_frameCompleted hr hf he ho hs hd, finish_atRest running traffic.flight (.inl idle), kept.streak.trans streak,
    kept.mas.trans traffic.mas, kept.admin.trans traffic.admin, kept.minute.trans traffic.minute,
    (finish_parting u).trans traffic.parting, (finish_timers u).trans traffic.timers, fun o h => ?_, fun k hk ha hst => ?_⟩
  · rw [finish_holdoff running (by rw [State.renews, idle]) h, offered]
    exact due
  · rw [peer_congr kept.peers k]
    have core : (u.peer k).core = _ := readReceipts_core s (heardSet := (f.readSlot hd).heardSet) (takeSet := (f.readSlot hd).takeSet) hk hst hn ha
    rw [hheard] at core
    simp only [htake] at core
    refine ⟨fun ht => ?_, fun h₁ h₂ h₃ => ?_, fun h₁ h₂ h₃ h₄ => ?_⟩
    · simp only [ht, or_true, decide_true, if_true, Peer.receipt] at core
      obtain ⟨presence, unheard, refusals, notBefore⟩ := core_fields (q := Peer.present _) core
      exact ⟨presence, unheard, refusals, notBefore⟩
    · have ht : ¬ (k ∈ f.takeSet ∨ (k = 15 ∧ hd = false)) := not_or.mpr ⟨h₁, h₂⟩
      simp only [ht, h₃, or_false, decide_true, decide_false, if_true, Bool.false_eq_true, if_false, Peer.receipt] at core
      obtain ⟨presence, unheard, refusals, notBefore⟩ := core_fields (q := Peer.present _) core
      exact ⟨presence, unheard, refusals, notBefore⟩
    · have ht : ¬ (k ∈ f.takeSet ∨ (k = 15 ∧ hd = false)) := not_or.mpr ⟨h₁, h₂⟩
      simp only [ht, h₃, or_false, decide_false, Bool.false_eq_true, if_false, Peer.receipt] at core
      obtain ⟨presence, unheard, refusals, -⟩ := core_fields core
      rw [presence, unheard, refusals]
      split
      next h => exact ⟨by rw [h], rfl, rfl⟩
      next h => exact ⟨Nat.min_eq_right (by omega), rfl, rfl⟩

end Sys2Proof.Machine

/-! PROOF. CONDITION and MUSTER frames applied (R65, R138, R139, R152, R154). -/

namespace Sys2Proof.Machine

/-! ## The sample that ends the TAKE slot (R128) -/

/-- The state in which the blocks apply the frame. -/
def State.atTake (s : State) (f : Flight) : State :=
  { s with timers := s.timers.atTake }.setFlight
    { f with slot := f.slot + 1, slotBegun := false, hdRead := false, applied := true }

/-- A listener that has just pulled TAKE, and has applied the frame (R120, R130). -/
theorem stretchesAfterTake_of {s : State} {f : Flight} (hf : s.flight = some f) (he : s.engine = .receipt) (ho : f.own = none)
    (ha : f.applied = true) (hb : f.slotBegun = false) (hs : f.slot = 16 + s.station + 1) (ht : f.taking = true) :
    s.stretchesAfterTake := by
  have clocking : s.clocking = false := by simp [State.clocking, hf, State.clocks, he, ho]
  have stretches : ∀ p, s.stretches p = decide (p = .low) := fun p => by
    simp [State.stretches, hf, he, ho, ha, hb, hs]
  have held : s.heldHd = true := by simp [State.heldHd, hf, he, ho, hb, hs, ht]
  have follows : s.stopFollows = false := by simp [State.stopFollows, hf, State.cutsNext, State.cuts, he]
  have pulls : s.pullsHd = false := by simp [State.pullsHd, hf, he, hb]
  refine ⟨?_, ?_, ?_, ?_⟩ <;> simp [State.drive, State.driveHd, clocking, stretches, held, follows, pulls]

section
variable {s : State} {f : Flight} (hr : s.running = true) (hf : s.flight = some f) (he : s.engine = .receipt) (ho : f.own = none)
  (hd : f.discarded = false) (hs : f.slot = 16 + s.station) (hb : f.slotBegun = true) (ht : f.taking = true)
include hr hf he ho hd hs hb ht

theorem applies_kind {n : Nat} (hk : rxKind f.rx = n) : s.inFlight (s.applies n) = true := by
  simp [State.inFlight, State.applies, State.applyDue, hr, hf, he, ho, hd, hs, hb, ht, hk]

omit hr hf hd hb in
/-- The state that the applying of a frame leaves, as to the frame engine and what no frame changes. -/
theorem applied_frame {u : State} (h : Traffic (s.atTake f) u) :
    u.drawn.finish.flight = some { f with slot := f.slot + 1, slotBegun := false, hdRead := false, applied := true } ∧
      u.drawn.finish.stretchesAfterTake ∧ u.drawn.finish.timers = ⟨false, true, s.timers.stuck, false⟩ ∧
      u.drawn.finish.mas = s.mas ∧ u.drawn.finish.admin = s.admin ∧ u.drawn.finish.minute = s.minute := by
  have engine : u.drawn.engine = .receipt := h.engine.trans he
  have engine' : u.drawn.finish.engine = .receipt :=
    (finish_engine_of_busy (by rw [engine]; decide) (by rw [engine]; decide)).trans engine
  have flight := (finish_flight (s := u.drawn) (by rw [engine]; decide) (by rw [engine]; decide)).trans h.flight
  have kept := kept_finish u.drawn
  refine ⟨flight, ?_, (finish_timers _).trans h.timers, kept.mas.trans h.mas, kept.admin.trans h.admin, kept.minute.trans h.minute⟩
  refine stretchesAfterTake_of flight engine' ho rfl rfl ?_ ht
  have station : u.drawn.finish.station = s.station := kept.station.trans h.station
  rw [station]
  exact congrArg (· + 1) hs

end

/-! ## The map as a frame writes it (R65) -/

/-- The last entry that names a circuit stands. -/
theorem writeEntries_mapOf {c : Nat} (hc : c < 128) (es : List (Nat × MapEntry)) (acc : State × Bool) :
    (es.foldl State.writeEntry acc).1.mapOf c = ((es.reverse.find? fun e => decide (e.1 = c)).map (·.2)).getD (acc.1.mapOf c) := by
  induction es using List.reverseRecOn with
  | nil => rfl
  | append_singleton es e ih =>
    rw [List.foldl_append, List.reverse_append]
    show ((es.foldl State.writeEntry acc).1.setMap e.1 e.2).mapOf c = _
    by_cases h : e.1 = c
    · rw [h, mapOf_setMap_self _ _ _ hc]
      simp [h]
    · rw [mapOf_setMap_ne _ _ _ _ h, ih]
      simp [h]

theorem writeEntries_peers (es : List (Nat × MapEntry)) (acc : State × Bool) :
    (es.foldl State.writeEntry acc).1.peers = acc.1.peers := by
  induction es generalizing acc with
  | nil => rfl
  | cons e es ih => exact ih (State.writeEntry acc e)

theorem writeEntries_musterPending (es : List (Nat × MapEntry)) (acc : State × Bool) :
    (es.foldl State.writeEntry acc).1.musterPending = acc.1.musterPending := by
  induction es generalizing acc with
  | nil => rfl
  | cons e es ih => exact ih (State.writeEntry acc e)

/-- A map entry after a frame of station `k`: its last triple for a circuit of its sender stands. -/
def MapEntry.afterTriples (old : MapEntry) (k c : Nat) (ts : List Triple) : MapEntry :=
  match ts.reverse.find? fun x => decide (x.circuit = c ∧ c / 8 = k) with
  | some x => ⟨x.condition, x.kind, x.diversion⟩
  | none => old

theorem triplesOf_last (k c : Nat) (ts : List Triple) :
    ((triplesOf k ts).reverse.find? fun e => decide (e.1 = c)).map (·.2) =
      (ts.reverse.find? fun x => decide (x.circuit = c ∧ c / 8 = k)).map fun x => ⟨x.condition, x.kind, x.diversion⟩ := by
  unfold triplesOf
  rw [← List.map_reverse, ← List.filter_reverse, List.find?_map, List.find?_filter, Option.map_map]
  congr 1
  congr 1
  funext x
  simp only [Function.comp_apply, Bool.decide_and]
  by_cases h : x.circuit = c
  · simp [h]
  · simp [h]

/-- What the map holds of a circuit after a frame of station `k` has written its triples. -/
theorem writeTriples_mapOf {c : Nat} (hc : c < 128) (k : Nat) (ts : List Triple) (acc : State × Bool) :
    ((triplesOf k ts).foldl State.writeEntry acc).1.mapOf c = (acc.1.mapOf c).afterTriples k c ts := by
  rw [writeEntries_mapOf hc, triplesOf_last]
  unfold MapEntry.afterTriples
  split
  next h => rw [h]; rfl
  next h => rw [h]; rfl

/-- A frame of another station writes no own circuit. -/
theorem writeTriples_own {s : State} {k c : Nat} (hk : k ≠ s.station) (ho : s.isOwn c = true) (ts : List Triple)
    (acc : State × Bool) : ((triplesOf k ts).foldl State.writeEntry acc).1.mapOf c = acc.1.mapOf c := by
  obtain ⟨hc, own⟩ := (isOwn_iff s c).mp ho
  have none_found : (ts.reverse.find? fun x => decide (x.circuit = c ∧ c / 8 = k)) = none :=
    List.find?_eq_none.mpr fun x _ => by simp; omega
  rw [writeTriples_mapOf hc, MapEntry.afterTriples, none_found]

/-! ## CONDITION -/

theorem flagSet_core (s : State) {k : Nat} (hk : k < 16) : ((s.flagSet k).peer k).core = { (s.peer k).core with flag := .set } :=
  (core_setPeer s hk _).trans rfl

/-- The sender's entry, but for what it is owed, once it is heard and its flag SET. -/
theorem heardSet_core (s : State) {k : Nat} (hk : k < 16) (hs : k ≠ s.station) :
    (((s.hear k).flagSet k).peer k).core = { (s.peer k).core.present with flag := .set } := by
  rw [flagSet_core _ hk, hear_core s hk hs k, if_pos rfl]

theorem hear_map (s : State) (k : Nat) : (s.hear k).map = s.map := by
  by_cases h : k = s.station
  · have still : s.hear k = s := if_pos h
    rw [still]
  · obtain ⟨_, _, _, _, h, -⟩ := placed_hear h
    rw [h]
    rfl

/-- The state that a CONDITION frame leaves before slots are resolved again. -/
def State.conditionWritten (s : State) (rx : List Byte) : State :=
  ((triplesOf (rxSender rx) (rxTriples rx)).foldl State.writeEntry
    ((s.hear (rxSender rx)).flagSet (rxSender rx), s.hearMoves (rxSender rx) || s.flagMoves (rxSender rx))).1

theorem conditionWritten_spec (s : State) (rx : List Byte) : Resolved (s.conditionWritten rx) (s.applyCondition rx) :=
  (resolved_reResolve _ _).trans (resolved_reexamineIf _ _)

theorem conditionWritten_station (s : State) (rx : List Byte) : (s.conditionWritten rx).station = s.station :=
  (conditionWritten_spec s rx).station.symm.trans (traffic_applyCondition s rx).station

theorem conditionWritten_core {s : State} {rx : List Byte} (hs : rxSender rx ≠ s.station) :
    ((s.conditionWritten rx).peer (rxSender rx)).core = { (s.peer (rxSender rx)).core.present with flag := .set } := by
  have peers : (s.conditionWritten rx).peers = ((s.hear (rxSender rx)).flagSet (rxSender rx)).peers := writeEntries_peers _ _
  rw [peer_congr peers]
  exact heardSet_core s (rxSender_lt rx) hs

theorem flagSet_mapOf (s : State) (j k c : Nat) : ((s.hear j).flagSet k).mapOf c = s.mapOf c := mapOf_congr (hear_map s j) c

theorem conditionWritten_mapOf (s : State) (rx : List Byte) {c : Nat} (hc : c < 128) : (s.conditionWritten rx).mapOf c =
    (s.mapOf c).afterTriples (rxSender rx) c (rxTriples rx) := by
  unfold State.conditionWritten
  rw [writeTriples_mapOf hc, flagSet_mapOf]

theorem conditionWritten_own {s : State} {rx : List Byte} {c : Nat} (hs : rxSender rx ≠ s.station) (ho : s.isOwn c = true) :
    (s.conditionWritten rx).mapOf c = s.mapOf c := by
  unfold State.conditionWritten
  rw [writeTriples_own hs ho, flagSet_mapOf]

/-- Settles O57. -/
theorem conditionFrameIsApplied : Obligations.ConditionFrameIsApplied := by
  intro s f hr _ hf he ho hd hs hb ht hk hsender
  let w := (s.atTake f).conditionWritten f.rx
  let u := (s.atTake f).applyCondition f.rx
  have runs : exec .conditionApply s = .next u.drawn.finish := by
    refine (whenever_of (applies_kind hr hf he ho hd hs hb ht hk) _ _).trans (congrArg _ ?_)
    rw [hf]
    show State.finish (State.drawn (if rxKind f.rx = 0 then _ else _)) = _
    rw [if_pos hk]
    rfl
  have resolved : Resolved w u := conditionWritten_spec _ _
  have kept := kept_finish u.drawn
  obtain ⟨flight, stretches, timers, mas, admin, -⟩ := applied_frame he ho hs ht (traffic_applyCondition (s.atTake f) f.rx)
  have written : (w.peer (rxSender f.rx)).core = { (s.peer (rxSender f.rx)).core.present with flag := .set } :=
    conditionWritten_core (s := s.atTake f) hsender
  have core : (u.peer (rxSender f.rx)).core = { (s.peer (rxSender f.rx)).core.present with flag := .set } :=
    Eq.trans (resolved.samePeer (rxSender f.rx)) written
  have station : w.station = s.station := conditionWritten_station (s.atTake f) f.rx
  have map : ∀ c, u.drawn.finish.mapOf c = u.mapOf c := fun c => mapOf_congr kept.map c
  have peer : u.drawn.finish.peer (rxSender f.rx) = u.peer (rxSender f.rx) := peer_congr kept.peers _
  refine ⟨_, runs, flight, stretches, timers, ?_, ?_, ?_, fun c hc hown => ?_, fun c hown => ?_, mas, admin⟩
  · rw [peer]
    exact congrArg Peer.presence core
  · rw [peer]
    exact congrArg Peer.flag core
  · rw [peer]
    exact congrArg Peer.unheard core
  · rw [map, resolved.peerMap c (by rw [State.isOwn, station]; exact hown)]
    exact conditionWritten_mapOf (s.atTake f) f.rx hc
  · rw [map, resolved.condition c]
    exact congrArg MapEntry.condition (conditionWritten_own (s := s.atTake f) hsender hown)

end Sys2Proof.Machine

/-! PROOF. MUSTER frames applied (R65, R138, R139, R154). -/

namespace Sys2Proof.Machine

/-! ## What a MUSTER writes -/

/-- The state in which a MUSTER has written the sender's entry and circuits. -/
def State.musterEntered (s : State) (rx : List Byte) : State :=
  ((musterEntries (rxSender rx) rx).foldl State.writeEntry
    ((s.hear (rxSender rx)).setPeer (rxSender rx) (((s.hear (rxSender rx)).peer (rxSender rx)).mustered rx s.ownCircuits),
      s.hearMoves (rxSender rx) || (rxConfigured rx && s.flagMoves (rxSender rx)))).1

/-- The state that a MUSTER leaves before it is reported and slots are resolved again: an unconfigured sender has no MUSTER
pending any more. -/
def State.musterWritten (s : State) (rx : List Byte) : State :=
  if rxConfigured rx then s.musterEntered rx
  else { s.musterEntered rx with
    musterPending := (s.musterEntered rx).musterPending.filter fun j => decide (j ≠ rxSender rx) }

theorem musterWritten_spec (s : State) (rx : List Byte) : Resolved (s.musterWritten rx) (s.applyMuster rx) := by
  have report : ∀ t : State, Resolved t (t.editionReport rx) := fun t => by
    unfold State.editionReport
    split
    · exact .refl t
    · exact Frames.ite (resolved_request _ _) (.refl t)
  exact ((report _).trans (resolved_reResolve _ _)).trans (resolved_reexamineIf _ _)

theorem musterWritten_tables (s : State) (rx : List Byte) :
    (s.musterWritten rx).peers = (s.musterEntered rx).peers ∧ (s.musterWritten rx).map = (s.musterEntered rx).map := by
  unfold State.musterWritten
  split <;> exact ⟨rfl, rfl⟩

theorem musterWritten_peer (s : State) (rx : List Byte) : (s.musterWritten rx).peer (rxSender rx) =
    ((s.hear (rxSender rx)).peer (rxSender rx)).mustered rx s.ownCircuits := by
  have peers : (s.musterEntered rx).peers = ((s.hear (rxSender rx)).setPeer (rxSender rx)
      (((s.hear (rxSender rx)).peer (rxSender rx)).mustered rx s.ownCircuits)).peers := writeEntries_peers _ _
  rw [peer_congr ((musterWritten_tables s rx).1.trans peers)]
  exact peer_setPeer_self _ _ _ (rxSender_lt rx)

theorem hear_musterPending (s : State) (k : Nat) : (s.hear k).musterPending = s.musterPending := by
  by_cases h : k = s.station
  · have still : s.hear k = s := if_pos h
    rw [still]
  · exact (placed_hear h).resolved.musterPending

theorem musterWritten_pending (s : State) (rx : List Byte) : (s.musterWritten rx).musterPending =
    if rxConfigured rx then s.musterPending else s.musterPending.filter fun j => decide (j ≠ rxSender rx) := by
  have entered : (s.musterEntered rx).musterPending = s.musterPending :=
    (writeEntries_musterPending _ _).trans (hear_musterPending s _)
  unfold State.musterWritten
  split
  · exact entered
  · rw [entered]

/-- All circuits of one station, last of a list that holds each once. -/
theorem unfitted_last (k c : Nat) :
    ((((List.range 8).map fun l => (8 * k + l, MapEntry.unfitted)).reverse.find? fun e => decide (e.1 = c)).map (·.2)) =
      if c / 8 = k then some MapEntry.unfitted else none := by
  rw [← List.map_reverse, List.find?_map, Option.map_map]
  have all : ∀ x : Option Nat, x.map ((fun e : Nat × MapEntry => e.2) ∘ fun l => (8 * k + l, MapEntry.unfitted)) =
      if x.isSome then some MapEntry.unfitted else none := fun x => by cases x <;> rfl
  have found : ((List.range 8).reverse.find? ((fun e : Nat × MapEntry => decide (e.1 = c)) ∘
      fun l => (8 * k + l, MapEntry.unfitted))).isSome = true ↔ c / 8 = k := by
    rw [List.find?_isSome]
    simp only [List.mem_reverse, List.mem_range, Function.comp_apply, decide_eq_true_iff]
    constructor
    · rintro ⟨l, hl, h⟩
      omega
    · exact fun h => ⟨c % 8, by omega, by omega⟩
  rw [all]
  exact if_congr found rfl rfl

theorem musterWritten_mapOf (s : State) (rx : List Byte) {c : Nat} (hc : c < 128) : (s.musterWritten rx).mapOf c =
    if rxConfigured rx then (s.mapOf c).afterTriples (rxSender rx) c (rxTriples rx)
    else if c / 8 = rxSender rx then ⟨.unfitted, .unfitted, none⟩ else s.mapOf c := by
  have before : ∀ p : Peer, ((s.hear (rxSender rx)).setPeer (rxSender rx) p).mapOf c = s.mapOf c := fun p =>
    mapOf_congr (hear_map s (rxSender rx)) c
  rw [mapOf_congr (musterWritten_tables s rx).2]
  unfold State.musterEntered musterEntries
  split
  · rw [writeTriples_mapOf hc, before]
  · rw [writeEntries_mapOf hc, unfitted_last, before]
    split <;> rfl

/-! ## MUSTER -/

theorem applyFrame_muster {s : State} {f : Flight} (hk : rxKind f.rx = 1) :
    s.applyFrame f = ((s.atTake f).applyMuster f.rx).drawn.finish := by
  show State.finish (State.drawn (if rxKind f.rx = 0 then _ else if rxKind f.rx = 1 then _ else _)) = _
  rw [if_neg (by rw [hk]; decide), if_pos hk]
  rfl

/-- Settles O58. -/
theorem musterFrameIsApplied : Obligations.MusterFrameIsApplied := by
  intro s f hr _ hf he ho hd hs hb ht hk hsender
  let k := rxSender f.rx
  let w := (s.atTake f).musterWritten f.rx
  let u := (s.atTake f).applyMuster f.rx
  have runs : exec .musterApply s = .next u.drawn.finish := by
    refine (whenever_of (applies_kind hr hf he ho hd hs hb ht hk) _ _).trans (congrArg _ ?_)
    rw [hf]
    exact applyFrame_muster hk
  have resolved : Resolved w u := musterWritten_spec _ _
  have kept := kept_finish u.drawn
  obtain ⟨flight, stretches, timers, mas, admin, -⟩ := applied_frame he ho hs ht (traffic_applyMuster (s.atTake f) f.rx)
  have entry : w.peer k = (((s.atTake f).hear k).peer k).mustered f.rx s.ownCircuits := musterWritten_peer (s.atTake f) f.rx
  have heard : (((s.atTake f).hear k).peer k).core = (s.peer k).core.present :=
    (hear_core (s.atTake f) (rxSender_lt _) hsender k).trans (if_pos rfl)
  have core : (u.peer k).core = (w.peer k).core := resolved.samePeer k
  have station : w.station = s.station := resolved.station.symm.trans (traffic_applyMuster (s.atTake f) f.rx).station
  have map : ∀ c, c < 128 → s.isOwn c = false → u.drawn.finish.mapOf c = w.mapOf c := fun c _ hown =>
    (mapOf_congr kept.map c).trans (resolved.peerMap c (by rw [State.isOwn, station]; exact hown))
  have pending : u.drawn.finish.musterPending = w.musterPending := kept.musterPending.trans resolved.musterPending
  have peer : u.drawn.finish.peer k = u.peer k := peer_congr kept.peers k
  rw [entry] at core
  refine ⟨_, runs, flight, stretches, timers, ?_, ?_, ?_, ?_, ?_, fun hc => ⟨?_, fun l hl => ?_, ?_, fun c hlt hown => ?_⟩,
    fun hc => ⟨?_, ?_, ?_, fun c hlt hown => ?_⟩, mas, admin⟩
  · rw [peer]
    exact (congrArg Peer.presence core).trans (congrArg Peer.presence heard)
  · rw [peer]
    exact (congrArg Peer.unheard core).trans (congrArg Peer.unheard heard)
  · rw [peer]
    exact congrArg Peer.refusals core
  · rw [peer]
    exact congrArg Peer.notBefore core
  · rw [peer]
    exact congrArg Peer.edition core
  · rw [peer]
    exact (congrArg Peer.flag core).trans (if_pos hc)
  · rw [peer]
    refine resolved.owed k _ ?_
    rw [entry]
    show s.circuit l ∈ (if rxConfigured f.rx then s.ownCircuits else [])
    rw [if_pos hc]
    exact List.mem_map.mpr ⟨l, List.mem_range.mpr hl, rfl⟩
  · rw [pending]
    exact (musterWritten_pending (s.atTake f) f.rx).trans (if_pos hc)
  · rw [map c hlt hown]
    exact (musterWritten_mapOf (s.atTake f) f.rx hlt).trans (if_pos hc)
  · rw [peer]
    exact (congrArg Peer.flag core).trans (if_neg (by rw [hc]; decide))
  · have clear : (w.peer k).flag = .clear := by
      rw [entry]
      exact if_neg (by rw [hc]; decide)
    rw [peer, resolved.notOwed k (.inr clear), entry]
    exact if_neg (by rw [hc]; decide)
  · rw [pending]
    have filtered := (musterWritten_pending (s.atTake f) f.rx).trans (if_neg (by rw [hc]; decide))
    intro h
    have mem : k ∈ (s.atTake f).musterPending.filter fun j => decide (j ≠ rxSender f.rx) := filtered ▸ h
    exact of_decide_eq_true (List.mem_filter.mp mem).2 rfl
  · rw [map c hlt hown]
    exact (musterWritten_mapOf (s.atTake f) f.rx hlt).trans (if_neg (by rw [hc]; decide))

end Sys2Proof.Machine

/-! PROOF. A CARRY committed (R57, R145, R146): the destinations kept, the record completed from the frame, and where its slots
go. -/

namespace Sys2Proof.Machine

/-! ## The destinations kept (R145) -/

theorem keepOnce_mem {acc : List (Dest × Target)} {x y : Dest × Target} :
    (y ∈ keepOnce acc x → y ∈ acc ∨ y = x) ∧ (y ∈ acc → y ∈ keepOnce acc x) ∧ ∃ t, (x.1, t) ∈ keepOnce acc x := by
  unfold keepOnce
  split
  case isTrue h =>
    obtain ⟨z, hz, same⟩ := List.any_eq_true.mp h
    exact ⟨.inl, id, z.2, by rw [← of_decide_eq_true same]; exact hz⟩
  case isFalse h =>
    exact ⟨fun hy => (List.mem_append.mp hy).imp_right List.mem_singleton.mp, fun hy => List.mem_append_left _ hy,
      x.2, List.mem_append_right _ (List.mem_singleton.mpr rfl)⟩

theorem keepOnce_nodup {acc : List (Dest × Target)} (h : (acc.map (·.1)).Nodup) (x : Dest × Target) :
    ((keepOnce acc x).map (·.1)).Nodup := by
  unfold keepOnce
  split
  case isTrue => exact h
  case isFalse hno =>
    rw [List.map_append]
    refine List.nodup_append.mpr ⟨h, List.nodup_singleton _, fun a ha b hb hab => hno (List.any_eq_true.mpr ?_)⟩
    obtain ⟨y, hy, rfl⟩ := List.mem_map.mp ha
    exact ⟨y, hy, decide_eq_true (hab.trans (List.mem_singleton.mp hb))⟩

/-- Destinations gathered, each code once. -/
theorem keepAll_spec (l : List (Dest × Target)) : ∀ acc : List (Dest × Target), (acc.map (·.1)).Nodup →
    ((l.foldl keepOnce acc).map (·.1)).Nodup ∧ (∀ y, y ∈ l.foldl keepOnce acc → y ∈ acc ∨ y ∈ l) ∧
      (∀ y, y ∈ acc → y ∈ l.foldl keepOnce acc) ∧ ∀ x, x ∈ l → ∃ t, (x.1, t) ∈ l.foldl keepOnce acc := by
  induction l with
  | nil => exact fun acc h => ⟨h, fun y hy => .inl hy, fun y hy => hy, fun x hx => (List.not_mem_nil hx).elim⟩
  | cons a l ih =>
    intro acc h
    obtain ⟨nodup, sound, keeps, complete⟩ := ih (keepOnce acc a) (keepOnce_nodup h a)
    refine ⟨nodup, fun y hy => ?_, fun y hy => keeps y (keepOnce_mem.2.1 hy), fun x hx => ?_⟩
    · rcases sound y hy with h | h
      · rcases (keepOnce_mem (x := a)).1 h with h | rfl
        · exact .inl h
        · exact .inr List.mem_cons_self
      · exact .inr (List.mem_cons_of_mem a h)
    · rcases List.mem_cons.mp hx with rfl | hx
      · obtain ⟨t, ht⟩ := (keepOnce_mem (acc := acc) (x := x) (y := x)).2.2
        exact ⟨t, keeps _ ht⟩
      · exact complete x hx

/-- The destinations of a frame that this station may keep, in frame order. -/
theorem keptDests_spec (s : State) (rx : List Byte) : ((s.keptDests rx).map (·.1)).Nodup ∧
    (∀ d x, (d, x) ∈ s.keptDests rx → s.keeps x = true ∧
      ∃ i, i < rxCount rx ∧ rxDest (s.cfg.map (·.intercept)) rx i = some (d, x)) ∧
    ∀ i d x, i < rxCount rx → rxDest (s.cfg.map (·.intercept)) rx i = some (d, x) → s.keeps x = true →
      ∃ y, (d, y) ∈ s.keptDests rx := by
  obtain ⟨nodup, sound, -, complete⟩ := keepAll_spec
    (((List.range (rxCount rx)).filterMap (rxDest (s.cfg.map (·.intercept)) rx)).filter fun x => s.keeps x.2) [] List.nodup_nil
  refine ⟨nodup, fun d x h => ?_, fun i d x hi hx hk => ?_⟩
  · obtain ⟨hmem, hkeep⟩ := List.mem_filter.mp ((sound _ h).resolve_left List.not_mem_nil)
    obtain ⟨i, hi, e⟩ := List.mem_filterMap.mp hmem
    exact ⟨hkeep, i, List.mem_range.mp hi, e⟩
  · exact complete (d, x) (List.mem_filter.mpr ⟨List.mem_filterMap.mpr ⟨i, List.mem_range.mpr hi, hx⟩, hk⟩)

/-! ## The hand-off with named own circuits (R68, R71) -/

/-- A destination whose named target is an own available circuit with no diversion recorded, its code having a route. -/
def DirectDest (u : State) (img : Image) (x : Dest × Target) : Prop :=
  ∃ code c, x = (.office code, .circuit c) ∧ (img.lookup code).isSome = true ∧ u.isOwn c = true ∧
    u.circuitAvailable c = true ∧ (u.mapOf c).diversion = none

theorem DirectDest.placed {u t : State} {img : Image} {x : Dest × Target} (h : DirectDest u img x) (p : Placed u t) :
    DirectDest t img x := by
  obtain ⟨_, _, _, _, rfl, -⟩ := p
  exact h

/-- The state of a slot placed on the own circuit of its destination. -/
def OnCircuit (now : Minute) (x : Target) (st : SlotState) : Prop :=
  ∃ c, x = .circuit c ∧ (st = .queued c ∨ st = .held now false (.busy c))

/-- The first `n` slots of record `m` have been placed on the circuits named for them, and nothing else of it is written. -/
structure HandedTo (kept : List (Dest × Target)) (m n : Nat) (u t : State) : Prop where
  placed : Placed u t
  record : ∃ sls, t.record m = { u.record m with slots := sls } ∧ sls.length = kept.length ∧
    ∀ i x, kept[i]? = some x → ∃ st, sls[i]? = some ⟨x.1, st⟩ ∧
      (i < n → OnCircuit u.minute x.2 st) ∧ (n ≤ i → st = .unrouted)

section
variable {u : State} {img : Image} {m : Nat} {kept : List (Dest × Target)} (hm : m < 128) (hc : u.cfg = some img)
  (hhop : (u.record m).hop ≠ 3) (hint : (u.record m).intercept = none) (hk : ∀ x ∈ kept, DirectDest u img x)
include hm hc hhop hint hk

theorem HandedTo.step {n : Nat} {t : State} (h : HandedTo kept m n u t) (hn : n < kept.length) :
    HandedTo kept m (n + 1) u (if t.slotState m n = .unrouted then
      t.resolveWith (State.serviceTake none) m n ((kept.map fun x => some x.2).getD n none) else t) := by
  obtain ⟨sls, record, length, slots⟩ := h.record
  have hx : kept[n]? = some kept[n] := List.getElem?_eq_getElem hn
  obtain ⟨code, c, e, -, own, available, undiverted⟩ := (hk _ (List.getElem_mem hn)).placed h.placed
  rw [e] at hx
  obtain ⟨_, hsl, -, unrouted⟩ := slots n _ hx
  cases unrouted (Nat.le_refl n)
  have slot : t.slot m n = some ⟨.office code, .unrouted⟩ := by rw [State.slot, record]; exact hsl
  have named : (kept.map fun x => some x.2).getD n none = some (.circuit c) := by
    rw [List.getD_eq_getElem?_getD, List.getElem?_map, hx]
    rfl
  have taken : t.namedTaken img (t.record m) ⟨.office code, .unrouted⟩ (.circuit c) = true := by
    rw [record]
    simp [State.namedTaken, interceptBound, own, available, undiverted, hhop, hint]
  have target : t.targetOf m n (some (.circuit c)) = some (.circuit c) := by
    unfold State.targetOf
    rw [h.placed.resolved.cfg.trans hc, slot]
    exact if_pos taken
  have placing : t.resolveWith (State.serviceTake none) m n (some (.circuit c)) = t.placeOwn m n (lineOf c) := by
    unfold State.resolveWith
    rw [target]
    exact if_pos own
  obtain ⟨st, wrote, lands⟩ := placeOwn_wrote hm slot (lineOf c)
  rw [circuit_of_own own] at lands
  rw [if_pos (slotState_of_slot slot), named, placing]
  refine ⟨h.placed.trans (placed_placeOwn t m n (lineOf c)), sls.set n ⟨.office code, st⟩, ?_, ?_, fun i x hi => ?_⟩
  · rw [wrote.record, record]
  · rw [List.length_set, length]
  · by_cases hin : i = n
    · subst hin
      cases hx.symm.trans hi
      refine ⟨st, List.getElem?_set_self (by rw [length]; exact hn), fun _ => ⟨c, rfl, lands.imp_right fun h' => ?_⟩, fun h' => by omega⟩
      rw [h', ← h.placed.resolved.minute]
      rfl
    · obtain ⟨st', hsl', on, un⟩ := slots i x hi
      exact ⟨st', by rw [List.getElem?_set_ne (Ne.symm hin)]; exact hsl', fun h' => on (by omega), fun h' => un (by omega)⟩

theorem handOff_named (hst : (u.record m).state = .standing) (hsl : (u.record m).slots = kept.map fun x => ⟨x.1, .unrouted⟩)
    (hne : kept ≠ []) : HandedTo kept m kept.length u (u.handOff m (kept.map fun x => some x.2)) := by
  have routed : u.noRoute m = false := by
    unfold State.noRoute
    rw [hc, hsl, Option.elim_some, List.any_map, List.any_eq_false]
    intro x hx
    obtain ⟨code, c, rfl, route, -⟩ := hk x hx
    simp [Option.isSome_iff_ne_none.mp route]
  have checked : u.handOffChecks m = u := by
    unfold State.handOffChecks
    dsimp only
    rw [if_neg hhop, routed, if_neg Bool.false_ne_true]
  have start : HandedTo kept m 0 u u := by
    refine ⟨.refl u, (u.record m).slots, rfl, by rw [hsl, List.length_map], fun i x hi => ⟨.unrouted, ?_, fun h => by omega, fun _ => rfl⟩⟩
    rw [hsl, List.getElem?_map, hi]
    rfl
  have placed : ∀ n, n ≤ kept.length → HandedTo kept m n u ((List.range n).foldl
      (fun t i => if t.slotState m i = .unrouted then
        t.resolveWith (State.serviceTake none) m i ((kept.map fun x => some x.2).getD i none) else t) u) := by
    intro n
    induction n with
    | zero => exact fun _ => start
    | succ n ih =>
      intro hn
      rw [List.range_succ, List.foldl_append]
      exact (ih (by omega)).step hm hc hhop hint hk (by omega)
  have all := placed kept.length (Nat.le_refl _)
  have resolved : u.handOff m (kept.map fun x => some x.2) = ((List.range kept.length).foldl
      (fun t i => if t.slotState m i = .unrouted then
        t.resolveWith (State.serviceTake none) m i ((kept.map fun x => some x.2).getD i none) else t) u).releaseIfDone m := by
    unfold State.handOff State.handOffWith
    rw [if_pos hst, checked]
    dsimp only
    rw [hsl, List.length_map]
  rw [resolved]
  generalize ((List.range kept.length).foldl (fun t i => if t.slotState m i = .unrouted then
    t.resolveWith (State.serviceTake none) m i ((kept.map fun x => some x.2).getD i none) else t) u) = t at all ⊢
  obtain ⟨sls, record, length, slots⟩ := all.record
  have stays : t.releaseIfDone m = t := by
    refine if_neg fun h => ?_
    obtain ⟨x, hx⟩ := List.exists_mem_of_ne_nil kept hne
    obtain ⟨i, hi, e⟩ := List.getElem_of_mem hx
    obtain ⟨st, hst', on, -⟩ := slots i x (by rw [List.getElem?_eq_getElem hi, e])
    have done : st.isDone = true := List.all_eq_true.mp h.2 ⟨x.1, st⟩ (by
      rw [record]
      exact List.mem_of_getElem? hst')
    obtain ⟨c, -, h | h⟩ := on hi <;> rw [h] at done <;> cases done
  rw [stays]
  exact all

end

/-! ## The record filed from the frame (R57, R146) -/

/-- The state in which the sender is heard and the record completed from the frame. -/
def State.carryFiled (s : State) (rx : List Byte) (m : Nat) : State :=
  let t := (s.hear (rxSender rx)).flagSet (rxSender rx)
  (t.setRecord m ((t.record m).fromFrame s.draws rx (s.keptDests rx))).complete m

theorem commitCarry_eq (s : State) (rx : List Byte) (m : Nat) : s.commitCarry rx m =
    ((s.carryFiled rx m).reexamineIf (s.hearMoves (rxSender rx) || s.flagMoves (rxSender rx))).handOff m
      ((s.keptDests rx).map fun x => some x.2) := rfl

theorem carryFiled_filed (s : State) (rx : List Byte) (m : Nat) :
    Filed ((s.hear (rxSender rx)).flagSet (rxSender rx)) (s.carryFiled rx m) :=
  (filed_setRecord _ m _).trans (filed_complete _ m)

theorem carryFiled_commit (s : State) (rx : List Byte) (m : Nat) : Resolved (s.carryFiled rx m) (s.commitCarry rx m) ∧
    Handles (s.carryFiled rx m) (s.commitCarry rx m) := by
  rw [commitCarry_eq]
  exact ⟨(resolved_reexamineIf _ _).trans (resolved_handOff _ _ _), (handles_reexamineIf _ _).trans (handles_handOff _ _ _)⟩

theorem hear_record {s : State} {k j : Nat} (h : (s.record j).state ≠ .free) : (s.hear k).record j = s.record j := by
  unfold State.hear
  split
  · rfl
  · dsimp only
    split
    · rfl
    · rfl
    · exact request_record (s.setPeer k _) _ j h

theorem hear_stamp {s : State} {k : Nat} (h : (s.peer k).presence ≠ .silent) : (s.hear k).store.stamp = s.store.stamp := by
  unfold State.hear
  split
  · rfl
  · dsimp only
    split
    · rfl
    · rfl
    next e => exact absurd e h

section
variable {s : State} {rx : List Byte} {m : Nat} (hm : m < 128) (hst : (s.record m).state = .filling)
include hm hst

/-- A frame with destinations kept: the record stands with the frame's fields. -/
theorem carryFiled_record (hne : s.keptDests rx ≠ []) : ∃ stamp, (s.carryFiled rx m).record m =
    { (s.record m).fromFrame s.draws rx (s.keptDests rx) with stamp := some stamp, state := .standing } ∧
      ((s.peer (rxSender rx)).presence ≠ .silent → stamp = s.store.stamp) := by
  let t := (s.hear (rxSender rx)).flagSet (rxSender rx)
  have same : t.record m = s.record m := hear_record (by rw [hst]; decide)
  have written := record_setRecord_self t m ((t.record m).fromFrame s.draws rx (s.keptDests rx)) hm
  have slots : ((t.setRecord m ((t.record m).fromFrame s.draws rx (s.keptDests rx))).record m).slots ≠ [] := by
    rw [written]
    exact fun h => hne (List.map_eq_nil_iff.mp h)
  have done := (complete_record _ m slots hm).1
  rw [written, same] at done
  have filed : s.carryFiled rx m = (t.setRecord m ((s.record m).fromFrame s.draws rx (s.keptDests rx))).complete m :=
    congrArg (fun r => (t.setRecord m (Record.fromFrame r s.draws rx (s.keptDests rx))).complete m) same
  rw [filed]
  exact ⟨(s.hear (rxSender rx)).store.stamp, done, fun h => hear_stamp h⟩

/-- A frame with no destination kept: the record is given back. -/
theorem carryFiled_free (he : s.keptDests rx = []) : ((s.carryFiled rx m).record m).state = .free := by
  let t := (s.hear (rxSender rx)).flagSet (rxSender rx)
  have same : t.record m = s.record m := hear_record (by rw [hst]; decide)
  have written := record_setRecord_self t m ((t.record m).fromFrame s.draws rx (s.keptDests rx)) hm
  obtain ⟨-, -, freed, -⟩ := completionStampsTheRecord (t.setRecord m ((t.record m).fromFrame s.draws rx (s.keptDests rx))) m hm
  rw [written, same, he] at freed
  have empty := freed rfl (by show (s.record m).state ≠ _; rw [hst]; decide)
  have filed : s.carryFiled rx m = (t.setRecord m ((s.record m).fromFrame s.draws rx [])).complete m := by
    rw [← he]
    exact congrArg (fun r => (t.setRecord m (Record.fromFrame r s.draws rx (s.keptDests rx))).complete m) same
  rw [filed, empty]
  rfl

end

/-! ## The commit -/

theorem circuitAvailable_of_own {s : State} {c : Nat} (h : s.isOwn c = true) :
    s.circuitAvailable c = (decide ((s.mapOf c).condition = .inService) && (s.mapOf c).kind.sends) := by
  rw [State.circuitAvailable, h, Bool.true_or, Bool.and_true]

theorem carryFiled_tables (s : State) (rx : List Byte) (m : Nat) : (s.carryFiled rx m).cfg = s.cfg ∧
    (s.carryFiled rx m).station = s.station ∧ (s.carryFiled rx m).map = s.map := by
  obtain ⟨st, ev, filed⟩ := carryFiled_filed s rx m
  have heard := traffic_hear s (rxSender rx)
  rw [filed]
  exact ⟨heard.cfg, heard.station, hear_map s _⟩

/-- From a known sender, with every kept target an own available circuit: the slots are placed there. -/
theorem commitCarry_direct {s : State} {rx : List Byte} {m : Nat} {img : Image} (hm : m < 128)
    (hst : (s.record m).state = .filling) (hne : s.keptDests rx ≠ []) (hc : s.cfg = some img)
    (hp : (s.peer (rxSender rx)).presence = .present) (hq : (s.peer (rxSender rx)).flag = .set) (hhop : rxHop rx < 2)
    (hint : ((s.carryFiled rx m).record m).intercept = none)
    (hk : ∀ x ∈ s.keptDests rx, ∃ code c, x = (.office code, .circuit c) ∧ (img.lookup code).isSome = true ∧
      s.circuitAvailable c = true ∧ (s.mapOf c).diversion = none) :
    HandedTo (s.keptDests rx) m (s.keptDests rx).length (s.carryFiled rx m) (s.commitCarry rx m) := by
  have still : (s.hearMoves (rxSender rx) || s.flagMoves (rxSender rx)) = false := by
    simp [State.hearMoves, State.flagMoves, hp, hq]
  obtain ⟨stamp, record, -⟩ := carryFiled_record hm hst hne
  obtain ⟨cfg, station, map⟩ := carryFiled_tables s rx m
  rw [commitCarry_eq, still]
  refine handOff_named hm (cfg.trans hc) ?_ hint (fun x hx => ?_) ?_ ?_ hne
  · rw [record]
    show min 3 (rxHop rx + 1) ≠ 3
    omega
  · obtain ⟨code, c, rfl, route, available, undiverted⟩ := hk x hx
    have own : s.isOwn c = true := ((keptDests_spec s rx).2.1 _ _ hx).1
    have own' : (s.carryFiled rx m).isOwn c = true := by rw [State.isOwn, station]; exact own
    refine ⟨code, c, rfl, route, own', ?_, by rw [mapOf_congr map]; exact undiverted⟩
    rw [circuitAvailable_of_own own', mapOf_congr map, ← circuitAvailable_of_own own]
    exact available
  · rw [record]
  · rw [record]
    rfl

theorem applyFrame_carry {s : State} {f : Flight} {m : Nat} (hk : rxKind f.rx = 2) (hres : f.reserved = some m) :
    s.applyFrame f = ((s.atTake f).commitCarry f.rx m).drawn.finish := by
  unfold State.applyFrame State.atTake
  dsimp only
  rw [if_neg (by rw [hk]; decide), if_neg (by rw [hk]; decide), hres]
  rfl

/-- Settles O56. -/
theorem carryCommitHearsTheSender : Obligations.CarryCommitHearsTheSender := by
  refine ⟨fun s f m hr hf he ho hd hs hb ht hk hres hsender => ?_, keptDests_spec⟩
  let k := rxSender f.rx
  let w := (s.atTake f).carryFiled f.rx m
  let u := (s.atTake f).commitCarry f.rx m
  have runs : exec .carryCommit s = .next u.drawn.finish := by
    refine (whenever_of (applies_kind hr hf he ho hd hs hb ht hk) _ _).trans (congrArg _ ?_)
    rw [hf]
    exact applyFrame_carry hk hres
  obtain ⟨resolved, handled⟩ := carryFiled_commit (s.atTake f) f.rx m
  have kept := kept_finish u.drawn
  obtain ⟨flight, stretches, timers, mas, admin, minute⟩ := applied_frame he ho hs ht (traffic_commitCarry (s.atTake f) f.rx m)
  have filed : Filed (((s.atTake f).hear k).flagSet k) w := carryFiled_filed (s.atTake f) f.rx m
  have core : (u.peer k).core = { (s.peer k).core.present with flag := .set } := by
    refine Eq.trans (resolved.samePeer k) (Eq.trans (congrArg Peer.core (filed.peer k)) ?_)
    exact heardSet_core (s.atTake f) (rxSender_lt _) hsender
  have peer : u.drawn.finish.peer k = u.peer k := peer_congr kept.peers k
  have handles : Handles w u.drawn.finish := (handled.trans (.store rfl)).trans (handles_finish u.drawn)
  have condition : ∀ c, (u.drawn.finish.mapOf c).condition = (s.mapOf c).condition := fun c =>
    (congrArg MapEntry.condition (mapOf_congr kept.map c)).trans ((resolved.condition c).trans
      (congrArg MapEntry.condition (mapOf_congr (carryFiled_tables (s.atTake f) f.rx m).2.2 c)))
  refine ⟨_, runs, flight, stretches, timers, ?_, ?_, ?_, ?_, ?_, condition, mas, admin, minute,
    fun hm hst => ⟨fun hnone => ?_, fun cls hne hcls => ?_⟩⟩
  · rw [peer]
    exact congrArg Peer.presence core
  · rw [peer]
    exact congrArg Peer.flag core
  · rw [peer]
    exact congrArg Peer.unheard core
  · rw [peer]
    have edition := congrArg Peer.edition core
    exact edition
  · rw [peer]
    have refusals := congrArg Peer.refusals core
    exact refusals
  · exact (handles m).givenBack (.inl (carryFiled_free (s := s.atTake f) hm hst hnone))
  · obtain ⟨stamp, record, present⟩ := carryFiled_record (s := s.atTake f) (rx := f.rx) hm hst hne
    refine ⟨w.record m, handles m, ?_, by rw [record]; rfl, fun h => by rw [record]; exact congrArg some (present h),
      fun img hc hp hq hhop hint hdirect => ?_⟩
    · rw [record, Record.fromFrame, hcls]
      rfl
    · have handed := commitCarry_direct (s := s.atTake f) hm hst hne hc hp hq hhop hint hdirect
      obtain ⟨sls, placed, length, slots⟩ := handed.record
      have stands : (u.drawn.record m).state ≠ .free := by
        show (u.record m).state ≠ _
        rw [placed, record]
        exact fun h => nomatch h
      have final : u.drawn.finish.record m = { w.record m with slots := sls } := (finish_record u.drawn m stands).trans placed
      have dests : (w.record m).slots = (s.keptDests f.rx).map fun x => ⟨x.1, .unrouted⟩ := by rw [record]; rfl
      refine ⟨⟨by rw [final], fun _ => by rw [final], ?_, fun i x hx => ?_⟩, fun i d c hi => ?_⟩
      · rw [final, dests, List.length_map]
        exact length
      · rw [final] at hx
        have hi : i < (s.keptDests f.rx).length := by
          have bound := (List.getElem?_eq_some_iff.mp hx).1
          exact lt_of_lt_of_eq bound length
        obtain ⟨st, hsl, -, -⟩ := slots i _ (List.getElem?_eq_getElem hi)
        cases hsl.symm.trans hx
        refine .inr ⟨⟨((s.keptDests f.rx)[i]).1, .unrouted⟩, ?_, rfl⟩
        rw [dests, List.getElem?_map, List.getElem?_eq_getElem hi]
        rfl
      · obtain ⟨st, hsl, on, -⟩ := slots i _ hi
        obtain ⟨c', e, lands⟩ := on (List.getElem?_eq_some_iff.mp hi).1
        cases e
        have state : u.drawn.finish.slotState m i = st := by
          rw [State.slotState, State.slot, final]
          exact congrArg (Option.elim · _ _) hsl
        rw [state]
        exact lands.imp_right fun h => ⟨_, _, h⟩

end Sys2Proof.Machine

/-! PROOF. Records closed (R40, R114 to R116): what the resolver makes of a completed record, and records closed one after
another. -/

namespace Sys2Proof.Machine

/-! ## A record under way through the resolver -/

/-- A STANDING record with a slot, none of whose slots is DONE. -/
structure Record.Active (r : Record) : Prop where
  state : r.state = .standing
  some : r.slots ≠ []
  live : ∀ sl ∈ r.slots, sl.state.isDone = false

/-- From `s` to `t` an active record stays active, and the same message. -/
def StaysActive (m : Nat) (s t : State) : Prop :=
  (s.record m).Active → (t.record m).Active ∧ SameMessage (s.record m) (t.record m)

theorem lt_of_active {s : State} {m : Nat} (h : (s.record m).Active) : m < 128 := by
  by_contra hm
  have state := h.state
  rw [record_out s m hm] at state
  cases state

section
variable {m : Nat}

theorem StaysActive.trans {s t u : State} (h : StaysActive m s t) (k : StaysActive m t u) : StaysActive m s u := fun a =>
  let ⟨b, same⟩ := h a
  let ⟨c, same'⟩ := k b
  ⟨c, same.trans same'⟩

theorem StaysActive.of_record {s t : State} (h : t.record m = s.record m) : StaysActive m s t := fun a => by
  rw [h]
  exact ⟨a, .refl _⟩

/-- A change to another record. -/
theorem StaysActive.of_only {s t : State} {j : Nat} (hj : m ≠ j) (h : OnlyRecord j s t) : StaysActive m s t := fun a =>
  StaysActive.of_record (h m hj (by rw [a.state]; decide)) a

/-- A slot written with a state that is not DONE. -/
theorem staysActive_setSlotState (s : State) (j i : Nat) {st : SlotState} (hst : st.isDone = false) :
    StaysActive m s (s.setSlotState j i st) := by
  by_cases hj : m = j
  · subst hj
    intro a
    cases hsl : s.slot m i with
    | none =>
      have still : s.setSlotState m i st = s := by unfold State.setSlotState; rw [hsl]
      rw [still]
      exact ⟨a, .refl _⟩
    | some sl =>
      have record := (wrote_setSlotState (lt_of_active a) hsl st).record
      refine ⟨⟨?_, ?_, fun x hx => ?_⟩, ?_⟩
      · rw [record]
        exact a.state
      · rw [record]
        exact fun h => a.some (by rw [← List.length_eq_zero_iff] at h ⊢; rwa [List.length_set] at h)
      · rw [record] at hx
        rcases List.mem_or_eq_of_mem_set hx with h | rfl
        · exact a.live x h
        · exact hst
      · refine ⟨by rw [record], fun _ => by rw [record], by rw [record]; exact List.length_set, fun k x hx => ?_⟩
        rw [record] at hx
        by_cases hk : i = k
        · subst hk
          have bound : i < (s.record m).slots.length := (List.getElem?_eq_some_iff.mp hsl).1
          rw [List.getElem?_set_self bound] at hx
          cases hx
          exact .inr ⟨sl, hsl, rfl⟩
        · rw [List.getElem?_set_ne hk] at hx
          exact .inr ⟨x, hx, rfl⟩
  · exact .of_only hj (only_setSlotState s i st)

theorem staysActive_holdSlot (s : State) (j i : Nat) (w : HoldReason) : StaysActive m s (s.holdSlot j i w) := by
  rw [holdSlot_eq]
  exact staysActive_setSlotState s j i (by cases s.slotState j i <;> rfl)

theorem staysActive_placeOwn (s : State) (j i l : Nat) : StaysActive m s (s.placeOwn j i l) := by
  have queued : ∀ x : Ctx, StaysActive m s ((s.setCtx l x).setSlotState j i (.queued (s.circuit l))) := fun x =>
    StaysActive.trans (t := s.setCtx l x) (.of_record rfl) (staysActive_setSlotState _ j i rfl)
  have touched : ∀ t : State, StaysActive m t (t.touchLine l) := fun t =>
    .of_record ((touch_record _ _ m).trans (touch_record _ _ m))
  unfold State.placeOwn
  dsimp only
  split
  · exact queued _
  · split
    · exact staysActive_holdSlot s j i _
    · split
      · exact ((queued _).trans (touched _)).trans (.of_record (owePick_record _ _ m))
      · exact (queued _).trans (touched _)

theorem staysActive_toIntercept (s : State) (j : Nat) (w : IntReason) :
    StaysActive m s (s.setRecord j ((s.record j).toIntercept w)) := by
  by_cases hj : m = j
  · subst hj
    intro a
    have record := record_setRecord_self s m ((s.record m).toIntercept w) (lt_of_active a)
    rw [record]
    refine ⟨⟨a.state, a.some, a.live⟩, rfl, fun h => ?_, rfl, fun _ x hx => .inr ⟨x, hx, rfl⟩⟩
    obtain ⟨v, hv⟩ := Option.ne_none_iff_exists'.mp h
    simp only [Record.toIntercept, hv, Option.getD_some]
  · exact .of_only hj (.setRecord s _)

theorem staysActive_releaseIfDone (s : State) (j : Nat) : StaysActive m s (s.releaseIfDone j) := by
  by_cases hj : m = j
  · subst hj
    intro a
    have stays : s.releaseIfDone m = s := by
      refine if_neg fun h => ?_
      obtain ⟨x, hx⟩ := List.exists_mem_of_ne_nil _ a.some
      have done := List.all_eq_true.mp h.2 x hx
      rw [a.live x hx] at done
      cases done
    rw [stays]
    exact ⟨a, .refl _⟩
  · exact .of_only hj (only_releaseIfDone s)

end

/-- Where no route leads to the own service, the resolver keeps an active record active. -/
theorem Moves.staysActive {s t : State} (h : Moves s t) (hn : s.noOwnService) (m : Nat) : StaysActive m s t := by
  induction h with
  | trans h₁ _ ih₁ ih₂ => exact (ih₁ hn).trans (ih₂ (h₁.noOwnService.mpr hn))
  | other _ hs _ _ => exact .of_record (by rw [State.record, State.record, hs])
  | place s j i c _ _ => exact staysActive_placeOwn s j i _
  | carry s j i x => exact staysActive_setSlotState s j i rfl
  | hold s j i w => exact staysActive_holdSlot s j i w
  | bound s j w => exact staysActive_toIntercept s j w
  | release s j => exact staysActive_releaseIfDone s j
  | serve s j h => exact absurd hn h
  | finish s j i x h => exact absurd hn h
  | pseudo s j i sl h _ => exact absurd hn h
  | @report s t j c _ _ hj hfree others _ _ =>
    intro a
    exact StaysActive.of_record (others m fun e => by subst e; exact nomatch hfree.symm.trans a.state) a

/-! ## A record closed (R40) -/

/-- A record as its closing completes it. -/
def Record.closed (r : Record) (stamp : Nat) (w : Option MutReason) : Record :=
  { w.elim r r.mutilate with stamp := some stamp, state := .standing }

theorem complete_record_ne (s : State) {m j : Nat} (hj : j ≠ m) : (s.complete m).record j = s.record j := by
  unfold State.complete
  dsimp only
  split
  · exact freeRecord_record_ne _ hj
  · exact record_setRecord_ne _ m j _ (Ne.symm hj)

/-- The state in which the closed record is handed off. -/
def State.closing (s : State) (m : Nat) (w : Option MutReason) : State :=
  (s.setRecord m (w.elim (s.record m) (s.record m).mutilate)).complete m

theorem filed_closing (s : State) (m : Nat) (w : Option MutReason) : Filed s (s.closing m w) :=
  (filed_setRecord s m _).trans (filed_complete _ m)

theorem closing_record_ne (s : State) {m j : Nat} (w : Option MutReason) (hj : j ≠ m) : (s.closing m w).record j = s.record j :=
  (complete_record_ne _ hj).trans (record_setRecord_ne s m j _ (Ne.symm hj))

theorem mutilate_slots (r : Record) (w : Option MutReason) : (w.elim r r.mutilate).slots = r.slots := by cases w <;> rfl

theorem closing_record {s : State} {m : Nat} (hm : m < 128) (hs : (s.record m).slots ≠ []) (w : Option MutReason) :
    (s.closing m w).record m = (s.record m).closed s.store.stamp w := by
  have written := record_setRecord_self s m (w.elim (s.record m) (s.record m).mutilate) hm
  refine (complete_record _ m ?_ hm).1.trans ?_
  · rw [written, mutilate_slots]
    exact hs
  · rw [written]
    rfl

theorem closeRecord_moves (s : State) (l m : Nat) (w : Option MutReason) : Moves (s.closing m w) (s.closeRecord l m w) ∧
    Handles (s.closing m w) (s.closeRecord l m w) := by
  unfold State.closeRecord
  dsimp only
  split
  · exact ⟨(moves_handOff _ m).trans (moves_request _ _), (handles_handOff _ m []).trans (handles_request _ _)⟩
  · exact ⟨moves_handOff _ m, handles_handOff _ m []⟩

/-- A closed record is the message it was, or has been given back by the service where a route leads to it. -/
theorem closeRecord_record {s : State} {m : Nat} (hm : m < 128) (hs : (s.record m).slots ≠ []) (l : Nat) (w : Option MutReason) :
    Handled ((s.record m).closed s.store.stamp w) ((s.closeRecord l m w).record m) ∧
      (s.noOwnService → (∀ sl ∈ (s.record m).slots, sl.state = .unrouted) →
        ((s.closeRecord l m w).record m).Active ∧
          SameMessage ((s.record m).closed s.store.stamp w) ((s.closeRecord l m w).record m)) := by
  obtain ⟨moves, handles⟩ := closeRecord_moves s l m w
  rw [← closing_record hm hs w]
  refine ⟨handles m, fun hn hu => moves.staysActive ?_ m ?_⟩
  · have filed := (filed_closing s m w).resolved
    exact (noOwnService_congr filed.cfg filed.station).mpr hn
  · rw [closing_record hm hs w]
    refine ⟨rfl, fun h => hs ((mutilate_slots _ w).symm.trans h), fun sl hsl => ?_⟩
    have mem : sl ∈ (w.elim (s.record m) (s.record m).mutilate).slots := hsl
    rw [mutilate_slots] at mem
    rw [hu sl mem]
    rfl

theorem closeRecord_handled_ne (s : State) (l : Nat) {m j : Nat} (w : Option MutReason) (hj : j ≠ m) :
    Handled (s.record j) ((s.closeRecord l m w).record j) := by
  rw [← closing_record_ne s w hj]
  exact (closeRecord_moves s l m w).2 j

/-! ## Records closed one after another -/

/-- Records other than those closed: one that is not FREE stays. -/
theorem closeAll_record_ne {l : Nat} {w : MutReason} {j : Nat} {ms : List Nat} (hj : j ∉ ms) : ∀ {s : State},
    (s.record j).state ≠ .free → (s.closeAll l w ms).record j = s.record j := by
  induction ms with
  | nil => exact fun _ => rfl
  | cons m ms ih =>
    intro s h
    rw [List.mem_cons, not_or] at hj
    have same := only_closeRecord s l (some w) j hj.1 h
    exact (ih hj.2 (by rw [same]; exact h)).trans same

theorem closeAll_handled_ne {l : Nat} {w : MutReason} {j : Nat} {ms : List Nat} (hj : j ∉ ms) : ∀ {s : State},
    Handled (s.record j) ((s.closeAll l w ms).record j) := by
  induction ms with
  | nil => exact .refl _
  | cons m ms ih =>
    intro s
    rw [List.mem_cons, not_or] at hj
    exact (closeRecord_handled_ne s l (some w) hj.1).trans (ih hj.2)

theorem closed_mutilated {r : Record} (h : r.mutilated = none) (stamp : Nat) (w : MutReason) :
    r.closed stamp (some w) = { r with state := .standing, stamp := some stamp, mutilated := some w } := by
  unfold Record.closed Record.mutilate
  rw [Option.elim_some, h]
  rfl

/-- Each of a list of records, closed in order. -/
theorem closeAll_record {s : State} {l : Nat} {w : MutReason} {ms : List Nat} (hnodup : ms.Nodup) {j : Nat} (hj : j ∈ ms)
    (hm : j < 128) (hf : (s.record j).state = .filling) (hs : (s.record j).slots ≠ []) (hw : (s.record j).mutilated = none) :
    ∃ r stamp, r = { s.record j with state := .standing, stamp := some stamp, mutilated := some w } ∧
      Handled r ((s.closeAll l w ms).record j) ∧
      (s.noOwnService → (∀ sl ∈ (s.record j).slots, sl.state = .unrouted) →
        ((s.closeAll l w ms).record j).Active ∧ SameMessage r ((s.closeAll l w ms).record j)) := by
  obtain ⟨before, after, rfl⟩ := List.append_of_mem hj
  obtain ⟨hb, ha⟩ : j ∉ before ∧ j ∉ after := by
    obtain ⟨-, h₂, h₃⟩ := List.nodup_append.mp hnodup
    exact ⟨fun h => h₃ j h j List.mem_cons_self rfl, (List.nodup_cons.mp h₂).1⟩
  have split : s.closeAll l w (before ++ j :: after) = ((s.closeAll l w before).closeRecord l j (some w)).closeAll l w after := by
    unfold State.closeAll
    rw [List.foldl_append, List.foldl_cons]
  have same : (s.closeAll l w before).record j = s.record j := closeAll_record_ne hb (by rw [hf]; decide)
  have first := resolved_closeAll s l w before
  obtain ⟨handled, message⟩ := closeRecord_record (s := s.closeAll l w before) hm (by rw [same]; exact hs) l (some w)
  rw [same, closed_mutilated hw] at handled message
  rw [split]
  refine ⟨_, _, rfl, handled.trans (closeAll_handled_ne ha), fun hn hu => ?_⟩
  obtain ⟨active, kept⟩ := message ((noOwnService_congr first.cfg first.station).mpr hn) hu
  rw [closeAll_record_ne ha (by rw [active.state]; decide)]
  exact ⟨active, kept⟩

end Sys2Proof.Machine

/-! PROOF. The assembler, by operation (chapters 2 and 6): end sequences, break lines and resume lines (R37, R114 to R116). -/

namespace Sys2Proof.Machine

/-! ## Text rolled back (R55) -/

theorem rollback_record {s : State} {m : Nat} (hm : m < 128) (n : Nat) :
    ((s.rollback m n).record m).text = (s.record m).text.take n ∧
      (s.rollback m n).record m = { s.record m with
        text := ((s.rollback m n).record m).text
        chain := ((s.rollback m n).record m).chain
        errors := ((s.rollback m n).record m).errors } := by
  unfold State.rollback
  dsimp only
  split
  case isTrue =>
    rw [record_setRecord_self _ m _ hm]
    exact ⟨rfl, rfl⟩
  case isFalse h => exact ⟨(List.take_of_length_le (by omega)).symm, rfl⟩

theorem rollback_record_ne (s : State) {m j : Nat} (hj : j ≠ m) (n : Nat) : (s.rollback m n).record j = s.record j := by
  unfold State.rollback
  dsimp only
  split
  · rw [record_setRecord_ne _ m j _ (Ne.symm hj), setPool_record]
  · rfl

theorem rollback_stamp (s : State) (m n : Nat) : (s.rollback m n).store.stamp = s.store.stamp := by
  unfold State.rollback
  dsimp only
  split
  · exact setPool_stamp s _
  · rfl

/-! ## The end sequence (R37) -/

/-- The length of the text once the line break that opened the end line is removed. -/
def endLength (img : Image) (text : List Symbol) : Nat :=
  match text.reverse with
  | lf :: cr :: _ => if means img .lf lf then (if means img .cr cr then text.length - 2 else text.length - 1) else text.length
  | [lf] => if means img .lf lf then 0 else 1
  | [] => 0

theorem endLength_crLf {img : Image} {pre : List Symbol} {cr lf : Symbol} (hlf : means img .lf lf = true)
    (hcr : means img .cr cr = true) : (pre ++ [cr, lf]).take (endLength img (pre ++ [cr, lf])) = pre := by
  have length : endLength img (pre ++ [cr, lf]) = pre.length := by
    unfold endLength
    rw [List.reverse_append]
    show (if means img .lf lf = true then (if means img .cr cr = true then _ else _) else _) = _
    rw [if_pos hlf, if_pos hcr, List.length_append]
    rfl
  rw [length, List.take_left]

theorem endLength_lf {img : Image} {pre : List Symbol} {lf : Symbol} (hlf : means img .lf lf = true)
    (hcr : ∀ cr, pre.getLast? = some cr → means img .cr cr = false) :
    (pre ++ [lf]).take (endLength img (pre ++ [lf])) = pre := by
  have length : endLength img (pre ++ [lf]) = pre.length := by
    unfold endLength
    rw [List.reverse_append]
    rcases List.eq_nil_or_concat' pre with rfl | ⟨front, cr, rfl⟩
    · exact if_pos hlf
    · have no_cr : means img .cr cr = false := hcr cr List.getLast?_concat
      rw [List.reverse_append]
      show (if means img .lf lf = true then (if means img .cr cr = true then _ else _) else _) = _
      rw [if_pos hlf, if_neg (by rw [no_cr]; exact Bool.false_ne_true), List.length_append]
      rfl
  rw [length, List.take_left]

theorem endLength_noLf {img : Image} {text : List Symbol} (h : ∀ lf, text.getLast? = some lf → means img .lf lf = false) :
    text.take (endLength img text) = text := by
  refine List.take_of_length_le ?_
  rcases List.eq_nil_or_concat' text with rfl | ⟨front, lf, rfl⟩
  · exact Nat.le_refl 0
  · have no_lf : ¬ means img .lf lf = true := by rw [h lf List.getLast?_concat]; exact Bool.false_ne_true
    unfold endLength
    rw [List.reverse_append]
    rcases List.eq_nil_or_concat' front with rfl | ⟨_, cr, rfl⟩
    · exact (if_neg no_lf).ge
    · rw [List.reverse_append]
      exact (if_neg no_lf).ge

theorem endSequence_eq (s : State) (img : Image) (l m : Nat) : s.endSequence img l m =
    let t := (s.rollback m (endLength img (s.record m).text)).closeRecord l m none
    t.setMas l (t.masOf l).toHunt := rfl

theorem masOf_closeRecord (s : State) (l m k : Nat) (w : Option MutReason) : (s.closeRecord l m w).masOf k = s.masOf k := by
  rw [State.masOf, State.masOf, (resolved_closeRecord s l m w).mas]

theorem masOf_rollback (s : State) (m n k : Nat) : (s.rollback m n).masOf k = s.masOf k := by
  rw [State.masOf, State.masOf, (filed_rollback s m n).resolved.mas]

/-- The message of an end sequence completed, and the assembler in HUNT. -/
theorem endSequence_spec {s : State} {img : Image} {l m : Nat} (hl : l < 8) (hm : m < 128) (hs : (s.record m).slots ≠ [])
    (hu : ∀ sl ∈ (s.record m).slots, sl.state = .unrouted) : ∃ r,
    Handled r ((s.endSequence img l m).record m) ∧ (s.noOwnService → SameMessage r ((s.endSequence img l m).record m)) ∧
      r = { s.record m with
        state := .standing, stamp := some s.store.stamp, text := r.text, chain := r.chain, errors := r.errors } ∧
      r.text = (s.record m).text.take (endLength img (s.record m).text) ∧
      (s.endSequence img l m).masOf l = (s.masOf l).toHunt := by
  let u := s.rollback m (endLength img (s.record m).text)
  obtain ⟨text, record⟩ := rollback_record (s := s) hm (endLength img (s.record m).text)
  have slots : (u.record m).slots = (s.record m).slots := by
    have same := congrArg Record.slots record
    exact same
  have filed := (filed_rollback s m (endLength img (s.record m).text)).resolved
  obtain ⟨handled, message⟩ := closeRecord_record (s := u) hm (by rw [slots]; exact hs) l none
  have stamp : u.store.stamp = s.store.stamp := rollback_stamp s m _
  rw [stamp] at handled message
  refine ⟨(u.record m).closed s.store.stamp none, handled, fun hn => ?_, ?_, text, ?_⟩
  · exact (message ((noOwnService_congr filed.cfg filed.station).mpr hn) (by rw [slots]; exact hu)).2
  · exact congrArg (fun r : Record => r.closed s.store.stamp none) record
  · rw [endSequence_eq]
    dsimp only
    rw [masOf_setMas_self _ _ _ hl, masOf_closeRecord, masOf_rollback]

/-! ## Break lines (R114, R115) -/

theorem breakLength_lf {img : Image} {a b : List Symbol} {lf last : Symbol} (hlf : means img .lf lf = true)
    (hb : ∀ σ ∈ b, means img .lf σ = false) :
    (a ++ [lf] ++ b ++ [last]).take (breakLength img (a ++ [lf] ++ b ++ [last])) = a ++ [lf] := by
  have cut : (a ++ [lf] ++ b ++ [last]).dropLast = a ++ [lf] ++ b := List.dropLast_concat
  have tail : ((a ++ [lf] ++ b).reverse.takeWhile fun σ => !means img .lf σ) = b.reverse := by
    rw [List.reverse_append, List.takeWhile_append_of_pos fun σ hσ => by rw [hb σ (List.mem_reverse.mp hσ)]; rfl,
      List.reverse_append]
    show b.reverse ++ List.takeWhile _ (lf :: a.reverse) = _
    rw [List.takeWhile_cons_of_neg (by rw [hlf]; decide), List.append_nil]
  have length : breakLength img (a ++ [lf] ++ b ++ [last]) = (a ++ [lf]).length := by
    unfold breakLength
    dsimp only
    rw [cut, tail]
    simp
    omega
  rw [length, List.append_assoc (a ++ [lf]), List.take_left]

theorem breakLength_none {img : Image} {text : List Symbol} (h : ∀ σ ∈ text.dropLast, means img .lf σ = false) :
    text.take (breakLength img text) = [] := by
  have all : (text.dropLast.reverse.takeWhile fun σ => !means img .lf σ) = text.dropLast.reverse :=
    List.takeWhile_eq_self_iff.mpr fun σ hσ => by rw [h σ (List.mem_reverse.mp hσ)]; rfl
  have length : breakLength img text = 0 := by
    unfold breakLength
    dsimp only
    rw [all, List.length_reverse]
    exact Nat.sub_self _
  rw [length, List.take_zero]

/-- A break line with room on the receive stack. -/
theorem breakLine_room {s : State} {img : Image} {l m : Nat} (h : (s.masOf l).rstack.length < 3) : s.breakLine img l m =
    (s.rollback m (breakLength img (s.record m).text)).setMas l
      { (s.masOf l).toHunt with rstack := m :: (s.masOf l).rstack } := by
  unfold State.breakLine
  dsimp only
  have room : decide (Config.stackLimit ≤ (s.masOf l).rstack.length) = false :=
    decide_eq_false (by show ¬ 3 ≤ _; omega)
  rw [masOf_rollback, room, if_neg Bool.false_ne_true, if_neg Bool.false_ne_true, masOf_rollback]

/-- A break line with a full receive stack: its bottom is closed. -/
theorem breakLine_full {s : State} {img : Image} {l m a b bottom : Nat} (h : (s.masOf l).rstack = [a, b, bottom]) :
    s.breakLine img l m = ((s.rollback m (breakLength img (s.record m).text)).closeRecord l bottom (some .suspend)).setMas l
      { (s.masOf l).toHunt with rstack := [m, a, b] } := by
  unfold State.breakLine
  dsimp only
  have full : decide (Config.stackLimit ≤ (s.masOf l).rstack.length) = true :=
    decide_eq_true (by rw [h]; exact Nat.le_refl 3)
  rw [masOf_rollback, full, if_pos rfl, if_pos rfl, h]
  have last : [a, b, bottom].getLast?.toList = [bottom] := rfl
  have front : [a, b, bottom].dropLast = [a, b] := rfl
  have one : ∀ t : State, t.closeAll l .suspend [bottom] = t.closeRecord l bottom (some .suspend) := fun _ => rfl
  rw [last, front, one, masOf_closeRecord, masOf_rollback]

/-- The record of a broken message keeps its fields, but for the text rolled back. -/
theorem breakLine_record {s : State} {img : Image} {l m : Nat} (hm : m < 128) (hf : (s.record m).state = .filling)
    (hstack : m ∉ (s.masOf l).rstack) :
    (s.breakLine img l m).record m = (s.rollback m (breakLength img (s.record m).text)).record m := by
  have filling : ((s.rollback m (breakLength img (s.record m).text)).record m).state ≠ .free := by
    rw [(rollback_record hm _).2]
    show (s.record m).state ≠ _
    rw [hf]
    decide
  unfold State.breakLine
  dsimp only
  rw [masOf_rollback]
  show (if _ then _ else _ : State).record m = _
  split
  · refine closeAll_record_ne (fun h => hstack ?_) filling
    exact List.mem_of_getLast? (Option.mem_toList.mp h)
  · rfl

/-! ## Resume lines (R116) -/

/-- A serial looked up on the receive stack. -/
theorem stackPlace_some {s : State} {l n m : Nat} {above below : List Nat} (h : (s.masOf l).rstack = above ++ m :: below)
    (ha : ∀ j ∈ above, (s.record j).serial ≠ some n) (hm : (s.record m).serial = some n) :
    s.stackPlace l n = some above.length := by
  unfold State.stackPlace
  have found : (m :: below).findIdx? (fun m => decide ((s.record m).serial = some n)) = some 0 := by
    rw [List.findIdx?_cons, hm]
    simp
  rw [h, List.findIdx?_append, List.findIdx?_eq_none_iff.mpr fun j hj => by simpa using ha j hj, found]
  simp

theorem stackPlace_none {s : State} {l n : Nat} (h : ∀ m ∈ (s.masOf l).rstack, (s.record m).serial ≠ some n) :
    s.stackPlace l n = none :=
  List.findIdx?_eq_none_iff.mpr fun m hm => by simpa using h m hm

theorem resumeLine_none {s : State} {l n : Nat} (h : ∀ m ∈ (s.masOf l).rstack, (s.record m).serial ≠ some n) (cr : Bool) :
    s.resumeLine l n cr = s := by
  unfold State.resumeLine
  rw [stackPlace_none h]

theorem resumeLine_some {s : State} {l n m : Nat} {above below : List Nat} (h : (s.masOf l).rstack = above ++ m :: below)
    (ha : ∀ j ∈ above, (s.record j).serial ≠ some n) (hm : (s.record m).serial = some n) (cr : Bool) :
    s.resumeLine l n cr = (s.closeAll l .suspend above).setMas l
      { (s.masOf l).toText m true with rstack := below, resumeLf := cr } := by
  unfold State.resumeLine
  rw [stackPlace_some h ha hm]
  dsimp only
  rw [masOf_closeAll, h, List.take_left]
  congr 2
  · simp
  · simp

/-! ## Repeat marks (R117) -/

theorem repeatMark_none {s : State} {l n : Nat} (h : ∀ m ∈ (s.masOf l).rstack, (s.record m).serial ≠ some n) :
    s.repeatMark l n = s := by
  unfold State.repeatMark
  rw [stackPlace_none h]

theorem repeatMark_some {s : State} {l n m : Nat} {above below : List Nat} (h : (s.masOf l).rstack = above ++ m :: below)
    (ha : ∀ j ∈ above, (s.record j).serial ≠ some n) (hm : (s.record m).serial = some n) :
    s.repeatMark l n = (s.setMas l { s.masOf l with rstack := above ++ below }).freeRecord m := by
  unfold State.repeatMark
  rw [stackPlace_some h ha hm]
  dsimp only
  rw [h]
  have erased : (above ++ m :: below).eraseIdx above.length = above ++ below := by
    rw [List.eraseIdx_append_of_length_le (Nat.le_refl _), Nat.sub_self]
    rfl
  have place : (above ++ m :: below).getD above.length 0 = m := by simp
  rw [erased, place]

end Sys2Proof.Machine

/-! PROOF. The assembler, by operation (chapters 2 and 6): the header check (R27 to R32). -/

namespace Sys2Proof.Machine

/-! ## Symbols stored (R33, R53) -/

/-- Symbols written into a FILLING record with room for them. -/
theorem foldl_write_count {l : List Symbol} : ∀ {r : Record}, r.state = .filling → r.text.length + l.length ≤ 4096 →
    r.errors + l.countP (fun σ => decide (σ.tag = .error)) ≤ 255 → l.foldl Record.write r =
      { r with text := r.text ++ l, errors := r.errors + l.countP fun σ => decide (σ.tag = .error) } := by
  induction l with
  | nil => exact fun _ _ _ => by rw [List.foldl_nil, List.append_nil]; rfl
  | cons σ l ih =>
    intro r hs hlen herr
    rw [List.length_cons] at hlen
    rw [List.countP_cons] at herr
    have one : r.write σ = { r with text := r.text ++ [σ], errors := r.errors + if σ.tag = .error then 1 else 0 } := by
      rw [Record.write, if_pos ⟨hs, show r.text.length < 4096 by omega⟩]
      split
      next h =>
        rw [h] at herr
        have small : min 255 (r.errors + 1) = r.errors + 1 := Nat.min_eq_right (by simp at herr; omega)
        rw [small]
      next h => rfl
    have count : (r.write σ).errors + l.countP (fun σ => decide (σ.tag = .error)) =
        r.errors + (σ :: l).countP fun σ => decide (σ.tag = .error) := by
      rw [one, List.countP_cons]
      simp only [decide_eq_true_eq]
      omega
    have text : (r.write σ).text = r.text ++ [σ] := by rw [one]
    rw [List.foldl_cons, ih (r := r.write σ) (by rw [one]; exact hs)]
    · rw [count, text, List.append_assoc, one]
      rfl
    · rw [text, List.length_append, List.length_singleton]
      omega
    · rw [count, List.countP_cons]
      omega

theorem write_filling {r : Record} (h : r.state = .filling) (σ : Symbol) : (r.write σ).state = .filling ∧ (r.write σ).chain = r.chain := by
  unfold Record.write
  split <;> exact ⟨h, rfl⟩

theorem write_length {r : Record} (h : r.state = .filling) (hlen : r.text.length < 4096) (σ : Symbol) :
    (r.write σ).text = r.text ++ [σ] := by
  rw [Record.write, if_pos ⟨h, hlen⟩]

/-- A symbol stored in the block that has room for it. -/
theorem storeSymbol_room {s : State} {img : Image} {l m : Nat} (hl : l < 8) (hm : m < 128) (hcur : (s.masOf l).current = some m)
    (hroom : (s.record m).text.length < 32 * (s.record m).chain.length) (hlen : (s.record m).text.length < 4096) (σ : Symbol) :
    ∃ t b, s.storeSymbol img l σ = (t, none) ∧ t.record m = (s.record m).write σ ∧
      t.masOf l = { s.masOf l with lineStart := b } := by
  have written : (s.write m σ).record m = (s.record m).write σ := record_setRecord_self s m _ hm
  unfold State.storeSymbol
  rw [hcur]
  dsimp only
  rw [if_neg (show ¬ Config.textLimit ≤ (s.record m).text.length from Nat.not_le.mpr hlen),
    if_pos (show (s.record m).text.length < Config.blockSize * (s.record m).chain.length from hroom)]
  split
  · exact ⟨_, true, rfl, written, masOf_setMas_self _ _ _ hl⟩
  · exact ⟨_, (s.masOf l).lineStart, rfl, written, rfl⟩

/-- A run of symbols stored in the blocks that have room for them. -/
theorem storeAll_room {img : Image} {l m : Nat} (hl : l < 8) (hm : m < 128) (σs : List Symbol) : ∀ {s : State},
    (s.masOf l).current = some m → (s.record m).state = .filling →
    (s.record m).text.length + σs.length ≤ 32 * (s.record m).chain.length → (s.record m).text.length + σs.length ≤ 4096 →
    (s.storeAll img l σs).2 = false ∧ (s.storeAll img l σs).1.record m = σs.foldl Record.write (s.record m) ∧
      ∃ b, (s.storeAll img l σs).1.masOf l = { s.masOf l with lineStart := b } := by
  induction σs with
  | nil => exact fun {s} _ _ _ _ => ⟨rfl, rfl, (s.masOf l).lineStart, rfl⟩
  | cons σ σs ih =>
    intro s hcur hf hroom hlen
    rw [List.length_cons] at hroom hlen
    obtain ⟨t, b, stored, record, mas⟩ := storeSymbol_room (img := img) hl hm hcur (by omega) (by omega) σ
    obtain ⟨filling, chain⟩ := write_filling hf σ
    have length := congrArg List.length (write_length hf (by omega) σ)
    rw [List.length_append, List.length_singleton] at length
    have rest : s.storeAll img l (σ :: σs) = t.storeAll img l σs := by
      conv_lhs => unfold State.storeAll
      rw [stored]
    obtain ⟨all, last, b', mas'⟩ := ih (s := t) (by rw [mas]; exact hcur) (by rw [record]; exact filling)
      (by rw [record, chain, length]; omega) (by rw [record, length]; omega)
    rw [rest]
    exact ⟨all, by rw [last, record]; rfl, b', by rw [mas', mas]⟩

/-! ## The header check (R28 to R32) -/

theorem setMas_setMas (s : State) (l : Nat) (x y : Mas) : (s.setMas l x).setMas l y = s.setMas l y := by
  have same : (s.mas.setIfInBounds l x).setIfInBounds l y = s.mas.setIfInBounds l y := by
    ext i hi
    simp only [Vector.getElem_setIfInBounds]
    split <;> rfl
  exact congrArg (fun v => ({ s with mas := v } : State)) same

theorem serialReports_resolved (s : State) (l n : Nat) (e : Option Nat) (o : SerialOutcome) : Resolved s (s.serialReports l n e o) := by
  cases o with
  | good => exact .refl s
  | gap => exact resolved_request s _
  | duplicate => exact resolved_request s _

theorem serialReports_record {s : State} {m : Nat} (h : (s.record m).state ≠ .free) (l n : Nat) (e : Option Nat) (o : SerialOutcome) :
    (s.serialReports l n e o).record m = s.record m := by
  cases o with
  | good => rfl
  | gap => exact request_record s _ m h
  | duplicate => exact request_record s _ m h

/-- A good header whose record is granted (R30). -/
theorem goodHeader_granted {s : State} {l : Nat} {h : Header} {e : Option Nat} {o : SerialOutcome} (hl : l < 8) (hrpt : h.rpt = none)
    (hchk : serialCheck (s.masOf l).expected h.serial = (o, e)) (hg : s.grants h.cls 1 1 = true) :
    ∃ m, m < 128 ∧ (s.record m).state = .free ∧ (∀ j, j < m → (s.record j).state ≠ .free) ∧
      (s.goodHeader l h).record m =
        (Record.granted h.cls (s.store.pool.take 1)).fromHeader (s.circuit l) (s.lineAuthority l) h (decide (o = .duplicate)) ∧
      (s.goodHeader l h).masOf l = { (s.masOf l).toText m true with expected := e } := by
  let u := s.setMas l { s.masOf l with expected := e }
  obtain ⟨⟨m, t⟩, granted⟩ := Option.isSome_iff_exists.mp ((grantRecord_isSome u h.cls 1).trans hg)
  obtain ⟨hm, hfree, record, -⟩ := grantRecord_record granted
  have mas : t.masOf l = { s.masOf l with expected := e } :=
    (masOf_congr (filed_grantRecord granted).resolved.mas l).trans (masOf_setMas_self s l _ hl)
  let r := (t.record m).fromHeader (s.circuit l) (s.lineAuthority l) h (decide (o = .duplicate))
  let v := (t.setRecord m r).setMas l ((t.masOf l).toText m true)
  have made : s.goodHeader l h = v.serialReports l h.serial (s.masOf l).expected o := by
    unfold State.goodHeader
    rw [hrpt]
    dsimp only [Option.elim_none]
    rw [hchk]
    dsimp only
    rw [granted]
  have written : v.record m = r := record_setRecord_self t m r hm
  have lowest := grantRecord_lowest granted
  refine ⟨m, hm, hfree, lowest, ?_, ?_⟩
  · rw [made, serialReports_record (by rw [written]; show (t.record m).state ≠ _; rw [record]; exact fun h => nomatch h), written]
    show (t.record m).fromHeader _ _ _ _ = _
    rw [record]
    rfl
  · rw [made, masOf_congr (serialReports_resolved v l _ _ o).mas, masOf_setMas_self _ _ _ hl, mas]
    rfl

/-- A good header whose record is refused (R32). -/
theorem goodHeader_refused {s : State} {l : Nat} {h : Header} {e : Option Nat} {o : SerialOutcome} (hl : l < 8) (hrpt : h.rpt = none)
    (hchk : serialCheck (s.masOf l).expected h.serial = (o, e)) (hg : s.grants h.cls 1 1 = false) :
    s.goodHeader l h = ((s.setMas l { (s.masOf l).toDiscard true with expected := e }).serialReports l h.serial
      (s.masOf l).expected o).request (.mutilated (s.circuit l) (some h.serial) h.cls .noStore none) := by
  let u := s.setMas l { s.masOf l with expected := e }
  have refused : u.grantRecord h.cls 1 = none := by
    have none_granted : (u.grantRecord h.cls 1).isSome = false := (grantRecord_isSome u h.cls 1).trans hg
    exact Option.not_isSome_iff_eq_none.mp (by rw [none_granted]; decide)
  have mas : u.setMas l ((u.masOf l).toDiscard true) = s.setMas l { (s.masOf l).toDiscard true with expected := e } := by
    rw [show u.masOf l = { s.masOf l with expected := e } from masOf_setMas_self s l _ hl]
    exact setMas_setMas s l _ _
  unfold State.goodHeader
  rw [hrpt]
  dsimp only [Option.elim_none]
  rw [hchk]
  dsimp only
  rw [refused]
  dsimp only
  rw [mas]

/-- A bad header whose record is granted, its line going into one block (R30, R31). -/
theorem badHeader_granted {s : State} {img : Image} {l : Nat} {overlong : Option Symbol} {tail : List Symbol} (hl : l < 8)
    (htail : tail = overlong.elim [crSym img, lfSym img] fun σ => [σ]) (hg : s.grants .ordinary 1 1 = true)
    (hlen : (s.masOf l).header.length + tail.length ≤ 32) :
    ∃ m, m < 128 ∧ (s.record m).state = .free ∧ (∀ j, j < m → (s.record j).state ≠ .free) ∧
      (s.badHeader img l overlong).record m =
        { (Record.granted .ordinary (s.store.pool.take 1)).fromBadHeader (s.circuit l) (s.lineAuthority l) s.serviceCode with
          errors := ((s.masOf l).header ++ tail).countP fun σ => decide (σ.tag = .error)
          text := (s.masOf l).header ++ tail } ∧
      (s.badHeader img l overlong).masOf l = { (s.masOf l).toText m true with lineStart := overlong.isNone } := by
  obtain ⟨⟨m, t⟩, granted⟩ := Option.isSome_iff_exists.mp ((grantRecord_isSome s .ordinary 1).trans hg)
  obtain ⟨hm, hfree, record, -⟩ := grantRecord_record granted
  obtain ⟨st, ev, filed⟩ := filed_grantRecord granted
  let r := (Record.granted .ordinary (s.store.pool.take 1)).fromBadHeader (s.circuit l) (s.lineAuthority l) s.serviceCode
  have begun : (t.beginBadHead l m).record m = r := by
    refine (record_setRecord_self t m _ hm).trans ?_
    rw [record, filed]
    rfl
  have mas : (t.beginBadHead l m).masOf l = (s.masOf l).toText m false := by
    refine (masOf_setMas_self _ l _ hl).trans ?_
    rw [filed]
    rfl
  have block : r.chain.length = 1 := by
    have some_free : 1 ≤ s.store.pool.length := (grants_le hg).1
    show (s.store.pool.take 1).length = 1
    rw [List.length_take]
    omega
  have bound : ((s.masOf l).header ++ tail).length ≤ 32 := by rw [List.length_append]; exact hlen
  obtain ⟨all, last, b, mas'⟩ := storeAll_room (img := img) hl hm ((s.masOf l).header ++ tail) (s := t.beginBadHead l m)
    (by rw [mas]; rfl) (by rw [begun]; rfl) (by rw [begun, block]; show 0 + _ ≤ _; omega) (by rw [begun]; show 0 + _ ≤ _; omega)
  have count : ((s.masOf l).header ++ tail).countP (fun σ => decide (σ.tag = .error)) ≤ 32 :=
    (List.countP_le_length).trans bound
  have written := foldl_write_count (l := (s.masOf l).header ++ tail) (r := r) rfl (by show 0 + _ ≤ _; omega)
    (by show 0 + _ ≤ _; omega)
  let p := (t.beginBadHead l m).storeAll img l ((s.masOf l).header ++ tail)
  have made : s.badHeader img l overlong = p.1.setMas l { p.1.masOf l with lineStart := overlong.isNone } := by
    unfold State.badHeader
    dsimp only
    rw [granted, ← htail]
    exact if_neg (by rw [all]; exact Bool.false_ne_true)
  refine ⟨m, hm, hfree, grantRecord_lowest granted, ?_, ?_⟩
  · rw [made]
    refine last.trans ?_
    rw [begun, written]
    show ({ r with text := [] ++ _, errors := 0 + _ } : Record) = _
    rw [Nat.zero_add, List.nil_append]
  · rw [made, masOf_setMas_self _ _ _ hl]
    have stored : p.1.masOf l = { (s.masOf l).toText m false with lineStart := b } := mas'.trans (by rw [mas])
    rw [stored]
    rfl

theorem badHeader_refused {s : State} {img : Image} {l : Nat} {overlong : Option Symbol} (hg : s.grants .ordinary 1 1 = false) :
    s.badHeader img l overlong = (s.setMas l ((s.masOf l).toDiscard overlong.isNone)).request
      (.mutilated (s.circuit l) none .ordinary .noStore none) := by
  have refused : s.grantRecord .ordinary 1 = none := by
    have none_granted := (grantRecord_isSome s .ordinary 1).trans hg
    exact Option.not_isSome_iff_eq_none.mp (by rw [none_granted]; decide)
  unfold State.badHeader
  dsimp only
  rw [refused]

/-- A repeat mark is looked up before the header is taken like one without (R117). -/
theorem goodHeader_repeat {s : State} {l n : Nat} {h : Header} (hrpt : h.rpt = some n) :
    s.goodHeader l h = (s.repeatMark l n).goodHeader l { h with rpt := none } := by
  have tables : (s.repeatMark l n).cfg = s.cfg ∧ (s.repeatMark l n).station = s.station := by
    unfold State.repeatMark
    split
    · exact ⟨rfl, rfl⟩
    · exact ⟨(filed_freeRecord _ _).resolved.cfg, (filed_freeRecord _ _).resolved.station⟩
  have circuit : (s.repeatMark l n).circuit l = s.circuit l := circuit_congr tables.2 l
  have authority : (s.repeatMark l n).lineAuthority l = s.lineAuthority l := by
    rw [State.lineAuthority, State.lineAuthority, State.lineCfg, State.lineCfg, tables.1, tables.2]
  unfold State.goodHeader
  rw [hrpt]
  dsimp only [Option.elim_none, Option.elim_some]
  rw [circuit, authority]
  rfl

end Sys2Proof.Machine

/-! PROOF. The assembler's operations settled (R23, R27 to R32, R37, R114 to R117). -/

namespace Sys2Proof.Machine

/-- A header symbol (R27). -/
theorem headerSymbol_spec (s : State) (img : Image) (l : Nat) (σ : Symbol) :
    (means img .cr σ = true → s.headerSymbol img l σ = s) ∧
    (means img .cr σ = false → means img .lf σ = true → s.headerSymbol img l σ = s.headerCheck img l none) ∧
    (means img .cr σ = false → means img .lf σ = false →
      ((s.masOf l).header.length < 72 →
        s.headerSymbol img l σ = s.setMas l { s.masOf l with header := (s.masOf l).header ++ [σ] }) ∧
      (72 ≤ (s.masOf l).header.length → s.headerSymbol img l σ = s.headerCheck img l (some σ))) := by
  have no : ∀ {b : Bool}, b = false → ¬ b = true := fun h => by rw [h]; exact Bool.false_ne_true
  refine ⟨fun h => if_pos h, fun h h' => (if_neg (no h)).trans (if_pos h'), fun h h' => ⟨fun hlen => ?_, fun hlen => ?_⟩⟩
  · exact (if_neg (no h)).trans ((if_neg (no h')).trans (if_neg (Nat.not_le.mpr hlen)))
  · exact (if_neg (no h)).trans ((if_neg (no h')).trans (if_pos hlen))

/-- The header check on a line judged good or bad (R28). -/
theorem headerCheck_spec (s : State) (img : Image) (l : Nat) :
    (∀ h, parseHeader img ((s.masOf l).header.drop 4) = some h → s.headerCheck img l none = s.goodHeader l h) ∧
    (parseHeader img ((s.masOf l).header.drop 4) = none → s.headerCheck img l none = s.badHeader img l none) ∧
    ∀ σ, s.headerCheck img l (some σ) = s.badHeader img l (some σ) := by
  refine ⟨fun h hp => ?_, fun hp => ?_, fun σ => ?_⟩ <;> unfold State.headerCheck
  · rw [hp]
  · rw [hp]
  · cases parseHeader img ((s.masOf l).header.drop 4) <;> rfl

/-- A repeat mark frees the first record of its serial on the receive stack (R117). -/
theorem repeatMark_frees {s : State} {l n m : Nat} {above below : List Nat} (hl : l < 8)
    (h : (s.masOf l).rstack = above ++ m :: below) (ha : ∀ j ∈ above, (s.record j).serial ≠ some n)
    (hs : (s.record m).serial = some n) (hm : m < 128) (hf : (s.record m).state = .filling) :
    (s.repeatMark l n).masOf l = { s.masOf l with rstack := above ++ below } ∧
      (s.repeatMark l n).record m = Record.empty ∧ ∀ j, j ≠ m → (s.repeatMark l n).record j = s.record j := by
  rw [repeatMark_some h ha hs]
  let t := s.setMas l { s.masOf l with rstack := above ++ below }
  refine ⟨?_, freeRecord_record_self (s := t) hm ?_, fun j hj => freeRecord_record_ne t hj⟩
  · exact (masOf_congr (filed_freeRecord t m).resolved.mas l).trans (masOf_setMas_self s l _ hl)
  · show (s.record m).state ≠ _
    rw [hf]
    exact fun h => nomatch h

/-- The bottom of a full receive stack is closed SUSPEND (R115). -/
theorem breakLine_bottom {s : State} {img : Image} {l m a b bottom : Nat} (h : (s.masOf l).rstack = [a, b, bottom])
    (hne : m ∉ (s.masOf l).rstack) (hm : bottom < 128) (hs : (s.record bottom).slots ≠ []) (hw : (s.record bottom).mutilated = none) :
    ∃ r, r = { s.record bottom with state := .standing, stamp := some s.store.stamp, mutilated := some .suspend } ∧
      Handled r ((s.breakLine img l m).record bottom) ∧
      (s.noOwnService → (∀ sl ∈ (s.record bottom).slots, sl.state = .unrouted) →
        SameMessage r ((s.breakLine img l m).record bottom)) := by
  let u := s.rollback m (breakLength img (s.record m).text)
  have other : bottom ≠ m := fun e => hne (by rw [h, ← e]; exact List.mem_cons_of_mem _ (List.mem_cons_of_mem _ List.mem_cons_self))
  have same : u.record bottom = s.record bottom := rollback_record_ne s other _
  have stamp : u.store.stamp = s.store.stamp := rollback_stamp s m _
  have filed := (filed_rollback s m (breakLength img (s.record m).text)).resolved
  obtain ⟨handled, message⟩ := closeRecord_record (s := u) hm (by rw [same]; exact hs) l (some .suspend)
  rw [same, stamp, closed_mutilated hw] at handled message
  have final : (s.breakLine img l m).record bottom = (u.closeRecord l bottom (some .suspend)).record bottom := by
    rw [breakLine_full h, setMas_record]
  rw [final]
  exact ⟨_, rfl, handled, fun hn hu => (message ((noOwnService_congr filed.cfg filed.station).mpr hn) hu).2⟩

/-- Settles O60. -/
theorem assemblerHeaderEndBreakAndResume : Obligations.AssemblerHeaderEndBreakAndResume := by
  refine ⟨fun s img l σ => ?header, fun s l n h hl => ?repeats, fun s l h e o hl hrpt hchk => ⟨fun hg => ?granted, fun hg => ?refused⟩,
    fun s img l overlong tail hl htail => ⟨fun hg hlen => ?bad, fun hg => ?badRefused⟩, fun s img l m hl hm _ hs hu _ => ?ends,
    fun s img l m hl hm hf hstack => ?breaks, fun s l n cr hl => ⟨fun h => resumeLine_none h cr, ?resumes⟩⟩
  case header =>
    obtain ⟨cr, lf, other⟩ := headerSymbol_spec s img l σ
    obtain ⟨good, bad, long⟩ := headerCheck_spec s img l
    exact ⟨cr, lf, other, good, bad, long σ⟩
  case repeats =>
    exact ⟨fun hr => goodHeader_repeat hr, fun hno => repeatMark_none hno,
      fun above m below hst ha hs hm hf => repeatMark_frees hl hst ha hs hm hf⟩
  case granted =>
    obtain ⟨m, hm, hfree, lowest, record, mas⟩ := goodHeader_granted hl hrpt hchk hg
    refine ⟨m, hm, hfree, lowest, record.trans ?_, mas⟩
    cases o <;> rfl
  case refused => exact goodHeader_refused hl hrpt hchk hg
  case bad =>
    obtain ⟨m, hm, hfree, lowest, record, mas⟩ := badHeader_granted hl htail hg hlen
    exact ⟨m, hm, hfree, lowest, record, mas⟩
  case badRefused => exact badHeader_refused hg
  case ends =>
    obtain ⟨r, handled, message, fields, text, mas⟩ := endSequence_spec (img := img) hl hm hs hu
    refine ⟨r, handled, message, fields, fun pre cr lf ht hlf hcr => ?_, fun pre lf ht hlf hcr => ?_, fun hno => ?_, mas⟩
    · rw [text, ht, endLength_crLf hlf hcr]
    · rw [text, ht, endLength_lf hlf hcr]
    · rw [text, endLength_noLf hno]
  case breaks =>
    obtain ⟨text, fields⟩ := rollback_record (s := s) hm (breakLength img (s.record m).text)
    refine ⟨_, breakLine_record hm hf hstack, fields, fun a lf b last ht hlf hb => ?_, fun hno => ?_, fun hroom => ⟨?_, fun j hj => ?_⟩,
      fun a b bottom hst => ⟨?_, fun hlt _ hs hw => breakLine_bottom hst hstack hlt hs hw⟩⟩
    · rw [text, ht, breakLength_lf hlf hb]
    · rw [text, breakLength_none hno]
    · rw [breakLine_room hroom]
      exact masOf_setMas_self _ _ _ hl
    · rw [breakLine_room hroom]
      exact rollback_record_ne s hj _
    · rw [breakLine_full hst]
      exact masOf_setMas_self _ _ _ hl
  case resumes =>
    intro above m below hst ha hs
    rw [resumeLine_some hst ha hs]
    refine ⟨masOf_setMas_self _ _ _ hl, fun h => ?_, fun hno hf => closeAll_record_ne hno (by rw [hf]; decide),
      fun hnodup j hj hm hf hsl hw => ?_⟩
    · rw [h]
      rfl
    · obtain ⟨r, stamp, fields, handled, message⟩ := closeAll_record (l := l) (w := .suspend) hnodup hj hm hf hsl hw
      exact ⟨r, stamp, fields, handled, fun hn hu => (message hn hu).2⟩

end Sys2Proof.Machine

/-! PROOF. A line failure at its own line (R118, R167, R169): the assembler in HUNT, the admin state and the condition that it
leaves, and the peers that are owed the change. -/

namespace Sys2Proof.Machine

/-! ## The entries taken off the circuit -/

theorem sent_giveUpCurrent (s : State) (l : Nat) : Sent s (s.giveUpCurrent l).1 := by
  have abandoned : Sent s (s.abandonItem l) := sent_setLine s l _ (Line.abandon_receiveSide _)
  have completed : ∀ (t : State) (e : Entry), Sent t (t.completeEntry l e) := fun t e =>
    ((finishSlots_filed t e.record e.slots).placed.sent.trans (sent_setCtx _ l _)).trans (filed_touchLine _ l).placed.sent
  unfold State.giveUpCurrent
  dsimp only
  split
  · exact (Filed.refl s).placed.sent
  · split
    · exact abandoned.trans (completed _ _)
    · exact abandoned.trans (sent_setCtx _ l _)

/-- The circuit with its entries taken off, the gauges of its queue marked (R167, steps 1 and 2). -/
def State.offCircuit (s : State) (l : Nat) : State :=
  if (s.goneEntries l).isEmpty then s.emptied l else (s.emptied l).touchLine l

theorem filed_offCircuit (s : State) (l : Nat) : Filed (s.emptied l) (s.offCircuit l) := .ite (.refl _) (filed_touchLine _ l)

theorem sent_offCircuit (s : State) (l : Nat) : Sent s (s.offCircuit l) :=
  ((sent_giveUpCurrent s l).trans (sent_setCtx _ l _)).trans (filed_offCircuit s l).placed.sent

theorem dispatchFailure_off {s : State} {l : Nat} (h : s.hasCtx l = true) :
    (s.dispatchFailure l).1 = ((s.offCircuit l).reResolve (slotsOf (s.goneEntries l))).reexamine := dispatchFailure_fst h

theorem dispatchFailure_none {s : State} {l : Nat} (h : s.hasCtx l = false) : (s.dispatchFailure l).1 = s := by
  unfold State.dispatchFailure
  rw [h]
  rfl

/-- A line failure at the dispatch: of the tables it writes to, contexts, store and send sides first, and then slots
resolved. -/
theorem dispatchFailure_parts (s : State) (l : Nat) : ∃ u, Sent s u ∧ Resolved u (s.dispatchFailure l).1 := by
  cases h : s.hasCtx l with
  | true =>
    rw [dispatchFailure_off h]
    exact ⟨_, sent_offCircuit s l, (resolved_reResolve _ _).trans (resolved_reexamine _)⟩
  | false =>
    rw [dispatchFailure_none h]
    exact ⟨s, (Filed.refl s).placed.sent, .refl s⟩

/-- A dispatch that rests, with no entry left and next serial `n`. -/
structure Ctx.Off (n : Nat) (x : Ctx) : Prop where
  queue : x.queue = []
  current : x.current = none
  stack : x.stack = []
  next : x.next = n
  send : x.send = .idle

theorem giveUpCurrent_ctxOf {s : State} {l : Nat} (hl : l < 8) (hs : SendIdleIffNoEntry s) :
    ((s.giveUpCurrent l).1.ctxOf l).current = none ∧ ((s.giveUpCurrent l).1.ctxOf l).next = (s.ctxOf l).next ∧
      ((s.giveUpCurrent l).1.ctxOf l).send = .idle := by
  have abandoned : (s.abandonItem l).ctxOf l = s.ctxOf l := rfl
  unfold State.giveUpCurrent
  dsimp only
  split
  next hc => exact ⟨hc, rfl, (hs l).mpr hc⟩
  next =>
    split
    · rw [completeEntry_ctxOf hl, abandoned]
      exact ⟨rfl, rfl, rfl⟩
    · rw [ctxOf_setCtx_self _ l _ hl]
      exact ⟨rfl, rfl, rfl⟩

theorem offCircuit_off {s : State} {l : Nat} (hl : l < 8) (hs : SendIdleIffNoEntry s) :
    ((s.offCircuit l).ctxOf l).Off (s.ctxOf l).next := by
  obtain ⟨current, next, send⟩ := giveUpCurrent_ctxOf hl hs
  rw [(filed_offCircuit s l).ctxOf, State.emptied, ctxOf_setCtx_self _ l _ hl]
  exact ⟨rfl, current, rfl, next, send⟩

/-- A line failure at the dispatch leaves a circuit that rests with nothing stacked. -/
theorem dispatchFailure_quiet {s : State} {l : Nat} (hl : l < 8) (hs : SendIdleIffNoEntry s) (h : s.hasCtx l = true) :
    ((s.dispatchFailure l).1.ctxOf l).send = .idle ∧ ((s.dispatchFailure l).1.ctxOf l).stack = [] := by
  have off := offCircuit_off hl hs
  have kept : QueuesOnly (s.offCircuit l) (s.dispatchFailure l).1 := by
    rw [dispatchFailure_off h]
    exact ((resolved_reResolve _ _).trans (resolved_reexamine _)).queuesOnly
  have send := congrArg Ctx.send (kept l)
  have stack := congrArg Ctx.stack (kept l)
  exact ⟨send.trans off.send, stack.trans off.stack⟩

/-! ## A line failure, with one shape for every admin state -/

/-- A line failure up to the dispatch (R167, steps 1 to 5). -/
def State.dispatched (s : State) (l : Nat) : State :=
  if s.adminOf l = .withdrawn then s else ((s.updateCondition l).dispatchFailure l).1

/-- A line failure up to the line-open event. -/
def State.failed (s : State) (l : Nat) (c : Option FailureCounts) : State := (s.dispatched l).withdrawalTest l false c

theorem dispatchFailure_admin (s : State) (l k : Nat) : (s.dispatchFailure l).1.adminOf k = s.adminOf k := by
  obtain ⟨u, sent, resolved⟩ := dispatchFailure_parts s l
  exact (adminOf_congr resolved.admin k).trans (adminOf_congr sent.admin k)

theorem dispatched_admin (s : State) (l k : Nat) : (s.dispatched l).adminOf k = s.adminOf k := by
  unfold State.dispatched
  split
  · rfl
  · exact (dispatchFailure_admin _ l k).trans (adminOf_congr (traffic_updateCondition s l).admin k)

/-- A line failure: the dispatch, a withdrawal test, the line-open event, and in admin state IN a CIRCUIT report. -/
theorem lineFails_shape (s : State) (img : Image) (l : Nat) : ∃ c d,
    s.lineFails img l = (s.failed l c).lineOpen img l d ∨
      ∃ r, s.lineFails img l = ((s.failed l c).lineOpen img l d).request r := by
  have untested : ∀ c, s.adminOf l ≠ .withdrawing → s.failed l c = s.dispatched l := fun c h =>
    withdrawalTest_not _ _ (withdrawalPasses_of_admin (by rw [dispatched_admin]; exact h))
  unfold State.lineFails
  split
  next h =>
    refine ⟨none, none, .inl ?_⟩
    rw [untested none (by rw [h]; decide), State.dispatched, if_pos h]
  next h =>
    have failed : s.failed l none = ((s.updateCondition l).dispatchFailure l).1 := by
      rw [untested none (by rw [h]; decide), State.dispatched, if_neg (by rw [h]; decide)]
    exact ⟨none, none, .inr ⟨_, by rw [failed]⟩⟩
  next h =>
    have dispatched : s.dispatched l = ((s.updateCondition l).dispatchFailure l).1 := if_neg (by rw [h]; decide)
    exact ⟨some ((s.updateCondition l).dispatchFailure l).2, _, .inl (by rw [State.failed, dispatched])⟩

/-! ## The assembler -/

/-- The assembler of line `l` keeps its expected serial and its receive stack. -/
def KeepsStack (l : Nat) (s t : State) : Prop :=
  (t.masOf l).expected = (s.masOf l).expected ∧ (t.masOf l).rstack = (s.masOf l).rstack

section
variable {l : Nat}

theorem KeepsStack.trans {s t u : State} (a : KeepsStack l s t) (b : KeepsStack l t u) : KeepsStack l s u :=
  ⟨b.1.trans a.1, b.2.trans a.2⟩

theorem KeepsStack.of_mas {s t : State} (h : t.mas = s.mas) : KeepsStack l s t := by
  have same := masOf_congr h l
  exact ⟨by rw [same], by rw [same]⟩

theorem KeepsStack.ite {s t u : State} {p : Prop} [Decidable p] (ht : KeepsStack l s t) (hu : KeepsStack l s u) :
    KeepsStack l s (if p then t else u) := by split <;> assumption

theorem keepsStack_setMas {s : State} (hl : l < 8) {x : Mas} (h : x.expected = (s.masOf l).expected ∧ x.rstack = (s.masOf l).rstack) :
    KeepsStack l s (s.setMas l x) := by
  unfold KeepsStack
  rw [masOf_setMas_self s l x hl]
  exact h

theorem keepsStack_storeSymbol (hl : l < 8) (s : State) (img : Image) (σ : Symbol) : KeepsStack l s (s.storeSymbol img l σ).1 := by
  have put : ∀ (t : State) (m : Nat), KeepsStack l t (if means img .lf σ then
      (t.write m σ).setMas l { (t.write m σ).masOf l with lineStart := true } else t.write m σ) := fun t m =>
    .ite (KeepsStack.trans (t := t.write m σ) (.of_mas rfl) (keepsStack_setMas hl ⟨rfl, rfl⟩)) (.of_mas rfl)
  unfold State.storeSymbol
  split
  · exact .of_mas rfl
  next m _ =>
    dsimp only
    split
    · exact .of_mas rfl
    · split
      · exact put s m
      · split
        next t ht => exact KeepsStack.trans (.of_mas (filed_grantBlock ht).resolved.mas) (put t m)
        next => exact .of_mas rfl

theorem keepsStack_closeRecord (s : State) (m : Nat) (w : Option MutReason) : KeepsStack l s (s.closeRecord l m w) :=
  .of_mas (resolved_closeRecord s l m w).mas

theorem keepsStack_storeAll (hl : l < 8) (img : Image) (σs : List Symbol) : ∀ s : State, KeepsStack l s (s.storeAll img l σs).1 := by
  induction σs with
  | nil => exact fun s => .of_mas rfl
  | cons σ rest ih =>
    intro s
    have stored := keepsStack_storeSymbol hl s img σ
    unfold State.storeAll
    split
    next t he =>
      rw [he] at stored
      exact stored.trans (ih t)
    next t w he =>
      rw [he] at stored
      refine stored.trans ?_
      unfold State.truncate
      split
      · exact .of_mas rfl
      · exact (keepsStack_closeRecord t _ _).trans (keepsStack_setMas hl ⟨rfl, rfl⟩)

theorem keepsStack_closeUnderWay (hl : l < 8) (s : State) (img : Image) : KeepsStack l s (s.closeUnderWay img l) := by
  unfold State.closeUnderWay
  dsimp only
  split
  · exact .of_mas rfl
  · exact .of_mas rfl
  · split
    next m t ht =>
      have begun : KeepsStack l s (t.beginBadHead l m) :=
        KeepsStack.trans (.of_mas (filed_grantRecord ht).resolved.mas)
          (KeepsStack.trans (t := t.setRecord m ((t.record m).fromBadHeader (t.circuit l) (t.lineAuthority l) t.serviceCode))
            (.of_mas rfl) (keepsStack_setMas hl ⟨rfl, rfl⟩))
      have stored := begun.trans (keepsStack_storeAll hl img (s.masOf l).header _)
      exact .ite stored (stored.trans (keepsStack_closeRecord _ m _))
    next => exact .of_mas (resolved_request s _).mas
  · split
    · exact .of_mas rfl
    next m _ =>
      have stored := keepsStack_storeAll hl img (s.masOf l).look s
      exact .ite stored (stored.trans (keepsStack_closeRecord _ m _))

/-- A withdrawal test leaves an assembler that is not in DISCARD. -/
theorem withdrawalTest_masOf {s : State} {l : Nat} (h : (s.masOf l).mode ≠ .discard) (k : Nat) (q : Bool)
    (c : Option FailureCounts) : (s.withdrawalTest l q c).masOf k = s.masOf k := by
  have same : ∀ k, ((s.setAdmin l .withdrawn).updateCondition l).masOf k = s.masOf k :=
    masOf_congr (traffic_updateCondition (s.setAdmin l .withdrawn) l).mas
  unfold State.withdrawalTest
  dsimp only
  rw [if_neg (c := _ = MasMode.discard) (by rw [same]; exact h)]
  split
  · split
    · exact same k
    · exact (masOf_congr (resolved_request _ _).mas k).trans (same k)
  · rfl

theorem keepsStack_withdrawalTest (hl : l < 8) (s : State) (q : Bool) (c : Option FailureCounts) :
    KeepsStack l s (s.withdrawalTest l q c) := by
  have updated : KeepsStack l s ((s.setAdmin l .withdrawn).updateCondition l) :=
    .of_mas (traffic_updateCondition (s.setAdmin l .withdrawn) l).mas
  unfold State.withdrawalTest
  dsimp only
  generalize (s.setAdmin l .withdrawn).updateCondition l = t at updated
  have hunts : KeepsStack l s (if (t.masOf l).mode = .discard then t.setMas l (t.masOf l).toHunt else t) :=
    .ite (updated.trans (keepsStack_setMas hl ⟨rfl, rfl⟩)) updated
  exact .ite (.ite hunts (hunts.trans (.of_mas (resolved_request _ _).mas))) (.of_mas rfl)

/-- The assembler put in HUNT with its receive stack empty (R118). -/
def State.toHunt (s : State) (l : Nat) : State := s.setMas l { (s.masOf l).toHunt with rstack := [] }

theorem toHunt_masOf (hl : l < 8) (s : State) : (s.toHunt l).masOf l = Mas.fresh (s.masOf l).expected :=
  masOf_setMas_self s l _ hl

theorem lineOpen_eq (s : State) (img : Image) (l : Nat) (c : Option FailureCounts) :
    s.lineOpen img l c =
      (((s.closeUnderWay img l).toHunt l).withdrawalTest l false c).closeAll l .line ((s.closeUnderWay img l).masOf l).rstack := rfl

/-- The line-open event leaves the assembler in HUNT at a line start with its receive stack empty. -/
theorem lineOpen_masOf (hl : l < 8) (s : State) (img : Image) (c : Option FailureCounts) :
    (s.lineOpen img l c).masOf l = Mas.fresh (s.masOf l).expected := by
  have hunts := toHunt_masOf hl (s.closeUnderWay img l)
  rw [lineOpen_eq, masOf_closeAll, withdrawalTest_masOf (by rw [hunts]; exact nofun), hunts, (keepsStack_closeUnderWay hl s img).1]

theorem dispatched_mas (s : State) (l : Nat) : (s.dispatched l).mas = s.mas := by
  unfold State.dispatched
  split
  · rfl
  · obtain ⟨u, sent, resolved⟩ := dispatchFailure_parts (s.updateCondition l) l
    exact (resolved.mas.trans sent.mas).trans (traffic_updateCondition s l).mas

theorem keepsStack_failed (hl : l < 8) (s : State) (c : Option FailureCounts) : KeepsStack l s (s.failed l c) :=
  KeepsStack.trans (.of_mas (dispatched_mas s l)) (keepsStack_withdrawalTest hl _ _ _)

theorem lineFails_masOf (hl : l < 8) (s : State) (img : Image) : (s.lineFails img l).masOf l = Mas.fresh (s.masOf l).expected := by
  obtain ⟨c, d, shape⟩ := lineFails_shape s img l
  have opened : ((s.failed l c).lineOpen img l d).masOf l = Mas.fresh (s.masOf l).expected := by
    rw [lineOpen_masOf hl, (keepsStack_failed hl s c).1]
  rcases shape with h | ⟨r, h⟩
  · rw [h, opened]
  · rw [h, masOf_congr (resolved_request _ r).mas, opened]

end

/-! ## The admin state and the condition -/

/-- The condition of line `l`'s circuit follows from kind, admin state and wire state (R159). -/
def State.Derived (s : State) (l : Nat) : Prop :=
  s.ownCondition l = deriveCondition (s.kind l) (s.adminOf l) (s.line l).wire

/-- The admin state of line `l` stays, or passes from WITHDRAWING to WITHDRAWN, and a derived condition stays derived. -/
structure AdminSettles (l : Nat) (s t : State) : Prop where
  station : t.station = s.station
  cfg : t.cfg = s.cfg
  wire : (t.line l).wire = (s.line l).wire
  admin : t.adminOf l = s.adminOf l ∨ s.adminOf l = .withdrawing ∧ t.adminOf l = .withdrawn
  derived : s.station < 16 → s.Derived l → t.Derived l

section
variable {l : Nat}

theorem AdminSettles.of_same {s t : State} (hs : t.station = s.station) (hc : t.cfg = s.cfg)
    (hw : (t.line l).wire = (s.line l).wire) (ha : t.adminOf l = s.adminOf l) (ho : t.ownCondition l = s.ownCondition l) :
    AdminSettles l s t where
  station := hs
  cfg := hc
  wire := hw
  admin := .inl ha
  derived _ h := by rw [State.Derived, ho, ha, hw, kind_congr hc hs]; exact h

theorem Aside.adminSettles {s t : State} (h : Aside l s t) : AdminSettles l s t :=
  .of_same h.station h.cfg h.wire h.admin h.condition

theorem Resolved.adminSettles {s t : State} (h : Resolved s t) : AdminSettles l s t := (h.aside l).adminSettles

theorem AdminSettles.trans {s t u : State} (a : AdminSettles l s t) (b : AdminSettles l t u) : AdminSettles l s u where
  station := b.station.trans a.station
  cfg := b.cfg.trans a.cfg
  wire := b.wire.trans a.wire
  admin := by
    rcases a.admin with h | ⟨h, h'⟩
    · rw [← h]
      exact b.admin
    · rcases b.admin with k | ⟨k, k'⟩
      · exact .inr ⟨h, k.trans h'⟩
      · exact .inr ⟨h, k'⟩
  derived hst h := b.derived (by rw [a.station]; exact hst) (a.derived hst h)

theorem updateCondition_derived {s : State} (hl : l < 8) (hst : s.station < 16) : (s.updateCondition l).Derived l := by
  have r := traffic_updateCondition s l
  rw [State.Derived, State.ownCondition, circuit_congr r.station, updateCondition_condition hst hl, kind_congr r.cfg r.station,
    adminOf_congr r.admin, line_congr r.lines]

/-- A withdrawal test that passes (R165). -/
theorem withdrawalTest_passed {s : State} (hl : l < 8) (h : s.withdrawalPasses l = true) (q : Bool) (c : Option FailureCounts) :
    (s.withdrawalTest l q c).adminOf l = .withdrawn ∧ AdminSettles l s (s.withdrawalTest l q c) := by
  have r := traffic_updateCondition (s.setAdmin l .withdrawn) l
  have admin : ((s.setAdmin l .withdrawn).updateCondition l).adminOf l = .withdrawn :=
    (adminOf_congr r.admin l).trans (adminOf_setAdmin_self s l _ hl)
  have withdrawing : s.adminOf l = .withdrawing := by
    by_contra hne
    exact nomatch h.symm.trans (withdrawalPasses_of_admin hne)
  have moved : AdminSettles l s ((s.setAdmin l .withdrawn).updateCondition l) :=
    ⟨r.station, r.cfg, congrArg Line.wire (line_congr r.lines l), .inr ⟨withdrawing, admin⟩, fun hst _ =>
      updateCondition_derived hl hst⟩
  generalize hu : (s.setAdmin l .withdrawn).updateCondition l = u at admin moved
  have hunts : (if (u.masOf l).mode = .discard then u.setMas l (u.masOf l).toHunt else u).adminOf l = .withdrawn ∧
      AdminSettles l s (if (u.masOf l).mode = .discard then u.setMas l (u.masOf l).toHunt else u) := by
    split
    · exact ⟨admin, moved.trans (.of_same rfl rfl rfl rfl rfl)⟩
    · exact ⟨admin, moved⟩
  unfold State.withdrawalTest
  dsimp only
  rw [if_pos h, hu]
  split
  · exact hunts
  · have asked := resolved_request (if (u.masOf l).mode = .discard then u.setMas l (u.masOf l).toHunt else u)
    exact ⟨(adminOf_congr (asked _).admin l).trans hunts.1, hunts.2.trans (asked _).adminSettles⟩

theorem adminSettles_withdrawalTest (hl : l < 8) (s : State) (k : Nat) (q : Bool) (c : Option FailureCounts) :
    AdminSettles l s (s.withdrawalTest k q c) := by
  by_cases hk : k = l
  · subst hk
    cases h : s.withdrawalPasses k with
    | true => exact (withdrawalTest_passed hl h q c).2
    | false =>
      rw [withdrawalTest_not q c h]
      exact (Resolved.refl s).adminSettles
  · exact (withdrawalTest_aside s hk q c).adminSettles

theorem opening_adminSettles (hl : l < 8) : Opening (AdminSettles l) where
  refl s := (Resolved.refl s).adminSettles
  trans := .trans
  mas _ _ _ := .of_same rfl rfl rfl rfl rfl
  write s m σ := (filed_write s m σ).resolved.adminSettles
  block h := (filed_grantBlock h).resolved.adminSettles
  begun _ _ h := ((filed_grantRecord h).trans (filed_setRecord _ _ _)).resolved.adminSettles
  close s l m w := (resolved_closeRecord s l m w).adminSettles
  request s r := (resolved_request s r).adminSettles
  test := adminSettles_withdrawalTest hl

/-- The line-open event on a WITHDRAWING line whose dispatch rests (R165). -/
theorem lineOpen_withdrawn (hl : l < 8) {s : State} {img : Image} (c : Option FailureCounts)
    (hq : s.hasCtx l = true → (s.ctxOf l).send = .idle ∧ (s.ctxOf l).stack = [])
    (ha : s.adminOf l = .withdrawing ∨ s.adminOf l = .withdrawn) : (s.lineOpen img l c).adminOf l = .withdrawn := by
  have O := opening_adminSettles hl
  let u := (s.closeUnderWay img l).toHunt l
  have toU : AdminSettles l s u := O.thenMas (O.closeUnderWay s img l) l _
  have queues : QueuesOnly s u := (assembles_queues.closeUnderWay s img l).trans (setMas_queues _ l _)
  have tested : (u.withdrawalTest l false c).adminOf l = .withdrawn := by
    have here : u.adminOf l = .withdrawing ∨ u.adminOf l = .withdrawn := by
      rcases toU.admin with h | ⟨-, h⟩
      · rw [h]
        exact ha
      · exact .inr h
    rcases here with h | h
    · refine (withdrawalTest_passed hl ((withdrawalPasses_iff h).mpr ⟨fun hc => ?_, .inl ?_⟩) _ _).1
      · obtain ⟨send, stack⟩ := hq (by rw [← hasCtx_congr toU.cfg toU.station]; exact hc)
        have send' := congrArg Ctx.send (queues l)
        have stack' := congrArg Ctx.stack (queues l)
        exact ⟨send'.trans send, stack'.trans stack⟩
      · rw [toHunt_masOf hl]
        rfl
    · rw [withdrawalTest_not _ _ (withdrawalPasses_of_admin (by rw [h]; decide))]
      exact h
  rw [lineOpen_eq]
  exact (adminOf_congr (resolved_closeAll _ l _ _).admin l).trans tested

theorem dispatched_adminSettles (s : State) (hne : s.adminOf l ≠ .withdrawn) :
    AdminSettles l (s.updateCondition l) (s.dispatched l) := by
  obtain ⟨u, sent, resolved⟩ := dispatchFailure_parts (s.updateCondition l) l
  unfold State.dispatched
  rw [if_neg hne]
  have wire := congrArg Line.wire (sent.receive l)
  refine AdminSettles.trans (.of_same sent.station sent.cfg wire (adminOf_congr sent.admin l) ?_) resolved.adminSettles
  rw [State.ownCondition, circuit_congr sent.station, mapOf_congr sent.map]
  rfl

theorem dispatched_quiet (hl : l < 8) {s : State} (hs : SendIdleIffNoEntry s) (hne : s.adminOf l ≠ .withdrawn)
    (h : (s.dispatched l).hasCtx l = true) :
    ((s.dispatched l).ctxOf l).send = .idle ∧ ((s.dispatched l).ctxOf l).stack = [] := by
  have same := dispatched_adminSettles s hne
  rw [hasCtx_congr same.cfg same.station] at h
  unfold State.dispatched
  rw [if_neg hne]
  exact dispatchFailure_quiet hl ((updateCondition_queues s l).idle hs) h

/-- A line failure: an IN line stays IN, every other is WITHDRAWN. -/
theorem lineFails_admin (hl : l < 8) {s : State} (hs : SendIdleIffNoEntry s) (img : Image) :
    (s.lineFails img l).adminOf l = (if s.adminOf l = .inn then .inn else .withdrawn) := by
  have O := opening_adminSettles hl
  obtain ⟨c, d, shape⟩ := lineFails_shape s img l
  have tested : AdminSettles l (s.dispatched l) (s.failed l c) := adminSettles_withdrawalTest hl _ _ _ _
  have opened : ((s.failed l c).lineOpen img l d).adminOf l = (if s.adminOf l = .inn then .inn else .withdrawn) := by
    have whole := tested.trans (O.lineOpen (s.failed l c) img l d)
    cases ha : s.adminOf l with
    | inn =>
      rcases whole.admin with h | ⟨h, -⟩
      · rw [h, dispatched_admin, ha]
        rfl
      · rw [dispatched_admin, ha] at h
        cases h
    | withdrawn =>
      rcases whole.admin with h | ⟨-, h⟩
      · rw [h, dispatched_admin, ha]
        rfl
      · exact h
    | withdrawing =>
      refine lineOpen_withdrawn hl d (fun hc => ?_) ?_
      · have quiet := dispatched_quiet hl hs (by rw [ha]; decide) (by rw [← hasCtx_congr tested.cfg tested.station]; exact hc)
        have queues := withdrawalTest_queues (s.dispatched l) l false c l
        have send := congrArg Ctx.send queues
        have stack := congrArg Ctx.stack queues
        exact ⟨send.trans quiet.1, stack.trans quiet.2⟩
      · rcases tested.admin with h | ⟨-, h⟩
        · rw [h, dispatched_admin, ha]
          exact .inl rfl
        · exact .inr h
  rcases shape with h | ⟨r, h⟩
  · rw [h, opened]
  · rw [h, adminOf_congr (resolved_request _ r).admin, opened]

/-- A line failure on a line that is not WITHDRAWN leaves a derived condition. -/
theorem lineFails_derived (hl : l < 8) {s : State} (hst : s.station < 16) (hne : s.adminOf l ≠ .withdrawn) (img : Image) :
    AdminSettles l (s.updateCondition l) (s.lineFails img l) ∧ (s.lineFails img l).Derived l := by
  have O := opening_adminSettles hl
  obtain ⟨c, d, shape⟩ := lineFails_shape s img l
  have opened : AdminSettles l (s.updateCondition l) ((s.failed l c).lineOpen img l d) :=
    ((dispatched_adminSettles s hne).trans (adminSettles_withdrawalTest hl _ _ _ _)).trans (O.lineOpen _ img l d)
  have whole : AdminSettles l (s.updateCondition l) (s.lineFails img l) := by
    rcases shape with h | ⟨r, h⟩
    · rw [h]
      exact opened
    · rw [h]
      exact opened.trans (O.request _ r)
  refine ⟨whole, whole.derived ?_ (updateCondition_derived hl hst)⟩
  rw [(traffic_updateCondition s l).station]
  exact hst

/-- The condition after the failure of an open line (R159). -/
theorem lineFails_condition (hl : l < 8) {s : State} (hs : SendIdleIffNoEntry s) (hst : s.station < 16)
    (hk : s.kind l ≠ .unfitted) (hw : (s.line l).wire = .opened) (hne : s.adminOf l ≠ .withdrawn) (img : Image) :
    (s.lineFails img l).ownCondition l = (if s.adminOf l = .inn then .opened else .withdrawn) := by
  obtain ⟨whole, derived⟩ := lineFails_derived hl hst hne img
  have r := traffic_updateCondition s l
  have kind : (s.lineFails img l).kind l = s.kind l :=
    kind_congr (whole.cfg.trans r.cfg) (whole.station.trans r.station) l
  have wire : ((s.lineFails img l).line l).wire = .opened :=
    (whole.wire.trans (congrArg Line.wire (line_congr r.lines l))).trans hw
  rw [derived, lineFails_admin hl hs, deriveCondition_of_fitted (by rw [kind]; exact hk), wire]
  by_cases hin : s.adminOf l = .inn
  · rw [if_pos hin, if_pos hin]
    exact if_pos rfl
  · rw [if_neg hin, if_neg hin]

end

/-! ## The owed sets -/

theorem opening_owesChange (c : Nat) : Opening (OwesChange c) where
  refl := .refl c
  trans := .trans
  mas _ _ _ := .of_tables c rfl rfl rfl rfl
  write s m σ := (filed_write s m σ).resolved.owesChange c
  block h := (filed_grantBlock h).resolved.owesChange c
  begun _ _ h := ((filed_grantRecord h).trans (filed_setRecord _ _ _)).resolved.owesChange c
  close s l m w := (resolved_closeRecord s l m w).owesChange c
  request s r := (resolved_request s r).owesChange c
  test s l q n := owesChange_withdrawalTest s l c q n

/-- A line failure puts a circuit whose condition it changes into the peers' owed sets (R150). -/
theorem owesChange_lineFails (s : State) (img : Image) (l c : Nat) : OwesChange c s (s.lineFails img l) := by
  have O := opening_owesChange c
  obtain ⟨n, d, shape⟩ := lineFails_shape s img l
  have dispatched : OwesChange c s (s.dispatched l) := by
    unfold State.dispatched
    split
    · exact .refl c s
    · obtain ⟨u, sent, resolved⟩ := dispatchFailure_parts (s.updateCondition l) l
      exact ((owesChange_updateCondition s l c).trans (.of_tables c sent.station sent.cfg sent.map sent.peers)).trans
        (resolved.owesChange c)
  have opened : OwesChange c s ((s.failed l n).lineOpen img l d) :=
    (dispatched.trans (owesChange_withdrawalTest _ l c false n)).trans (O.lineOpen _ img l d)
  rcases shape with h | ⟨r, h⟩
  · rw [h]
    exact opened
  · rw [h]
    exact opened.trans (O.request _ r)

end Sys2Proof.Machine

/-! PROOF. One slot through the resolver (R72 to R78): the state it can have after any resolution, and the queues of a circuit
that is not IN SERVICE, which no resolution fills. -/

namespace Sys2Proof.Machine

/-! ## One slot written at most -/

/-- From `s` to `t` no record changes, or one slot takes a state that satisfies `P`. -/
def SlotSet (P : SlotState → Prop) (s t : State) : Prop :=
  (∀ n, t.record n = s.record n) ∨
    ∃ m i sl st, m < 128 ∧ s.slot m i = some sl ∧ Wrote m i { sl with state := st } s t ∧ P st

theorem lt_of_slot {s : State} {m i : Nat} {sl : Slot} (h : s.slot m i = some sl) : m < 128 := by
  by_contra hm
  rw [State.slot, record_out s m hm] at h
  cases h

theorem slot_congr {s t : State} {m : Nat} (h : t.record m = s.record m) (i : Nat) : t.slot m i = s.slot m i := by
  rw [State.slot, h]
  rfl

theorem slotState_congr {s t : State} {m : Nat} (h : t.record m = s.record m) (i : Nat) :
    t.slotState m i = s.slotState m i := by rw [State.slotState, slot_congr h]; rfl

section
variable {P : SlotState → Prop}

theorem slotSet_setSlotState (s : State) (m i : Nat) {st : SlotState} (h : P st) : SlotSet P s (s.setSlotState m i st) := by
  cases hsl : s.slot m i with
  | none =>
    refine .inl fun n => ?_
    unfold State.setSlotState
    rw [hsl]
  | some sl => exact .inr ⟨m, i, sl, st, lt_of_slot hsl, hsl, wrote_setSlotState (lt_of_slot hsl) hsl st, h⟩

theorem slotSet_holdSlot (s : State) (m i : Nat) (w : HoldReason) (h : P ((s.slotState m i).heldAgain s.minute w)) :
    SlotSet P s (s.holdSlot m i w) := by
  rw [holdSlot_eq]
  exact slotSet_setSlotState s m i h

theorem slotSet_placeOwn (s : State) (m i l : Nat) (hq : P (.queued (s.circuit l)))
    (hh : P ((s.slotState m i).heldAgain s.minute (.busy (s.circuit l)))) : SlotSet P s (s.placeOwn m i l) := by
  cases hsl : s.slot m i with
  | some sl =>
    obtain ⟨st, wrote, h⟩ := placeOwn_wrote (lt_of_slot hsl) hsl l
    refine .inr ⟨m, i, sl, st, lt_of_slot hsl, hsl, wrote, ?_⟩
    rcases h with rfl | rfl
    · exact hq
    · rw [slotState_of_slot hsl] at hh
      exact hh
  | none =>
    have unset : ∀ (x : Ctx) (st : SlotState), (s.setCtx l x).setSlotState m i st = s.setCtx l x := fun x st => by
      unfold State.setSlotState
      rw [show (s.setCtx l x).slot m i = none from hsl]
    have held : ∀ w, s.holdSlot m i w = s := fun w => by
      rw [holdSlot_eq]
      unfold State.setSlotState
      rw [hsl]
    refine .inl fun n => ?_
    unfold State.placeOwn
    dsimp only
    rw [unset, unset, held]
    split
    · rfl
    · split
      · rfl
      · split
        · exact (owePick_record _ _ n).trans ((touch_record _ _ n).trans (touch_record _ _ n))
        · exact (touch_record _ _ n).trans (touch_record _ _ n)

/-- Every slot keeps its state or has the one written. -/
theorem SlotSet.slotState {s t : State} (h : SlotSet P s t) (m i : Nat) :
    t.slotState m i = s.slotState m i ∨ P (t.slotState m i) := by
  rcases h with same | ⟨n, j, sl, st, -, hsl, wrote, hst⟩
  · exact .inl (slotState_congr (same m) i)
  · by_cases e : (m, i) = (n, j)
    · cases e
      rw [slotState_of_slot (wrote.slot_self hsl)]
      exact .inr hst
    · refine .inl ?_
      rw [State.slotState, wrote.slot_ne e]
      rfl

end

/-! ## A slot of a STANDING record -/

/-- Slot `i` of the STANDING record `m` exists, with a state that satisfies `P`. -/
structure SlotIs (P : SlotState → Prop) (m i : Nat) (s : State) : Prop where
  standing : (s.record m).state = .standing
  slot : ∃ sl, s.slot m i = some sl ∧ P sl.state

section
variable {P Q : SlotState → Prop} {m i : Nat}

theorem SlotIs.mono {s : State} (h : SlotIs P m i s) (hPQ : ∀ st, P st → Q st) : SlotIs Q m i s :=
  let ⟨sl, hsl, hst⟩ := h.slot
  ⟨h.standing, sl, hsl, hPQ _ hst⟩

theorem SlotIs.state {s : State} (h : SlotIs P m i s) : P (s.slotState m i) := by
  obtain ⟨sl, hsl, hst⟩ := h.slot
  rw [slotState_of_slot hsl]
  exact hst

theorem SlotIs.of_record {s t : State} (h : SlotIs P m i s) (same : t.record m = s.record m) : SlotIs P m i t :=
  ⟨by rw [same]; exact h.standing, by rw [slot_congr same]; exact h.slot⟩

/-- A record rewritten with its slots. -/
theorem SlotIs.of_slots {s t : State} (h : SlotIs P m i s) (slots : (t.record m).slots = (s.record m).slots)
    (state : (t.record m).state = .standing) : SlotIs P m i t :=
  ⟨state, by rw [State.slot, slots]; exact h.slot⟩

theorem SlotIs.set {s t : State} (h : SlotIs P m i s) (w : SlotSet Q s t) (hQ : ∀ st, Q st → P st) : SlotIs P m i t := by
  rcases w with same | ⟨n, j, sl, st, -, hsl, wrote, hst⟩
  · exact h.of_record (same m)
  · have standing : (t.record m).state = .standing := by
      by_cases hn : m = n
      · subst hn
        rw [wrote.record]
        exact h.standing
      · rw [wrote.others m hn]
        exact h.standing
    by_cases e : (m, i) = (n, j)
    · cases e
      exact ⟨standing, _, wrote.slot_self hsl, hQ _ hst⟩
    · exact ⟨standing, by rw [wrote.slot_ne e]; exact h.slot⟩

end

/-- A slot placed and not DONE: HELD, QUEUED or CARRYING. -/
def SlotState.InPlace (st : SlotState) : Prop := st.isDone = false ∧ st ≠ .unrouted

theorem inPlace_queued (c : Nat) : SlotState.InPlace (.queued c) := ⟨rfl, nofun⟩
theorem inPlace_carrying (x : Target) : SlotState.InPlace (.carrying x) := ⟨rfl, nofun⟩

theorem inPlace_heldAgain (now : Minute) (w : HoldReason) (st : SlotState) : (st.heldAgain now w).InPlace := by
  cases st <;> exact ⟨rfl, nofun⟩

theorem SlotState.InPlace.cases {st : SlotState} (h : st.InPlace) :
    (∃ since o w, st = .held since o w) ∨ (∃ c, st = .queued c) ∨ ∃ x, st = .carrying x := by
  cases st with
  | unrouted => exact absurd rfl h.2
  | held since o w => exact .inl ⟨since, o, w, rfl⟩
  | queued c => exact .inr (.inl ⟨c, rfl⟩)
  | carrying x => exact .inr (.inr ⟨x, rfl⟩)
  | done x => exact nomatch h.1

theorem Lands.inPlace {now : Minute} {old new : SlotState} {x : Option Target} (h : Lands now old new x) : new.InPlace := by
  cases x with
  | none =>
    rw [show new = _ from h]
    exact inPlace_heldAgain _ _ _
  | some x =>
    cases x with
    | circuit c =>
      rcases h with h | h | h
      · rw [h]
        exact inPlace_queued c
      · rw [h]
        exact inPlace_carrying _
      · rw [h]
        exact inPlace_heldAgain _ _ _
    | service k =>
      rw [show new = _ from h]
      exact inPlace_carrying _

/-- Where no route leads to the own service, the resolver keeps a slot that is not DONE, in place if it is so. -/
theorem Moves.slotIs {P : SlotState → Prop} (hP : ∀ st, SlotState.InPlace st → P st) (hd : ∀ st, P st → st.isDone = false)
    {s t : State} (h : Moves s t) (hn : s.noOwnService) {m i : Nat} : SlotIs P m i s → SlotIs P m i t := by
  induction h with
  | trans h₁ _ ih₁ ih₂ => exact fun a => ih₂ (h₁.noOwnService.mpr hn) (ih₁ hn a)
  | other _ hs _ _ => exact fun a => a.of_record (by rw [State.record, State.record, hs])
  | place s j k c _ _ =>
    exact fun a => a.set (Q := SlotState.InPlace) (slotSet_placeOwn s j k _ (inPlace_queued _) (inPlace_heldAgain _ _ _)) hP
  | carry s j k x => exact fun a => a.set (Q := SlotState.InPlace) (slotSet_setSlotState s j k (inPlace_carrying x)) hP
  | hold s j k w => exact fun a => a.set (Q := SlotState.InPlace) (slotSet_holdSlot s j k w (inPlace_heldAgain _ _ _)) hP
  | bound s j w =>
    intro a
    obtain ⟨sl, hsl, -⟩ := a.slot
    refine a.of_slots ?_ ?_
    · exact record_setRecord_of (P := fun y => y.slots = (s.record m).slots) s j m _ (fun e => by subst e; rfl) rfl
    · exact record_setRecord_of (P := fun y => y.state = .standing) s j m _ (fun e => by subst e; exact a.standing) a.standing
  | release s j =>
    intro a
    by_cases hj : m = j
    · subst hj
      obtain ⟨sl, hsl, hst⟩ := a.slot
      have stays : s.releaseIfDone m = s := by
        refine if_neg fun h => ?_
        have done := List.all_eq_true.mp h.2 sl (List.mem_of_getElem? hsl)
        rw [hd _ hst] at done
        cases done
      rw [stays]
      exact a
    · exact a.of_record (only_releaseIfDone s m hj (by rw [a.standing]; decide))
  | serve s j h => exact absurd hn h
  | finish s j k x h => exact absurd hn h
  | pseudo s j k sl h _ => exact absurd hn h
  | @report s t j c _ _ hj hfree others _ _ =>
    exact fun a => a.of_record (others m fun e => by subst e; exact nomatch hfree.symm.trans a.standing)

/-! ## The circuits on which slots are queued -/

/-- From `s` to `t` slots are QUEUED only where they were, or on circuits that are IN SERVICE. -/
def QueuesOpen (s t : State) : Prop := ∀ m i c, t.slotState m i = .queued c →
  s.slotState m i = .queued c ∨ (s.mapOf c).condition = .inService

theorem QueuesOpen.trans {s t u : State} (h : QueuesOpen s t) (k : QueuesOpen t u)
    (hc : ∀ c, (t.mapOf c).condition = (s.mapOf c).condition) : QueuesOpen s u := fun m i c e => by
  rcases k m i c e with e' | serving
  · exact h m i c e'
  · exact .inr ((hc c).symm.trans serving)

theorem QueuesOpen.of_records {s t : State} (h : ∀ n, t.record n = s.record n) : QueuesOpen s t := fun m i _ e =>
  .inl ((slotState_congr (h m) i).symm.trans e)

theorem SlotSet.queuesOpen {s t : State} (h : SlotSet (fun st => ∀ c, st = .queued c → (s.mapOf c).condition = .inService) s t) :
    QueuesOpen s t := fun m i c e => by
  rcases h.slotState m i with same | written
  · exact .inl (same.symm.trans e)
  · exact .inr (written c e)

/-- One record rewritten: every slot keeps its state, or none is QUEUED. -/
theorem QueuesOpen.of_record {s t : State} (j : Nat) (others : ∀ n, n ≠ j → t.record n = s.record n)
    (h : (t.record j).slots = (s.record j).slots ∨ ∀ sl ∈ (t.record j).slots, sl.state = .unrouted) : QueuesOpen s t := by
  intro m i c e
  by_cases hm : m = j
  · subst hm
    rcases h with h | h
    · refine .inl ?_
      rw [State.slotState, State.slot, ← h]
      exact e
    · cases hsl : t.slot m i with
      | none =>
        rw [State.slotState, hsl] at e
        cases e
      | some sl =>
        rw [slotState_of_slot hsl, h sl (List.mem_of_getElem? hsl)] at e
        cases e
  · exact .inl ((slotState_congr (others m hm) i).symm.trans e)

theorem queuesOpen_setRecord (s : State) (j : Nat) (r : Record) (h : r.slots = (s.record j).slots) :
    QueuesOpen s (s.setRecord j r) :=
  .of_record j (fun n hn => record_setRecord_ne s j n r (Ne.symm hn))
    (.inl (record_setRecord_of (P := fun y => y.slots = (s.record j).slots) s j j r (fun _ => h) rfl))

theorem queuesOpen_freeRecord (s : State) (j : Nat) : QueuesOpen s (s.freeRecord j) := by
  by_cases hj : j < 128
  · by_cases hf : (s.record j).state = .free
    · unfold State.freeRecord
      rw [if_pos hf]
      exact .of_records fun _ => rfl
    · refine .of_record j (fun n hn => freeRecord_record_ne s hn) (.inr fun sl hsl => ?_)
      rw [freeRecord_record_self hj hf] at hsl
      cases hsl
  · refine .of_record j (fun n hn => freeRecord_record_ne s hn) (.inl ?_)
    rw [record_out _ j hj, record_out s j hj]

theorem queuesOpen_releaseIfDone (s : State) (j : Nat) : QueuesOpen s (s.releaseIfDone j) := by
  unfold State.releaseIfDone
  dsimp only
  split
  · exact queuesOpen_freeRecord s j
  · exact .of_records fun _ => rfl

theorem notQueued_heldAgain {now : Minute} {w : HoldReason} {old : SlotState} {c : Nat} : old.heldAgain now w ≠ .queued c := by
  cases old <;> exact nofun

/-- The resolver queues slots on circuits that are IN SERVICE. -/
theorem Moves.queuesOpen {s t : State} (h : Moves s t) : QueuesOpen s t := by
  induction h with
  | trans h₁ _ ih₁ ih₂ => exact ih₁.trans ih₂ h₁.resolved.condition
  | other _ hs _ _ => exact .of_records fun n => by rw [State.record, State.record, hs]
  | place s m i c own available =>
    refine SlotSet.queuesOpen (slotSet_placeOwn s m i _ (fun d e => ?_) fun d e => absurd e notQueued_heldAgain)
    cases e
    rw [circuit_of_own own]
    exact ((circuitAvailable_iff s c).mp available).1
  | carry s m i x => exact SlotSet.queuesOpen (slotSet_setSlotState s m i nofun)
  | hold s m i w => exact SlotSet.queuesOpen (slotSet_holdSlot s m i w fun d e => absurd e notQueued_heldAgain)
  | bound s m w => exact queuesOpen_setRecord s m _ rfl
  | release s m => exact queuesOpen_releaseIfDone s m
  | serve s m _ => exact queuesOpen_setRecord s m _ rfl
  | finish s m i x _ => exact SlotSet.queuesOpen (slotSet_setSlotState s m i nofun)
  | pseudo s m i sl _ hsl =>
    intro n j c e
    have wrote := wrote_setSlot s (lt_of_slot hsl) i { sl with dest := .pseudo }
    by_cases h : (n, j) = (m, i)
    · cases h
      rw [slotState_of_slot (wrote.slot_self hsl)] at e
      exact .inl ((slotState_of_slot hsl).trans e)
    · rw [State.slotState, wrote.slot_ne h] at e
      exact .inl e
  | @report s t m c _ _ _ _ others _ slots =>
    exact .of_record m others (.inr fun sl hsl => by rw [slots, List.mem_singleton] at hsl; rw [hsl])

/-! ## A circuit that is not IN SERVICE -/

/-- The circuit of line `l` is not IN SERVICE. -/
def State.Shut (s : State) (l : Nat) : Prop := s.ownCondition l ≠ .inService

theorem shut_congr {s t : State} {l : Nat} (hs : t.station = s.station)
    (hc : (t.mapOf (s.circuit l)).condition = (s.mapOf (s.circuit l)).condition) (h : s.Shut l) : t.Shut l := by
  rw [State.Shut, State.ownCondition, circuit_congr hs, hc]
  exact h

theorem Resolved.shut {s t : State} (r : Resolved s t) {l : Nat} (h : s.Shut l) : t.Shut l :=
  shut_congr r.station (r.condition _) h

theorem placeOwn_ctxOf_ne (s : State) (m i : Nat) {l k : Nat} (hk : k ≠ l) : (s.placeOwn m i l).ctxOf k = s.ctxOf k := by
  have queued : ∀ x : Ctx, ((s.setCtx l x).setSlotState m i (.queued (s.circuit l))).ctxOf k = s.ctxOf k := fun x => by
    rw [(filed_setSlotState _ m i _).ctxOf, ctxOf_setCtx_ne s l k x (Ne.symm hk)]
  unfold State.placeOwn
  dsimp only
  split
  · exact queued _
  · split
    · rw [(filed_holdSlot s m i _).ctxOf]
    · split
      · rw [owePick_ctxOf, (filed_touchLine _ l).ctxOf, queued]
      · rw [(filed_touchLine _ l).ctxOf, queued]

/-- The resolver leaves the dispatch of a circuit that is not IN SERVICE. -/
theorem Moves.ctxOf {s t : State} (h : Moves s t) {l : Nat} (shut : s.Shut l) : t.ctxOf l = s.ctxOf l := by
  induction h with
  | trans h₁ _ ih₁ ih₂ => exact (ih₂ (h₁.resolved.shut shut)).trans (ih₁ shut)
  | other _ _ hx _ => exact ctxOf_congr hx l
  | place s m i c own available =>
    refine placeOwn_ctxOf_ne s m i fun e => shut ?_
    rw [State.ownCondition, e, circuit_of_own own]
    exact ((circuitAvailable_iff s c).mp available).1
  | carry s m i x => exact (filed_setSlotState s m i _).ctxOf l
  | hold s m i w => exact (filed_holdSlot s m i w).ctxOf l
  | bound s m w => exact (filed_setRecord s m _).ctxOf l
  | release s m => exact (filed_releaseIfDone s m).ctxOf l
  | serve s m _ => exact (filed_setRecord s m _).ctxOf l
  | finish s m i x _ => exact (filed_setSlotState s m i _).ctxOf l
  | pseudo s m i sl _ _ => exact (filed_setSlot s m i _).ctxOf l
  | report _ hx _ _ _ _ _ => exact ctxOf_congr hx l

end Sys2Proof.Machine

/-! PROOF. The steps after a line failure has taken the entries off its circuit (R118, R167, R169), to the end of the event,
as one relation: what they leave of the circuit's dispatch and of the slots that the entries served. -/

namespace Sys2Proof.Machine

/-! ## The relation -/

/-- What a step makes of one record: its slots stay, and it stays STANDING while it has any, or a FREE record is granted, all
its slots UNROUTED. -/
def Rewritten (a b : Record) : Prop :=
  (b.slots = a.slots ∧ (a.slots ≠ [] → a.state = .standing → b.state = .standing)) ∨
    (a.state = .free ∧ ∀ sl ∈ b.slots, sl.state = .unrouted)

/-- How the tables, the records and the contexts change after a line failure's entries have been taken off circuit `l`. -/
inductive Opens (l : Nat) : State → State → Prop where
  | trans {s t u : State} : Opens l s t → Opens l t u → Opens l s u
  | moves {s t : State} : Moves s t → Opens l s t
  | tables {s t : State} : t.station = s.station → t.cfg = s.cfg → t.store = s.store → t.ctx = s.ctx →
      (s.Shut l → t.Shut l) → Opens l s t
  | record {s t : State} (m : Nat) : Filed s t → (∀ n, n ≠ m → t.record n = s.record n) →
      Rewritten (s.record m) (t.record m) → Opens l s t
  | pick (s : State) (k : Nat) : Opens l s (s.pick k)

section
variable {l : Nat}

theorem Opens.refl (s : State) : Opens l s s := .moves (.refl s)

theorem Opens.of_same {s t : State} (hs : t.station = s.station) (hc : t.cfg = s.cfg) (hr : t.store = s.store)
    (hx : t.ctx = s.ctx) (hm : t.map = s.map) : Opens l s t :=
  .tables hs hc hr hx (shut_congr hs (by rw [mapOf_congr hm]))

theorem Opens.foldl {α : Type} {f : State → α → State} (h : ∀ s a, Opens l s (f s a)) (as : List α) (s : State) :
    Opens l s (as.foldl f s) := foldl_keeps (Opens l) .refl .trans f h as s

theorem Opens.ite {s t u : State} {p : Prop} [Decidable p] (ht : Opens l s t) (hu : Opens l s u) :
    Opens l s (if p then t else u) := by split <;> assumption

theorem Opens.base {s t : State} (h : Opens l s t) :
    t.station = s.station ∧ t.cfg = s.cfg ∧ (s.Shut l → t.Shut l) := by
  induction h with
  | trans _ _ ih₁ ih₂ =>
    obtain ⟨hs₁, hc₁, shut₁⟩ := ih₁
    obtain ⟨hs₂, hc₂, shut₂⟩ := ih₂
    exact ⟨hs₂.trans hs₁, hc₂.trans hc₁, fun h => shut₂ (shut₁ h)⟩
  | moves m => exact ⟨m.resolved.station, m.resolved.cfg, m.resolved.shut⟩
  | tables hs hc _ _ shut => exact ⟨hs, hc, shut⟩
  | record m f _ _ => exact ⟨f.resolved.station, f.resolved.cfg, f.resolved.shut⟩
  | pick s k =>
    have sent := sent_pick s k
    exact ⟨sent.station, sent.cfg, shut_congr sent.station (by rw [mapOf_congr sent.map])⟩

theorem Opens.shut {s t : State} (h : Opens l s t) (hs : s.Shut l) : t.Shut l := h.base.2.2 hs

theorem Opens.noOwnService {s t : State} (h : Opens l s t) (hn : s.noOwnService) : t.noOwnService :=
  (noOwnService_congr h.base.2.1 h.base.1).mpr hn

/-! ## What the relation leaves -/

theorem Picked.off {n : Nat} {x y : Ctx} (h : Picked x y) (off : x.Off n) : y.Off n := by
  cases h with
  | idle => exact ⟨off.queue, off.current, off.stack, off.next, rfl⟩
  | started e rest items hq => exact nomatch hq.symm.trans off.queue
  | resumed e rest items hs => exact nomatch hs.symm.trans off.stack

/-- A circuit that is not IN SERVICE and has no entry left gets none. -/
theorem Opens.off {s t : State} (h : Opens l s t) (hl : l < 8) (shut : s.Shut l) {n : Nat} :
    (s.ctxOf l).Off n → (t.ctxOf l).Off n := by
  induction h with
  | trans h₁ _ ih₁ ih₂ => exact fun off => ih₂ (h₁.shut shut) (ih₁ shut off)
  | moves m =>
    rw [m.ctxOf shut]
    exact id
  | tables _ _ _ hx _ =>
    rw [ctxOf_congr hx]
    exact id
  | record m f _ _ =>
    rw [f.ctxOf]
    exact id
  | pick s k =>
    intro off
    by_cases hk : l = k
    · subst hk
      cases hc : s.cfg with
      | none =>
        rw [pick_unconfigured hc]
        exact off
      | some img => exact (pick_ctxOf hc hl).off off
    · rw [pick_ctxOf_ne s hk]
      exact off

/-- A slot that is not QUEUED on the circuit does not become so. -/
theorem Opens.notQueued {s t : State} (h : Opens l s t) (shut : s.Shut l) {m i : Nat} :
    s.slotState m i ≠ .queued (s.circuit l) → t.slotState m i ≠ .queued (s.circuit l) := by
  have of_open : ∀ {s t : State}, s.Shut l → QueuesOpen s t →
      s.slotState m i ≠ .queued (s.circuit l) → t.slotState m i ≠ .queued (s.circuit l) := fun shut q hne e => by
    rcases q m i _ e with e' | serving
    · exact hne e'
    · exact shut serving
  induction h with
  | @trans s t u h₁ _ ih₁ ih₂ =>
    intro hne
    rw [← circuit_congr h₁.base.1]
    refine ih₂ (h₁.shut shut) ?_
    rw [circuit_congr h₁.base.1]
    exact ih₁ shut hne
  | moves m => exact of_open shut m.queuesOpen
  | tables _ _ hr _ _ => exact of_open shut (.of_records fun n => by rw [State.record, State.record, hr])
  | record j _ others h =>
    refine of_open shut (.of_record j others ?_)
    rcases h with ⟨h, -⟩ | ⟨-, h⟩
    · exact .inl h
    · exact .inr h
  | pick s k => exact of_open shut (.of_records fun n => by rw [State.record, State.record, pick_store])

/-- Where no route leads to the own service, a slot that is not DONE stays so, in place if it is so. -/
theorem Opens.slotIs {P : SlotState → Prop} (hP : ∀ st, SlotState.InPlace st → P st) (hd : ∀ st, P st → st.isDone = false)
    {s t : State} (h : Opens l s t) (hn : s.noOwnService) {m i : Nat} : SlotIs P m i s → SlotIs P m i t := by
  induction h with
  | trans h₁ _ ih₁ ih₂ => exact fun a => ih₂ (h₁.noOwnService hn) (ih₁ hn a)
  | moves m => exact m.slotIs hP hd hn
  | tables _ _ hr _ _ => exact fun a => a.of_record (by rw [State.record, State.record, hr])
  | record j _ others h =>
    intro a
    by_cases hj : m = j
    · subst hj
      rcases h with ⟨slots, state⟩ | ⟨free, -⟩
      · refine a.of_slots slots (state (fun e => ?_) a.standing)
        obtain ⟨sl, hsl, -⟩ := a.slot
        rw [State.slot, e] at hsl
        cases hsl
      · exact nomatch free.symm.trans a.standing
    · exact a.of_record (others m hj)
  | pick s k => exact fun a => a.of_record (by rw [State.record, State.record, pick_store])

/-! ## The line-open event -/

theorem opens_setRecord (s : State) (m : Nat) {r : Record} (hs : r.slots = (s.record m).slots)
    (ht : (s.record m).state = .standing → r.state = .standing) : Opens l s (s.setRecord m r) := by
  refine .record m (filed_setRecord s m r) (fun n hn => record_setRecord_ne s m n r (Ne.symm hn)) (.inl ⟨?_, fun _ h => ?_⟩)
  · exact record_setRecord_of (P := fun y => y.slots = (s.record m).slots) s m m r (fun _ => hs) rfl
  · exact record_setRecord_of (P := fun y => y.state = .standing) s m m r (fun _ => ht h) h

theorem opens_filed {s t : State} (f : Filed s t) (h : ∀ n, t.record n = s.record n) : Opens l s t :=
  .record 0 f (fun n _ => h n) (.inl ⟨by rw [h], fun _ e => by rw [h]; exact e⟩)

theorem opens_grantBlock {s t : State} {m : Nat} (h : s.grantBlock m = some t) : Opens l s t := by
  have pooled : Opens l s (s.setPool (s.store.pool.drop 1)) := opens_filed (filed_setPool s _) (setPool_record s _)
  have same := setPool_record s (s.store.pool.drop 1) m
  unfold State.grantBlock at h
  dsimp only at h
  split at h
  · cases h
    refine pooled.trans (opens_setRecord _ m ?_ fun e => ?_)
    · rw [same]
    · rw [same] at e
      exact e
  · cases h

theorem freeRecord_slots {s : State} {m : Nat} (h : (s.record m).slots = []) : ((s.freeRecord m).record m).slots = [] := by
  unfold State.freeRecord
  dsimp only
  split
  · exact h
  · rw [touch_record]
    exact record_setRecord_of (P := fun y => y.slots = []) _ m m _ (fun _ => rfl) (by rw [setPool_record]; exact h)

theorem closing_slots {s : State} {m : Nat} (h : (s.record m).slots = []) (w : Option MutReason) :
    ((s.closing m w).record m).slots = [] := by
  have written : ((s.setRecord m (w.elim (s.record m) (s.record m).mutilate)).record m).slots = [] :=
    record_setRecord_of (P := fun y => y.slots = []) s m m _ (fun _ => (mutilate_slots _ w).trans h) h
  unfold State.closing State.complete
  dsimp only
  rw [if_pos (by rw [written]; rfl)]
  exact freeRecord_slots written

theorem opens_closing (s : State) (m : Nat) (w : Option MutReason) : Opens l s (s.closing m w) := by
  refine .record m (filed_closing s m w) (fun n hn => closing_record_ne s w hn) (.inl ?_)
  by_cases hs : (s.record m).slots = []
  · exact ⟨(closing_slots hs w).trans hs.symm, fun h => absurd hs h⟩
  · have hm : m < 128 := by
      by_contra hm
      rw [record_out s m hm] at hs
      exact hs rfl
    rw [closing_record hm hs w]
    exact ⟨mutilate_slots _ w, fun _ _ => rfl⟩

theorem updateCondition_parts (s : State) (l : Nat) :
    (s.updateCondition l).store = s.store ∧ (s.updateCondition l).ctx = s.ctx := by
  unfold State.updateCondition
  dsimp only
  split
  · exact ⟨rfl, rfl⟩
  · obtain ⟨p, hp⟩ := owe_eq (s.setMap (s.circuit l) { s.mapOf (s.circuit l) with
      condition := deriveCondition (s.kind l) (s.adminOf l) (s.line l).wire }) (s.circuit l)
    rw [hp]
    exact ⟨rfl, rfl⟩

/-- The condition of a circuit that is not IN derived: the circuit does not come to be IN SERVICE. -/
theorem updateCondition_shut {s : State} (ha : s.adminOf l ≠ .inn) (shut : s.Shut l) : (s.updateCondition l).Shut l := by
  have derived : deriveCondition (s.kind l) (s.adminOf l) (s.line l).wire ≠ .inService := by
    cases h : s.adminOf l with
    | inn => exact absurd h ha
    | withdrawing => cases s.kind l <;> exact nofun
    | withdrawn => cases s.kind l <;> exact nofun
  rw [State.Shut, State.ownCondition, circuit_congr (traffic_updateCondition s l).station]
  unfold State.updateCondition
  dsimp only
  split
  · exact shut
  · rw [(resolved_owe _ _).condition]
    exact mapOf_setMap_of (P := fun y => y.condition ≠ .inService) s _ _ _ (fun _ => derived) shut

theorem opens_updateCondition {s : State} {k : Nat} (ha : k = l → s.adminOf l ≠ .inn) : Opens l s (s.updateCondition k) := by
  have r := traffic_updateCondition s k
  obtain ⟨store, ctx⟩ := updateCondition_parts s k
  refine .tables r.station r.cfg store ctx fun shut => ?_
  by_cases hk : k = l
  · subst hk
    exact updateCondition_shut (ha rfl) shut
  · refine shut_congr r.station ((lined_updateCondition s k).condition _ fun e => hk ?_) shut
    unfold State.circuit at e
    omega

theorem opens_withdrawalTest (hl : l < 8) (s : State) (k : Nat) (q : Bool) (c : Option FailureCounts) :
    Opens l s (s.withdrawalTest k q c) := by
  have moved : Opens l s (s.setAdmin k .withdrawn) := .of_same rfl rfl rfl rfl rfl
  have updated : Opens l s ((s.setAdmin k .withdrawn).updateCondition k) := by
    refine moved.trans (opens_updateCondition fun e => ?_)
    subst e
    rw [adminOf_setAdmin_self s k _ hl]
    decide
  unfold State.withdrawalTest
  dsimp only
  generalize (s.setAdmin k .withdrawn).updateCondition k = u at updated
  have hunts : Opens l s (if (u.masOf k).mode = .discard then u.setMas k (u.masOf k).toHunt else u) :=
    .ite (updated.trans (.of_same rfl rfl rfl rfl rfl)) updated
  exact .ite (.ite hunts (hunts.trans (.moves (moves_request _ _)))) (.refl s)

theorem opening_opens (hl : l < 8) : Opening (Opens l) where
  refl := .refl
  trans := .trans
  mas _ _ _ := .of_same rfl rfl rfl rfl rfl
  write s m σ := opens_setRecord s m (by unfold Record.write; split <;> rfl) (by unfold Record.write; split <;> exact id)
  block := opens_grantBlock
  begun := by
    intro s t cls m r hr h
    obtain ⟨hm, free, -, others⟩ := grantRecord_record h
    refine .record m ((filed_grantRecord h).trans (filed_setRecord _ _ _)) (fun n hn => ?_) (.inr ⟨free, ?_⟩)
    · rw [record_setRecord_ne t m n _ (Ne.symm hn), others n hn]
    · rw [record_setRecord_self t m _ hm]
      exact hr _
  close s l m w := (opens_closing s m w).trans (.moves (closeRecord_moves s l m w).1)
  request s r := .moves (moves_request s r)
  test := opens_withdrawalTest hl

/-! ## The end of the event -/

theorem opens_evaluateGauges (s : State) (gs : List Gauge) : Opens l s (s.evaluateGauges gs) := by
  obtain ⟨v, h⟩ := evaluate_levels s gs
  have evaluated : Opens l s (s.evaluate gs).1 := by
    rw [h]
    exact .of_same rfl rfl rfl rfl rfl
  unfold State.evaluateGauges
  exact .ite evaluated (evaluated.trans (.moves (moves_request _ _)))

theorem opens_takePicks (s : State) : Opens l s s.takePicks :=
  Opens.trans (t := { s with ev := { s.ev with picks := [] } }) (.of_same rfl rfl rfl rfl rfl)
    (.foldl (fun t k => .ite (.ite (.pick t k) (.refl t)) (.refl t)) _ _)

theorem opens_settle (s : State) : Opens l s s.settle := by
  have reports : ∀ (n : Nat) (s : State), Opens l s (State.settleReports n s) := by
    intro n
    induction n with
    | zero => exact .refl
    | succ n ih =>
      intro s
      unfold State.settleReports
      refine .ite (.refl s) ?_
      exact ((Opens.trans (s := s) (t := { s with ev := { s.ev with own := [], rep := [] } }) (.of_same rfl rfl rfl rfl rfl)
        (opens_evaluateGauges _ (s.ev.own ++ s.ev.rep))).trans (opens_takePicks _)).trans (ih _)
  exact ((Opens.trans (s := s) (t := { s with ev := { s.ev with own := [] } }) (.of_same rfl rfl rfl rfl rfl)
    (opens_evaluateGauges _ s.ev.own)).trans (opens_takePicks _)).trans (reports 64 _)

theorem opens_finish (s : State) : Opens l s s.finish := by
  have kept := kept_finish s
  have sent := (sent_settle s).toKept
  have store : s.finish.store = s.settle.store := by
    obtain ⟨f, cut⟩ := markCut_of_flight s.settle
    exact (build_store s.settle.markCut).trans (by rw [cut])
  have station : s.finish.station = s.settle.station := kept.station.trans sent.station.symm
  have cfg : s.finish.cfg = s.settle.cfg := kept.cfg.trans sent.cfg.symm
  have map : s.finish.map = s.settle.map := kept.map.trans sent.map.symm
  exact (opens_settle s).trans (.of_same station cfg store (finish_ctx s) map)

end

end Sys2Proof.Machine

/-! PROOF. The slots of the entries that a line failure takes off a circuit (R167, R168): detached and resolved again, or DONE
when the end sequence has gone. -/

namespace Sys2Proof.Machine

/-! ## Slots given back -/

/-- The slot is not DONE. -/
def SlotState.Live (st : SlotState) : Prop := st.isDone = false

theorem mem_live {s : State} {slots : List (Nat × Nat)} {x : Nat × Nat} :
    x ∈ s.live slots ↔ x ∈ slots ∧ (s.slotState x.1 x.2).Live := by
  unfold State.live SlotState.Live
  rw [mem_sortBy, List.mem_filter, Bool.not_eq_true']

theorem slotState_setSlotState_self (s : State) (m i : Nat) (st : SlotState) :
    (s.setSlotState m i st).slotState m i = .unrouted ∨ (s.setSlotState m i st).slotState m i = st := by
  cases hsl : s.slot m i with
  | none =>
    have same : s.setSlotState m i st = s := by
      unfold State.setSlotState
      rw [hsl]
    rw [same, State.slotState, hsl]
    exact .inl rfl
  | some sl => exact .inr (slotState_of_slot ((wrote_setSlotState (lt_of_slot hsl) hsl st).slot_self hsl))

/-- Slots detached one after another: each is UNROUTED, and every other keeps its state or is too. -/
theorem detach_slotStates (xs : List (Nat × Nat)) : ∀ s : State,
    (∀ m i, (xs.foldl (fun t x => t.setSlotState x.1 x.2 .unrouted) s).slotState m i = s.slotState m i ∨
      (xs.foldl (fun t x => t.setSlotState x.1 x.2 .unrouted) s).slotState m i = .unrouted) ∧
    ∀ x ∈ xs, (xs.foldl (fun t x => t.setSlotState x.1 x.2 .unrouted) s).slotState x.1 x.2 = .unrouted := by
  induction xs with
  | nil => exact fun s => ⟨fun _ _ => .inl rfl, fun x hx => absurd hx List.not_mem_nil⟩
  | cons y xs ih =>
    intro s
    have one := slotSet_setSlotState (P := (· = .unrouted)) s y.1 y.2 rfl
    obtain ⟨each, listed⟩ := ih (s.setSlotState y.1 y.2 .unrouted)
    rw [List.foldl_cons]
    refine ⟨fun m i => ?_, fun x hx => ?_⟩
    · rcases each m i with h | h
      · rw [h]
        exact one.slotState m i
      · exact .inr h
    · rcases List.mem_cons.mp hx with rfl | hx
      · rcases each x.1 x.2 with h | h
        · rw [h]
          exact (slotState_setSlotState_self s x.1 x.2 .unrouted).elim id id
        · exact h
      · exact listed x hx

theorem detached_notQueued {s : State} {slots : List (Nat × Nat)} {x : Nat × Nat} (hx : x ∈ slots) (c : Nat) :
    (s.detached slots).slotState x.1 x.2 ≠ .queued c := by
  obtain ⟨each, listed⟩ := detach_slotStates (s.live slots) s
  intro e
  by_cases hlive : (s.slotState x.1 x.2).Live
  · exact nomatch (listed x (mem_live.mpr ⟨hx, hlive⟩)).symm.trans e
  · rcases each x.1 x.2 with h | h
    · have queued : s.slotState x.1 x.2 = .queued c := h.symm.trans e
      exact hlive (by rw [queued]; rfl)
    · exact nomatch h.symm.trans e

theorem detached_keeps {s : State} {m i c : Nat} (slots : List (Nat × Nat)) (h : s.slotState m i ≠ .queued c) :
    (s.detached slots).slotState m i ≠ .queued c := by
  intro e
  rcases (detach_slotStates (s.live slots) s).1 m i with same | gone
  · exact h (same.symm.trans e)
  · exact nomatch gone.symm.trans e

theorem detached_live {s : State} {m i : Nat} (slots : List (Nat × Nat)) (h : SlotIs SlotState.Live m i s) :
    SlotIs SlotState.Live m i (s.detached slots) :=
  List.foldlRecOn (motive := fun t => SlotIs SlotState.Live m i t) (s.live slots) _ h fun t ht x _ =>
    ht.set (Q := (· = .unrouted)) (slotSet_setSlotState t x.1 x.2 rfl) fun st e => by rw [e]; rfl

theorem inPlace_live {st : SlotState} (h : st.InPlace) : st.Live := h.1

/-- Where no route leads to the own service, a slot resolved again is in place. -/
theorem resolveAgain_inPlace {s t : State} {x : Nat × Nat} (hn : t.noOwnService) (h : SlotIs SlotState.Live x.1 x.2 t) :
    SlotIs SlotState.InPlace x.1 x.2 (s.resolveAgain t x) := by
  obtain ⟨sl, hsl, hst⟩ := h.slot
  unfold State.resolveAgain
  split
  next =>
    obtain ⟨st, wrote, lands⟩ := place_wrote (lt_of_slot hsl) hsl (State.serviceTake (s.slotState x.1 x.2).target)
      fun e => targetOf_ownService e hn
    refine ⟨?_, _, wrote.slot_self hsl, lands.inPlace⟩
    rw [show (t.resolveWith _ x.1 x.2 none).record x.1 = _ from wrote.record]
    exact h.standing
  next hne => exact ⟨h.standing, sl, hsl, hst, by rw [← slotState_of_slot hsl]; exact hne⟩

theorem reResolve_inPlace {s : State} {slots : List (Nat × Nat)} {x : Nat × Nat} (hn : s.noOwnService) (hx : x ∈ slots)
    (h : SlotIs SlotState.Live x.1 x.2 s) : SlotIs SlotState.InPlace x.1 x.2 (s.reResolve slots) := by
  obtain ⟨before, after, hl⟩ := List.append_of_mem (mem_live.mpr ⟨hx, h.state⟩)
  have filed := (filed_detached s slots).resolved
  let u := before.foldl s.resolveAgain (s.detached slots)
  have toU : Moves (s.detached slots) u := .foldl (moves_resolveAgain s) _ _
  have detachedNone : (s.detached slots).noOwnService := (noOwnService_congr filed.cfg filed.station).mpr hn
  have none : u.noOwnService := toU.noOwnService.mpr detachedNone
  have here : SlotIs SlotState.InPlace x.1 x.2 (s.resolveAgain u x) :=
    resolveAgain_inPlace none (toU.slotIs (fun _ => inPlace_live) (fun _ => id) detachedNone (detached_live slots h))
  have split : s.reResolve slots = after.foldl s.resolveAgain (s.resolveAgain u x) := by
    rw [reResolve_eq, hl, List.foldl_append, List.foldl_cons]
  rw [split]
  exact (Moves.foldl (moves_resolveAgain s) after _).slotIs (fun _ => id) (fun _ h => h.1)
    ((moves_resolveAgain s u x).noOwnService.mpr none) here

/-! ## The entry in transmission given up -/

theorem queuesOpen_finishSlot (s : State) (m i : Nat) : QueuesOpen s (s.finishSlot m i) := by
  have done : QueuesOpen s (s.setSlotState m i (.done (s.slotState m i).target)) :=
    SlotSet.queuesOpen (slotSet_setSlotState s m i nofun)
  exact done.trans (queuesOpen_releaseIfDone _ m) (filed_setSlotState s m i _).resolved.condition

/-- A slot made DONE is not QUEUED on a circuit that is not IN SERVICE. -/
theorem finishSlot_self {s : State} {c : Nat} (hc : (s.mapOf c).condition ≠ .inService) (m i : Nat) :
    (s.finishSlot m i).slotState m i ≠ .queued c := by
  intro e
  rcases queuesOpen_releaseIfDone _ m m i c e with queued | serving
  · rcases slotState_setSlotState_self s m i (.done (s.slotState m i).target) with h | h
    · exact nomatch h.symm.trans queued
    · exact nomatch h.symm.trans queued
  · exact hc (((filed_setSlotState s m i _).resolved.condition c).symm.trans serving)

theorem finishSlots_notQueued {m i c : Nat} {is : List Nat} (hi : i ∈ is) : ∀ {s : State}, (s.mapOf c).condition ≠ .inService →
    (is.foldl (fun t i => t.finishSlot m i) s).slotState m i ≠ .queued c := by
  have kept : ∀ (js : List Nat) (s : State), QueuesOpen s (js.foldl (fun t i => t.finishSlot m i) s) := by
    intro js
    induction js with
    | nil => exact fun s => .of_records fun _ => rfl
    | cons j js ih =>
      exact fun s => (queuesOpen_finishSlot s m j).trans (ih _) (filed_finishSlot s m j).resolved.condition
  obtain ⟨before, after, rfl⟩ := List.append_of_mem hi
  intro s hc e
  rw [List.foldl_append, List.foldl_cons] at e
  have first := (finishSlots_filed s m before).resolved.condition c
  have second := (filed_finishSlot (before.foldl (fun t i => t.finishSlot m i) s) m i).resolved.condition c
  rcases kept after _ m i c e with queued | serving
  · exact finishSlot_self (by rw [first]; exact hc) m i queued
  · exact hc ((second.trans first).symm.trans serving)

section
variable {s : State} {l : Nat}

/-- What giving up the entry in transmission does, by its three cases (R167, R168). -/
theorem giveUpCurrent_cases (s : State) (l : Nat) :
    ((s.ctxOf l).current = none ∧ s.giveUpCurrent l = (s, [])) ∨
      ∃ e, (s.ctxOf l).current = some e ∧
        (((s.ctxOf l).endSent = true ∧ s.giveUpCurrent l = ((s.abandonItem l).completeEntry l e, [])) ∨
          ((s.ctxOf l).endSent = false ∧ s.giveUpCurrent l = ((s.abandonItem l).setCtx l
            { (s.ctxOf l).toIdle with current := none, cut := true, origin := 0, lineStart := false }, [e]))) := by
  unfold State.giveUpCurrent
  dsimp only
  split
  next h => exact .inl ⟨h, rfl⟩
  next e h =>
    refine .inr ⟨e, h, ?_⟩
    cases hend : (s.ctxOf l).endSent with
    | true => exact .inl ⟨rfl, rfl⟩
    | false => exact .inr ⟨rfl, rfl⟩

theorem giveUpCurrent_rest (hl : l < 8) : ((s.giveUpCurrent l).1.ctxOf l).stack = (s.ctxOf l).stack ∧
    ((s.giveUpCurrent l).1.ctxOf l).queue = (s.ctxOf l).queue := by
  rcases giveUpCurrent_cases s l with ⟨-, h⟩ | ⟨e, -, ⟨-, h⟩ | ⟨-, h⟩⟩
  · rw [h]
    exact ⟨rfl, rfl⟩
  · rw [h]
    dsimp only
    rw [completeEntry_ctxOf hl]
    exact ⟨rfl, rfl⟩
  · rw [h]
    dsimp only
    rw [ctxOf_setCtx_self _ l _ hl]
    exact ⟨rfl, rfl⟩

/-- Every entry of the circuit is taken off it, or its end sequence has gone. -/
theorem mem_goneEntries (hl : l < 8) {e : Entry} (he : e ∈ (s.ctxOf l).entries) :
    e ∈ s.goneEntries l ∨ (s.ctxOf l).current = some e ∧ (s.ctxOf l).endSent = true := by
  obtain ⟨stack, queue⟩ := giveUpCurrent_rest (s := s) hl
  unfold State.goneEntries
  rw [stack, queue]
  rcases List.mem_append.mp he with he | he
  · rcases List.mem_append.mp he with he | he
    · have current : (s.ctxOf l).current = some e := Option.mem_toList.mp he
      rcases giveUpCurrent_cases s l with ⟨h, -⟩ | ⟨d, h, ⟨hend, -⟩ | ⟨-, h'⟩⟩
      · exact nomatch h.symm.trans current
      · exact .inr ⟨current, hend⟩
      · obtain rfl := Option.some.inj (h.symm.trans current)
        rw [h']
        exact .inl (List.mem_append_left _ (List.mem_append_left _ List.mem_cons_self))
    · exact .inl (List.mem_append_left _ (List.mem_append_right _ he))
  · exact .inl (List.mem_append_right _ he)

theorem mem_slotsOf {es : List Entry} {e : Entry} {i : Nat} (he : e ∈ es) (hi : i ∈ e.slots) : (e.record, i) ∈ slotsOf es :=
  List.mem_flatMap.mpr ⟨e, he, List.mem_map.mpr ⟨i, hi, rfl⟩⟩

theorem offCircuit_record (s : State) (l n : Nat) : (s.offCircuit l).record n = (s.giveUpCurrent l).1.record n := by
  unfold State.offCircuit
  split
  · rfl
  · exact (touch_record _ _ n).trans (touch_record _ _ n)

/-- Where the end sequence has not gone, no record changes when the entries are taken off. -/
theorem giveUpCurrent_record (h : (s.ctxOf l).endSent = false) (n : Nat) : (s.giveUpCurrent l).1.record n = s.record n := by
  rcases giveUpCurrent_cases s l with ⟨-, h'⟩ | ⟨e, -, ⟨hend, -⟩ | ⟨-, h'⟩⟩
  · rw [h']
  · exact nomatch h.symm.trans hend
  · rw [h']
    rfl

/-- An entry whose end sequence has gone leaves none of its slots QUEUED on the circuit. -/
theorem giveUpCurrent_notQueued (shut : s.Shut l) {e : Entry} (hc : (s.ctxOf l).current = some e)
    (hend : (s.ctxOf l).endSent = true) {i : Nat} (hi : i ∈ e.slots) :
    (s.giveUpCurrent l).1.slotState e.record i ≠ .queued (s.circuit l) := by
  rcases giveUpCurrent_cases s l with ⟨h, -⟩ | ⟨d, h, ⟨-, h'⟩ | ⟨h', -⟩⟩
  · exact nomatch h.symm.trans hc
  · obtain rfl := Option.some.inj (h.symm.trans hc)
    have done := finishSlots_notQueued (m := d.record) (c := s.circuit l) hi (s := s.abandonItem l) shut
    rw [h']
    have same : ((s.abandonItem l).completeEntry l d).slotState d.record i =
        (d.slots.foldl (fun t i => t.finishSlot d.record i) (s.abandonItem l)).slotState d.record i :=
      slotState_congr ((touch_record _ _ _).trans (touch_record _ _ _)) i
    rw [same]
    exact done
  · exact nomatch h'.symm.trans hend

/-! ## A line failure at the dispatch -/

theorem moves_dispatchFailure (h : s.hasCtx l = true) :
    Moves ((s.offCircuit l).detached (slotsOf (s.goneEntries l))) (s.dispatchFailure l).1 := by
  rw [dispatchFailure_off h]
  exact (moves_reResolve _ _).trans (moves_reexamine _)

/-- The circuit is left with no entry (R167). -/
theorem dispatchFailure_emptied (hl : l < 8) (hs : SendIdleIffNoEntry s) (shut : s.Shut l) (h : s.hasCtx l = true) :
    ((s.dispatchFailure l).1.ctxOf l).Off (s.ctxOf l).next := by
  have sent := sent_offCircuit s l
  have filed := filed_detached (s.offCircuit l) (slotsOf (s.goneEntries l))
  have shut' : ((s.offCircuit l).detached (slotsOf (s.goneEntries l))).Shut l :=
    filed.resolved.shut (shut_congr sent.station (by rw [mapOf_congr sent.map]) shut)
  rw [(moves_dispatchFailure h).ctxOf shut', filed.ctxOf]
  exact offCircuit_off hl hs

/-- No slot that the circuit's entries served is QUEUED on it. -/
theorem dispatchFailure_notQueued (hl : l < 8) (shut : s.Shut l) (h : s.hasCtx l = true) {e : Entry}
    (he : e ∈ (s.ctxOf l).entries) {i : Nat} (hi : i ∈ e.slots) :
    (s.dispatchFailure l).1.slotState e.record i ≠ .queued (s.circuit l) := by
  have sent := sent_offCircuit s l
  have filed := (filed_detached (s.offCircuit l) (slotsOf (s.goneEntries l))).resolved
  have condition : ((((s.offCircuit l).detached (slotsOf (s.goneEntries l)))).mapOf (s.circuit l)).condition =
      (s.mapOf (s.circuit l)).condition := (filed.condition _).trans (by rw [mapOf_congr sent.map])
  have detached : ((s.offCircuit l).detached (slotsOf (s.goneEntries l))).slotState e.record i ≠ .queued (s.circuit l) := by
    rcases mem_goneEntries hl he with gone | ⟨current, hend⟩
    · exact detached_notQueued (mem_slotsOf gone hi) _
    · refine detached_keeps _ ?_
      rw [slotState_congr (offCircuit_record s l e.record)]
      exact giveUpCurrent_notQueued shut current hend hi
  intro queued
  rcases (moves_dispatchFailure h).queuesOpen _ _ _ queued with queued | serving
  · exact detached queued
  · exact shut (condition.symm.trans serving)

/-- Where no route leads to the own service and the end sequence has not gone, each slot that was not DONE is in place. -/
theorem dispatchFailure_inPlace (hl : l < 8) (hn : s.noOwnService) (h : s.hasCtx l = true) {e : Entry}
    (he : e ∈ (s.ctxOf l).entries) (hend : (s.ctxOf l).endSent = false) {i : Nat} (hi : i ∈ e.slots)
    (live : SlotIs SlotState.Live e.record i s) : SlotIs SlotState.InPlace e.record i (s.dispatchFailure l).1 := by
  have sent := sent_offCircuit s l
  have none : (s.offCircuit l).noOwnService := (noOwnService_congr sent.cfg sent.station).mpr hn
  have gone : e ∈ s.goneEntries l := (mem_goneEntries hl he).resolve_right fun g => nomatch hend.symm.trans g.2
  have off : SlotIs SlotState.Live e.record i (s.offCircuit l) :=
    live.of_record ((offCircuit_record s l e.record).trans (giveUpCurrent_record hend e.record))
  have resolved := resolved_reResolve (s.offCircuit l) (slotsOf (s.goneEntries l))
  rw [dispatchFailure_off h]
  exact (moves_reexamine _).slotIs (fun _ => id) (fun _ h => h.1) ((noOwnService_congr resolved.cfg resolved.station).mpr none)
    (reResolve_inPlace none (mem_slotsOf gone hi) off)

end

/-! ## A line failure -/

theorem opens_lineFails {l : Nat} (hl : l < 8) (s : State) (img : Image) :
    Opens l (s.dispatched l) (s.lineFails img l).finish := by
  have O := opening_opens hl
  obtain ⟨c, d, shape⟩ := lineFails_shape s img l
  have opened : Opens l (s.dispatched l) ((s.failed l c).lineOpen img l d) :=
    (O.test (s.dispatched l) l false c).trans (O.lineOpen _ img l d)
  refine Opens.trans ?_ (opens_finish _)
  rcases shape with h | ⟨r, h⟩
  · rw [h]
    exact opened
  · rw [h]
    exact opened.trans (O.request _ r)

end Sys2Proof.Machine

/-! PROOF. A FILLING record while slots are resolved (R40, R58, R68): it stays FILLING and the same message, and where no slot of
it is given back, nothing of it changes. -/

namespace Sys2Proof.Machine

/-! ## A FILLING record under the resolver -/

/-- From `s` to `t` record `m`, when FILLING, stays so, and the same message. -/
def StaysFilling (m : Nat) (s t : State) : Prop :=
  (s.record m).state = .filling → (t.record m).state = .filling ∧ SameMessage (s.record m) (t.record m)

section
variable {m : Nat}

theorem StaysFilling.trans {s t u : State} (h : StaysFilling m s t) (k : StaysFilling m t u) : StaysFilling m s u := fun f =>
  let ⟨g, same⟩ := h f
  let ⟨g', same'⟩ := k g
  ⟨g', same.trans same'⟩

theorem StaysFilling.of_record {s t : State} (h : t.record m = s.record m) : StaysFilling m s t := fun f => by
  rw [h]
  exact ⟨f, .refl _⟩

theorem StaysFilling.refl (s : State) : StaysFilling m s s := .of_record rfl

theorem StaysFilling.foldl {α : Type} {f : State → α → State} (h : ∀ s a, StaysFilling m s (f s a)) (as : List α) (s : State) :
    StaysFilling m s (as.foldl f s) := foldl_keeps (StaysFilling m) .refl .trans f h as s

theorem StaysFilling.of_only {s t : State} {j : Nat} (hj : m ≠ j) (h : OnlyRecord j s t) : StaysFilling m s t := fun f =>
  StaysFilling.of_record (h m hj (by rw [f]; decide)) f

/-- A record rewritten as the same message. -/
theorem staysFilling_setRecord (s : State) (j : Nat) {r : Record} (h : SameMessage (s.record j) r) :
    StaysFilling m s (s.setRecord j r) := by
  by_cases hj : m = j
  · subst hj
    intro f
    have same : SameMessage (s.record m) ((s.setRecord m r).record m) :=
      record_setRecord_of (P := SameMessage (s.record m)) s m m r (fun _ => h) (.refl _)
    exact ⟨same.state.trans f, same⟩
  · exact .of_only hj (.setRecord s r)

theorem sameMessage_setSlot {r : Record} {i : Nat} {sl x : Slot} (hsl : r.slots[i]? = some sl)
    (hd : x.dest = .pseudo ∨ x.dest = sl.dest) : SameMessage r { r with slots := r.slots.set i x } where
  fields := rfl
  intercept _ := rfl
  count := List.length_set
  dest k y hy := by
    by_cases hk : i = k
    · subst hk
      rw [List.getElem?_set_self (List.getElem?_eq_some_iff.mp hsl).1] at hy
      cases hy
      exact hd.imp id fun h => ⟨sl, hsl, h⟩
    · rw [List.getElem?_set_ne hk] at hy
      exact .inr ⟨y, hy, rfl⟩

theorem Wrote.staysFilling {j i : Nat} {sl x : Slot} {s t : State} (w : Wrote j i x s t) (hsl : s.slot j i = some sl)
    (hd : x.dest = .pseudo ∨ x.dest = sl.dest) : StaysFilling m s t := by
  by_cases hj : m = j
  · subst hj
    intro f
    rw [w.record]
    exact ⟨f, sameMessage_setSlot hsl hd⟩
  · exact .of_record (w.others m hj)

theorem SlotSet.staysFilling {P : SlotState → Prop} {s t : State} (h : SlotSet P s t) : StaysFilling m s t := by
  rcases h with same | ⟨j, i, sl, st, -, hsl, wrote, -⟩
  · exact .of_record (same m)
  · exact wrote.staysFilling hsl (.inr rfl)

theorem staysFilling_setSlotState (s : State) (j i : Nat) (st : SlotState) : StaysFilling m s (s.setSlotState j i st) :=
  (slotSet_setSlotState (P := fun _ => True) s j i trivial).staysFilling

theorem staysFilling_releaseIfDone (s : State) (j : Nat) : StaysFilling m s (s.releaseIfDone j) := by
  by_cases hj : m = j
  · subst hj
    intro f
    have stays : s.releaseIfDone m = s := by
      refine if_neg fun h => ?_
      rw [f] at h
      exact nomatch h.1
    rw [stays]
    exact ⟨f, .refl _⟩
  · exact .of_only hj (only_releaseIfDone s)

theorem Moves.staysFilling {s t : State} (h : Moves s t) : StaysFilling m s t := by
  induction h with
  | trans _ _ ih₁ ih₂ => exact ih₁.trans ih₂
  | other _ hs _ _ => exact .of_record (by rw [State.record, State.record, hs])
  | place s j i c _ _ => exact (slotSet_placeOwn (P := fun _ => True) s j i _ trivial trivial).staysFilling
  | carry s j i x => exact staysFilling_setSlotState s j i _
  | hold s j i w => exact (slotSet_holdSlot (P := fun _ => True) s j i w trivial).staysFilling
  | bound s j w =>
    refine staysFilling_setRecord s j ⟨rfl, fun h => ?_, rfl, fun _ x hx => .inr ⟨x, hx, rfl⟩⟩
    obtain ⟨v, hv⟩ := Option.ne_none_iff_exists'.mp h
    simp only [Record.toIntercept, hv, Option.getD_some]
  | release s j => exact staysFilling_releaseIfDone s j
  | serve s j _ => exact staysFilling_setRecord s j ⟨rfl, fun _ => rfl, rfl, fun _ x hx => .inr ⟨x, hx, rfl⟩⟩
  | finish s j i x _ => exact staysFilling_setSlotState s j i _
  | pseudo s j i sl _ hsl => exact (wrote_setSlot s (lt_of_slot hsl) i _).staysFilling hsl (.inl rfl)
  | @report s t j c _ _ _ hfree others _ _ =>
    intro f
    exact StaysFilling.of_record (others m fun e => by subst e; exact nomatch hfree.symm.trans f) f

end

/-! ## Through a line failure's dispatch -/

section
variable {s : State} {l m : Nat}

theorem staysFilling_giveUpCurrent (s : State) (l : Nat) : StaysFilling m s (s.giveUpCurrent l).1 := by
  have finished : ∀ (t : State) (j i : Nat), StaysFilling m t (t.finishSlot j i) := fun t j i =>
    (staysFilling_setSlotState t j i _).trans (staysFilling_releaseIfDone _ j)
  rcases giveUpCurrent_cases s l with ⟨-, h⟩ | ⟨e, -, ⟨-, h⟩ | ⟨-, h⟩⟩
  · rw [h]
    exact .refl s
  · rw [h]
    have slots : StaysFilling m (s.abandonItem l) (e.slots.foldl (fun t i => t.finishSlot e.record i) (s.abandonItem l)) :=
      .foldl (fun t i => finished t e.record i) _ _
    exact (StaysFilling.of_record (t := s.abandonItem l) rfl).trans
      (slots.trans (.of_record ((touch_record _ _ _).trans (touch_record _ _ _))))
  · rw [h]
    exact .of_record rfl

theorem staysFilling_detached (s : State) (slots : List (Nat × Nat)) : StaysFilling m s (s.detached slots) :=
  StaysFilling.foldl (f := fun t (x : Nat × Nat) => t.setSlotState x.1 x.2 .unrouted)
    (fun t x => staysFilling_setSlotState t x.1 x.2 .unrouted) (s.live slots) s

theorem staysFilling_dispatchFailure (s : State) (l : Nat) : StaysFilling m s (s.dispatchFailure l).1 := by
  cases h : s.hasCtx l with
  | true =>
    have off : StaysFilling m s (s.offCircuit l) := (staysFilling_giveUpCurrent s l).trans (.of_record (offCircuit_record s l m))
    exact (off.trans (staysFilling_detached _ _)).trans (moves_dispatchFailure h).staysFilling
  | false =>
    rw [dispatchFailure_none h]
    exact .refl s

/-- A list of slots worked through, none of them of record `m`. -/
theorem foldl_record {f : State → Nat × Nat → State} (only : ∀ t x, OnlyRecord x.1 t (f t x)) (xs : List (Nat × Nat))
    (hx : ∀ x ∈ xs, m ≠ x.1) : ∀ s : State, (s.record m).state ≠ .free → (xs.foldl f s).record m = s.record m := by
  induction xs with
  | nil => exact fun s _ => rfl
  | cons x xs ih =>
    intro s hs
    have one := only s x m (hx x List.mem_cons_self) hs
    rw [List.foldl_cons, ih (fun y hy => hx y (List.mem_cons_of_mem x hy)) _ (by rw [one]; exact hs), one]

theorem only_resolve (old : Option Target) (s : State) (m i : Nat) :
    OnlyRecord m s (s.resolveWith (State.serviceTake old) m i none) :=
  only_resolveWith (fun t i => only_serviceTake old t i) s i none

/-- A re-resolution that gives back no slot of record `m` leaves it. -/
theorem reResolve_record {slots : List (Nat × Nat)} (hx : ∀ x ∈ slots, m ≠ x.1) (hs : (s.record m).state ≠ .free) :
    (s.reResolve slots).record m = s.record m := by
  have live : ∀ x ∈ s.live slots, m ≠ x.1 := fun x h => hx x (mem_live.mp h).1
  have detached : (s.detached slots).record m = s.record m :=
    foldl_record (fun t x => only_setSlotState t x.2 _) _ live s hs
  rw [reResolve_eq, foldl_record (f := s.resolveAgain) (fun t x => .ite (only_resolve _ t x.1 x.2) (.refl t)) _ live _ (by rw [detached]; exact hs),
    detached]

/-- A re-examination leaves a FILLING record: the held list has none of its slots. -/
theorem reexamine_record (hf : (s.record m).state = .filling) : s.reexamine.record m = s.record m := by
  refine foldl_record (fun t x => .ite (only_resolve _ t x.1 x.2) (.refl t)) _ (fun x hx e => ?_) s (by rw [hf]; decide)
  subst e
  exact nomatch hf.symm.trans (mem_heldList hx).2.1

theorem mem_entries_of_gone (hl : l < 8) {e : Entry} (he : e ∈ s.goneEntries l) : e ∈ (s.ctxOf l).entries := by
  obtain ⟨stack, queue⟩ := giveUpCurrent_rest (s := s) hl
  unfold State.goneEntries at he
  rw [stack, queue] at he
  rcases List.mem_append.mp he with he | he
  · rcases List.mem_append.mp he with he | he
    · rcases giveUpCurrent_cases s l with ⟨-, h⟩ | ⟨d, h, ⟨-, h'⟩ | ⟨-, h'⟩⟩
      · rw [h] at he
        exact absurd he List.not_mem_nil
      · rw [h'] at he
        exact absurd he List.not_mem_nil
      · rw [h'] at he
        obtain rfl := List.mem_singleton.mp he
        exact List.mem_append_left _ (List.mem_append_left _ (Option.mem_toList.mpr h))
    · exact List.mem_append_left _ (List.mem_append_right _ he)
  · exact List.mem_append_right _ he

/-- A line failure at the dispatch leaves a FILLING record that none of the circuit's entries bears. -/
theorem dispatchFailure_record (hl : l < 8) (hf : (s.record m).state = .filling)
    (he : ∀ e ∈ (s.ctxOf l).entries, e.record ≠ m) : (s.dispatchFailure l).1.record m = s.record m := by
  have free : (s.record m).state ≠ .free := by rw [hf]; decide
  have given : (s.giveUpCurrent l).1.record m = s.record m := by
    rcases giveUpCurrent_cases s l with ⟨-, h⟩ | ⟨e, hc, ⟨-, h⟩ | ⟨-, h⟩⟩
    · rw [h]
    · have apart : m ≠ e.record := fun h' =>
        he e (List.mem_append_left _ (List.mem_append_left _ (Option.mem_toList.mpr hc))) h'.symm
      have slots : OnlyRecord e.record (s.abandonItem l) (e.slots.foldl (fun t i => t.finishSlot e.record i) (s.abandonItem l)) :=
        .foldl (fun t i => only_finishAs t i _) _ _
      rw [h]
      exact ((touch_record _ _ _).trans (touch_record _ _ _)).trans (slots m apart free)
    · rw [h]
      rfl
  have off : (s.offCircuit l).record m = s.record m := (offCircuit_record s l m).trans given
  cases h : s.hasCtx l with
  | true =>
    have again : ((s.offCircuit l).reResolve (slotsOf (s.goneEntries l))).record m = s.record m := by
      refine (reResolve_record (fun x hx e => ?_) (by rw [off]; exact free)).trans off
      obtain ⟨d, hd, hx⟩ := List.mem_flatMap.mp hx
      obtain ⟨i, -, rfl⟩ := List.mem_map.mp hx
      exact he d (mem_entries_of_gone hl hd) e.symm
    rw [dispatchFailure_off h, reexamine_record (by rw [again]; exact hf), again]
  | false => rw [dispatchFailure_none h]

theorem updateCondition_record (s : State) (l n : Nat) : (s.updateCondition l).record n = s.record n := by
  rw [State.record, State.record, (updateCondition_parts s l).1]

theorem withdrawalTest_only (s : State) (l : Nat) (q : Bool) (c : Option FailureCounts) (hs : (s.record m).state ≠ .free) :
    (s.withdrawalTest l q c).record m = s.record m := by
  have updated : ((s.setAdmin l .withdrawn).updateCondition l).record m = s.record m := updateCondition_record _ l m
  unfold State.withdrawalTest
  dsimp only
  generalize (s.setAdmin l .withdrawn).updateCondition l = u at updated
  have hunts : (if (u.masOf l).mode = .discard then u.setMas l (u.masOf l).toHunt else u).record m = s.record m := by
    split <;> exact updated
  split
  · split
    · exact hunts
    · rw [request_record _ _ m (by rw [hunts]; exact hs), hunts]
  · rfl

theorem staysFilling_failed (s : State) (l : Nat) (c : Option FailureCounts) : StaysFilling m s (s.failed l c) := by
  have dispatched : StaysFilling m s (s.dispatched l) := by
    unfold State.dispatched
    split
    · exact .refl s
    · exact (StaysFilling.of_record (updateCondition_record s l m)).trans (staysFilling_dispatchFailure _ l)
  intro f
  obtain ⟨g, same⟩ := dispatched f
  have tested : (s.failed l c).record m = (s.dispatched l).record m := withdrawalTest_only _ l false c (by rw [g]; decide)
  rw [tested]
  exact ⟨g, same⟩

theorem failed_record (hl : l < 8) (hf : (s.record m).state = .filling) (he : ∀ e ∈ (s.ctxOf l).entries, e.record ≠ m)
    (c : Option FailureCounts) : (s.failed l c).record m = s.record m := by
  have dispatched : (s.dispatched l).record m = s.record m := by
    unfold State.dispatched
    split
    · rfl
    · have same := updateCondition_record s l m
      have ctx := ctxOf_congr (updateCondition_parts s l).2 l
      rw [dispatchFailure_record hl (by rw [same]; exact hf) (by rw [ctx]; exact he), same]
  exact (withdrawalTest_only _ l false c (by rw [dispatched, hf]; decide)).trans dispatched

theorem withdrawalTest_discard (hl : l < 8) (h : (s.masOf l).mode = .discard) (q : Bool) (c : Option FailureCounts) :
    ((s.withdrawalTest l q c).masOf l).mode = .discard ∨ ((s.withdrawalTest l q c).masOf l).mode = .hunt := by
  have updated : ((s.setAdmin l .withdrawn).updateCondition l).masOf l = s.masOf l :=
    masOf_congr (traffic_updateCondition (s.setAdmin l .withdrawn) l).mas l
  unfold State.withdrawalTest
  dsimp only
  generalize (s.setAdmin l .withdrawn).updateCondition l = u at updated
  rw [if_pos (c := (u.masOf l).mode = .discard) (by rw [updated]; exact h)]
  have hunts : ((u.setMas l (u.masOf l).toHunt).masOf l).mode = .hunt := by
    rw [masOf_setMas_self u l _ hl]
    rfl
  split
  · split
    · exact .inr hunts
    · exact .inr (by rw [masOf_congr (resolved_request _ _).mas]; exact hunts)
  · exact .inl h

/-- An assembler in TEXT after the dispatch's part of a line failure was so before, and is as it was. -/
theorem failed_text (hl : l < 8) (c : Option FailureCounts) :
    ((s.masOf l).mode = .text → (s.failed l c).masOf l = s.masOf l) ∧
      (((s.failed l c).masOf l).mode = .text → (s.failed l c).masOf l = s.masOf l) := by
  have same := masOf_congr (dispatched_mas s l) l
  by_cases h : (s.masOf l).mode = .discard
  · refine ⟨fun text => absurd (h.symm.trans text) nofun, fun text => ?_⟩
    rcases withdrawalTest_discard (s := s.dispatched l) hl (by rw [same]; exact h) false c with k | k
    · exact absurd (k.symm.trans text) nofun
    · exact absurd (k.symm.trans text) nofun
  · have tested := withdrawalTest_masOf (s := s.dispatched l) (l := l) (by rw [same]; exact h) l false c
    exact ⟨fun _ => tested.trans same, fun _ => tested.trans same⟩

end

end Sys2Proof.Machine

/-! PROOF. The records of the receive side at the line-open event (R38, R115, R118, R169): the lookahead stored as far as the
store grants it, the message under way closed, and the receive stack closed. -/

namespace Sys2Proof.Machine

/-! ## Symbols stored -/

/-- `b` is record `a` with symbols added behind its text. -/
def Record.Grown (added : List Symbol) (a b : Record) : Prop :=
  b = { a with text := a.text ++ added, chain := b.chain, errors := b.errors }

theorem Record.Grown.refl (a : Record) : Record.Grown [] a a := by
  unfold Record.Grown
  rw [List.append_nil]

theorem Record.Grown.trans {x y : List Symbol} {a b c : Record} (h : Record.Grown x a b) (k : Record.Grown y b c) :
    Record.Grown (x ++ y) a c := by
  unfold Record.Grown at *
  rw [k, h]
  simp only [List.append_assoc]

theorem write_grown {r : Record} (hf : r.state = .filling) (hlen : r.text.length < 4096) (σ : Symbol) :
    Record.Grown [σ] r (r.write σ) := by
  rw [Record.write, if_pos ⟨hf, hlen⟩]
  rfl

theorem lt_of_filling {s : State} {m : Nat} (hf : (s.record m).state = .filling) : m < 128 := by
  by_contra hm
  rw [record_out s m hm] at hf
  cases hf

theorem grantBlock_record {s t : State} {m : Nat} (h : s.grantBlock m = some t) :
    Record.Grown [] (s.record m) (t.record m) ∧ OnlyRecord m s t := by
  unfold State.grantBlock at h
  dsimp only at h
  split at h
  · cases h
    refine ⟨?_, (only_setPool s _).trans (.setRecord _ _)⟩
    refine record_setRecord_of (P := Record.Grown [] (s.record m)) _ m m _ (fun _ => ?_) ?_
    · unfold Record.Grown
      rw [List.append_nil]
    · rw [setPool_record]
      exact .refl _
  · cases h

section
variable {img : Image} {l m : Nat}

/-- One symbol stored in the current record, or the reason why it fails (R33, R38). -/
theorem storeSymbol_cases (hl : l < 8) {s : State} (hcur : (s.masOf l).current = some m) (σ : Symbol) :
    (∃ t, s.storeSymbol img l σ = (t, none) ∧ (t.masOf l).current = some m ∧ OnlyRecord m s t ∧
        ((s.record m).state = .filling → Record.Grown [σ] (s.record m) (t.record m))) ∨
      ∃ w, (w = .noStore ∨ w = .length) ∧ s.storeSymbol img l σ = (s, some w) := by
  have put : ∀ v : State, v.masOf l = s.masOf l → OnlyRecord m s v → (s.record m).text.length < 4096 →
      Record.Grown [] (s.record m) (v.record m) →
      ∃ t, (if means img .lf σ then (v.write m σ).setMas l { (v.write m σ).masOf l with lineStart := true } else v.write m σ) = t ∧
        (t.masOf l).current = some m ∧ OnlyRecord m s t ∧
        ((s.record m).state = .filling → Record.Grown [σ] (s.record m) (t.record m)) := by
    intro v mas only hlen grown
    have text : (v.record m).text.length < 4096 := by
      rw [show v.record m = _ from grown]
      simpa using hlen
    have written : (s.record m).state = .filling → Record.Grown [σ] (s.record m) ((v.write m σ).record m) := fun hf => by
      have state : (v.record m).state = .filling := by
        rw [show v.record m = _ from grown]
        exact hf
      rw [State.write, record_setRecord_self v m _ (lt_of_filling hf)]
      exact grown.trans (write_grown state text σ)
    have current : ((v.write m σ).masOf l).current = some m := (congrArg Mas.current mas).trans hcur
    have left : OnlyRecord m s (v.write m σ) := only.trans (.setRecord v _)
    refine ⟨_, rfl, ?_⟩
    split
    · refine ⟨?_, left.trans (.store rfl), written⟩
      rw [masOf_setMas_self _ l _ hl]
      exact current
    · exact ⟨current, left, written⟩
  unfold State.storeSymbol
  rw [hcur]
  dsimp only
  split
  · exact .inr ⟨_, .inr rfl, rfl⟩
  next hlen =>
    have short : (s.record m).text.length < 4096 := Nat.not_le.mp hlen
    split
    · obtain ⟨t, ht, h⟩ := put s rfl (.refl s) short (.refl _)
      exact .inl ⟨t, by rw [ht], h⟩
    · split
      next v hv =>
        obtain ⟨grown, only⟩ := grantBlock_record hv
        obtain ⟨t, ht, h⟩ := put v (masOf_congr (filed_grantBlock hv).resolved.mas l) only short grown
        exact .inl ⟨t, by rw [ht], h⟩
      next => exact .inr ⟨_, .inl rfl, rfl⟩

/-- Symbols stored in order: all of them, or those before the one that fails, at which the record is truncated (R34, R38). -/
theorem storeAll_cases (hl : l < 8) (σs : List Symbol) : ∀ {s : State}, (s.masOf l).current = some m →
    ∃ v kept, Lined l s v ∧ (v.masOf l).current = some m ∧ OnlyRecord m s v ∧ (σs = [] → v.record m = s.record m) ∧
      ((s.record m).state = .filling → Record.Grown kept (s.record m) (v.record m)) ∧
      ((kept = σs ∧ s.storeAll img l σs = (v, false)) ∨
        ∃ w σ lost b, (w = .noStore ∨ w = .length) ∧ σs = kept ++ σ :: lost ∧ s.storeAll img l σs = (v.truncate l w b, true)) := by
  induction σs with
  | nil =>
    intro s hcur
    exact ⟨s, [], .refl l s, hcur, .refl s, fun _ => rfl, fun _ => .refl _, .inl ⟨rfl, rfl⟩⟩
  | cons σ rest ih =>
    intro s hcur
    rcases storeSymbol_cases (img := img) hl hcur σ with ⟨t, stored, current, only, grown⟩ | ⟨w, hw, failed⟩
    · obtain ⟨v, kept, lined, current', only', -, grown', shape⟩ := ih current
      have first : Lined l s t := by
        have h := lined_storeSymbol s img l σ
        rw [stored] at h
        exact h
      have unfolded : s.storeAll img l (σ :: rest) = t.storeAll img l rest := by
        conv_lhs => unfold State.storeAll
        rw [stored]
      refine ⟨v, σ :: kept, first.trans lined, current', only.trans only', nofun, fun hf => ?_, ?_⟩
      · have here := grown hf
        exact here.trans (grown' (by rw [show t.record m = _ from here]; exact hf))
      · rw [unfolded]
        rcases shape with ⟨rfl, h⟩ | ⟨w, τ, lost, b, hw, hsplit, h⟩
        · exact .inl ⟨rfl, h⟩
        · exact .inr ⟨w, τ, lost, b, hw, by rw [hsplit]; rfl, h⟩
    · refine ⟨s, [], .refl l s, hcur, .refl s, nofun, fun _ => .refl _, .inr ⟨w, σ, rest, means img .lf σ, hw, rfl, ?_⟩⟩
      conv_lhs => unfold State.storeAll
      rw [failed]

theorem truncate_record {s : State} (hcur : (s.masOf l).current = some m) (w : MutReason) (b : Bool) (n : Nat) :
    (s.truncate l w b).record n = (s.closeRecord l m (some w)).record n := by
  unfold State.truncate
  split
  next h => exact nomatch h.symm.trans hcur
  next k h =>
    obtain rfl := Option.some.inj (h.symm.trans hcur)
    exact setMas_record _ l _ n

/-- Symbols stored, and the record closed with the line when none of them failed: it is closed in any case. -/
theorem storeAll_closed (hl : l < 8) (σs : List Symbol) {s : State} (hcur : (s.masOf l).current = some m) :
    ∃ v w kept, Lined l s v ∧ OnlyRecord m s v ∧ (σs = [] → v.record m = s.record m) ∧
      ((s.record m).state = .filling → Record.Grown kept (s.record m) (v.record m)) ∧
      ((w = .line ∧ kept = σs) ∨ (w = .noStore ∨ w = .length) ∧ ∃ σ lost, σs = kept ++ σ :: lost) ∧
      ∀ n, (if (s.storeAll img l σs).2 then (s.storeAll img l σs).1
        else (s.storeAll img l σs).1.closeRecord l m (some .line)).record n = (v.closeRecord l m (some w)).record n := by
  obtain ⟨v, kept, lined, current, only, empty, grown, ⟨hk, h⟩ | ⟨w, σ, lost, b, hw, hsplit, h⟩⟩ :=
    storeAll_cases (img := img) hl σs hcur
  · refine ⟨v, .line, kept, lined, only, empty, grown, .inl ⟨rfl, hk⟩, fun n => ?_⟩
    rw [h, if_neg Bool.false_ne_true]
  · refine ⟨v, w, kept, lined, only, empty, grown, .inr ⟨hw, σ, lost, hsplit⟩, fun n => ?_⟩
    rw [h, if_pos rfl]
    exact truncate_record current w b n

end

/-! ## The message under way -/

section
variable {s : State} {img : Image} {l : Nat}

/-- The line-open event closes no other record than the message under way: a FREE one, or the current record in TEXT. -/
theorem closeUnderWay_record_ne (hl : l < 8) {j : Nat} (hj : (s.record j).state ≠ .free)
    (hne : (s.masOf l).mode = .text → (s.masOf l).current ≠ some j) : (s.closeUnderWay img l).record j = s.record j := by
  have closed : ∀ {t : State} {m : Nat} (σs : List Symbol), (t.masOf l).current = some m → j ≠ m →
      (t.record j).state ≠ .free → (if (t.storeAll img l σs).2 then (t.storeAll img l σs).1
        else (t.storeAll img l σs).1.closeRecord l m (some .line)).record j = t.record j := by
    intro t m σs hcur hjm ht
    obtain ⟨v, w, -, -, only, -, -, -, h⟩ := storeAll_closed (img := img) hl σs hcur
    rw [h, only_closeRecord v l (some w) j hjm (by rw [only j hjm ht]; exact ht), only j hjm ht]
  unfold State.closeUnderWay
  dsimp only
  split
  · rfl
  · rfl
  next hmode =>
    split
    next m t ht =>
      obtain ⟨-, free, -, others⟩ := grantRecord_record ht
      have hjm : j ≠ m := fun e => by subst e; exact hj free
      have begun : (t.beginBadHead l m).record j = s.record j :=
        (record_setRecord_ne t m j _ (Ne.symm hjm)).trans (others j hjm)
      have current : ((t.beginBadHead l m).masOf l).current = some m := by
        rw [State.beginBadHead, masOf_setMas_self _ l _ hl]
        rfl
      rw [closed (s.masOf l).header current hjm (by rw [begun]; exact hj), begun]
    next => exact request_record s _ j hj
  next hmode =>
    split
    next => rfl
    next m hcur =>
      exact closed (s.masOf l).look hcur (fun e => hne hmode (by rw [hcur, e])) hj

/-- The message under way in TEXT: the lookahead stored as far as it goes, and the record closed. -/
theorem closeUnderWay_text (hl : l < 8) {m : Nat} (hmode : (s.masOf l).mode = .text) (hcur : (s.masOf l).current = some m)
    (hf : (s.record m).state = .filling) :
    ∃ v w kept, Lined l s v ∧ ((s.masOf l).look = [] → v.record m = s.record m) ∧
      Record.Grown kept (s.record m) (v.record m) ∧
      ((w = .line ∧ kept = (s.masOf l).look) ∨
        (w = .noStore ∨ w = .length) ∧ ∃ σ lost, (s.masOf l).look = kept ++ σ :: lost) ∧
      ∀ n, (s.closeUnderWay img l).record n = (v.closeRecord l m (some w)).record n := by
  obtain ⟨v, w, kept, lined, -, empty, grown, why, same⟩ := storeAll_closed (img := img) hl (s.masOf l).look hcur
  have under : s.closeUnderWay img l = if (s.storeAll img l (s.masOf l).look).2 then (s.storeAll img l (s.masOf l).look).1
      else (s.storeAll img l (s.masOf l).look).1.closeRecord l m (some .line) := by
    unfold State.closeUnderWay
    dsimp only
    rw [hmode, hcur]
  exact ⟨v, w, kept, lined, empty, grown hf, why, fun n => by rw [under, same]⟩

/-! ## The records after the message under way -/

theorem handles_withdrawalTest (s : State) (l : Nat) (q : Bool) (c : Option FailureCounts) : Handles s (s.withdrawalTest l q c) := by
  have updated : Handles s ((s.setAdmin l .withdrawn).updateCondition l) := .store (updateCondition_parts _ l).1
  unfold State.withdrawalTest
  dsimp only
  generalize (s.setAdmin l .withdrawn).updateCondition l = u at updated
  have hunts : Handles s (if (u.masOf l).mode = .discard then u.setMas l (u.masOf l).toHunt else u) :=
    .ite (updated.trans (.store rfl)) updated
  exact .ite (.ite hunts (hunts.trans (handles_request _ _))) (.refl s)

/-- A record off the receive stack once the message under way is closed. -/
theorem lineOpen_unstacked (hl : l < 8) (c : Option FailureCounts) {m : Nat} (hm : m ∉ (s.masOf l).rstack) :
    Handled ((s.closeUnderWay img l).record m) ((s.lineOpen img l c).record m) ∧
      (((s.closeUnderWay img l).record m).state ≠ .free →
        (s.lineOpen img l c).record m = (s.closeUnderWay img l).record m) := by
  have stack := (keepsStack_closeUnderWay hl s img).2
  have hunts : ((s.closeUnderWay img l).toHunt l).record m = (s.closeUnderWay img l).record m := rfl
  rw [lineOpen_eq, stack]
  refine ⟨?_, fun hfree => ?_⟩
  · rw [← hunts]
    exact (handles_withdrawalTest _ l false c m).trans (closeAll_handled_ne hm)
  · have tested := withdrawalTest_only ((s.closeUnderWay img l).toHunt l) l false c (m := m) hfree
    rw [closeAll_record_ne hm (by rw [tested]; exact hfree), tested, hunts]

/-- The receive stack closed (R118). -/
theorem lineOpen_stacked (hl : l < 8) (c : Option FailureCounts) (hnodup : (s.masOf l).rstack.Nodup) {j : Nat}
    (hj : j ∈ (s.masOf l).rstack) (hlt : j < 128) (hf : (s.record j).state = .filling) (hs : (s.record j).slots ≠ [])
    (hw : (s.record j).mutilated = none) (hne : (s.masOf l).mode = .text → (s.masOf l).current ≠ some j) :
    ∃ r stamp, r = { s.record j with state := .standing, stamp := some stamp, mutilated := some .line } ∧
      Handled r ((s.lineOpen img l c).record j) ∧
      (s.noOwnService → (∀ sl ∈ (s.record j).slots, sl.state = .unrouted) →
        ((s.lineOpen img l c).record j).Active ∧ SameMessage r ((s.lineOpen img l c).record j)) := by
  have stack := (keepsStack_closeUnderWay hl s img).2
  let u := ((s.closeUnderWay img l).toHunt l).withdrawalTest l false c
  have under : (s.closeUnderWay img l).record j = s.record j := closeUnderWay_record_ne hl (by rw [hf]; decide) hne
  have same : u.record j = s.record j := by
    have hunts : ((s.closeUnderWay img l).toHunt l).record j = s.record j := under
    exact (withdrawalTest_only _ l false c (by rw [hunts, hf]; decide)).trans hunts
  have lined : Lined l s u :=
    ((lined_closeUnderWay s img l).trans (lined_setMas _ l _)).trans (lined_withdrawalTest _ l false c)
  have closed := closeAll_record (s := u) (l := l) (w := .line) hnodup hj hlt (by rw [same]; exact hf) (by rw [same]; exact hs)
    (by rw [same]; exact hw)
  rw [same] at closed
  obtain ⟨r, stamp, hr, handled, message⟩ := closed
  rw [lineOpen_eq, stack]
  exact ⟨r, stamp, hr, handled, fun hn => message ((noOwnService_congr lined.cfg lined.station).mpr hn)⟩

end

end Sys2Proof.Machine

/-! PROOF. The open-line expiry (R16, R118, R167 to R169): what a line failure leaves of the circuit's dispatch, of its slots
and of the records of its receive side, to the end of the event. -/

namespace Sys2Proof.Machine

/-! ## Records closed as the message that they were -/

/-- The record that a closing makes of `a`, with the text that `c` has got meanwhile. -/
def Record.closedAs (a c : Record) (stamp : Nat) (w : MutReason) : Record :=
  { a with
    state := .standing, stamp := some stamp, text := c.text, chain := c.chain, errors := c.errors, mutilated := some w }

theorem sameMessage_closed {a b c : Record} {kept : List Symbol} (h : SameMessage a b) (g : Record.Grown kept b c)
    (hw : a.mutilated = none) (stamp : Nat) (w : MutReason) : SameMessage (a.closedAs c stamp w) (c.closed stamp (some w)) := by
  have mutilated : c.mutilated = none := by
    rw [show c = _ from g, h.fields]
    exact hw
  have slots : c.slots = b.slots := by rw [show c = _ from g]
  have intercept : c.intercept = b.intercept := by rw [show c = _ from g]
  rw [closed_mutilated mutilated]
  refine ⟨?_, fun hi => intercept.trans (h.intercept hi), (congrArg List.length slots).trans h.count, fun i x hx => ?_⟩
  · rw [show c = _ from g, h.fields]
    rfl
  · refine h.dest i x ?_
    rw [← slots]
    exact hx

theorem sameMessage_stands {a b : Record} (h : SameMessage a b) (stamp : Nat) (w : MutReason) :
    SameMessage { a with state := .standing, stamp := some stamp, mutilated := some w }
      { b with state := .standing, stamp := some stamp, mutilated := some w } :=
  ⟨by rw [h.fields], h.intercept, h.count, h.dest⟩

theorem SameMessage.slots_ne {a b : Record} (h : SameMessage a b) (ha : a.slots ≠ []) : b.slots ≠ [] := fun e =>
  ha (List.length_eq_zero_iff.mp (h.count.symm.trans (congrArg List.length e)))

theorem SameMessage.mutilated {a b : Record} (h : SameMessage a b) : b.mutilated = a.mutilated := by rw [h.fields]

/-! ## The records of the receive side -/

section
variable {s : State} {img : Image} {l : Nat}

/-- A line failure after its line-open event, to the end of the event. -/
theorem lineFails_tail (s : State) (img : Image) (l : Nat) : ∃ c d, ∀ j,
    Handled (((s.failed l c).lineOpen img l d).record j) ((s.lineFails img l).finish.record j) ∧
      ((((s.failed l c).lineOpen img l d).record j).state ≠ .free →
        (s.lineFails img l).finish.record j = ((s.failed l c).lineOpen img l d).record j) := by
  obtain ⟨c, d, shape⟩ := lineFails_shape s img l
  refine ⟨c, d, fun j => ?_⟩
  rcases shape with h | ⟨r, h⟩
  · rw [h]
    exact ⟨handles_finish _ j, finish_record _ j⟩
  · rw [h]
    refine ⟨(handles_request _ r j).trans (handles_finish _ j), fun hf => ?_⟩
    have same := request_record ((s.failed l c).lineOpen img l d) r j hf
    exact (finish_record _ j (by rw [same]; exact hf)).trans same

theorem noOwnService_failed (hn : s.noOwnService) (c : Option FailureCounts) : (s.failed l c).noOwnService := by
  have dispatched : Lined l s (s.dispatched l) := by
    unfold State.dispatched
    exact .ite (.refl l s) ((lined_updateCondition s l).trans (lined_dispatchFailure _ l))
  have lined := dispatched.trans (lined_withdrawalTest _ l false c)
  exact (noOwnService_congr lined.cfg lined.station).mpr hn

/-- The message under way in TEXT when its line fails. -/
theorem lineFails_text (hl : l < 8) {m : Nat} (hmode : (s.masOf l).mode = .text) (hcur : (s.masOf l).current = some m)
    (hf : (s.record m).state = .filling) (hs : (s.record m).slots ≠ []) (hw : (s.record m).mutilated = none)
    (hm : m ∉ (s.masOf l).rstack) :
    ∃ r stamp, Handled r ((s.lineFails img l).finish.record m) ∧
      (s.noOwnService → (∀ sl ∈ (s.record m).slots, sl.state = .unrouted) → (∀ e ∈ (s.ctxOf l).entries, e.record ≠ m) →
        SameMessage r ((s.lineFails img l).finish.record m)) ∧
      r = { s.record m with
        state := .standing, stamp := some stamp, text := r.text, chain := r.chain, errors := r.errors
        mutilated := r.mutilated } ∧
      ((r.mutilated = some .line ∧ r.text = (s.record m).text ++ (s.masOf l).look) ∨
        ((r.mutilated = some .noStore ∨ r.mutilated = some .length) ∧ ∃ kept σ lost,
          (s.masOf l).look = kept ++ σ :: lost ∧ r.text = (s.record m).text ++ kept)) ∧
      ((s.masOf l).look = [] →
        r = { s.record m with state := .standing, stamp := some stamp, mutilated := some .line }) := by
  obtain ⟨c, d, tail⟩ := lineFails_tail s img l
  let u := s.failed l c
  obtain ⟨filling, same⟩ := staysFilling_failed (m := m) s l c hf
  have mas : u.masOf l = s.masOf l := (failed_text hl c).1 hmode
  obtain ⟨v, w, kept, lined, empty, grown, why, closed⟩ := closeUnderWay_text (s := u) (img := img) hl (by rw [mas]; exact hmode)
    (by rw [mas]; exact hcur) filling
  rw [mas] at why empty
  have slots : (v.record m).slots = (u.record m).slots := by rw [show v.record m = _ from grown]
  have text : (v.record m).text = (s.record m).text ++ kept := by rw [show v.record m = _ from grown, same.fields]
  obtain ⟨handled, message⟩ := closeRecord_record (s := v) (lt_of_filling hf) (by rw [slots]; exact same.slots_ne hs) l (some w)
  obtain ⟨after, still⟩ := lineOpen_unstacked (s := u) (img := img) hl d (m := m) (by rw [mas]; exact hm)
  have shaped := sameMessage_closed same grown hw v.store.stamp w
  rw [closed] at after still
  refine ⟨(s.record m).closedAs (v.record m) v.store.stamp w, v.store.stamp,
    ((Handled.trans (.inl shaped) handled).trans after).trans (tail m).1, fun hn hu he => ?_, rfl, ?_, fun hlook => ?_⟩
  · have untouched : u.record m = s.record m := failed_record hl hf he c
    obtain ⟨active, kept'⟩ := message ((noOwnService_congr lined.cfg lined.station).mpr (noOwnService_failed hn c))
      (by rw [slots, untouched]; exact hu)
    have opened := still (by rw [active.state]; decide)
    rw [(tail m).2 (by rw [opened, active.state]; decide), opened]
    exact shaped.trans kept'
  · rcases why with ⟨rfl, rfl⟩ | ⟨hw, σ, lost, hlook⟩
    · exact .inl ⟨rfl, text⟩
    · exact .inr ⟨hw.imp (congrArg some) (congrArg some), kept, σ, lost, hlook, text⟩
  · have line : w = .line := by
      rcases why with ⟨h, -⟩ | ⟨-, σ, lost, h⟩
      · exact h
      · rw [hlook] at h
        exact absurd h.symm (List.append_ne_nil_of_right_ne_nil _ (List.cons_ne_nil _ _))
    unfold Record.closedAs
    rw [line, empty hlook, same.fields]

/-- A record of the receive stack when its line fails. -/
theorem lineFails_stack (hl : l < 8) (hnodup : (s.masOf l).rstack.Nodup) {j : Nat} (hj : j ∈ (s.masOf l).rstack)
    (hf : (s.record j).state = .filling) (hs : (s.record j).slots ≠ []) (hw : (s.record j).mutilated = none)
    (hne : (s.masOf l).mode = .text → (s.masOf l).current ≠ some j) :
    ∃ r stamp, r = { s.record j with state := .standing, stamp := some stamp, mutilated := some .line } ∧
      Handled r ((s.lineFails img l).finish.record j) ∧
      (s.noOwnService → (∀ sl ∈ (s.record j).slots, sl.state = .unrouted) → (∀ e ∈ (s.ctxOf l).entries, e.record ≠ j) →
        SameMessage r ((s.lineFails img l).finish.record j)) := by
  obtain ⟨c, d, tail⟩ := lineFails_tail s img l
  let u := s.failed l c
  obtain ⟨filling, same⟩ := staysFilling_failed (m := j) s l c hf
  have stack : (u.masOf l).rstack = (s.masOf l).rstack := (keepsStack_failed hl s c).2
  obtain ⟨r, stamp, rfl, handled, message⟩ := lineOpen_stacked (s := u) (img := img) hl d (by rw [stack]; exact hnodup)
    (by rw [stack]; exact hj) (lt_of_filling hf) filling (same.slots_ne hs) (same.mutilated.trans hw) fun text => by
      have mas := (failed_text hl c).2 text
      rw [mas] at text ⊢
      exact hne text
  have shaped := sameMessage_stands same stamp .line
  refine ⟨_, stamp, rfl, (Handled.trans (.inl shaped) handled).trans (tail j).1, fun hn hu he => ?_⟩
  have untouched : u.record j = s.record j := failed_record hl hf he c
  obtain ⟨active, kept⟩ := message (noOwnService_failed hn c) (by rw [untouched]; exact hu)
  rw [(tail j).2 (by rw [active.state]; decide)]
  exact shaped.trans kept

/-! ## The circuit's dispatch and its slots -/

theorem Ctx.Off.eq {n : Nat} {x : Ctx} (h : x.Off n) :
    x = { x with queue := [], current := none, stack := [], next := n, send := .idle } := by
  obtain ⟨queue, current, stack, next, send⟩ := h
  cases x
  subst queue current stack next send
  rfl

/-- Circuit `l` open and its condition derived: the state in which the dispatch takes the line failure. -/
theorem updateCondition_opened (hl : l < 8) (hst : s.station < 16) (hw : (s.line l).wire = .opened) :
    (s.updateCondition l).Shut l := by
  have derived := updateCondition_derived (s := s) hl hst
  have wire : ((s.updateCondition l).line l).wire = .opened :=
    (congrArg Line.wire (line_congr (traffic_updateCondition s l).lines l)).trans hw
  rw [State.Derived, wire] at derived
  rw [State.Shut, derived]
  cases (s.updateCondition l).kind l <;> cases (s.updateCondition l).adminOf l <;> exact nofun

/-- What a line failure on a sending circuit that is not WITHDRAWN leaves of its dispatch and of its slots. -/
theorem lineFails_dispatch (hl : l < 8) (hst : s.station < 16) (hs : SendIdleIffNoEntry s) (hw : (s.line l).wire = .opened)
    (hne : s.adminOf l ≠ .withdrawn) (hctx : s.hasCtx l = true) :
    ((s.lineFails img l).finish.ctxOf l).Off (s.ctxOf l).next ∧
      ∀ e ∈ (s.ctxOf l).entries, ∀ i ∈ e.slots,
        (s.lineFails img l).finish.slotState e.record i ≠ .queued (s.circuit l) ∧
        (s.noOwnService → (s.ctxOf l).endSent = false → SlotIs SlotState.Live e.record i s →
          ((s.lineFails img l).finish.slotState e.record i).InPlace) := by
  let z := s.updateCondition l
  have updated := traffic_updateCondition s l
  obtain ⟨-, ctxs⟩ := updateCondition_parts s l
  have ctx : z.ctxOf l = s.ctxOf l := ctxOf_congr ctxs l
  have circuit : z.circuit l = s.circuit l := circuit_congr updated.station l
  have shut : z.Shut l := updateCondition_opened hl hst hw
  have has : z.hasCtx l = true := (hasCtx_congr updated.cfg updated.station l).trans hctx
  have dispatched : s.dispatched l = (z.dispatchFailure l).1 := if_neg hne
  have opens : Opens l (z.dispatchFailure l).1 (s.lineFails img l).finish := by
    rw [← dispatched]
    exact opens_lineFails hl s img
  have lined := lined_dispatchFailure z l
  have shut' : (z.dispatchFailure l).1.Shut l := by
    obtain ⟨v, sent, resolved⟩ := dispatchFailure_parts z l
    exact resolved.shut (shut_congr sent.station (by rw [mapOf_congr sent.map]) shut)
  refine ⟨?_, fun e he i hi => ⟨?_, fun hn hend live => ?_⟩⟩
  · have emptied := dispatchFailure_emptied hl ((updateCondition_queues s l).idle hs) shut has
    rw [ctx] at emptied
    exact opens.off hl shut' emptied
  · have first := dispatchFailure_notQueued hl shut has (by rw [ctx]; exact he) hi
    rw [← circuit]
    rw [← circuit_congr lined.station l] at first ⊢
    exact opens.notQueued shut' first
  · have none : z.noOwnService := (noOwnService_congr updated.cfg updated.station).mpr hn
    have first := dispatchFailure_inPlace hl none has (by rw [ctx]; exact he) (by rw [ctx]; exact hend) hi
      (live.of_record (updateCondition_record s l e.record))
    exact (opens.slotIs (fun _ => id) (fun _ h => h.1) ((noOwnService_congr lined.cfg lined.station).mpr none) first).state

end

/-- Settles O22. The line, its assembler, admin state and condition follow from the shape of a line failure
(`lineFails_shape`); the dispatch and its slots from `Opens`; the records from the walk over the line-open event. -/
theorem openLineExpiryOpensTheLine : Obligations.OpenLineExpiryOpensTheLine := by
  intro s l img hs hl hst hd hc
  have hwatch : s.watches l = true := by
    rw [State.openDue] at hd
    simp only [Bool.and_eq_true] at hd
    exact hd.1.1.2
  let y := s.setLine l (s.line l).goOpen
  have line : y.line l = (s.line l).goOpen := line_setLine_self s l _ hl
  have wire : (y.line l).wire = .opened := by rw [line]; rfl
  have idle : SendIdleIffNoEntry y := (QueuesOnly.of_ctx rfl).idle hs
  have lined := lined_lineFails y img l
  have kept := kept_finish (y.lineFails img l)
  have map : ∀ c, (y.lineFails img l).finish.mapOf c = (y.lineFails img l).mapOf c := mapOf_congr kept.map
  have circuit : (y.lineFails img l).circuit l = s.circuit l := circuit_congr lined.station l
  refine ⟨(y.lineFails img l).finish, ?_, ?_, ?_, fun k hk => ⟨?_, ?_, ?_⟩, ?_, fun hne => ⟨?_, ?_, fun hctx => ⟨?_, ?_⟩⟩, ?_, ?_⟩
  · show onLine l (whenever (s.openDue l) s (s.cfg.elim s fun img => (y.lineFails img l).finish)) = _
    rw [onLine_ok hl, whenever_of hd, hc]
    rfl
  · rw [kept.receive, lined.receive, line]
    rfl
  · rw [masOf_congr kept.mas, lineFails_masOf hl]
    rfl
  · rw [kept.receive, lined.receive, line_setLine_ne s l k _ (Ne.symm hk)]
  · exact (masOf_congr kept.mas k).trans (lined.mas k hk)
  · exact (adminOf_congr kept.admin k).trans (lined.admin k hk)
  · exact (adminOf_congr kept.admin l).trans (lineFails_admin hl idle img)
  · rw [map, ← circuit]
    exact lineFails_condition hl idle hst (kind_of_watches hwatch) wire hne img
  · intro changed
    rw [map] at changed
    exact Kept.owedToPeers ((owesChange_lineFails y img l (s.circuit l)).changed changed) kept
  · exact (lineFails_dispatch (s := y) (img := img) hl hst idle wire hne hctx).1.eq
  · intro e he i hi
    obtain ⟨apart, placed⟩ := (lineFails_dispatch (s := y) (img := img) hl hst idle wire hne hctx).2 e he i hi
    refine ⟨apart, fun hn hend _ standing some live => (placed hn hend ⟨standing, ?_⟩).cases⟩
    obtain ⟨sl, hsl⟩ := Option.isSome_iff_exists.mp some
    rw [slotState_of_slot hsl] at live
    exact ⟨sl, hsl, live⟩
  · exact fun m hmode hcur _ hf hslots hw hm => lineFails_text (s := y) hl hmode hcur hf hslots hw hm
  · exact fun hnodup j hj _ hf hslots hw hne => lineFails_stack (s := y) hl hnodup hj hf hslots hw hne

end Sys2Proof.Machine
